-- ==== Sys2Proof/Word.lean ====
section
/-! DEFINITION. The word types of the Tomir 5 and their plainest arithmetic (spec 00_scope R2 to R4). -/

namespace Sys2Proof

/-- A byte of memory. -/
abbrev Byte := BitVec 8
/-- A 32-bit register word. -/
abbrev Word := BitVec 32
/-- A 64-bit value: an address, a pair, an instruction word. -/
abbrev Addr := BitVec 64

/-- Bits [lo+len-1 : lo] of a number (R3: bits are numbered from 0, least significant first). -/
def bitsOf (w lo len : Nat) : Nat := w / 2 ^ lo % 2 ^ len

/-- The two's-complement reading of the low `n` bits of `w`. -/
def signedOf (n w : Nat) : Int :=
  let v := w % 2 ^ n
  if v < 2 ^ (n - 1) then (v : Int) else (v : Int) - (2 ^ n : Nat)

/-- An exact integer taken modulo 2^n. -/
def wrapInt (n : Nat) (x : Int) : Nat := (x % ((2 ^ n : Nat) : Int)).toNat

end Sys2Proof
end

