-- ==== Sys2Proof/Config.lean ====
section
/-! DEFINITION. What the part fixes (spec 01_machine R10 to R24) and the free values: constants that the manual
leaves open, held as opaque constants without a value (DESIGN CHOICE log 7, DESIGN CHOICE log 20). -/

namespace Sys2Proof.Config

/-- Compute dies of the package (R10). -/
def dies : Nat := 4
/-- Cores of a tiller that carry logical numbers (R13). -/
def coresPerTiller : Nat := 8
/-- Tillers of the package (R14). -/
def tillers : Nat := 96
/-- Cores of a die (R14). -/
def coresPerDie : Nat := 192
/-- Tillers of a die (R14). -/
def tillersPerDie : Nat := 24
/-- Blocks a core holds at most (R15). -/
def blocksPerCore : Nat := 16
/-- Groups a quarter holds at most (R15). -/
def groupsPerQuarter : Nat := 32
/-- Bytes of a quarter's vector register file (R15). -/
def regFileBytes : Nat := 262144
/-- Scratchpad banks of a tiller (R13). -/
def banksPerTiller : Nat := 64
/-- Bytes of a bank (R13). -/
def bankBytes : Nat := 131072
/-- Bytes of package memory of a chip: 48 GiB on each of four dies (R20, R380). -/
def packageBytes : Nat := 206158430208
/-- First local address of the host window (R368, R380). -/
def hostWindow : Nat := 2 ^ 44
/-- Contexts (R24). -/
def contexts : Nat := 64
/-- Symbols of a quarter's pool (R90). -/
def symbolsPerQuarter : Nat := 64
/-- Monitor entries of a home slice (R259). -/
def monitorsPerSlice : Nat := 256
/-- Scoreboard entries of a core (R191). -/
def scoreboardPerCore : Nat := 32
/-- Accumulator tiles of a core (R152). -/
def tilesPerCore : Nat := 32
/-- Bytes of a core's operand cache (R155). -/
def operandCacheBytes : Nat := 262144
/-- Passes of an issue slot of a quarter (R15, R323). -/
def passes : Nat := 4
/-- Depth of decision queues and replay rings (R62, R59). -/
def queueDepth : Nat := 16
/-- Loop stack depth (R59). -/
def loopDepth : Nat := 8
/-- Call stack depth (R59). -/
def callDepth : Nat := 32
/-- Mask stack depth (R59). -/
def maskDepth : Nat := 16
/-- Queued accesses of a quarter (R186). -/
def accessQueueDepth : Nat := 32
/-- Work-table entries of one launch unit (R313). -/
def entriesPerDie : Nat := 1024
/-- Grid sequencers of one die (R17). -/
def gridSeqsPerDie : Nat := 64

/-- FREE VALUE (DESIGN CHOICE log 7): the version an image of the microcode reports in `cr.ucver` (R349: no particular value is defined). -/
opaque ucver : Nat → Word
/-- FREE VALUE (DESIGN CHOICE log 7): whether microcode of one version accepts a frame of another version (R306, R354, R392). -/
opaque acceptsUcver : Word → Nat → Bool
/-- FREE VALUE (DESIGN CHOICE log 7): the version a firmware image reports (R385). -/
opaque fwver : Nat → Word
/-- FREE VALUE (DESIGN CHOICE log 7): the part's 16-byte serial number (R395). -/
opaque serial : Nat
/-- FREE VALUE (DESIGN CHOICE log 7): KEYID, the SHAKE256 digest of the identity public key (R395), as a 64-byte number. -/
opaque keyId : Nat
/-- FREE VALUE (DESIGN CHOICE log 7): the digest of the boot component that bring-up measures into MEAS0, MEAS1 and MEAS2 (R394). -/
opaque bootDigest : Nat → Nat
/-- FREE VALUE (DESIGN CHOICE log 7): the digest of the debug event that enabling measured debug extends into MEAS3 (R393). -/
opaque debugDigest : Nat
/-- FREE VALUE (DESIGN CHOICE log 7): whether the image at a host address carries a Falcon-1024 signature that verifies (R392). -/
opaque imageVerifies : Nat → List Byte → Bool
/-- FREE VALUE (DESIGN CHOICE log 7): the Falcon-1024 signature of a digest with the identity key (R395), as a number of 1,280 bytes. -/
opaque sign : Nat → Nat
/-- FREE VALUE (DESIGN CHOICE log 7): the length of that signature, by the digest of the report's bytes before SIGLEN (R395). -/
opaque sigLen : Nat → Nat
/-- FREE VALUE (DESIGN CHOICE log 31): the channel pair of its die in which a frame lies (R391: no interleaving is given). -/
opaque pairOf : Nat → Nat
/-- FREE VALUE (DESIGN CHOICE log 31): the half of its die's SRAM dies in which a line of the die scratchpad lies (R391). -/
opaque halfOf : Nat → Nat
/-- FREE VALUE (DESIGN CHOICE log 7): the chip and link at the other end of a link (R385), LINK word 0 bits [27:0]. -/
opaque linkPeer : Nat → BitVec 28
/-- FREE VALUE (DESIGN CHOICE log 32): how many corrected errors (kinds 0 to 4 of R391), link retries (5) and CRC errors (6) a domain has had
since the refresh before (R385, R386). -/
opaque newErrors : Nat → Nat → Nat → Nat

/-- FREE VALUE (DESIGN CHOICE log 7): whether the host grants a line exclusive on the n-th read request of the host-coherence cache (R377). -/
opaque hostGrants : Nat → Bool

/-- Ways of a set of the host-coherence cache (R377). -/
def hccWays : Nat := 16
/-- FREE VALUE (DESIGN CHOICE log 136): the set of the host-coherence cache that a line uses (R377: no index function is given). -/
opaque hccSet : Nat → Nat
/-- FREE VALUE (DESIGN CHOICE log 136): which line of a full set gives way, by the line and the cycle (R377). -/
opaque hccVictim : Nat → Nat → Nat
/-- FREE VALUE (DESIGN CHOICE log 135): whether a leaf found through the n-th overwritten table entry still stands in a translation cache, by
the intermediate page and the cycle (R365: what the cache keeps is not given). -/
opaque leafCached : Nat → Nat → Nat → Bool

/-- FREE VALUE (DESIGN CHOICE log 72): whether a load of a line at a cycle hits in L1 and so sends no line request (R193). -/
opaque hitsL1 : Nat → Nat → Bool

/-- FREE VALUE (DESIGN CHOICE log 55): whether an uncorrectable error of a line reaches the element or pair that begins at a byte (R161). -/
opaque lostUnit : Nat → Bool
/-- FREE VALUE (DESIGN CHOICE log 55): whether an uncorrectable error met at a cycle reaches a word of an accumulator (R161). -/
opaque lostWord : Nat → Nat → Bool

/-- FREE VALUE (DESIGN CHOICE log 23): the WIDTH code in INFO of an access fault whose instruction has no WIDTH field (R337), by address. -/
opaque widthless : Nat → BitVec 3
/-- FREE VALUE (DESIGN CHOICE log 20): the n-th value that the spec leaves open after an instruction; the part goes on with it. -/
opaque freeValue : Nat → BitVec 64
/-- FREE VALUE (DESIGN CHOICE log 24): the L2 set of an intermediate line (R192: 768 sets in a slice; no hash is given). -/
opaque l2Set : Nat → Nat

/-- FREE VALUE (DESIGN CHOICE log 28): which two partial results a collective combines next (R245: the order of OP is not defined), by command,
element and step. -/
opaque collOrder : Nat → Nat → Nat → Nat

end Sys2Proof.Config
end

