-- ==== Sys2Proof/Syntax.lean ====
section
/-! DEFINITION. The syntax of the Shevas instruction set and of the part's own steps: one constructor of `Instr` for
each row of spec/opcode_table.json. Operand kinds follow 03_encoding R44 to R51. -/

namespace Sys2Proof

/-- Clause classes (R41). -/
inductive Cls | slice | group | block | gang | grid
  deriving DecidableEq, Repr

/-- Rank of a clause class (R17). -/
def Cls.rank : Cls → Nat
  | .slice => 1 | .group => 2 | .block => 3 | .gang => 4 | .grid => 5

/-- The SCOPE field of a C-format instruction (R47). -/
inductive Scope | lane | slice | group | block | gang | grid
  deriving DecidableEq, Repr

/-- Integer types, TYPE codes 0 to 3 (R48). -/
inductive ITy | s32 | z32 | s64 | z64
  deriving DecidableEq, Repr

/-- Register floating-point types, TYPE codes 4 to 7 (R48, R111). -/
inductive FTy | f32 | f64 | f16 | bf16
  deriving DecidableEq, Repr

/-- 8-bit floating-point types, TYPE codes 8 and 9 (R134). -/
inductive F8Ty | e4m3 | e5m2
  deriving DecidableEq, Repr

/-- Block types, TYPE codes 10 to 12 (R131). -/
inductive BTy | bx8 | bx6 | bx4
  deriving DecidableEq, Repr

/-- Matrix operand types, TYPE codes 4 to 13 (R153). -/
inductive MTy | f (t : FTy) | f8 (t : F8Ty) | b (t : BTy) | s8
  deriving DecidableEq, Repr

/-- Rounding modes (R44). -/
inductive RM | rne | rtz | rup | rdn
  deriving DecidableEq, Repr

/-- Access widths (R46). -/
inductive Width | b | h | w | d | q | o
  deriving DecidableEq, Repr

/-- Bytes of an access width (R46). -/
def Width.bytes : Width → Nat
  | .b => 1 | .h => 2 | .w => 4 | .d => 8 | .q => 16 | .o => 32

/-- System values (R49, R312). -/
inductive SysVal | lane | slice | group | block | gang | index | lc
  deriving DecidableEq, Repr

/-- Which scope a scope register belongs to: g, b, n or d (R18). -/
inductive ScopeKind | g | b | n | d
  deriving DecidableEq, Repr

/-- A source operand (R49). -/
inductive Src
  | vreg (n : Nat)          -- v0..v639
  | latch (n : Nat)         -- y0..y15
  | vidx (i o : Nat)        -- v[xI+O]
  | pred (p : Nat)          -- p0..p6, 7 is pt
  | sv (v : SysVal)
  | k (n : Nat)             -- constant table
  | sreg (s : ScopeKind) (n : Nat)
  | tile (n : Nat)          -- a0..a7
  | handle (n : Nat)        -- h0..h31
  deriving DecidableEq, Repr

/-- A destination operand (R51): a vector register, a register of the clause's own scope, or a predicate. -/
inductive Dst
  | vreg (n : Nat)
  | scope (n : Nat)         -- 640 + n
  | pred (p : Nat)          -- 704 + p
  deriving DecidableEq, Repr

/-- A destination with its NWB bit (R44, R51). -/
structure Out where
  dst : Dst
  nwb : Bool
  deriving DecidableEq, Repr

/-- The RM, FS and SAT fields of a floating-point instruction (R44). -/
structure FMod where
  rm : RM
  fs : Bool
  sat : Bool
  deriving DecidableEq, Repr

/-- The address fields of an M-format instruction (R46); `hint` is MHINT. -/
structure MemOp where
  base : Src
  index : Src
  offs : BitVec 12
  pred : Nat
  width : Width
  hint : BitVec 2
  deriving DecidableEq, Repr

/-- The publishing and fence scopes (R282, R297). -/
inductive FScope | block | gang | package | system
  deriving DecidableEq, Repr

/-- Fence kinds (R282). -/
inductive FKind | mir | eng | sysAcq | sysRel | sys | all
  deriving DecidableEq, Repr

/-- Kinds of a work-table entry that `cnt` names (R328). -/
inductive CKind | launch | graph | phase | job
  deriving DecidableEq, Repr

/-- The operations of `scan` (R110). -/
inductive ScanOp | add | min | max | and | or | xor
  deriving DecidableEq, Repr

/-- A unit that can act: an instance of a control scope (R17). A grid is named by its launch handle, a gang by launch and
`sv.gang`, a block by the model's own block number, a group and a slice by their numbers. -/
inductive UnitRef
  | grid (l : Nat)
  | gang (l k : Nat)
  | block (b : Nat)
  | group (b g : Nat)
  | slice (b g s : Nat)
  deriving DecidableEq, Repr

/-- A destination path of system-scope traffic (R273). -/
inductive SysPath
  | peer (chip : Nat)
  | host
  deriving DecidableEq, Repr

/-- An uncorrectable matrix data error that the environment injects (R161): kind, number, line and index as in the log
entry of R162, with PANEL, and whether an exponent pair was lost. -/
structure MErrAt where
  kind : Nat
  panel : Bool
  num : Nat
  line : Nat
  index : Nat
  pair : Bool
  deriving DecidableEq, Repr

/-- Operations of an atomic (R256). -/
inductive AtOp | add | min (uns : Bool) | max (uns : Bool) | and | or | xor | xchg | cas | fadd | inc
  deriving DecidableEq, Repr

/-- What a peer asks of a chip's memory (R249, R380, R383); the operands of an atomic are its b and c (R256). -/
inductive PeerReq
  | read (n : Nat)
  | write (bytes : List Byte)
  | atomic (op : AtOp) (wide : Bool) (b c : BitVec 64)
  deriving DecidableEq, Repr

/-- A peer's request as it arrives, after `hop` hops (R380 to R382). -/
structure PeerMsg where
  hop : Nat
  req : PeerReq
  deriving DecidableEq, Repr

/-- A read by a requester of a function's register (R378). -/
structure RegRead where
  fn : Nat
  requester : Nat
  deriving DecidableEq, Repr

/-- Every instruction and every step of the part, one constructor for each row of spec/opcode_table.json. -/
inductive Instr
  -- control class (04_control)
  | br (sc : Scope) (target : BitVec 20) (join : BitVec 16)
  | bt (sc : Scope) (cond : Src) (target : BitVec 20) (join : BitVec 16)
  | bf (sc : Scope) (cond : Src) (target : BitVec 20) (join : BitVec 16)
  | loop (sc : Scope) (count : Src) (top : BitVec 20) (stop : BitVec 16)
  | call (sc : Scope) (target : BitVec 20)
  | callr (sc : Scope) (disp : Src)
  | ret (sc : Scope)
  | regang
  | lif (neg : Bool) (cond : Src)
  | lelse
  | lendif
  | doneScope (sc : Scope)
  | nop (sc : Scope)
  | yield (sc : Scope)
  | vany (out : Out) (a : Src)
  | vall (out : Out) (a : Src)
  | vfirst (out : Out) (a : Src)
  | vcount (out : Out) (a : Src)
  | vsum (out : Out) (a : Src)
  | vmax (uns : Bool) (out : Out) (a : Src)
  -- integer class (05_integer)
  | add (out : Out) (p : Nat) (t : ITy) (sat : Bool) (a b : Src)
  | sub (out : Out) (p : Nat) (t : ITy) (sat : Bool) (a b : Src)
  | mul (out : Out) (p : Nat) (t : ITy) (sat : Bool) (a b : Src)
  | mulhi (out : Out) (p : Nat) (t : ITy) (a b : Src)
  | mad (out : Out) (p : Nat) (t : ITy) (sat : Bool) (a b c : Src)
  | div (out : Out) (p : Nat) (t : ITy) (a b : Src)
  | rem (out : Out) (p : Nat) (t : ITy) (a b : Src)
  | min (out : Out) (p : Nat) (t : ITy) (a b : Src)
  | max (out : Out) (p : Nat) (t : ITy) (a b : Src)
  | abs (out : Out) (p : Nat) (t : ITy) (sat : Bool) (a : Src)
  | neg (out : Out) (p : Nat) (t : ITy) (sat : Bool) (a : Src)
  | and (out : Out) (p : Nat) (t : ITy) (a b : Src)
  | or (out : Out) (p : Nat) (t : ITy) (a b : Src)
  | xor (out : Out) (p : Nat) (t : ITy) (a b : Src)
  | andn (out : Out) (p : Nat) (t : ITy) (a b : Src)
  | not (out : Out) (p : Nat) (t : ITy) (a : Src)
  | shl (out : Out) (p : Nat) (t : ITy) (sat : Bool) (a b : Src)
  | shr (out : Out) (p : Nat) (t : ITy) (a b : Src)
  | sar (out : Out) (p : Nat) (t : ITy) (a b : Src)
  | rot (out : Out) (p : Nat) (t : ITy) (a b : Src)
  | clz (out : Out) (p : Nat) (t : ITy) (a : Src)
  | popc (out : Out) (p : Nat) (t : ITy) (a : Src)
  | brev (out : Out) (p : Nat) (t : ITy) (a : Src)
  | bfx (out : Out) (p : Nat) (t : ITy) (a spec : Src)
  | bfi (out : Out) (p : Nat) (t : ITy) (a b spec : Src)
  | ext (out : Out) (p : Nat) (t : ITy) (a n : Src)
  | csel (out : Out) (p : Nat) (t : ITy) (a b : Src) (c : Nat)
  | mov (out : Out) (p : Nat) (t : ITy) (a : Src)
  | lea (out : Out) (p : Nat) (t : ITy) (base index shift : Src)
  | addc (out : Out) (p : Nat) (t : ITy) (a b : Src) (q : Nat)
  | subb (out : Out) (p : Nat) (t : ITy) (a b : Src) (q : Nat)
  | cmpEq (out : Out) (p : Nat) (t : ITy) (a b : Src)
  | cmpNe (out : Out) (p : Nat) (t : ITy) (a b : Src)
  | cmpLt (out : Out) (p : Nat) (t : ITy) (a b : Src)
  | cmpLe (out : Out) (p : Nat) (t : ITy) (a b : Src)
  | cmpGt (out : Out) (p : Nat) (t : ITy) (a b : Src)
  | cmpGe (out : Out) (p : Nat) (t : ITy) (a b : Src)
  | addImm (out : Out) (a : Src) (imm : BitVec 32)
  | subImm (out : Out) (a : Src) (imm : BitVec 32)
  | mulImm (out : Out) (a : Src) (imm : BitVec 32)
  | andImm (out : Out) (a : Src) (imm : BitVec 32)
  | orImm (out : Out) (a : Src) (imm : BitVec 32)
  | xorImm (out : Out) (a : Src) (imm : BitVec 32)
  | shlImm (out : Out) (a : Src) (imm : BitVec 5)
  | shrImm (out : Out) (a : Src) (imm : BitVec 5)
  | sarImm (out : Out) (a : Src) (imm : BitVec 5)
  | rotImm (out : Out) (a : Src) (imm : BitVec 5)
  | movi (out : Out) (imm : BitVec 32)
  | leaImm (out : Out) (base : Src) (imm : BitVec 32)
  | ixset (i : Nat) (valOnly : Bool) (value base limit : Src)
  | ixget (out : Out) (i sel : Nat)
  | symq (out : Out) (a : Src) (sel : Nat)
  | symw (all : Bool) (a : Src)
  | shf (out : Out) (p : Nat) (t : ITy) (a b : Src)
  | shfx (out : Out) (p : Nat) (t : ITy) (a b : Src)
  | shfu (out : Out) (p : Nat) (t : ITy) (a b : Src)
  | shfd (out : Out) (p : Nat) (t : ITy) (a b : Src)
  | bcast (out : Out) (p : Nat) (t : ITy) (a b : Src)
  | scan (out : Out) (op : ScanOp) (excl uns : Bool) (a : Src)
  | pand (dst p a b : Nat) (nwb : Bool)
  | por (dst p a b : Nat) (nwb : Bool)
  | pxor (dst p a b : Nat) (nwb : Bool)
  | pnot (dst p a : Nat) (nwb : Bool)
  -- floating-point class (06_float)
  | fadd (out : Out) (p : Nat) (t : FTy) (m : FMod) (a b : Src)
  | fsub (out : Out) (p : Nat) (t : FTy) (m : FMod) (a b : Src)
  | fmul (out : Out) (p : Nat) (t : FTy) (m : FMod) (a b : Src)
  | ffma (out : Out) (p : Nat) (t : FTy) (m : FMod) (a b c : Src)
  | fmin (out : Out) (p : Nat) (t : FTy) (fs : Bool) (a b : Src)
  | fmax (out : Out) (p : Nat) (t : FTy) (fs : Bool) (a b : Src)
  | fabs (out : Out) (p : Nat) (t : FTy) (a : Src)
  | fneg (out : Out) (p : Nat) (t : FTy) (a : Src)
  | fcmpEq (out : Out) (p : Nat) (t : FTy) (fs : Bool) (a b : Src)
  | fcmpNe (out : Out) (p : Nat) (t : FTy) (fs : Bool) (a b : Src)
  | fcmpLt (out : Out) (p : Nat) (t : FTy) (fs : Bool) (a b : Src)
  | fcmpLe (out : Out) (p : Nat) (t : FTy) (fs : Bool) (a b : Src)
  | fcmpGt (out : Out) (p : Nat) (t : FTy) (fs : Bool) (a b : Src)
  | fcmpGe (out : Out) (p : Nat) (t : FTy) (fs : Bool) (a b : Src)
  | fcmpUn (out : Out) (p : Nat) (t : FTy) (fs : Bool) (a b : Src)
  | fcmpOr (out : Out) (p : Nat) (t : FTy) (fs : Bool) (a b : Src)
  | fclass (out : Out) (p : Nat) (t : FTy) (a : Src)
  | frcp (out : Out) (p : Nat) (t : FTy) (m : FMod) (a : Src)
  | frsq (out : Out) (p : Nat) (t : FTy) (m : FMod) (a : Src)
  | fsqrt (out : Out) (p : Nat) (t : FTy) (m : FMod) (a : Src)
  | fdiv (out : Out) (p : Nat) (t : FTy) (m : FMod) (a b : Src)
  | fexp2 (out : Out) (p : Nat) (t : FTy) (m : FMod) (a : Src)
  | flog2 (out : Out) (p : Nat) (t : FTy) (m : FMod) (a : Src)
  | fsin (out : Out) (p : Nat) (t : FTy) (m : FMod) (a : Src)
  | fcos (out : Out) (p : Nat) (t : FTy) (m : FMod) (a : Src)
  | fscale (out : Out) (p : Nat) (t : FTy) (m : FMod) (a n : Src)
  | fround (out : Out) (p : Nat) (t : FTy) (rm : RM) (fs : Bool) (a : Src)
  | fcvt (out : Out) (p : Nat) (t : FTy) (m : FMod) (st : FTy) (a : Src)
  | fcvti (out : Out) (p : Nat) (t : ITy) (rm : RM) (fs : Bool) (st : FTy) (a : Src)
  | ficvt (out : Out) (p : Nat) (t : FTy) (m : FMod) (st : ITy) (a : Src)
  | fdot2 (out : Out) (p : Nat) (bf : Bool) (m : FMod) (a b c : Src)
  | fdot4 (out : Out) (p : Nat) (t : F8Ty) (m : FMod) (a b c : Src)
  | flgrd (out : Out)
  | flgclr (mask : Src)
  | flgset (mask : Src)
  -- narrow formats class (07_narrow)
  | bxenc (dst p : Nat) (t : BTy) (fs : Bool) (a : Nat)
  | bxdec (dst p : Nat) (t : BTy) (a e : Src)
  | bxmax (out : Out) (p : Nat) (a : Nat)
  | pk4 (out : Out) (p : Nat) (s4 sat : Bool) (a b : Src)
  | upk4 (out : Out) (p : Nat) (s4 : Bool) (a h : Src)
  | pk6 (out : Out) (p : Nat) (a : Src)
  | upk6 (out : Out) (p : Nat) (a : Src)
  | f8enc (out : Out) (p : Nat) (t : F8Ty) (m : FMod) (a : Nat)
  | f8dec (dst p : Nat) (t : F8Ty) (a : Src)
  | scl (out : Out) (p : Nat) (t : FTy) (m : FMod) (a s1 s2 : Src)
  -- matrix class (08_matrix)
  | mload (out : Out) (h : Nat) (base stride : Src) (t : MTy) (k : Nat)
  | mfree (isTile : Bool) (n : Nat)
  | mma (acc a b : Nat) (k : Nat) (wide : Bool) (panel : Option (MTy × Nat))
  | mzero (acc : Nat)
  | mstore (acc : Nat) (base stride : Src)
  | mscale (h : Option Nat) (s : Src)
  | mget (dst acc : Nat)
  | mput (acc src : Nat)
  | merr (out : Out) (sel : Nat)
  | mclr
  | matrixQueueExecute (b : Nat) (errs : List MErrAt)
  -- memory access class (09_memory)
  | ld (out : Out) (m : MemOp) (ctr : Nat)
  | st (data : Nat) (m : MemOp) (ctr : Nat)
  | ldsys (out : Out) (m : MemOp) (ctr : Nat)
  | stsys (data : Nat) (m : MemOp) (ctr : Nat)
  | pf (m : MemOp)
  | llock (out : Out) (m : MemOp)
  | lunlock (m : MemOp)
  | lquota (out : Out) (q : Bool)
  | biasDev (out : Out) (a : Src)
  | biasHost (out : Out) (a : Src)
  | biasFlip (u : UnitRef)
  | accessQueueIssue (a : Nat)
  | queuedStorePerform (a : Nat)
  | symbolResolve (q sym : Nat)
  | memoryAccessComplete (a : Nat) (dataErr refused : Bool)
  | homeSliceWrite (a : Nat)
  -- bank class (10_banks)
  | battach (out : Out) (slot : Src) (bank : Option Src)
  | bdetach (slot : Src)
  | give (out : Out) (slot member tslot : Src) (ro : Bool)
  | bankDrainComplete (b slot : Nat)
  | bwait (out : Out) (slot : Src)
  | bstat (out : Out) (slot : Option Src) (clr : Bool)
  | bzero (slot : Src)
  | bmirror (slot : Option Src)
  | bshare (out : Out) (slot index : Src) (ro : Bool)
  | bshareOff (slot : Src)
  -- engine class (11_engines)
  | cpy (out : Out) (dst src size : Src) (tag : Option Nat) (sh : Bool)
  | cpyd (out : Out) (desc : Src) (tag : Option Nat) (sh : Bool)
  | gat (out : Out) (base addr size : Src) (tag : Option Nat)
  | sct (out : Out) (addr base size : Src) (tag : Option Nat)
  | coll (out : Out) (desc : Src) (tag : Option Nat) (sh : Bool)
  | ewait (out : Out) (ticket : Src)
  | epoll (out : Out) (ticket : Src)
  | pub (out : Out) (base size : Src) (drop : Bool)
  | ecancel (ticket : Option Src)
  | engineRead (b seq unit : Nat) (dataErr : Bool)
  | drainEngineWrite (b idx : Nat)
  | pageBoundaryRevalidation (b seq : Nat)
  -- atomics and synchronisation class (12_sync)
  | aadd (out : Option Out) (wide : Bool) (addr b : Src)
  | amin (out : Option Out) (wide uns : Bool) (addr b : Src)
  | amax (out : Option Out) (wide uns : Bool) (addr b : Src)
  | aand (out : Option Out) (wide : Bool) (addr b : Src)
  | aor (out : Option Out) (wide : Bool) (addr b : Src)
  | axor (out : Option Out) (wide : Bool) (addr b : Src)
  | axchg (out : Option Out) (wide : Bool) (addr b : Src)
  | acas (out : Option Out) (wide : Bool) (addr cmp new : Src)
  | afadd (out : Option Out) (wide : Bool) (addr b : Src)
  | ainc (out : Option Out) (wide : Bool) (addr bound : Src)
  | wcmpEq (out : Out) (wide uns : Bool) (addr v : Src)
  | wcmpNe (out : Out) (wide uns : Bool) (addr v : Src)
  | wcmpLt (out : Out) (wide uns : Bool) (addr v : Src)
  | wcmpLe (out : Out) (wide uns : Bool) (addr v : Src)
  | wcmpGt (out : Out) (wide uns : Bool) (addr v : Src)
  | wcmpGe (out : Out) (wide uns : Bool) (addr v : Src)
  | wcmpAny (out : Out) (wide uns : Bool) (addr v : Src)
  | wcancel (out : Out) (addr : Src)
  | bararr (out : Out) (gang : Bool) (n : Nat) (count : Src)
  | barwait (gang : Bool) (n : Nat) (token : Src)
  | barsync (gang : Bool) (n : Nat) (count : Src)
  | swapOut (b : Nat)
  | blockRestore (ctx fid core : Nat)
  -- ordering class (13_ordering)
  | fence (sc : FScope) (kind : FKind)
  | swf
  | drainTillerQueue (b : Nat)
  | drainMirrorQueue (src dst : Nat)
  | drainSystemQueue (u : UnitRef) (path : SysPath) (refused : Bool)
  | drainInboundQueue (r : Nat)
  | captureSystemLine (ctx line : Nat)
  | captureCodeLine (core line : Nat) (drop : Bool)
  -- code class (14_code)
  | cpub (out : Out) (base size : Src) (sc : FScope)
  | callt (sc : Scope) (index : Src)
  | calltRepoll (u : UnitRef)
  | bind (out : Out) (entry target : Src)
  | clauseHeader (u : UnitRef)
  | groupPromotion (b g : Nat)
  -- launch class (15_launch)
  | launch (out : Out) (record : Src)
  | cntRd (out : Out) (h : Src)
  | cntSelf (out : Out) (k : CKind)
  | cntNew (out : Out) (k : CKind) (parent : Src)
  | cntClose (out : Out) (h : Src)
  | cwait (out : Out) (h : Src)
  | cancel (out : Out) (h : Src)
  | cancelDrain (out : Out) (h : Src)
  | cancelDelivery (b : Nat)
  | launchReady (h : Nat)
  | gridSequencerTake (die h : Nat)
  | ticketDispense (die h : Nat) (steal : Bool) (places : List (Nat × Nat))
  | blockStart (b : Nat)
  | blockRetirement (b : Nat)
  | jobdb (fn ctx requester : Nat) (record : BitVec 64)
  | joback (fn ctx : Nat) (v : BitVec 64)
  -- system class (16_system)
  | trap (imm : BitVec 22)
  | brk (imm : BitVec 22)
  | eret (dst : Dst) (frame : Src)
  | eretKill (dst : Dst) (frame : Src)
  | mfcr (dst : Dst) (crn : Nat)
  | mtcr (crn : Nat) (a : Src)
  | csave (dst : Dst) (blk : Src)
  | crest (dst : Dst) (fid : Src) (core : Nat) (any : Bool)
  | freeze (dst : Dst) (m : Src)
  | thaw (dst : Dst) (m : Src)
  | halt (dst : Dst) (m : Src)
  | faultDelivery (u : UnitRef)
  | faultRecordPost (ctx : Nat)
  | stateerr (b : Nat)
  -- translation, host and peers (17_translation_outside)
  | resolve (v : BitVec 32)
  | s2Map (cmd : BitVec 24)
  | s2Unmap (cmd : BitVec 24)
  | s2Inval (cmd : BitVec 24)
  | stage2WaitComplete
  | s2Scrub (cmd : BitVec 24)
  | s2Table (cmd : BitVec 24)
  | s2Untable (cmd : BitVec 24)
  | s2Shadd (cmd : BitVec 24)
  | s2Shdel (cmd : BitVec 24)
  | s2Expose (cmd : BitVec 24)
  | s2Retire (cmd : BitVec 24)
  | rangeRegisterStage (fn ctx i : Nat) (v : BitVec 64)
  | rangeRegisterCommit (fn ctx i : Nat) (v : BitVec 64)
  | rrsync (req : RegRead)
  | contextTableWrite (ctx : Nat) (v : BitVec 128)
  | spdiv (die : Nat) (v : BitVec 32)
  | spdivChange (die : Nat)
  | apctl (fn : Nat) (v : BitVec 64)
  | apertureRead (fn requester off width : Nat)
  | apertureWrite (fn requester off : Nat) (bytes : List Byte)
  | hdmbaseWrite (isSize : Bool) (v : BitVec 64)
  | cxlMemRead (addr width : Nat)
  | cxlMemWrite (line off : Nat) (bytes : List Byte)
  | snpData (line : Nat)
  | snpInv (line : Nat)
  | hccEviction (line : Nat)
  | hostLinkTraining (cxl up : Bool)
  | functionLevelReset (fn : Nat)
  | peerInboundRequest (link group addr : Nat) (msg : PeerMsg)
  | linkFailure (link : Nat)
  | bandwidthTokenRefill (slice : Nat)
  -- service, health and trust (18_service)
  | statusWindowRefresh (power temp limit : BitVec 32)
  | drain (cmd : BitVec 24)
  | undrain (cmd : BitVec 24)
  | enterService (cmd : BitVec 24)
  | exitService (cmd : BitVec 24)
  | quiesce (cmd : BitVec 24)
  | recal (cmd : BitVec 24)
  | recalComplete (kind index : Nat)
  | spare (cmd : BitVec 24)
  | update (cmd : BitVec 24) (len : Nat)
  | resume (cmd : BitVec 24)
  | extend (cmd : BitVec 24)
  | report (cmd : BitVec 24)
  | registerWrite (off : Nat) (v : BitVec 64)
  | powerOn (failed : List (Nat × Nat))
  | throttle (on : Bool)
  | thermalTrip (tenths : Nat)
  | debugPortRead (addr : Nat)
  | modulePowerLoss
  | conventionalReset
  | measuredDebugEnable
  deriving DecidableEq, Repr

end Sys2Proof
end

