-- ==== Sys2Proof/WellFormed.lean ====
section
/-! DEFINITION. Which instructions the encoding admits: the operand ranges, accepted operand kinds, even pairs, type
sets and sub-operation ranges of 03_encoding R44 to R51 and of each instruction's entry. A check that depends on the
clause (its class, the instruction's position) is not here; see `Instr.legalIn` and `Instr.placedOk` in Decode. -/

namespace Sys2Proof

/-- Operand ranges of R49. -/
def Src.inRange : Src → Bool
  | .vreg n => n < 640
  | .latch n => n < 16
  | .vidx i o => i < 8 && o < 16
  | .pred p => p < 8
  | .sv _ => true
  | .k n => n < 128
  | .sreg .g n => n < 64
  | .sreg .b n => n < 64
  | .sreg .n n => n < 32
  | .sreg .d n => n < 32
  | .tile n => n < 8
  | .handle n => n < 32

/-- An arithmetic or address position (R49); at 64 bits a register names an even pair (R86). -/
def Src.isArith (wide : Bool) : Src → Bool
  | .vreg n => n < 640 && (!wide || n % 2 == 0)
  | .sreg sk n => (Src.sreg sk n).inRange && (!wide || n % 2 == 0)
  | .latch n => n < 16
  | .vidx i o => i < 8 && o < 16
  | .sv _ => true
  | .k n => n < 128
  | .pred _ => false
  | .tile _ => false
  | .handle _ => false

/-- A condition or vote position: an arithmetic operand or a predicate (R75, R81, R84). -/
def Src.isCond : Src → Bool
  | .pred p => p < 8
  | s => s.isArith false

/-- What `symq` and `symw` accept (R106, R107); the class is checked apart. -/
def Src.isSym : Src → Bool
  | .vreg n => n < 640
  | .vidx i o => i < 8 && o < 16
  | .sreg .g n => n < 64
  | _ => false

/-- What `bcast` accepts in SB (R109). -/
def Src.isConstOrScope : Src → Bool
  | .k n => n < 128
  | .sreg sk n => (Src.sreg sk n).inRange
  | _ => false

/-- A destination (R51): vector or own-scope register, even at 64 bits, or a predicate where the entry takes one. -/
def Dst.accepts (wide predOk : Bool) : Dst → Bool
  | .vreg n => n < 640 && (!wide || n % 2 == 0)
  | .scope n => n < 64 && (!wide || n % 2 == 0)
  | .pred p => p < 7 && predOk

def Out.accepts (wide predOk : Bool) (o : Out) : Bool := o.dst.accepts wide predOk

/-- A destination that must be a vector register (R105, R130, R139). -/
def Out.isVec : Out → Bool
  | ⟨.vreg n, _⟩ => n < 640
  | _ => false

/-- 64-bit integer types (R98). -/
def ITy.wide : ITy → Bool | .s32 | .z32 => false | .s64 | .z64 => true
def ITy.signed : ITy → Bool | .s32 | .s64 => true | .z32 | .z64 => false
/-- Width in bits. -/
def ITy.bits (t : ITy) : Nat := if t.wide then 64 else 32
/-- 64-bit floating-point types (R111, R112). -/
def FTy.wide : FTy → Bool | .f64 => true | _ => false

/-- Register alignment of a data or destination field by width (R196). -/
def Width.align : Width → Nat | .b | .h | .w => 1 | .d => 2 | .q => 4 | .o => 8

/-- The base and index of an M-format word (R46, R175): a 64-bit base, a 32-bit index. -/
def MemOp.wf (m : MemOp) : Bool := m.base.isArith true && m.index.isArith false && m.pred < 8

/-- The destination of a load (R196). -/
def loadDstOk (o : Out) (wd : Width) : Bool :=
  match o.dst with
  | .vreg n => n < 640 && n % wd.align == 0 && (wd.align < 4 || !o.nwb)
  | .scope n => n < 64 && n % wd.align == 0 && wd.align < 4
  | .pred _ => false

/-- The data register of a store (R196). -/
def storeDataOk (n : Nat) (wd : Width) : Bool := n < 640 && n % wd.align == 0

/-- Widths of system-scope accesses (R196). -/
def Width.sysOk : Width → Bool | .q | .o => false | _ => true

/-- Control register numbers of the map (R349). -/
def crnKnown (n : Nat) : Bool :=
  n < 6 || (0x10 ≤ n && n ≤ 0x12) || n == 0x20 || n == 0x21 || (0x30 ≤ n && n ≤ 0x33) || (0x40 ≤ n && n ≤ 0x45)

/-- An engine tag (R241). -/
def tagOk : Option Nat → Bool | none => true | some n => n < 4

/-- The scope of a C-format word as its entry lists it (R55), without regard to the clause. -/
def Scope.own : Scope → Bool | .lane => false | _ => true

/-- The matrix types that a register panel may have (R158, R166). -/
def MTy.panelOk : MTy → Bool | .f _ => false | _ => true

def quadOk (n : Nat) : Bool := n < 640 && n % 4 == 0

/-- A well-formed instruction: exactly the operands that its encoding admits (R44 to R51, R56). A step of the part that
no program word encodes is well formed when its numbers name something the part has. -/
def Instr.wf : Instr → Bool
  | .br _ _ _ => true
  | .bt _ c _ _ => c.isCond
  | .bf _ c _ _ => c.isCond
  | .loop sc c _ _ => sc.own && c.isArith false
  | .call sc _ => sc.own
  | .callr sc d => sc.own && d.isArith false
  | .ret sc => sc.own
  | .regang => true
  | .lif _ c => c.isCond
  | .lelse => true
  | .lendif => true
  | .doneScope sc => sc == .slice || sc == .group || sc == .block
  | .nop sc => sc.own
  | .yield sc => sc == .slice || sc == .group
  | .vany o a | .vall o a | .vfirst o a | .vcount o a | .vsum o a => o.accepts false true && a.isCond
  | .vmax _ o a => o.accepts false true && a.isCond
  | .add o p t _ a b | .sub o p t _ a b | .mul o p t _ a b =>
      o.accepts t.wide false && p < 8 && a.isArith t.wide && b.isArith t.wide
  | .mulhi o p t a b | .div o p t a b | .rem o p t a b | .min o p t a b | .max o p t a b | .and o p t a b
  | .or o p t a b | .xor o p t a b | .andn o p t a b =>
      o.accepts t.wide false && p < 8 && a.isArith t.wide && b.isArith t.wide
  | .mad o p t _ a b c =>
      o.accepts t.wide false && p < 8 && a.isArith t.wide && b.isArith t.wide && c.isArith t.wide
  | .abs o p t _ a => o.accepts t.wide false && p < 8 && t.signed && a.isArith t.wide
  | .neg o p t _ a => o.accepts t.wide false && p < 8 && a.isArith t.wide
  | .not o p t a | .clz o p t a | .popc o p t a | .brev o p t a | .mov o p t a =>
      o.accepts t.wide false && p < 8 && a.isArith t.wide
  | .shl o p t _ a b => o.accepts t.wide false && p < 8 && a.isArith t.wide && b.isArith false
  | .shr o p t a b | .sar o p t a b | .rot o p t a b | .bfx o p t a b | .ext o p t a b =>
      o.accepts t.wide false && p < 8 && a.isArith t.wide && b.isArith false
  | .bfi o p t a b c =>
      o.accepts t.wide false && p < 8 && a.isArith t.wide && b.isArith t.wide && c.isArith false
  | .csel o p t a b c | .addc o p t a b c | .subb o p t a b c =>
      o.accepts t.wide false && p < 8 && a.isArith t.wide && b.isArith t.wide && c < 8
  | .lea o p t a b c => o.accepts true false && p < 8 && a.isArith true && b.isArith t.wide && c.isArith false
  | .cmpEq o p t a b | .cmpNe o p t a b | .cmpLt o p t a b | .cmpLe o p t a b | .cmpGt o p t a b
  | .cmpGe o p t a b =>
      o.accepts t.wide true && p < 8 && a.isArith t.wide && b.isArith t.wide
  | .addImm o a _ | .subImm o a _ | .mulImm o a _ | .andImm o a _ | .orImm o a _ | .xorImm o a _ =>
      o.accepts false false && a.isArith false
  | .shlImm o a _ | .shrImm o a _ | .sarImm o a _ | .rotImm o a _ => o.accepts false false && a.isArith false
  | .movi o _ => o.accepts false false
  | .leaImm o a _ => o.accepts true false && a.isArith true
  | .ixset i valOnly v b l =>
      i < 8 && v.isArith false &&
        (if valOnly then b == .vreg 0 && l == .vreg 0 else b.isArith false && l.isArith false)
  | .ixget o i sel => o.isVec && i < 8 && sel < 3
  | .symq o a sel => o.accepts false false && a.isSym && (sel < 3 || sel == 5 || sel == 6)
  | .symw all a => if all then a == .vreg 0 else a.isSym
  | .shf o p t a b | .shfx o p t a b | .shfu o p t a b | .shfd o p t a b =>
      o.accepts t.wide false && p < 8 && a.isArith t.wide && b.isArith false
  | .bcast o p t a b => o.accepts t.wide false && p < 8 && a.isArith t.wide && b.isConstOrScope
  | .scan o _ _ _ a => o.accepts false false && a.isArith false
  | .pand d p a b _ | .por d p a b _ | .pxor d p a b _ => d < 7 && p < 8 && a < 8 && b < 8
  | .pnot d p a _ => d < 7 && p < 8 && a < 8
  | .fadd o p t _ a b | .fsub o p t _ a b | .fmul o p t _ a b | .fdiv o p t _ a b =>
      o.accepts t.wide false && p < 8 && a.isArith t.wide && b.isArith t.wide
  | .ffma o p t _ a b c =>
      o.accepts t.wide false && p < 8 && a.isArith t.wide && b.isArith t.wide && c.isArith t.wide
  | .fmin o p t _ a b | .fmax o p t _ a b =>
      o.accepts t.wide false && p < 8 && a.isArith t.wide && b.isArith t.wide
  | .fabs o p t a | .fneg o p t a => o.accepts t.wide false && p < 8 && a.isArith t.wide
  | .fcmpEq o p t _ a b | .fcmpNe o p t _ a b | .fcmpLt o p t _ a b | .fcmpLe o p t _ a b | .fcmpGt o p t _ a b
  | .fcmpGe o p t _ a b | .fcmpUn o p t _ a b | .fcmpOr o p t _ a b =>
      o.accepts false true && p < 8 && a.isArith t.wide && b.isArith t.wide
  | .fclass o p t a => o.accepts false false && p < 8 && a.isArith t.wide
  | .frcp o p t _ a | .frsq o p t _ a | .fsqrt o p t _ a | .fexp2 o p t _ a | .flog2 o p t _ a | .fsin o p t _ a
  | .fcos o p t _ a => o.accepts t.wide false && p < 8 && a.isArith t.wide
  | .fscale o p t _ a n => o.accepts t.wide false && p < 8 && a.isArith t.wide && n.isArith false
  | .fround o p t _ _ a => o.accepts t.wide false && p < 8 && a.isArith t.wide
  | .fcvt o p t _ u a => o.accepts t.wide false && p < 8 && a.isArith u.wide
  | .fcvti o p t _ _ u a => o.accepts t.wide false && p < 8 && a.isArith u.wide
  | .ficvt o p t _ u a => o.accepts t.wide false && p < 8 && a.isArith u.wide
  | .fdot2 o p _ _ a b c => o.accepts false false && p < 8 && a.isArith false && b.isArith false && c.isArith false
  | .fdot4 o p _ _ a b c => o.accepts false false && p < 8 && a.isArith false && b.isArith false && c.isArith false
  | .flgrd o => o.isVec
  | .flgclr m | .flgset m => m.isArith false
  | .bxenc d p _ _ a => d < 640 && d % 2 == 0 && p < 8 && quadOk a
  | .bxdec d p _ a e => quadOk d && p < 8 && a.isArith false && e.isArith false
  | .bxmax o p a => o.isVec && p < 8 && quadOk a
  | .pk4 o p s4 sat a b => o.isVec && p < 8 && (s4 || !sat) && a.isArith false && b.isArith false
  | .upk4 o p _ a h => o.isVec && p < 8 && a.isArith false && h.isArith false
  | .pk6 o p a | .upk6 o p a => o.isVec && p < 8 && a.isArith false
  | .f8enc o p _ _ a => o.isVec && p < 8 && quadOk a
  | .f8dec d p _ a => quadOk d && p < 8 && a.isArith false
  | .scl o p t _ a x y => o.isVec && p < 8 && !t.wide && a.isArith false && x.isArith false && y.isArith false
  | .mload o h b sd _ k => o.accepts false true && h < 32 && b.isArith true && sd.isArith false && k < 8
  | .mfree isTile n => if isTile then n < 8 else n < 32
  | .mma acc a b k wide panel =>
      acc < 8 && (!wide || acc % 2 == 0) && a < 32 && k < 8 &&
        (match panel with | none => b < 32 | some (t, _) => t.panelOk && b == 0) &&
        (match panel with | none => true | some (_, v) => v < 640)
  | .mzero a => a < 8
  | .mstore a b sd => a < 8 && b.isArith true && sd.isArith false
  | .mscale h s => (match h with | none => true | some n => n < 32) && s.isArith false
  | .mget d a => d < 640 && a < 8
  | .mput a v => a < 8 && v < 640
  | .merr o sel => o.accepts false true && sel < 5
  | .mclr => true
  | .matrixQueueExecute _ _ => true
  | .ld o m c => m.wf && c < 4 && loadDstOk o m.width
  | .st d m c => m.wf && c < 4 && storeDataOk d m.width
  | .ldsys o m c => m.wf && c < 4 && loadDstOk o m.width && m.width.sysOk
  | .stsys d m c => m.wf && c < 4 && storeDataOk d m.width && m.width.sysOk
  | .pf m => m.wf
  | .llock o m => m.wf && o.accepts false false
  | .lunlock m => m.wf
  | .lquota o _ => o.accepts false false
  | .biasDev o a | .biasHost o a => o.accepts false false && a.isArith true
  | .biasFlip _ => true
  | .accessQueueIssue _ => true
  | .queuedStorePerform _ => true
  | .symbolResolve _ sym => sym < 64
  | .memoryAccessComplete .. => true
  | .homeSliceWrite _ => true
  | .battach o s b => o.accepts false true && s.isArith false && (match b with | none => true | some x => x.isArith false)
  | .bdetach s => s.isArith false
  | .give o s m t _ => o.accepts false true && s.isArith false && m.isArith false && t.isArith false
  | .bankDrainComplete _ slot => slot < 16
  | .bwait o s => o.accepts false true && s.isArith false
  | .bstat o s clr =>
      o.accepts false true && (match s with | none => true | some x => x.isArith false && !clr)
  | .bzero s => s.isArith false
  | .bmirror s => match s with | none => true | some x => x.isArith false
  | .bshare o s i _ => o.accepts false true && s.isArith false && i.isArith false
  | .bshareOff s => s.isArith false
  | .cpy o d s z tag _ =>
      o.accepts false false && d.isArith true && s.isArith true && z.isArith false && tagOk tag
  | .cpyd o d tag _ | .coll o d tag _ => o.accepts false false && d.isArith true && tagOk tag
  | .gat o b a z tag => o.accepts false false && b.isArith true && a.isArith true && z.isArith false && tagOk tag
  | .sct o a b z tag => o.accepts false false && a.isArith true && b.isArith true && z.isArith false && tagOk tag
  | .ewait o t | .epoll o t => o.accepts false false && t.isArith false
  | .pub o b z _ => o.accepts false false && b.isArith true && z.isArith false
  | .ecancel t => match t with | none => true | some x => x.isArith false
  | .engineRead _ _ _ _ => true
  | .drainEngineWrite _ _ => true
  | .pageBoundaryRevalidation _ _ => true
  | .aadd o w a b | .aand o w a b | .aor o w a b | .axor o w a b | .axchg o w a b | .afadd o w a b
  | .ainc o w a b =>
      (match o with | none => true | some x => x.accepts w false) && a.isArith true && b.isArith w
  | .amin o w _ a b | .amax o w _ a b =>
      (match o with | none => true | some x => x.accepts w false) && a.isArith true && b.isArith w
  | .acas o w a c n =>
      (match o with | none => true | some x => x.accepts w false) && a.isArith true && c.isArith w && n.isArith w
  | .wcmpEq o w _ a v | .wcmpNe o w _ a v | .wcmpLt o w _ a v | .wcmpLe o w _ a v | .wcmpGt o w _ a v
  | .wcmpGe o w _ a v | .wcmpAny o w _ a v => o.accepts false true && a.isArith true && v.isArith w
  | .wcancel o a => o.accepts false false && a.isArith true
  | .bararr o _ n c => o.accepts false false && n < 16 && c.isArith false
  | .barwait _ n t => n < 16 && t.isArith false
  | .barsync _ n c => n < 16 && c.isArith false
  | .swapOut _ => true
  | .blockRestore ctx _ core => ctx < 64 && core < 768
  | .fence sc k => k == .mir || k == .eng || k == .all || sc == .system
  | .swf => true
  | .drainTillerQueue _ => true
  | .drainMirrorQueue _ _ => true
  | .drainSystemQueue _ _ _ => true
  | .drainInboundQueue _ => true
  | .captureSystemLine ctx _ => ctx < 64
  | .captureCodeLine _ _ _ => true
  | .cpub o b z sc => o.accepts false false && b.isArith true && z.isArith false && sc != .system
  | .callt sc i => sc.own && i.isArith false
  | .calltRepoll _ => true
  | .bind o e t => o.accepts false false && e.isArith true && t.isArith true
  | .clauseHeader _ => true
  | .groupPromotion _ g => g < 32
  | .launch o r => o.accepts false false && r.isArith true
  | .cntRd o h | .cntClose o h => o.accepts false false && h.isArith false
  | .cntSelf o _ => o.accepts false false
  | .cntNew o k h => o.accepts false false && h.isArith false && (k == .graph || k == .phase)
  | .cwait o h | .cancel o h | .cancelDrain o h => o.accepts false false && h.isArith false
  | .cancelDelivery _ => true
  | .launchReady _ => true
  | .gridSequencerTake die _ => die < 4
  | .ticketDispense die _ _ _ => die < 4
  | .blockStart _ => true
  | .blockRetirement _ => true
  | .jobdb _ ctx _ _ => ctx < 64
  | .joback _ ctx _ => ctx < 64
  | .trap _ => true
  | .brk _ => true
  | .eret d f | .eretKill d f => d.accepts false false && f.isArith true
  | .mfcr d n => d.accepts false false && crnKnown n
  | .mtcr n a => crnKnown n && a.isArith false
  | .csave d b => d.accepts false false && b.isArith true
  | .crest d f core _ => d.accepts false false && f.isArith false && core < 16
  | .freeze d m | .thaw d m | .halt d m => d.accepts false false && m.isArith false
  | .faultDelivery _ => true
  | .faultRecordPost ctx => ctx < 64
  | .stateerr _ => true
  | .resolve _ => true
  | .s2Map _ | .s2Unmap _ | .s2Inval _ => true
  | .stage2WaitComplete => true
  | .s2Scrub _ | .s2Table _ | .s2Untable _ | .s2Shadd _ | .s2Shdel _ | .s2Expose _ | .s2Retire _ => true
  | .rangeRegisterStage _ ctx i _ | .rangeRegisterCommit _ ctx i _ => ctx < 64 && i < 16
  | .rrsync .. => true
  | .contextTableWrite ctx _ => ctx < 64
  | .spdiv die _ | .spdivChange die => die < 4
  | .apctl _ _ => true
  | .apertureRead _ _ _ w => 0 < w && w ≤ 64
  | .apertureWrite _ _ _ bs => bs.length ≤ 64
  | .hdmbaseWrite _ _ => true
  | .cxlMemRead _ w => w ≤ 64
  | .cxlMemWrite _ off bs => off + bs.length ≤ 64
  | .snpData _ | .snpInv _ | .hccEviction _ => true
  | .hostLinkTraining _ _ => true
  | .functionLevelReset _ => true
  | .peerInboundRequest .. => true
  | .linkFailure l => l < 24
  | .bandwidthTokenRefill _ => true
  | .statusWindowRefresh _ _ _ => true
  | .drain _ | .undrain _ | .enterService _ | .exitService _ | .quiesce _ | .recal _ => true
  | .recalComplete _ _ => true
  | .spare _ | .update _ _ | .resume _ | .extend _ | .report _ => true
  | .registerWrite _ _ => true
  | .powerOn _ | .throttle _ | .thermalTrip _ | .debugPortRead _ => true
  | .modulePowerLoss | .conventionalReset | .measuredDebugEnable => true

end Sys2Proof
end

