-- ==== Sys2Proof/Decode.lean ====
section
/-! DEFINITION. The encoding of clauses and instructions (03_encoding R40 to R58): parsing a header, decoding an
instruction word on any bits with a named rejection, the checks that depend on the clause, and the encoder. -/

namespace Sys2Proof

/-- Why a word is no instruction. Every one of them raises UNDEF (R56). -/
inductive DecodeErr
  | opcode      -- unassigned opcode (R54)
  | type        -- a TYPE the entry does not accept (R48)
  | source      -- an invalid or unaccepted source field (R49)
  | dest        -- an invalid or unaccepted destination (R51)
  | nonzero     -- a field that must be zero is not (R48)
  | value       -- any other field value the entry does not list
  | short       -- fewer than eight bytes
  deriving DecidableEq, Repr

abbrev Dec (α : Type) := Except DecodeErr α

/-- Requires a condition. -/
def need (e : DecodeErr) (c : Bool) : Dec Unit := if c then .ok () else .error e

/-- A field that must be zero (R48). -/
def zeroF (n : Nat) : Dec Unit := need .nonzero (n == 0)

/-! ## Clause headers -/

/-- A clause header (R41). `wait` holds the thresholds of w0 to w3; the last four fields are hints (R58). -/
structure Header where
  cls : Cls
  count : Nat          -- COUNT: instructions minus 1
  wait0 : Nat
  wait1 : Nat
  wait2 : Nat
  wait3 : Nat
  symw : Bool
  prio : Nat
  cache : Nat
  len : Nat
  hext : Nat
  deriving DecidableEq, Repr

def clsOf : Nat → Option Cls
  | 0 => some .slice | 1 => some .group | 2 => some .block | 3 => some .gang | 4 => some .grid | _ => none

def Cls.code : Cls → Nat | .slice => 0 | .group => 1 | .block => 2 | .gang => 3 | .grid => 4

/-- Decodes a header; `none` is the CLAUSE fault of R42. -/
def decodeHeader (w : Nat) : Option Header :=
  if bitsOf w 60 4 == 0b1100 && bitsOf w 41 3 == 0 then
    (clsOf (bitsOf w 57 3)).map fun c =>
      { cls := c, count := bitsOf w 53 4, wait3 := bitsOf w 51 2, wait2 := bitsOf w 49 2, wait1 := bitsOf w 47 2,
        wait0 := bitsOf w 45 2, symw := bitsOf w 44 1 == 1, prio := bitsOf w 38 3, cache := bitsOf w 36 2,
        len := bitsOf w 32 4, hext := bitsOf w 0 32 }
  else none

/-- The word of a header (R41). -/
def Header.encode (h : Header) : Nat :=
  0b1100 * 2 ^ 60 + h.cls.code * 2 ^ 57 + h.count * 2 ^ 53 + h.wait3 * 2 ^ 51 + h.wait2 * 2 ^ 49 + h.wait1 * 2 ^ 47
    + h.wait0 * 2 ^ 45 + h.symw.toNat * 2 ^ 44 + h.prio * 2 ^ 38 + h.cache * 2 ^ 36 + h.len * 2 ^ 32 + h.hext

/-- Bytes of a clause: the header and COUNT + 1 instruction words (R40). -/
def Header.bytes (h : Header) : Nat := 8 * (h.count + 2)

/-- The threshold of counter wN (R41). -/
def Header.wait (h : Header) : Nat → Nat
  | 0 => h.wait0 | 1 => h.wait1 | 2 => h.wait2 | _ => h.wait3

/-! ## The six formats -/

/-- V format (R44). -/
structure VWord where
  opc : Nat
  dst : Nat
  nwb : Nat
  sa : Nat
  sb : Nat
  sc : Nat
  pred : Nat
  fs : Nat
  rm : Nat
  sat : Nat
  ty : Nat
  deriving DecidableEq, Repr

def VWord.pack (f : VWord) : Nat :=
  f.opc * 2 ^ 55 + f.dst * 2 ^ 45 + f.nwb * 2 ^ 44 + f.sa * 2 ^ 33 + f.sb * 2 ^ 22 + f.sc * 2 ^ 11 + f.pred * 2 ^ 8
    + f.fs * 2 ^ 7 + f.rm * 2 ^ 5 + f.sat * 2 ^ 4 + f.ty

def VWord.parse (w : Nat) : VWord :=
  { opc := bitsOf w 55 9, dst := bitsOf w 45 10, nwb := bitsOf w 44 1, sa := bitsOf w 33 11, sb := bitsOf w 22 11,
    sc := bitsOf w 11 11, pred := bitsOf w 8 3, fs := bitsOf w 7 1, rm := bitsOf w 5 2, sat := bitsOf w 4 1,
    ty := bitsOf w 0 4 }

/-- I format (R45). -/
structure IWord where
  opc : Nat
  dst : Nat
  nwb : Nat
  sa : Nat
  rsv : Nat
  imm : Nat
  deriving DecidableEq, Repr

def IWord.pack (f : IWord) : Nat :=
  f.opc * 2 ^ 55 + f.dst * 2 ^ 45 + f.nwb * 2 ^ 44 + f.sa * 2 ^ 33 + f.rsv * 2 ^ 32 + f.imm

def IWord.parse (w : Nat) : IWord :=
  { opc := bitsOf w 55 9, dst := bitsOf w 45 10, nwb := bitsOf w 44 1, sa := bitsOf w 33 11, rsv := bitsOf w 32 1,
    imm := bitsOf w 0 32 }

/-- M format (R46). -/
structure MWord where
  opc : Nat
  data : Nat
  nwb : Nat
  base : Nat
  index : Nat
  offs : Nat
  pred : Nat
  width : Nat
  ctr : Nat
  hint : Nat
  deriving DecidableEq, Repr

def MWord.pack (f : MWord) : Nat :=
  f.opc * 2 ^ 55 + f.data * 2 ^ 45 + f.nwb * 2 ^ 44 + f.base * 2 ^ 33 + f.index * 2 ^ 22 + f.offs * 2 ^ 10
    + f.pred * 2 ^ 7 + f.width * 2 ^ 4 + f.ctr * 2 ^ 2 + f.hint

def MWord.parse (w : Nat) : MWord :=
  { opc := bitsOf w 55 9, data := bitsOf w 45 10, nwb := bitsOf w 44 1, base := bitsOf w 33 11,
    index := bitsOf w 22 11, offs := bitsOf w 10 12, pred := bitsOf w 7 3, width := bitsOf w 4 3, ctr := bitsOf w 2 2,
    hint := bitsOf w 0 2 }

/-- C format (R47). -/
structure CWord where
  opc : Nat
  scope : Nat
  sense : Nat
  cond : Nat
  target : Nat
  join : Nat
  rsv : Nat
  deriving DecidableEq, Repr

def CWord.pack (f : CWord) : Nat :=
  f.opc * 2 ^ 55 + f.scope * 2 ^ 52 + f.sense * 2 ^ 51 + f.cond * 2 ^ 40 + f.target * 2 ^ 20 + f.join * 2 ^ 4 + f.rsv

def CWord.parse (w : Nat) : CWord :=
  { opc := bitsOf w 55 9, scope := bitsOf w 52 3, sense := bitsOf w 51 1, cond := bitsOf w 40 11,
    target := bitsOf w 20 20, join := bitsOf w 4 16, rsv := bitsOf w 0 4 }

/-- K format (R47). -/
structure KWord where
  opc : Nat
  d : Nat
  nwb : Nat
  sa : Nat
  sb : Nat
  sc : Nat
  fn : Nat
  deriving DecidableEq, Repr

def KWord.pack (f : KWord) : Nat :=
  f.opc * 2 ^ 55 + f.d * 2 ^ 45 + f.nwb * 2 ^ 44 + f.sa * 2 ^ 33 + f.sb * 2 ^ 22 + f.sc * 2 ^ 11 + f.fn

def KWord.parse (w : Nat) : KWord :=
  { opc := bitsOf w 55 9, d := bitsOf w 45 10, nwb := bitsOf w 44 1, sa := bitsOf w 33 11, sb := bitsOf w 22 11,
    sc := bitsOf w 11 11, fn := bitsOf w 0 11 }

/-- S format (R47). -/
structure SWord where
  opc : Nat
  d : Nat
  crn : Nat
  sa : Nat
  fn : Nat
  deriving DecidableEq, Repr

def SWord.pack (f : SWord) : Nat :=
  f.opc * 2 ^ 55 + f.d * 2 ^ 45 + f.crn * 2 ^ 33 + f.sa * 2 ^ 22 + f.fn

def SWord.parse (w : Nat) : SWord :=
  { opc := bitsOf w 55 9, d := bitsOf w 45 10, crn := bitsOf w 33 12, sa := bitsOf w 22 11, fn := bitsOf w 0 22 }

/-! ## Operand fields -/

def svOf : Nat → Option SysVal
  | 0 => some .lane | 1 => some .slice | 2 => some .group | 3 => some .block | 4 => some .gang | 5 => some .index
  | 6 => some .lc | _ => none

def SysVal.code : SysVal → Nat
  | .lane => 0 | .slice => 1 | .group => 2 | .block => 3 | .gang => 4 | .index => 5 | .lc => 6

/-- The table of R49. -/
def srcOf (c : Nat) : Option Src :=
  if c < 640 then some (.vreg c)
  else if c < 0x400 then none
  else if c < 0x480 then if c % 8 == 0 then some (.latch ((c - 0x400) / 8)) else none
  else if c < 0x500 then some (.vidx ((c - 0x480) / 16) ((c - 0x480) % 16))
  else if c < 0x508 then some (.pred (c - 0x500))
  else if c < 0x540 then none
  else if c < 0x580 then (svOf (c - 0x540)).map .sv
  else if c < 0x600 then some (.k (c - 0x580))
  else if c < 0x640 then some (.sreg .g (c - 0x600))
  else if c < 0x680 then some (.sreg .b (c - 0x640))
  else if c < 0x6A0 then some (.sreg .n (c - 0x680))
  else if c < 0x6C0 then none
  else if c < 0x6E0 then some (.sreg .d (c - 0x6C0))
  else if c < 0x700 then none
  else if c < 0x708 then some (.tile (c - 0x700))
  else if c < 0x720 then none
  else if c < 0x740 then some (.handle (c - 0x720))
  else none

/-- The Value column of R49. -/
def Src.code : Src → Nat
  | .vreg n => n
  | .latch n => 0x400 + 8 * n
  | .vidx i o => 0x480 + 16 * i + o
  | .pred p => 0x500 + p
  | .sv v => 0x540 + v.code
  | .k n => 0x580 + n
  | .sreg .g n => 0x600 + n
  | .sreg .b n => 0x640 + n
  | .sreg .n n => 0x680 + n
  | .sreg .d n => 0x6C0 + n
  | .tile n => 0x700 + n
  | .handle n => 0x720 + n

/-- A source field of a position that accepts what `ok` says. -/
def srcF (ok : Src → Bool) (c : Nat) : Dec Src :=
  match srcOf c with
  | some x => if ok x then .ok x else .error .source
  | none => .error .source

/-- A source field that names a predicate (R98, R104). -/
def predF (c : Nat) : Dec Nat :=
  match srcOf c with
  | some (.pred p) => .ok p
  | _ => .error .source

def tileF (c : Nat) : Dec Nat :=
  match srcOf c with
  | some (.tile p) => .ok p
  | _ => .error .source

def handleF (c : Nat) : Dec Nat :=
  match srcOf c with
  | some (.handle p) => .ok p
  | _ => .error .source

/-- A source field that names a vector register (R166). -/
def vregF (c : Nat) : Dec Nat :=
  match srcOf c with
  | some (.vreg p) => .ok p
  | _ => .error .source

/-- A quad source (R137). -/
def quadF (c : Nat) : Dec Nat := if quadOk c then .ok c else .error .source

/-- The table of R51, without the clause's class. -/
def dstOf (c : Nat) : Option Dst :=
  if c < 640 then some (.vreg c)
  else if c < 704 then some (.scope (c - 640))
  else if c < 711 then some (.pred (c - 704))
  else none

def Dst.code : Dst → Nat
  | .vreg n => n
  | .scope n => 640 + n
  | .pred p => 704 + p

def dstF (wide predOk : Bool) (c : Nat) : Dec Dst :=
  match dstOf c with
  | some x => if x.accepts wide predOk then .ok x else .error .dest
  | none => .error .dest

def outF (wide predOk : Bool) (c nwb : Nat) : Dec Out :=
  match dstF wide predOk c with
  | .ok x => .ok ⟨x, nwb == 1⟩
  | .error e => .error e

/-- A destination that must be a vector register. -/
def vecOutF (c nwb : Nat) : Dec Out := if c < 640 then .ok ⟨.vreg c, nwb == 1⟩ else .error .dest

def ityF : Nat → Dec ITy
  | 0 => .ok .s32 | 1 => .ok .z32 | 2 => .ok .s64 | 3 => .ok .z64 | _ => .error .type
def ITy.code : ITy → Nat | .s32 => 0 | .z32 => 1 | .s64 => 2 | .z64 => 3

def ftyF : Nat → Dec FTy
  | 4 => .ok .f32 | 5 => .ok .f64 | 6 => .ok .f16 | 7 => .ok .bf16 | _ => .error .type
def FTy.code : FTy → Nat | .f32 => 4 | .f64 => 5 | .f16 => 6 | .bf16 => 7

def f8tyF : Nat → Dec F8Ty | 8 => .ok .e4m3 | 9 => .ok .e5m2 | _ => .error .type
def F8Ty.code : F8Ty → Nat | .e4m3 => 8 | .e5m2 => 9

def btyF : Nat → Dec BTy | 10 => .ok .bx8 | 11 => .ok .bx6 | 12 => .ok .bx4 | _ => .error .type
def BTy.code : BTy → Nat | .bx8 => 10 | .bx6 => 11 | .bx4 => 12

def mtyF : Nat → Dec MTy
  | 4 => .ok (.f .f32) | 5 => .ok (.f .f64) | 6 => .ok (.f .f16) | 7 => .ok (.f .bf16)
  | 8 => .ok (.f8 .e4m3) | 9 => .ok (.f8 .e5m2)
  | 10 => .ok (.b .bx8) | 11 => .ok (.b .bx6) | 12 => .ok (.b .bx4)
  | 13 => .ok .s8 | _ => .error .type
def MTy.code : MTy → Nat
  | .f t => t.code | .f8 t => t.code | .b t => t.code | .s8 => 13

def rmOf : Nat → RM | 0 => .rne | 1 => .rtz | 2 => .rup | _ => .rdn
def RM.code : RM → Nat | .rne => 0 | .rtz => 1 | .rup => 2 | .rdn => 3

def scopeF : Nat → Dec Scope
  | 0 => .ok .lane | 1 => .ok .slice | 2 => .ok .group | 3 => .ok .block | 4 => .ok .gang | 5 => .ok .grid
  | _ => .error .value
def Scope.code : Scope → Nat | .lane => 0 | .slice => 1 | .group => 2 | .block => 3 | .gang => 4 | .grid => 5

def widthF : Nat → Dec Width
  | 0 => .ok .b | 1 => .ok .h | 2 => .ok .w | 3 => .ok .d | 4 => .ok .q | 5 => .ok .o | _ => .error .value
def Width.code : Width → Nat | .b => 0 | .h => 1 | .w => 2 | .d => 3 | .q => 4 | .o => 5

def fscopeOf : Nat → FScope | 0 => .block | 1 => .gang | 2 => .package | _ => .system
def FScope.code : FScope → Nat | .block => 0 | .gang => 1 | .package => 2 | .system => 3

def fkindF : Nat → Dec FKind
  | 0 => .ok .mir | 1 => .ok .eng | 2 => .ok .sysAcq | 3 => .ok .sysRel | 4 => .ok .sys | 5 => .ok .all
  | _ => .error .value
def FKind.code : FKind → Nat | .mir => 0 | .eng => 1 | .sysAcq => 2 | .sysRel => 3 | .sys => 4 | .all => 5

def ckindOf : Nat → CKind | 0 => .launch | 1 => .graph | 2 => .phase | _ => .job
def CKind.code : CKind → Nat | .launch => 0 | .graph => 1 | .phase => 2 | .job => 3

def scanOpF : Nat → Dec ScanOp
  | 0 => .ok .add | 1 => .ok .min | 2 => .ok .max | 3 => .ok .and | 4 => .ok .or | 5 => .ok .xor | _ => .error .value
def ScanOp.code : ScanOp → Nat | .add => 0 | .min => 1 | .max => 2 | .and => 3 | .or => 4 | .xor => 5

/-- The engine tag in FN[2:0] (R241): FN[2] tags the counter FN[1:0], which is zero without a tag. -/
def tagF (n : Nat) : Dec (Option Nat) :=
  if n == 0 then .ok none else if 4 ≤ n && n < 8 then .ok (some (n - 4)) else .error .nonzero
def tagCode : Option Nat → Nat | none => 0 | some n => 4 + n

/-! ## Shapes of V-format words -/

/-- The fields RM, FS and SAT that an integer or narrow instruction leaves zero (R48). -/
def VWord.plain (f : VWord) : Dec Unit := do
  zeroF f.fs
  zeroF f.rm
  zeroF f.sat

def VWord.intUn (mk : Out → Nat → ITy → Src → Instr) (f : VWord) : Dec Instr := do
  f.plain; zeroF f.sb; zeroF f.sc
  let t ← ityF f.ty
  let o ← outF t.wide false f.dst f.nwb
  let a ← srcF (Src.isArith t.wide) f.sa
  .ok (mk o f.pred t a)

def VWord.intUnSat (signedOnly : Bool) (mk : Out → Nat → ITy → Bool → Src → Instr) (f : VWord) : Dec Instr := do
  zeroF f.fs; zeroF f.rm; zeroF f.sb; zeroF f.sc
  let t ← ityF f.ty
  need .type (t.signed || !signedOnly)
  let o ← outF t.wide false f.dst f.nwb
  let a ← srcF (Src.isArith t.wide) f.sa
  .ok (mk o f.pred t (f.sat == 1) a)

def VWord.intBin (mk : Out → Nat → ITy → Src → Src → Instr) (f : VWord) : Dec Instr := do
  f.plain; zeroF f.sc
  let t ← ityF f.ty
  let o ← outF t.wide false f.dst f.nwb
  let a ← srcF (Src.isArith t.wide) f.sa
  let b ← srcF (Src.isArith t.wide) f.sb
  .ok (mk o f.pred t a b)

def VWord.intBinSat (mk : Out → Nat → ITy → Bool → Src → Src → Instr) (f : VWord) : Dec Instr := do
  zeroF f.fs; zeroF f.rm; zeroF f.sc
  let t ← ityF f.ty
  let o ← outF t.wide false f.dst f.nwb
  let a ← srcF (Src.isArith t.wide) f.sa
  let b ← srcF (Src.isArith t.wide) f.sb
  .ok (mk o f.pred t (f.sat == 1) a b)

def VWord.intTerSat (mk : Out → Nat → ITy → Bool → Src → Src → Src → Instr) (f : VWord) : Dec Instr := do
  zeroF f.fs; zeroF f.rm
  let t ← ityF f.ty
  let o ← outF t.wide false f.dst f.nwb
  let a ← srcF (Src.isArith t.wide) f.sa
  let b ← srcF (Src.isArith t.wide) f.sb
  let c ← srcF (Src.isArith t.wide) f.sc
  .ok (mk o f.pred t (f.sat == 1) a b c)

/-- Second source at 32 bits: shifts, `bfx`, `ext` and the exchanges. -/
def VWord.intShift (mk : Out → Nat → ITy → Src → Src → Instr) (f : VWord) : Dec Instr := do
  f.plain; zeroF f.sc
  let t ← ityF f.ty
  let o ← outF t.wide false f.dst f.nwb
  let a ← srcF (Src.isArith t.wide) f.sa
  let b ← srcF (Src.isArith false) f.sb
  .ok (mk o f.pred t a b)

def VWord.intShiftSat (mk : Out → Nat → ITy → Bool → Src → Src → Instr) (f : VWord) : Dec Instr := do
  zeroF f.fs; zeroF f.rm; zeroF f.sc
  let t ← ityF f.ty
  let o ← outF t.wide false f.dst f.nwb
  let a ← srcF (Src.isArith t.wide) f.sa
  let b ← srcF (Src.isArith false) f.sb
  .ok (mk o f.pred t (f.sat == 1) a b)

def VWord.intBfi (f : VWord) : Dec Instr := do
  f.plain
  let t ← ityF f.ty
  let o ← outF t.wide false f.dst f.nwb
  let a ← srcF (Src.isArith t.wide) f.sa
  let b ← srcF (Src.isArith t.wide) f.sb
  let c ← srcF (Src.isArith false) f.sc
  .ok (.bfi o f.pred t a b c)

/-- Third source a predicate: `csel`, `addc`, `subb`. -/
def VWord.intPred (mk : Out → Nat → ITy → Src → Src → Nat → Instr) (f : VWord) : Dec Instr := do
  f.plain
  let t ← ityF f.ty
  let o ← outF t.wide false f.dst f.nwb
  let a ← srcF (Src.isArith t.wide) f.sa
  let b ← srcF (Src.isArith t.wide) f.sb
  let c ← predF f.sc
  .ok (mk o f.pred t a b c)

def VWord.intLea (f : VWord) : Dec Instr := do
  f.plain
  let t ← ityF f.ty
  let o ← outF true false f.dst f.nwb
  let a ← srcF (Src.isArith true) f.sa
  let b ← srcF (Src.isArith t.wide) f.sb
  let c ← srcF (Src.isArith false) f.sc
  .ok (.lea o f.pred t a b c)

def VWord.intCmp (mk : Out → Nat → ITy → Src → Src → Instr) (f : VWord) : Dec Instr := do
  f.plain; zeroF f.sc
  let t ← ityF f.ty
  let o ← outF t.wide true f.dst f.nwb
  let a ← srcF (Src.isArith t.wide) f.sa
  let b ← srcF (Src.isArith t.wide) f.sb
  .ok (mk o f.pred t a b)

def VWord.intBcast (f : VWord) : Dec Instr := do
  f.plain; zeroF f.sc
  let t ← ityF f.ty
  let o ← outF t.wide false f.dst f.nwb
  let a ← srcF (Src.isArith t.wide) f.sa
  let b ← srcF Src.isConstOrScope f.sb
  .ok (.bcast o f.pred t a b)

/-- A predicate destination p0 to p6 (R104). -/
def predDstF (c : Nat) : Dec Nat := if 704 ≤ c && c < 711 then .ok (c - 704) else .error .dest

def VWord.predBin (mk : Nat → Nat → Nat → Nat → Bool → Instr) (f : VWord) : Dec Instr := do
  f.plain; zeroF f.sc; zeroF f.ty
  let d ← predDstF f.dst
  let a ← predF f.sa
  let b ← predF f.sb
  .ok (mk d f.pred a b (f.nwb == 1))

def VWord.predNot (f : VWord) : Dec Instr := do
  f.plain; zeroF f.sb; zeroF f.sc; zeroF f.ty
  let d ← predDstF f.dst
  let a ← predF f.sa
  .ok (.pnot d f.pred a (f.nwb == 1))

def VWord.fmod (f : VWord) : FMod := ⟨rmOf f.rm, f.fs == 1, f.sat == 1⟩

def VWord.fltUn (mk : Out → Nat → FTy → FMod → Src → Instr) (f : VWord) : Dec Instr := do
  zeroF f.sb; zeroF f.sc
  let t ← ftyF f.ty
  let o ← outF t.wide false f.dst f.nwb
  let a ← srcF (Src.isArith t.wide) f.sa
  .ok (mk o f.pred t f.fmod a)

def VWord.fltBin (mk : Out → Nat → FTy → FMod → Src → Src → Instr) (f : VWord) : Dec Instr := do
  zeroF f.sc
  let t ← ftyF f.ty
  let o ← outF t.wide false f.dst f.nwb
  let a ← srcF (Src.isArith t.wide) f.sa
  let b ← srcF (Src.isArith t.wide) f.sb
  .ok (mk o f.pred t f.fmod a b)

def VWord.fltFma (f : VWord) : Dec Instr := do
  let t ← ftyF f.ty
  let o ← outF t.wide false f.dst f.nwb
  let a ← srcF (Src.isArith t.wide) f.sa
  let b ← srcF (Src.isArith t.wide) f.sb
  let c ← srcF (Src.isArith t.wide) f.sc
  .ok (.ffma o f.pred t f.fmod a b c)

def VWord.fltMinMax (mk : Out → Nat → FTy → Bool → Src → Src → Instr) (f : VWord) : Dec Instr := do
  zeroF f.sc; zeroF f.rm; zeroF f.sat
  let t ← ftyF f.ty
  let o ← outF t.wide false f.dst f.nwb
  let a ← srcF (Src.isArith t.wide) f.sa
  let b ← srcF (Src.isArith t.wide) f.sb
  .ok (mk o f.pred t (f.fs == 1) a b)

def VWord.fltSign (mk : Out → Nat → FTy → Src → Instr) (f : VWord) : Dec Instr := do
  f.plain; zeroF f.sb; zeroF f.sc
  let t ← ftyF f.ty
  let o ← outF t.wide false f.dst f.nwb
  let a ← srcF (Src.isArith t.wide) f.sa
  .ok (mk o f.pred t a)

def VWord.fltCmp (mk : Out → Nat → FTy → Bool → Src → Src → Instr) (f : VWord) : Dec Instr := do
  zeroF f.sc; zeroF f.rm; zeroF f.sat
  let t ← ftyF f.ty
  let o ← outF false true f.dst f.nwb
  let a ← srcF (Src.isArith t.wide) f.sa
  let b ← srcF (Src.isArith t.wide) f.sb
  .ok (mk o f.pred t (f.fs == 1) a b)

def VWord.fltClass (f : VWord) : Dec Instr := do
  f.plain; zeroF f.sb; zeroF f.sc
  let t ← ftyF f.ty
  let o ← outF false false f.dst f.nwb
  let a ← srcF (Src.isArith t.wide) f.sa
  .ok (.fclass o f.pred t a)

def VWord.fltScale (f : VWord) : Dec Instr := do
  zeroF f.sc
  let t ← ftyF f.ty
  let o ← outF t.wide false f.dst f.nwb
  let a ← srcF (Src.isArith t.wide) f.sa
  let n ← srcF (Src.isArith false) f.sb
  .ok (.fscale o f.pred t f.fmod a n)

def VWord.fltRound (f : VWord) : Dec Instr := do
  zeroF f.sb; zeroF f.sc; zeroF f.sat
  let t ← ftyF f.ty
  let o ← outF t.wide false f.dst f.nwb
  let a ← srcF (Src.isArith t.wide) f.sa
  .ok (.fround o f.pred t (rmOf f.rm) (f.fs == 1) a)

/-- `fcvt`: the source type stands in SC[14:11], which is the low four bits of the SC field (R44). -/
def VWord.fltCvt (f : VWord) : Dec Instr := do
  zeroF f.sb; zeroF (f.sc / 16)
  let t ← ftyF f.ty
  let u ← ftyF (f.sc % 16)
  let o ← outF t.wide false f.dst f.nwb
  let a ← srcF (Src.isArith u.wide) f.sa
  .ok (.fcvt o f.pred t f.fmod u a)

def VWord.fltCvti (f : VWord) : Dec Instr := do
  zeroF f.sb; zeroF (f.sc / 16); zeroF f.sat
  let t ← ityF f.ty
  let u ← ftyF (f.sc % 16)
  let o ← outF t.wide false f.dst f.nwb
  let a ← srcF (Src.isArith u.wide) f.sa
  .ok (.fcvti o f.pred t (rmOf f.rm) (f.fs == 1) u a)

def VWord.intCvt (f : VWord) : Dec Instr := do
  zeroF f.sb; zeroF (f.sc / 16)
  let t ← ftyF f.ty
  let u ← ityF (f.sc % 16)
  let o ← outF t.wide false f.dst f.nwb
  let a ← srcF (Src.isArith u.wide) f.sa
  .ok (.ficvt o f.pred t f.fmod u a)

def VWord.fltDot2 (f : VWord) : Dec Instr := do
  need .type (f.ty == 6 || f.ty == 7)
  let o ← outF false false f.dst f.nwb
  let a ← srcF (Src.isArith false) f.sa
  let b ← srcF (Src.isArith false) f.sb
  let c ← srcF (Src.isArith false) f.sc
  .ok (.fdot2 o f.pred (f.ty == 7) f.fmod a b c)

def VWord.fltDot4 (f : VWord) : Dec Instr := do
  let t ← f8tyF f.ty
  let o ← outF false false f.dst f.nwb
  let a ← srcF (Src.isArith false) f.sa
  let b ← srcF (Src.isArith false) f.sb
  let c ← srcF (Src.isArith false) f.sc
  .ok (.fdot4 o f.pred t f.fmod a b c)

def VWord.bxEnc (f : VWord) : Dec Instr := do
  zeroF f.sb; zeroF f.sc; zeroF f.rm; zeroF f.sat; zeroF f.nwb
  let t ← btyF f.ty
  need .dest (f.dst < 640 && f.dst % 2 == 0)
  let a ← quadF f.sa
  .ok (.bxenc f.dst f.pred t (f.fs == 1) a)

def VWord.bxDec (f : VWord) : Dec Instr := do
  f.plain; zeroF f.sc; zeroF f.nwb
  let t ← btyF f.ty
  need .dest (quadOk f.dst)
  let a ← srcF (Src.isArith false) f.sa
  let e ← srcF (Src.isArith false) f.sb
  .ok (.bxdec f.dst f.pred t a e)

def VWord.bxMax (f : VWord) : Dec Instr := do
  f.plain; zeroF f.sb; zeroF f.sc
  need .type (f.ty == 4)
  let o ← vecOutF f.dst f.nwb
  let a ← quadF f.sa
  .ok (.bxmax o f.pred a)

def VWord.pkFour (f : VWord) : Dec Instr := do
  zeroF f.fs; zeroF f.rm; zeroF f.sc
  need .type (f.ty == 12 || f.ty == 14)
  need .nonzero (f.ty == 14 || f.sat == 0)
  let o ← vecOutF f.dst f.nwb
  let a ← srcF (Src.isArith false) f.sa
  let b ← srcF (Src.isArith false) f.sb
  .ok (.pk4 o f.pred (f.ty == 14) (f.sat == 1) a b)

def VWord.upkFour (f : VWord) : Dec Instr := do
  f.plain; zeroF f.sc
  need .type (f.ty == 12 || f.ty == 14)
  let o ← vecOutF f.dst f.nwb
  let a ← srcF (Src.isArith false) f.sa
  let b ← srcF (Src.isArith false) f.sb
  .ok (.upk4 o f.pred (f.ty == 14) a b)

def VWord.sixBit (mk : Out → Nat → Src → Instr) (f : VWord) : Dec Instr := do
  f.plain; zeroF f.sb; zeroF f.sc
  need .type (f.ty == 11)
  let o ← vecOutF f.dst f.nwb
  let a ← srcF (Src.isArith false) f.sa
  .ok (mk o f.pred a)

def VWord.f8Enc (f : VWord) : Dec Instr := do
  zeroF f.sb; zeroF f.sc
  let t ← f8tyF f.ty
  let o ← vecOutF f.dst f.nwb
  let a ← quadF f.sa
  .ok (.f8enc o f.pred t f.fmod a)

def VWord.f8Dec (f : VWord) : Dec Instr := do
  f.plain; zeroF f.sb; zeroF f.sc; zeroF f.nwb
  let t ← f8tyF f.ty
  need .dest (quadOk f.dst)
  let a ← srcF (Src.isArith false) f.sa
  .ok (.f8dec f.dst f.pred t a)

def VWord.sclOp (f : VWord) : Dec Instr := do
  let t ← ftyF f.ty
  need .type (!t.wide)
  let o ← vecOutF f.dst f.nwb
  let a ← srcF (Src.isArith false) f.sa
  let b ← srcF (Src.isArith false) f.sb
  let c ← srcF (Src.isArith false) f.sc
  .ok (.scl o f.pred t f.fmod a b c)

/-- Integer V-format instructions (R98, R109). -/
def decodeInt (f : VWord) : Dec Instr :=
  match f.opc with
  | 0x040 => f.intBinSat .add
  | 0x041 => f.intBinSat .sub
  | 0x042 => f.intBinSat .mul
  | 0x043 => f.intBin .mulhi
  | 0x044 => f.intTerSat .mad
  | 0x045 => f.intBin .div
  | 0x046 => f.intBin .rem
  | 0x047 => f.intBin .min
  | 0x048 => f.intBin .max
  | 0x049 => f.intUnSat true .abs
  | 0x04A => f.intUnSat false .neg
  | 0x04B => f.intBin .and
  | 0x04C => f.intBin .or
  | 0x04D => f.intBin .xor
  | 0x04E => f.intBin .andn
  | 0x04F => f.intUn .not
  | 0x050 => f.intShiftSat .shl
  | 0x051 => f.intShift .shr
  | 0x052 => f.intShift .sar
  | 0x053 => f.intShift .rot
  | 0x054 => f.intUn .clz
  | 0x055 => f.intUn .popc
  | 0x056 => f.intUn .brev
  | 0x057 => f.intShift .bfx
  | 0x058 => f.intBfi
  | 0x059 => f.intShift .ext
  | 0x05A => f.intPred .csel
  | 0x05B => f.intUn .mov
  | 0x05C => f.intLea
  | 0x05D => f.intPred .addc
  | 0x05E => f.intPred .subb
  | 0x060 => f.intCmp .cmpEq
  | 0x061 => f.intCmp .cmpNe
  | 0x062 => f.intCmp .cmpLt
  | 0x063 => f.intCmp .cmpLe
  | 0x064 => f.intCmp .cmpGt
  | 0x065 => f.intCmp .cmpGe
  | 0x080 => f.intShift .shf
  | 0x081 => f.intShift .shfx
  | 0x082 => f.intShift .shfu
  | 0x083 => f.intShift .shfd
  | 0x084 => f.intBcast
  | 0x088 => f.predBin .pand
  | 0x089 => f.predBin .por
  | 0x08A => f.predBin .pxor
  | 0x08B => f.predNot
  | _ => .error .opcode

/-- Floating-point V-format instructions (R121). -/
def decodeFlt (f : VWord) : Dec Instr :=
  match f.opc with
  | 0x0C0 => f.fltBin .fadd
  | 0x0C1 => f.fltBin .fsub
  | 0x0C2 => f.fltBin .fmul
  | 0x0C3 => f.fltFma
  | 0x0C4 => f.fltMinMax .fmin
  | 0x0C5 => f.fltMinMax .fmax
  | 0x0C6 => f.fltSign .fabs
  | 0x0C7 => f.fltSign .fneg
  | 0x0C8 => f.fltCmp .fcmpEq
  | 0x0C9 => f.fltCmp .fcmpNe
  | 0x0CA => f.fltCmp .fcmpLt
  | 0x0CB => f.fltCmp .fcmpLe
  | 0x0CC => f.fltCmp .fcmpGt
  | 0x0CD => f.fltCmp .fcmpGe
  | 0x0CE => f.fltCmp .fcmpUn
  | 0x0CF => f.fltCmp .fcmpOr
  | 0x0D0 => f.fltClass
  | 0x0D1 => f.fltUn .frcp
  | 0x0D2 => f.fltUn .frsq
  | 0x0D3 => f.fltUn .fsqrt
  | 0x0D4 => f.fltBin .fdiv
  | 0x0D5 => f.fltUn .fexp2
  | 0x0D6 => f.fltUn .flog2
  | 0x0D7 => f.fltUn .fsin
  | 0x0D8 => f.fltUn .fcos
  | 0x0D9 => f.fltScale
  | 0x0DA => f.fltRound
  | 0x0DB => f.fltCvt
  | 0x0DC => f.fltCvti
  | 0x0DD => f.intCvt
  | 0x0DE => f.fltDot2
  | 0x0DF => f.fltDot4
  | _ => .error .opcode

/-- Narrow-format instructions (R139). -/
def decodeNarrow (f : VWord) : Dec Instr :=
  match f.opc with
  | 0x120 => f.bxEnc
  | 0x121 => f.bxDec
  | 0x122 => f.bxMax
  | 0x123 => f.pkFour
  | 0x124 => f.upkFour
  | 0x125 => f.sixBit .pk6
  | 0x126 => f.sixBit .upk6
  | 0x127 => f.f8Enc
  | 0x128 => f.f8Dec
  | 0x129 => f.sclOp
  | _ => .error .opcode

/-! ## I, M and C formats -/

def IWord.bin (mk : Out → Src → BitVec 32 → Instr) (f : IWord) : Dec Instr := do
  zeroF f.rsv
  let o ← outF false false f.dst f.nwb
  let a ← srcF (Src.isArith false) f.sa
  .ok (mk o a (BitVec.ofNat 32 f.imm))

/-- Shifts and `rot`: IMM[31:5] must be zero (R103). -/
def IWord.sh (mk : Out → Src → BitVec 5 → Instr) (f : IWord) : Dec Instr := do
  zeroF f.rsv
  need .value (f.imm < 32)
  let o ← outF false false f.dst f.nwb
  let a ← srcF (Src.isArith false) f.sa
  .ok (mk o a (BitVec.ofNat 5 f.imm))

def IWord.mov (f : IWord) : Dec Instr := do
  zeroF f.rsv; zeroF f.sa
  let o ← outF false false f.dst f.nwb
  .ok (.movi o (BitVec.ofNat 32 f.imm))

def IWord.lea (f : IWord) : Dec Instr := do
  zeroF f.rsv
  let o ← outF true false f.dst f.nwb
  let a ← srcF (Src.isArith true) f.sa
  .ok (.leaImm o a (BitVec.ofNat 32 f.imm))

/-- Immediate forms (R103). -/
def decodeImm (f : IWord) : Dec Instr :=
  match f.opc with
  | 0x068 => f.bin .addImm
  | 0x069 => f.bin .subImm
  | 0x06A => f.bin .mulImm
  | 0x06B => f.bin .andImm
  | 0x06C => f.bin .orImm
  | 0x06D => f.bin .xorImm
  | 0x06E => f.sh .shlImm
  | 0x06F => f.sh .shrImm
  | 0x070 => f.sh .sarImm
  | 0x071 => f.sh .rotImm
  | 0x072 => f.mov
  | 0x073 => f.lea
  | _ => .error .opcode

/-- The address fields of an M-format word (R46). -/
def MWord.op (f : MWord) : Dec MemOp := do
  let wd ← widthF f.width
  let b ← srcF (Src.isArith true) f.base
  let x ← srcF (Src.isArith false) f.index
  .ok { base := b, index := x, offs := BitVec.ofNat 12 f.offs, pred := f.pred, width := wd,
        hint := BitVec.ofNat 2 f.hint }

def loadOutF (wd : Width) (c nwb : Nat) : Dec Out :=
  match dstOf c with
  | some x => if loadDstOk ⟨x, nwb == 1⟩ wd then .ok ⟨x, nwb == 1⟩ else .error .dest
  | none => .error .dest

def MWord.load (sysOnly : Bool) (mk : Out → MemOp → Nat → Instr) (f : MWord) : Dec Instr := do
  let m ← f.op
  need .value (m.width.sysOk || !sysOnly)
  let o ← loadOutF m.width f.data f.nwb
  .ok (mk o m f.ctr)

def MWord.store (sysOnly : Bool) (mk : Nat → MemOp → Nat → Instr) (f : MWord) : Dec Instr := do
  let m ← f.op
  need .value (m.width.sysOk || !sysOnly)
  zeroF f.nwb
  need .dest (storeDataOk f.data m.width)
  .ok (mk f.data m f.ctr)

/-- No data and no counter: `pf`, `lunlock`. -/
def MWord.bare (mk : MemOp → Instr) (f : MWord) : Dec Instr := do
  let m ← f.op
  zeroF f.nwb; zeroF f.data; zeroF f.ctr
  .ok (mk m)

def MWord.lock (f : MWord) : Dec Instr := do
  let m ← f.op
  zeroF f.ctr
  let o ← outF false false f.data f.nwb
  .ok (.llock o m)

/-- Memory instructions in M format (R196). -/
def decodeMem (f : MWord) : Dec Instr :=
  match f.opc with
  | 0x160 => f.load false .ld
  | 0x161 => f.store false .st
  | 0x162 => f.load true .ldsys
  | 0x163 => f.store true .stsys
  | 0x164 => f.bare .pf
  | 0x165 => f.lock
  | 0x166 => f.bare .lunlock
  | _ => .error .opcode

/-- A C-format word that uses SCOPE alone. -/
def CWord.only (f : CWord) : Dec Scope := do
  zeroF f.sense; zeroF f.cond; zeroF f.target; zeroF f.join; zeroF f.rsv
  scopeF f.scope

/-- A scope that is the clause's own (R55): never lane. -/
def CWord.ownOnly (f : CWord) : Dec Scope := do
  let s ← f.only
  need .value s.own
  .ok s

def CWord.branch (f : CWord) : Dec Instr := do
  zeroF f.rsv
  let s ← scopeF f.scope
  let c ← srcF Src.isCond f.cond
  if f.sense == 0 then .ok (.bt s c (BitVec.ofNat 20 f.target) (BitVec.ofNat 16 f.join))
  else .ok (.bf s c (BitVec.ofNat 20 f.target) (BitVec.ofNat 16 f.join))

def CWord.jump (f : CWord) : Dec Instr := do
  zeroF f.rsv; zeroF f.sense; zeroF f.cond
  let s ← scopeF f.scope
  .ok (.br s (BitVec.ofNat 20 f.target) (BitVec.ofNat 16 f.join))

def CWord.loopOp (f : CWord) : Dec Instr := do
  zeroF f.rsv; zeroF f.sense
  let s ← scopeF f.scope
  need .value s.own
  let c ← srcF (Src.isArith false) f.cond
  .ok (.loop s c (BitVec.ofNat 20 f.target) (BitVec.ofNat 16 f.join))

def CWord.callOp (f : CWord) : Dec Instr := do
  zeroF f.rsv; zeroF f.sense; zeroF f.cond; zeroF f.join
  let s ← scopeF f.scope
  need .value s.own
  .ok (.call s (BitVec.ofNat 20 f.target))

/-- `callr` and `callt`: a source in COND and nothing else. -/
def CWord.condOnly (mk : Scope → Src → Instr) (f : CWord) : Dec Instr := do
  zeroF f.rsv; zeroF f.sense; zeroF f.target; zeroF f.join
  let s ← scopeF f.scope
  need .value s.own
  let c ← srcF (Src.isArith false) f.cond
  .ok (mk s c)

def CWord.lifOp (f : CWord) : Dec Instr := do
  zeroF f.rsv; zeroF f.target; zeroF f.join
  need .value (f.scope == 0)
  let c ← srcF Src.isCond f.cond
  .ok (.lif (f.sense == 1) c)

/-- A C-format word whose SCOPE is fixed and whose other fields are zero. -/
def CWord.fixed (n : Nat) (i : Instr) (f : CWord) : Dec Instr := do
  zeroF f.sense; zeroF f.cond; zeroF f.target; zeroF f.join; zeroF f.rsv
  need .value (f.scope == n)
  .ok i

/-- Control instructions (R75 to R83, R300). -/
def decodeCtl (f : CWord) : Dec Instr :=
  match f.opc with
  | 0x001 => f.jump
  | 0x002 => f.branch
  | 0x003 => f.loopOp
  | 0x004 => f.callOp
  | 0x005 => f.condOnly .callr
  | 0x006 => do let s ← f.ownOnly; .ok (.ret s)
  | 0x007 => f.fixed 1 .regang
  | 0x008 => f.lifOp
  | 0x009 => f.fixed 0 .lelse
  | 0x00A => f.fixed 0 .lendif
  | 0x00B => do let s ← f.only; need .value (s == .slice || s == .group || s == .block); .ok (.doneScope s)
  | 0x00C => do let s ← f.ownOnly; .ok (.nop s)
  | 0x00D => do let s ← f.only; need .value (s == .slice || s == .group); .ok (.yield s)
  | 0x1E9 => f.condOnly .callt
  | _ => .error .opcode

/-! ## K format -/

/-- D and NWB unused. -/
def KWord.noD (f : KWord) : Dec Unit := do
  zeroF f.d
  zeroF f.nwb

def KWord.vote (mk : Out → Src → Instr) (f : KWord) : Dec Instr := do
  zeroF f.sb; zeroF f.sc; zeroF f.fn
  let o ← outF false true f.d f.nwb
  let a ← srcF Src.isCond f.sa
  .ok (mk o a)

def KWord.vmaxOp (f : KWord) : Dec Instr := do
  zeroF f.sb; zeroF f.sc
  need .nonzero (f.fn < 2)
  let o ← outF false true f.d f.nwb
  let a ← srcF Src.isCond f.sa
  .ok (.vmax (f.fn == 1) o a)

def KWord.ixsetOp (f : KWord) : Dec Instr := do
  f.noD
  need .nonzero (f.fn < 16)
  let v ← srcF (Src.isArith false) f.sa
  if f.fn < 8 then
    let b ← srcF (Src.isArith false) f.sb
    let l ← srcF (Src.isArith false) f.sc
    .ok (.ixset f.fn false v b l)
  else
    zeroF f.sb; zeroF f.sc
    .ok (.ixset (f.fn - 8) true v (.vreg 0) (.vreg 0))

def KWord.ixgetOp (f : KWord) : Dec Instr := do
  zeroF f.sa; zeroF f.sb; zeroF f.sc
  need .value (f.fn < 24)
  let o ← vecOutF f.d f.nwb
  .ok (.ixget o (f.fn % 8) (f.fn / 8))

def KWord.symqOp (f : KWord) : Dec Instr := do
  zeroF f.sb; zeroF f.sc
  need .value (f.fn < 3 || f.fn == 5 || f.fn == 6)
  let o ← outF false false f.d f.nwb
  let a ← srcF Src.isSym f.sa
  .ok (.symq o a f.fn)

def KWord.symwOp (f : KWord) : Dec Instr := do
  f.noD; zeroF f.sb; zeroF f.sc
  need .nonzero (f.fn < 2)
  if f.fn == 1 then
    zeroF f.sa
    .ok (.symw true (.vreg 0))
  else
    let a ← srcF Src.isSym f.sa
    .ok (.symw false a)

/-- `scan`; FN[4] has no effect on add, and, or and xor (R110, DESIGN CHOICE log 130). -/
def KWord.scanOp (f : KWord) : Dec Instr := do
  zeroF f.sb; zeroF f.sc
  need .nonzero (f.fn < 32)
  let op ← scanOpF (f.fn % 8)
  let o ← outF false false f.d f.nwb
  let a ← srcF (Src.isArith false) f.sa
  .ok (.scan o op (f.fn / 8 % 2 == 1) (f.fn / 16 == 1) a)

def KWord.flgrdOp (f : KWord) : Dec Instr := do
  zeroF f.sa; zeroF f.sb; zeroF f.sc; zeroF f.fn
  let o ← vecOutF f.d f.nwb
  .ok (.flgrd o)

/-- One 32-bit source and nothing else. -/
def KWord.src1 (mk : Src → Instr) (f : KWord) : Dec Instr := do
  f.noD; zeroF f.sb; zeroF f.sc; zeroF f.fn
  let a ← srcF (Src.isArith false) f.sa
  .ok (mk a)

/-- A destination and one source. -/
def KWord.outSrc (predOk wide : Bool) (mk : Out → Src → Instr) (f : KWord) : Dec Instr := do
  zeroF f.sb; zeroF f.sc; zeroF f.fn
  let o ← outF false predOk f.d f.nwb
  let a ← srcF (Src.isArith wide) f.sa
  .ok (mk o a)

/-- A 32-bit source that FN[0] = 1 replaces by nothing (`bmirror`, `ecancel`). -/
def KWord.optSrc (mk : Option Src → Instr) (f : KWord) : Dec Instr := do
  f.noD; zeroF f.sb; zeroF f.sc
  need .nonzero (f.fn < 2)
  if f.fn == 1 then
    zeroF f.sa
    .ok (mk none)
  else
    let a ← srcF (Src.isArith false) f.sa
    .ok (mk (some a))

def KWord.mloadOp (f : KWord) : Dec Instr := do
  need .nonzero (f.fn < 128)
  let t ← mtyF (f.fn % 16)
  let o ← outF false true f.d f.nwb
  let h ← handleF f.sa
  let b ← srcF (Src.isArith true) f.sb
  let x ← srcF (Src.isArith false) f.sc
  .ok (.mload o h b x t (f.fn / 16))

def KWord.mfreeOp (f : KWord) : Dec Instr := do
  f.noD; zeroF f.sb; zeroF f.sc; zeroF f.fn
  match srcOf f.sa with
  | some (.tile n) => .ok (.mfree true n)
  | some (.handle n) => .ok (.mfree false n)
  | _ => .error .source

def KWord.mmaOp (f : KWord) : Dec Instr := do
  f.noD
  need .nonzero (f.fn < 256)
  let acc ← tileF f.sa
  let a ← handleF f.sb
  need .value (f.fn < 128 || acc % 2 == 0)
  match srcOf f.sc with
  | some (.handle b) =>
      zeroF (f.fn % 16)
      .ok (.mma acc a b (f.fn / 16 % 8) (f.fn / 128 == 1) none)
  | some (.vreg v) =>
      let t ← mtyF (f.fn % 16)
      need .type t.panelOk
      .ok (.mma acc a 0 (f.fn / 16 % 8) (f.fn / 128 == 1) (some (t, v)))
  | _ => .error .source

def KWord.mzeroOp (f : KWord) : Dec Instr := do
  f.noD; zeroF f.sb; zeroF f.sc; zeroF f.fn
  let a ← tileF f.sa
  .ok (.mzero a)

def KWord.mstoreOp (f : KWord) : Dec Instr := do
  f.noD; zeroF f.fn
  let a ← tileF f.sa
  let b ← srcF (Src.isArith true) f.sb
  let x ← srcF (Src.isArith false) f.sc
  .ok (.mstore a b x)

def KWord.mscaleOp (f : KWord) : Dec Instr := do
  f.noD; zeroF f.sc
  need .nonzero (f.fn < 2)
  let b ← srcF (Src.isArith false) f.sb
  if f.fn == 1 then
    zeroF f.sa
    .ok (.mscale none b)
  else
    let h ← handleF f.sa
    .ok (.mscale (some h) b)

def KWord.mgetOp (f : KWord) : Dec Instr := do
  zeroF f.nwb; zeroF f.sb; zeroF f.sc; zeroF f.fn
  need .dest (f.d < 640)
  let a ← tileF f.sa
  .ok (.mget f.d a)

def KWord.mputOp (f : KWord) : Dec Instr := do
  f.noD; zeroF f.sc; zeroF f.fn
  let a ← tileF f.sa
  let v ← vregF f.sb
  .ok (.mput a v)

def KWord.merrOp (f : KWord) : Dec Instr := do
  zeroF f.sa; zeroF f.sb; zeroF f.sc
  need .value (f.fn < 5)
  let o ← outF false true f.d f.nwb
  .ok (.merr o f.fn)

/-- Every field zero. -/
def KWord.allZero (i : Instr) (f : KWord) : Dec Instr := do
  f.noD; zeroF f.sa; zeroF f.sb; zeroF f.sc; zeroF f.fn
  .ok i

def KWord.lquotaOp (f : KWord) : Dec Instr := do
  zeroF f.sa; zeroF f.sb; zeroF f.sc
  need .nonzero (f.fn < 2)
  let o ← outF false false f.d f.nwb
  .ok (.lquota o (f.fn == 1))

def KWord.biasOp (f : KWord) : Dec Instr := do
  zeroF f.sb; zeroF f.sc
  need .nonzero (f.fn < 2)
  let o ← outF false false f.d f.nwb
  let a ← srcF (Src.isArith true) f.sa
  if f.fn == 1 then .ok (.biasDev o a) else .ok (.biasHost o a)

def KWord.battachOp (f : KWord) : Dec Instr := do
  zeroF f.sc
  need .nonzero (f.fn < 2)
  let o ← outF false true f.d f.nwb
  let a ← srcF (Src.isArith false) f.sa
  if f.fn == 1 then
    zeroF f.sb
    .ok (.battach o a none)
  else
    let b ← srcF (Src.isArith false) f.sb
    .ok (.battach o a (some b))

def KWord.giveOp (f : KWord) : Dec Instr := do
  need .nonzero (f.fn < 2)
  let o ← outF false true f.d f.nwb
  let a ← srcF (Src.isArith false) f.sa
  let b ← srcF (Src.isArith false) f.sb
  let c ← srcF (Src.isArith false) f.sc
  .ok (.give o a b c (f.fn == 1))

def KWord.bstatOp (f : KWord) : Dec Instr := do
  zeroF f.sb; zeroF f.sc
  need .value (f.fn == 0 || f.fn == 1 || f.fn == 3)
  let o ← outF false true f.d f.nwb
  if f.fn == 0 then
    let a ← srcF (Src.isArith false) f.sa
    .ok (.bstat o (some a) false)
  else
    zeroF f.sa
    .ok (.bstat o none (f.fn == 3))

/-- `bshare` and `bshare.off`, whose D and SB are zero (R222); FN = 3 is no value of the table (R212, DEDUCED log 9). -/
def KWord.bshareOp (f : KWord) : Dec Instr := do
  zeroF f.sc
  need .nonzero (f.fn < 3)
  let a ← srcF (Src.isArith false) f.sa
  if f.fn < 2 then
    let o ← outF false true f.d f.nwb
    let b ← srcF (Src.isArith false) f.sb
    .ok (.bshare o a b (f.fn == 1))
  else
    f.noD; zeroF f.sb
    .ok (.bshareOff a)

def KWord.cpyOp (f : KWord) : Dec Instr := do
  need .nonzero (f.fn < 16)
  let tag ← tagF (f.fn % 8)
  let o ← outF false false f.d f.nwb
  let a ← srcF (Src.isArith true) f.sa
  let b ← srcF (Src.isArith true) f.sb
  let c ← srcF (Src.isArith false) f.sc
  .ok (.cpy o a b c tag (f.fn / 8 == 1))

/-- `cpyd` and `coll`: a descriptor, a tag and `.sh`. -/
def KWord.descOp (mk : Out → Src → Option Nat → Bool → Instr) (f : KWord) : Dec Instr := do
  zeroF f.sb; zeroF f.sc
  need .nonzero (f.fn < 16)
  let tag ← tagF (f.fn % 8)
  let o ← outF false false f.d f.nwb
  let a ← srcF (Src.isArith true) f.sa
  .ok (mk o a tag (f.fn / 8 == 1))

/-- `gat` and `sct`. -/
def KWord.laneCopy (mk : Out → Src → Src → Src → Option Nat → Instr) (f : KWord) : Dec Instr := do
  need .nonzero (f.fn < 8)
  let tag ← tagF (f.fn % 8)
  let o ← outF false false f.d f.nwb
  let a ← srcF (Src.isArith true) f.sa
  let b ← srcF (Src.isArith true) f.sb
  let c ← srcF (Src.isArith false) f.sc
  .ok (mk o a b c tag)

def KWord.pubOp (f : KWord) : Dec Instr := do
  zeroF f.sc
  need .nonzero (f.fn < 2)
  let o ← outF false false f.d f.nwb
  let a ← srcF (Src.isArith true) f.sa
  let b ← srcF (Src.isArith false) f.sb
  .ok (.pub o a b (f.fn == 1))

/-- The destination of an atomic: none with `.nr`, where D and NWB are zero (R255). -/
def KWord.atOut (f : KWord) (wide : Bool) : Dec (Option Out) :=
  if f.fn / 4 == 1 then (if f.d == 0 && f.nwb == 0 then .ok none else .error .nonzero)
  else match outF wide false f.d f.nwb with
    | .ok o => .ok (some o)
    | .error e => .error e

/-- An atomic of one operand: SC and Z are zero, FN[10:3] is zero, W (FN[0]) gives the widths of D and SB, SA is 64 bits wide
(R255). -/
def KWord.atomic (mk : Option Out → Bool → Src → Src → Instr) (f : KWord) : Dec Instr := do
  zeroF f.sc
  need .nonzero (f.fn < 8 && f.fn / 2 % 2 == 0)
  let o ← f.atOut (f.fn % 2 == 1)
  let a ← srcF (Src.isArith true) f.sa
  let b ← srcF (Src.isArith (f.fn % 2 == 1)) f.sb
  .ok (mk o (f.fn % 2 == 1) a b)

/-- `amin` and `amax`, which alone may set Z (FN[1]) (R255). -/
def KWord.atomicU (mk : Option Out → Bool → Bool → Src → Src → Instr) (f : KWord) : Dec Instr := do
  zeroF f.sc
  need .nonzero (f.fn < 8)
  let o ← f.atOut (f.fn % 2 == 1)
  let a ← srcF (Src.isArith true) f.sa
  let b ← srcF (Src.isArith (f.fn % 2 == 1)) f.sb
  .ok (mk o (f.fn % 2 == 1) (f.fn / 2 % 2 == 1) a b)

/-- `acas`: SB the value compared, SC the new one (R255, R256). -/
def KWord.acasOp (f : KWord) : Dec Instr := do
  need .nonzero (f.fn < 8 && f.fn / 2 % 2 == 0)
  let o ← f.atOut (f.fn % 2 == 1)
  let a ← srcF (Src.isArith true) f.sa
  let b ← srcF (Src.isArith (f.fn % 2 == 1)) f.sb
  let c ← srcF (Src.isArith (f.fn % 2 == 1)) f.sc
  .ok (.acas o (f.fn % 2 == 1) a b c)

/-- `wcmp`: FN[2:0] the relation, FN[3] Z, FN[4] W (R270). -/
def KWord.wcmpOp (f : KWord) : Dec Instr := do
  zeroF f.sc
  need .nonzero (f.fn < 32)
  let o ← outF false true f.d f.nwb
  let a ← srcF (Src.isArith true) f.sa
  let b ← srcF (Src.isArith (f.fn / 16 == 1)) f.sb
  match f.fn % 8 with
  | 0 => .ok (.wcmpEq o (f.fn / 16 == 1) (f.fn / 8 % 2 == 1) a b)
  | 1 => .ok (.wcmpNe o (f.fn / 16 == 1) (f.fn / 8 % 2 == 1) a b)
  | 2 => .ok (.wcmpLt o (f.fn / 16 == 1) (f.fn / 8 % 2 == 1) a b)
  | 3 => .ok (.wcmpLe o (f.fn / 16 == 1) (f.fn / 8 % 2 == 1) a b)
  | 4 => .ok (.wcmpGt o (f.fn / 16 == 1) (f.fn / 8 % 2 == 1) a b)
  | 5 => .ok (.wcmpGe o (f.fn / 16 == 1) (f.fn / 8 % 2 == 1) a b)
  | 6 => .ok (.wcmpAny o (f.fn / 16 == 1) (f.fn / 8 % 2 == 1) a b)
  | _ => .error .value

def KWord.bararrOp (f : KWord) : Dec Instr := do
  zeroF f.sb; zeroF f.sc
  need .nonzero (f.fn < 32)
  let o ← outF false false f.d f.nwb
  let a ← srcF (Src.isArith false) f.sa
  .ok (.bararr o (f.fn % 2 == 1) (f.fn / 2) a)

/-- `barwait` and `barsync`. -/
def KWord.barOp (mk : Bool → Nat → Src → Instr) (f : KWord) : Dec Instr := do
  f.noD; zeroF f.sb; zeroF f.sc
  need .nonzero (f.fn < 32)
  let a ← srcF (Src.isArith false) f.sa
  .ok (mk (f.fn % 2 == 1) (f.fn / 2) a)

def KWord.fenceOp (f : KWord) : Dec Instr := do
  f.noD; zeroF f.sa; zeroF f.sb; zeroF f.sc
  need .nonzero (f.fn < 32)
  let k ← fkindF (f.fn / 4)
  need .value (k == .mir || k == .eng || k == .all || fscopeOf (f.fn % 4) == .system)
  .ok (.fence (fscopeOf (f.fn % 4)) k)

def KWord.cpubOp (f : KWord) : Dec Instr := do
  zeroF f.sc
  need .value (f.fn < 3)
  let o ← outF false false f.d f.nwb
  let a ← srcF (Src.isArith true) f.sa
  let b ← srcF (Src.isArith false) f.sb
  .ok (.cpub o a b (fscopeOf f.fn))

def KWord.bindOp (f : KWord) : Dec Instr := do
  zeroF f.sc; zeroF f.fn
  let o ← outF false false f.d f.nwb
  let a ← srcF (Src.isArith true) f.sa
  let b ← srcF (Src.isArith true) f.sb
  .ok (.bind o a b)

/-- `cnt`: FN[1:0] the operation, FN[3:2] the kind (R328). -/
def KWord.cntOp (f : KWord) : Dec Instr := do
  zeroF f.sb; zeroF f.sc
  need .nonzero (f.fn < 16)
  let o ← outF false false f.d f.nwb
  match f.fn % 4 with
  | 0 =>
      zeroF (f.fn / 4)
      let a ← srcF (Src.isArith false) f.sa
      .ok (.cntRd o a)
  | 1 =>
      zeroF f.sa
      .ok (.cntSelf o (ckindOf (f.fn / 4)))
  | 2 =>
      need .value (f.fn / 4 == 1 || f.fn / 4 == 2)
      let a ← srcF (Src.isArith false) f.sa
      .ok (.cntNew o (ckindOf (f.fn / 4)) a)
  | _ =>
      zeroF (f.fn / 4)
      let a ← srcF (Src.isArith false) f.sa
      .ok (.cntClose o a)

def KWord.cancelOp (f : KWord) : Dec Instr := do
  zeroF f.sb; zeroF f.sc
  need .nonzero (f.fn < 2)
  let o ← outF false false f.d f.nwb
  let a ← srcF (Src.isArith false) f.sa
  if f.fn == 1 then .ok (.cancelDrain o a) else .ok (.cancel o a)

/-- K-format instructions below 0x140 (R84, R105 to R110, R130). -/
def decodeKLow (f : KWord) : Dec Instr :=
  match f.opc with
  | 0x010 => f.vote .vany
  | 0x011 => f.vote .vall
  | 0x012 => f.vote .vfirst
  | 0x013 => f.vote .vcount
  | 0x014 => f.vote .vsum
  | 0x015 => f.vmaxOp
  | 0x078 => f.ixsetOp
  | 0x079 => f.ixgetOp
  | 0x07A => f.symqOp
  | 0x07B => f.symwOp
  | 0x085 => f.scanOp
  | 0x0E0 => f.flgrdOp
  | 0x0E1 => f.src1 .flgclr
  | 0x0E2 => f.src1 .flgset
  | _ => .error .opcode

/-- Matrix, memory-command, bank and engine instructions (R166, R196, R212, R241). -/
def decodeKMid (f : KWord) : Dec Instr :=
  match f.opc with
  | 0x140 => f.mloadOp
  | 0x141 => f.mfreeOp
  | 0x142 => f.mmaOp
  | 0x143 => f.mzeroOp
  | 0x144 => f.mstoreOp
  | 0x145 => f.mscaleOp
  | 0x146 => f.mgetOp
  | 0x147 => f.mputOp
  | 0x148 => f.merrOp
  | 0x149 => f.allZero .mclr
  | 0x167 => f.lquotaOp
  | 0x168 => f.biasOp
  | 0x1A0 => f.battachOp
  | 0x1A1 => f.src1 .bdetach
  | 0x1A2 => f.giveOp
  | 0x1A3 => f.outSrc true false .bwait
  | 0x1A4 => f.bstatOp
  | 0x1A5 => f.src1 .bzero
  | 0x1A6 => f.optSrc .bmirror
  | 0x1A7 => f.bshareOp
  | 0x1B0 => f.cpyOp
  | 0x1B1 => f.descOp .cpyd
  | 0x1B2 => f.laneCopy .gat
  | 0x1B3 => f.laneCopy .sct
  | 0x1B4 => f.descOp .coll
  | 0x1B5 => f.outSrc false false .ewait
  | 0x1B6 => f.outSrc false false .epoll
  | 0x1B7 => f.pubOp
  | 0x1B8 => f.optSrc .ecancel
  | _ => .error .opcode

/-- Atomics, synchronisation, ordering, code and launch instructions (R255, R270, R282, R284, R297, R303, R328). -/
def decodeKHigh (f : KWord) : Dec Instr :=
  match f.opc with
  | 0x1C0 => f.atomic .aadd
  | 0x1C1 => f.atomicU .amin
  | 0x1C2 => f.atomicU .amax
  | 0x1C3 => f.atomic .aand
  | 0x1C4 => f.atomic .aor
  | 0x1C5 => f.atomic .axor
  | 0x1C6 => f.atomic .axchg
  | 0x1C7 => f.acasOp
  | 0x1C8 => f.atomic .afadd
  | 0x1C9 => f.atomic .ainc
  | 0x1CA => f.wcmpOp
  | 0x1CB => f.outSrc false true .wcancel
  | 0x1CC => f.bararrOp
  | 0x1CD => f.barOp .barwait
  | 0x1CE => f.barOp .barsync
  | 0x1E0 => f.fenceOp
  | 0x1E1 => f.allZero .swf
  | 0x1E8 => f.cpubOp
  | 0x1EA => f.bindOp
  | 0x1F0 => f.outSrc false true .launch
  | 0x1F1 => f.cntOp
  | 0x1F2 => f.outSrc false false .cwait
  | 0x1F3 => f.cancelOp
  | _ => .error .opcode

/-! ## S format -/

def SWord.imm (mk : BitVec 22 → Instr) (f : SWord) : Dec Instr := do
  zeroF f.d; zeroF f.crn; zeroF f.sa
  .ok (mk (BitVec.ofNat 22 f.fn))

def SWord.eretOp (f : SWord) : Dec Instr := do
  zeroF f.crn
  need .nonzero (f.fn < 2)
  let d ← dstF false false f.d
  let a ← srcF (Src.isArith true) f.sa
  if f.fn == 1 then .ok (.eretKill d a) else .ok (.eret d a)

def SWord.mfcrOp (f : SWord) : Dec Instr := do
  zeroF f.sa; zeroF f.fn
  need .value (crnKnown f.crn)
  let d ← dstF false false f.d
  .ok (.mfcr d f.crn)

def SWord.mtcrOp (f : SWord) : Dec Instr := do
  zeroF f.d; zeroF f.fn
  need .value (crnKnown f.crn)
  let a ← srcF (Src.isArith false) f.sa
  .ok (.mtcr f.crn a)

def SWord.csaveOp (f : SWord) : Dec Instr := do
  zeroF f.crn; zeroF f.fn
  let d ← dstF false false f.d
  let a ← srcF (Src.isArith true) f.sa
  .ok (.csave d a)

def SWord.crestOp (f : SWord) : Dec Instr := do
  zeroF f.crn
  need .nonzero (f.fn < 32)
  let d ← dstF false false f.d
  let a ← srcF (Src.isArith false) f.sa
  .ok (.crest d a (f.fn % 16) (f.fn / 16 == 1))

def SWord.masterOp (f : SWord) : Dec Instr := do
  zeroF f.crn
  let d ← dstF false false f.d
  let a ← srcF (Src.isArith false) f.sa
  match f.fn with
  | 0 => .ok (.freeze d a)
  | 1 => .ok (.thaw d a)
  | 2 => .ok (.halt d a)
  | _ => .error .value

/-- System instructions (R352). -/
def decodeSys (f : SWord) : Dec Instr :=
  match f.opc with
  | 0x1F8 => f.imm .trap
  | 0x1F9 => f.imm .brk
  | 0x1FA => f.eretOp
  | 0x1FB => f.mfcrOp
  | 0x1FC => f.mtcrOp
  | 0x1FD => f.csaveOp
  | 0x1FE => f.crestOp
  | 0x1FF => f.masterOp
  | _ => .error .opcode

/-! ## The decoder -/

/-- Decodes an instruction word by its opcode (R54). Total: every word is an instruction or is rejected by name. -/
def decode (w : Nat) : Dec Instr :=
  let opc := bitsOf w 55 9
  if opc < 0x010 then decodeCtl (CWord.parse w)
  else if opc < 0x040 then decodeKLow (KWord.parse w)
  else if opc < 0x068 then decodeInt (VWord.parse w)
  else if opc < 0x078 then decodeImm (IWord.parse w)
  else if opc < 0x080 then decodeKLow (KWord.parse w)
  else if opc < 0x085 then decodeInt (VWord.parse w)
  else if opc < 0x088 then decodeKLow (KWord.parse w)
  else if opc < 0x0C0 then decodeInt (VWord.parse w)
  else if opc < 0x0E0 then decodeFlt (VWord.parse w)
  else if opc < 0x120 then decodeKLow (KWord.parse w)
  else if opc < 0x140 then decodeNarrow (VWord.parse w)
  else if opc < 0x160 then decodeKMid (KWord.parse w)
  else if opc < 0x167 then decodeMem (MWord.parse w)
  else if opc < 0x1C0 then decodeKMid (KWord.parse w)
  else if opc == 0x1E9 then decodeCtl (CWord.parse w)
  else if opc < 0x1F8 then decodeKHigh (KWord.parse w)
  else decodeSys (SWord.parse w)

/-- The number that bytes stand for, lowest address first (R3: little-endian). -/
def leNat : List Byte → Nat
  | [] => 0
  | b :: bs => b.toNat + 256 * leNat bs

/-- The low `n` bytes of a number, lowest address first. -/
def leBytes : Nat → Nat → List Byte
  | 0, _ => []
  | n + 1, w => BitVec.ofNat 8 w :: leBytes n (w / 256)

/-- Decodes the instruction that bytes hold, with the rest; fewer than eight bytes are rejected. -/
def decodeBytes (bs : List Byte) : Dec (Instr × List Byte) :=
  if bs.length < 8 then .error .short
  else match decode (leNat (bs.take 8)) with
    | .ok i => .ok (i, bs.drop 8)
    | .error e => .error e

/-- The decoder on a word numbered as the opcode table numbers it, laid out as the hardware stores it. -/
def decodeTableWord (_nbits w : Nat) : Option Instr :=
  match decodeBytes (leBytes 8 w) with
  | .ok (i, _) => some i
  | .error _ => none

/-! ## Checks that depend on the clause -/

/-- The scope of a clause class (R55). -/
def Cls.scope : Cls → Scope
  | .slice => .slice | .group => .group | .block => .block | .gang => .gang | .grid => .grid

def clsAll : List Cls := [.slice, .group, .block, .gang, .grid]
def clsSGB : List Cls := [.slice, .group, .block]

/-- The Classes column of R54; a step of the part belongs to no clause. -/
def Instr.classes : Instr → List Cls
  | .br .. | .bt .. | .bf .. | .loop .. | .call .. | .callr .. | .ret .. | .nop .. => clsAll
  | .regang | .lif .. | .lelse | .lendif => [.slice]
  | .doneScope .. => clsSGB
  | .yield .. => [.slice, .group]
  | .vany .. | .vall .. | .vfirst .. | .vcount .. | .vsum .. | .vmax .. => clsAll
  | .add .. | .sub .. | .mul .. | .mulhi .. | .mad .. | .div .. | .rem .. | .min .. | .max .. | .abs .. | .neg ..
  | .and .. | .or .. | .xor .. | .andn .. | .not .. | .shl .. | .shr .. | .sar .. | .rot .. | .clz .. | .popc ..
  | .brev .. | .bfx .. | .bfi .. | .ext .. | .csel .. | .mov .. | .lea .. | .addc .. | .subb .. => clsAll
  | .cmpEq .. | .cmpNe .. | .cmpLt .. | .cmpLe .. | .cmpGt .. | .cmpGe .. => clsAll
  | .addImm .. | .subImm .. | .mulImm .. | .andImm .. | .orImm .. | .xorImm .. | .shlImm .. | .shrImm ..
  | .sarImm .. | .rotImm .. | .movi .. | .leaImm .. => clsAll
  | .ixset .. | .ixget .. => [.slice]
  | .symq .. | .symw .. => [.slice, .group]
  | .shf .. | .shfx .. | .shfu .. | .shfd .. | .bcast .. | .scan .. => [.slice]
  | .pand .. | .por .. | .pxor .. | .pnot .. => clsAll
  | .fadd .. | .fsub .. | .fmul .. | .ffma .. | .fmin .. | .fmax .. | .fabs .. | .fneg .. => [.slice, .group]
  | .fcmpEq .. | .fcmpNe .. | .fcmpLt .. | .fcmpLe .. | .fcmpGt .. | .fcmpGe .. | .fcmpUn .. | .fcmpOr .. =>
      [.slice, .group]
  | .fclass .. | .frcp .. | .frsq .. | .fsqrt .. | .fdiv .. | .fexp2 .. | .flog2 .. | .fsin .. | .fcos ..
  | .fscale .. | .fround .. | .fcvt .. | .fcvti .. | .ficvt .. | .fdot2 .. | .fdot4 .. => [.slice, .group]
  | .flgrd .. | .flgclr .. | .flgset .. => [.slice]
  | .bxenc .. | .bxdec .. | .bxmax .. | .pk4 .. | .upk4 .. | .pk6 .. | .upk6 .. | .f8enc .. | .f8dec ..
  | .scl .. => [.slice]
  | .mload .. | .mfree .. | .mma .. | .mzero .. | .mstore .. | .mscale .. | .mget .. | .mput .. | .merr ..
  | .mclr => [.block]
  | .ld .. | .st .. => clsAll
  | .ldsys .. | .stsys .. | .pf .. | .llock .. | .lunlock .. | .lquota .. | .biasDev .. | .biasHost .. => clsSGB
  | .battach .. | .bdetach .. | .give .. | .bwait .. | .bstat .. | .bzero .. | .bmirror .. | .bshare ..
  | .bshareOff .. => [.block]
  | .cpy .. | .cpyd .. | .gat .. | .sct .. | .coll .. | .ewait .. | .epoll .. | .ecancel .. => clsSGB
  | .pub .. => [.block, .gang, .grid]
  | .aadd .. | .amin .. | .amax .. | .aand .. | .aor .. | .axor .. | .axchg .. | .acas .. | .afadd ..
  | .ainc .. => clsSGB
  | .wcmpEq .. | .wcmpNe .. | .wcmpLt .. | .wcmpLe .. | .wcmpGt .. | .wcmpGe .. | .wcmpAny .. | .wcancel .. =>
      [.slice, .group]
  | .bararr .. | .barwait .. | .barsync .. => clsSGB
  | .fence .. => clsAll
  | .swf => [.block]
  | .cpub .. | .bind .. => clsSGB
  | .callt .. => clsAll
  | .launch .. => [.block, .gang, .grid]
  | .cntRd .. | .cntSelf .. | .cntNew .. | .cntClose .. => clsAll
  | .cwait .. => [.group, .block, .gang, .grid]
  | .cancel .. | .cancelDrain .. => [.block, .gang, .grid]
  | .trap .. => clsSGB
  | .brk .. | .mfcr .. => clsAll
  | .mtcr .. => clsSGB
  | .eret .. | .eretKill .. | .csave .. | .crest .. | .freeze .. | .thaw .. | .halt .. => [.block]
  | .matrixQueueExecute .. | .biasFlip .. | .accessQueueIssue .. | .queuedStorePerform .. | .symbolResolve ..
  | .memoryAccessComplete .. | .homeSliceWrite .. | .bankDrainComplete .. | .engineRead .. | .drainEngineWrite ..
  | .pageBoundaryRevalidation .. | .swapOut .. | .blockRestore .. | .drainTillerQueue .. | .drainMirrorQueue ..
  | .drainSystemQueue .. | .drainInboundQueue .. | .captureSystemLine .. | .captureCodeLine .. | .calltRepoll ..
  | .clauseHeader .. | .groupPromotion .. | .cancelDelivery .. | .launchReady .. | .gridSequencerTake ..
  | .ticketDispense .. | .blockStart .. | .blockRetirement .. | .jobdb .. | .joback .. | .faultDelivery ..
  | .faultRecordPost .. | .stateerr .. | .resolve .. | .s2Map .. | .s2Unmap .. | .s2Inval .. | .stage2WaitComplete
  | .s2Scrub .. | .s2Table .. | .s2Untable .. | .s2Shadd .. | .s2Shdel .. | .s2Expose .. | .s2Retire ..
  | .rangeRegisterStage .. | .rangeRegisterCommit .. | .rrsync .. | .contextTableWrite .. | .spdiv ..
  | .spdivChange .. | .apctl .. | .apertureRead .. | .apertureWrite .. | .hdmbaseWrite .. | .cxlMemRead ..
  | .cxlMemWrite .. | .snpData .. | .snpInv .. | .hccEviction .. | .hostLinkTraining .. | .functionLevelReset ..
  | .peerInboundRequest .. | .linkFailure .. | .bandwidthTokenRefill .. | .statusWindowRefresh .. | .drain ..
  | .undrain .. | .enterService .. | .exitService .. | .quiesce .. | .recal .. | .recalComplete .. | .spare ..
  | .update .. | .resume .. | .extend .. | .report .. | .registerWrite .. | .powerOn .. | .throttle ..
  | .thermalTrip .. | .debugPortRead .. | .modulePowerLoss | .conventionalReset | .measuredDebugEnable => []

/-- Whether the SCOPE field agrees with the clause (R55). -/
def Instr.scopeOk (c : Cls) : Instr → Bool
  | .br sc _ _ | .bt sc _ _ _ | .bf sc _ _ _ => sc == c.scope || (c == .slice && sc == .lane)
  | .loop sc _ _ _ | .call sc _ | .callr sc _ | .ret sc | .callt sc _ | .doneScope sc | .nop sc | .yield sc =>
      sc == c.scope
  | _ => true

/-- The destination an instruction writes, whose value its latch holds (R89, R137, R352); none for an instruction that
writes no result. -/
def Instr.out : Instr → Option Out
  | .vany o _ | .vall o _ | .vfirst o _ | .vcount o _ | .vsum o _ | .vmax _ o _ | .add o _ _ _ _ _
  | .sub o _ _ _ _ _ | .mul o _ _ _ _ _ | .mulhi o _ _ _ _ | .mad o _ _ _ _ _ _ | .div o _ _ _ _
  | .rem o _ _ _ _ | .min o _ _ _ _ | .max o _ _ _ _ | .abs o _ _ _ _ | .neg o _ _ _ _ | .and o _ _ _ _
  | .or o _ _ _ _ | .xor o _ _ _ _ | .andn o _ _ _ _ | .not o _ _ _ | .shl o _ _ _ _ _ | .shr o _ _ _ _
  | .sar o _ _ _ _ | .rot o _ _ _ _ | .clz o _ _ _ | .popc o _ _ _ | .brev o _ _ _ | .bfx o _ _ _ _
  | .bfi o _ _ _ _ _ | .ext o _ _ _ _ | .csel o _ _ _ _ _ | .mov o _ _ _ | .lea o _ _ _ _ _ | .addc o _ _ _ _ _
  | .subb o _ _ _ _ _ | .cmpEq o _ _ _ _ | .cmpNe o _ _ _ _ | .cmpLt o _ _ _ _ | .cmpLe o _ _ _ _
  | .cmpGt o _ _ _ _ | .cmpGe o _ _ _ _ | .addImm o _ _ | .subImm o _ _ | .mulImm o _ _ | .andImm o _ _
  | .orImm o _ _ | .xorImm o _ _ | .shlImm o _ _ | .shrImm o _ _ | .sarImm o _ _ | .rotImm o _ _ | .movi o _
  | .leaImm o _ _ | .ixget o _ _ | .symq o _ _ | .shf o _ _ _ _ | .shfx o _ _ _ _ | .shfu o _ _ _ _
  | .shfd o _ _ _ _ | .bcast o _ _ _ _ | .scan o _ _ _ _ | .fadd o _ _ _ _ _ | .fsub o _ _ _ _ _
  | .fmul o _ _ _ _ _ | .ffma o _ _ _ _ _ _ | .fmin o _ _ _ _ _ | .fmax o _ _ _ _ _ | .fabs o _ _ _
  | .fneg o _ _ _ | .fcmpEq o _ _ _ _ _ | .fcmpNe o _ _ _ _ _ | .fcmpLt o _ _ _ _ _ | .fcmpLe o _ _ _ _ _
  | .fcmpGt o _ _ _ _ _ | .fcmpGe o _ _ _ _ _ | .fcmpUn o _ _ _ _ _ | .fcmpOr o _ _ _ _ _ | .fclass o _ _ _
  | .frcp o _ _ _ _ | .frsq o _ _ _ _ | .fsqrt o _ _ _ _ | .fdiv o _ _ _ _ _ | .fexp2 o _ _ _ _
  | .flog2 o _ _ _ _ | .fsin o _ _ _ _ | .fcos o _ _ _ _ | .fscale o _ _ _ _ _ | .fround o _ _ _ _ _
  | .fcvt o _ _ _ _ _ | .fcvti o _ _ _ _ _ _ | .ficvt o _ _ _ _ _ | .fdot2 o _ _ _ _ _ _ | .fdot4 o _ _ _ _ _ _
  | .flgrd o | .bxmax o _ _ | .pk4 o _ _ _ _ _ | .upk4 o _ _ _ _ | .pk6 o _ _ | .upk6 o _ _ | .f8enc o _ _ _ _
  | .scl o _ _ _ _ _ _ | .mload o _ _ _ _ _ | .merr o _ | .ld o _ _ | .ldsys o _ _ | .llock o _ | .lquota o _
  | .biasDev o _ | .biasHost o _ | .battach o _ _ | .give o _ _ _ _ | .bwait o _ | .bstat o _ _
  | .bshare o _ _ _ | .cpy o _ _ _ _ _ | .cpyd o _ _ _ | .gat o _ _ _ _ | .sct o _ _ _ _ | .coll o _ _ _
  | .ewait o _ | .epoll o _ | .pub o _ _ _ | .wcmpEq o _ _ _ _ | .wcmpNe o _ _ _ _ | .wcmpLt o _ _ _ _
  | .wcmpLe o _ _ _ _ | .wcmpGt o _ _ _ _ | .wcmpGe o _ _ _ _ | .wcmpAny o _ _ _ _ | .wcancel o _
  | .bararr o _ _ _ | .cpub o _ _ _ | .bind o _ _ | .launch o _ | .cntRd o _ | .cntSelf o _ | .cntNew o _ _
  | .cntClose o _ | .cwait o _ | .cancel o _ | .cancelDrain o _ => some o
  | .pand d _ _ _ w | .por d _ _ _ w | .pxor d _ _ _ w | .pnot d _ _ w => some ⟨.pred d, w⟩
  | .bxenc d _ _ _ _ | .bxdec d _ _ _ _ | .f8dec d _ _ _ | .mget d _ => some ⟨.vreg d, false⟩
  | .aadd o _ _ _ | .amin o _ _ _ _ | .amax o _ _ _ _ | .aand o _ _ _ | .aor o _ _ _ | .axor o _ _ _
  | .axchg o _ _ _ | .acas o _ _ _ _ | .afadd o _ _ _ | .ainc o _ _ _ => o
  | .eret d _ | .eretKill d _ | .mfcr d _ | .csave d _ | .crest d _ _ _ | .freeze d _ | .thaw d _ | .halt d _ =>
      some ⟨d, false⟩
  | _ => none

/-- Whether the instruction writes a result that a latch can name (R52). -/
def Instr.writesResult (i : Instr) : Bool := i.out.isSome

/-- The source operands, in field order; a fixed predicate operand is no latch and is left out. -/
def Instr.sources : Instr → List Src
  | .bt _ s0 _ _ | .bf _ s0 _ _ | .loop _ s0 _ _ | .callr _ s0 | .lif _ s0 | .vany _ s0 | .vall _ s0
  | .vfirst _ s0 | .vcount _ s0 | .vsum _ s0 | .vmax _ _ s0 | .abs _ _ _ _ s0 | .neg _ _ _ _ s0 | .not _ _ _ s0
  | .clz _ _ _ s0 | .popc _ _ _ s0 | .brev _ _ _ s0 | .mov _ _ _ s0 | .addImm _ s0 _ | .subImm _ s0 _
  | .mulImm _ s0 _ | .andImm _ s0 _ | .orImm _ s0 _ | .xorImm _ s0 _ | .shlImm _ s0 _ | .shrImm _ s0 _
  | .sarImm _ s0 _ | .rotImm _ s0 _ | .leaImm _ s0 _ | .symq _ s0 _ | .symw _ s0 | .scan _ _ _ _ s0
  | .fabs _ _ _ s0 | .fneg _ _ _ s0 | .fclass _ _ _ s0 | .frcp _ _ _ _ s0 | .frsq _ _ _ _ s0 | .fsqrt _ _ _ _ s0
  | .fexp2 _ _ _ _ s0 | .flog2 _ _ _ _ s0 | .fsin _ _ _ _ s0 | .fcos _ _ _ _ s0 | .fround _ _ _ _ _ s0
  | .fcvt _ _ _ _ _ s0 | .fcvti _ _ _ _ _ _ s0 | .ficvt _ _ _ _ _ s0 | .flgclr s0 | .flgset s0 | .pk6 _ _ s0
  | .upk6 _ _ s0 | .f8dec _ _ _ s0 | .mscale _ s0 | .biasDev _ s0 | .biasHost _ s0 | .bdetach s0 | .bwait _ s0
  | .bzero s0 | .bshareOff s0 | .cpyd _ s0 _ _ | .coll _ s0 _ _ | .ewait _ s0 | .epoll _ s0 | .wcancel _ s0
  | .bararr _ _ _ s0 | .barwait _ _ s0 | .barsync _ _ s0 | .callt _ s0 | .launch _ s0 | .cntRd _ s0
  | .cntNew _ _ s0 | .cntClose _ s0 | .cwait _ s0 | .cancel _ s0 | .cancelDrain _ s0 | .eret _ s0
  | .eretKill _ s0 | .mtcr _ s0 | .csave _ s0 | .crest _ s0 _ _ | .freeze _ s0 | .thaw _ s0 | .halt _ s0 => [s0]
  | .add _ _ _ _ s0 s1 | .sub _ _ _ _ s0 s1 | .mul _ _ _ _ s0 s1 | .mulhi _ _ _ s0 s1 | .div _ _ _ s0 s1
  | .rem _ _ _ s0 s1 | .min _ _ _ s0 s1 | .max _ _ _ s0 s1 | .and _ _ _ s0 s1 | .or _ _ _ s0 s1
  | .xor _ _ _ s0 s1 | .andn _ _ _ s0 s1 | .shl _ _ _ _ s0 s1 | .shr _ _ _ s0 s1 | .sar _ _ _ s0 s1
  | .rot _ _ _ s0 s1 | .bfx _ _ _ s0 s1 | .ext _ _ _ s0 s1 | .csel _ _ _ s0 s1 _ | .addc _ _ _ s0 s1 _
  | .subb _ _ _ s0 s1 _ | .cmpEq _ _ _ s0 s1 | .cmpNe _ _ _ s0 s1 | .cmpLt _ _ _ s0 s1 | .cmpLe _ _ _ s0 s1
  | .cmpGt _ _ _ s0 s1 | .cmpGe _ _ _ s0 s1 | .shf _ _ _ s0 s1 | .shfx _ _ _ s0 s1 | .shfu _ _ _ s0 s1
  | .shfd _ _ _ s0 s1 | .bcast _ _ _ s0 s1 | .fadd _ _ _ _ s0 s1 | .fsub _ _ _ _ s0 s1 | .fmul _ _ _ _ s0 s1
  | .fmin _ _ _ _ s0 s1 | .fmax _ _ _ _ s0 s1 | .fcmpEq _ _ _ _ s0 s1 | .fcmpNe _ _ _ _ s0 s1
  | .fcmpLt _ _ _ _ s0 s1 | .fcmpLe _ _ _ _ s0 s1 | .fcmpGt _ _ _ _ s0 s1 | .fcmpGe _ _ _ _ s0 s1
  | .fcmpUn _ _ _ _ s0 s1 | .fcmpOr _ _ _ _ s0 s1 | .fdiv _ _ _ _ s0 s1 | .fscale _ _ _ _ s0 s1
  | .bxdec _ _ _ s0 s1 | .pk4 _ _ _ _ s0 s1 | .upk4 _ _ _ s0 s1 | .mload _ _ s0 s1 _ _ | .mstore _ s0 s1
  | .bshare _ s0 s1 _ | .pub _ s0 s1 _ | .aadd _ _ s0 s1 | .amin _ _ _ s0 s1 | .amax _ _ _ s0 s1
  | .aand _ _ s0 s1 | .aor _ _ s0 s1 | .axor _ _ s0 s1 | .axchg _ _ s0 s1 | .afadd _ _ s0 s1 | .ainc _ _ s0 s1
  | .wcmpEq _ _ _ s0 s1 | .wcmpNe _ _ _ s0 s1 | .wcmpLt _ _ _ s0 s1 | .wcmpLe _ _ _ s0 s1 | .wcmpGt _ _ _ s0 s1
  | .wcmpGe _ _ _ s0 s1 | .wcmpAny _ _ _ s0 s1 | .cpub _ s0 s1 _ | .bind _ s0 s1 => [s0, s1]
  | .mad _ _ _ _ s0 s1 s2 | .bfi _ _ _ s0 s1 s2 | .lea _ _ _ s0 s1 s2 | .ixset _ _ s0 s1 s2
  | .ffma _ _ _ _ s0 s1 s2 | .fdot2 _ _ _ _ s0 s1 s2 | .fdot4 _ _ _ _ s0 s1 s2 | .scl _ _ _ _ s0 s1 s2
  | .give _ s0 s1 s2 _ | .cpy _ s0 s1 s2 _ _ | .gat _ s0 s1 s2 _ | .sct _ s0 s1 s2 _ | .acas _ _ s0 s1 s2 =>
      [s0, s1, s2]
  | .ld _ m _ | .st _ m _ | .ldsys _ m _ | .stsys _ m _ | .pf m | .llock _ m | .lunlock m => [m.base, m.index]
  | .battach _ s0 z => [s0] ++ z.toList
  | .bstat _ z _ | .bmirror z | .ecancel z => z.toList
  | _ => []

/-- The latch numbers the instruction reads. -/
def Instr.latches (i : Instr) : List Nat :=
  i.sources.filterMap fun x => match x with | .latch n => some n | _ => none

/-- A destination's limits in a clause class (R51). -/
def Dst.legalIn (c : Cls) : Dst → Bool
  | .scope n => match c with | .slice => false | .group | .block => n < 64 | .gang | .grid => n < 32
  | _ => true

/-- What `symq` and `symw` accept in each class (R106, R107). -/
def Instr.symKindOk (c : Cls) : Instr → Bool
  | .symq _ a _ | .symw false a =>
      match c, a with
      | .slice, .vreg _ | .slice, .vidx _ _ => true
      | .group, .sreg .g _ => true
      | _, _ => false
  | _ => true

/-- Legal in a clause of this class (R51, R54, R55, R106). -/
def Instr.legalIn (c : Cls) (i : Instr) : Bool :=
  i.classes.contains c && i.scopeOk c && i.symKindOk c &&
    (match i.out with | some o => o.dst.legalIn c | none => true)

/-- The offset of instruction `pos` from its clause header, in 8-byte units (R40). -/
def wordOffset (pos : Nat) : Nat := pos + 1

/-- The position rules of R47: a join beyond the instruction's own word, and a forward target at lane scope. -/
def Instr.placedOk (pos : Nat) : Instr → Bool
  | .br sc t j | .bt sc _ t j | .bf sc _ t j =>
      wordOffset pos < j.toNat && (sc != .lane || (wordOffset pos : Int) < t.toInt)
  | .loop _ _ _ j => wordOffset pos < j.toNat
  | _ => true

/-- LATCH (R52): instruction `pos` of a clause whose earlier words decode to `earlier` names a latch it may not. -/
def Instr.latchOk (pos : Nat) (earlier : List Instr) (i : Instr) : Bool :=
  i.latches.all fun n => n < pos && (match earlier[n]? with | some e => e.writesResult | none => false)

/-! ## The encoder -/

def vWord (opc : Nat) (o : Out) (p : Nat) (a b c ty : Nat) : VWord :=
  { opc, dst := o.dst.code, nwb := o.nwb.toNat, sa := a, sb := b, sc := c, pred := p, fs := 0, rm := 0, sat := 0, ty }

def vWordF (opc : Nat) (o : Out) (p : Nat) (m : FMod) (a b c ty : Nat) : VWord :=
  { opc, dst := o.dst.code, nwb := o.nwb.toNat, sa := a, sb := b, sc := c, pred := p, fs := m.fs.toNat,
    rm := m.rm.code, sat := m.sat.toNat, ty }

/-- The rounding mode alone, with FS. -/
def fmodOf (rm : RM) (fs : Bool) : FMod := ⟨rm, fs, false⟩

def kWord (opc : Nat) (o : Out) (a b c fn : Nat) : KWord :=
  { opc, d := o.dst.code, nwb := o.nwb.toNat, sa := a, sb := b, sc := c, fn }

def kWord0 (opc a b c fn : Nat) : KWord := { opc, d := 0, nwb := 0, sa := a, sb := b, sc := c, fn }

def mWord (opc data nwb : Nat) (m : MemOp) (ctr : Nat) : MWord :=
  { opc, data, nwb, base := m.base.code, index := m.index.code, offs := m.offs.toNat, pred := m.pred,
    width := m.width.code, ctr, hint := m.hint.toNat }

def iWord (opc : Nat) (o : Out) (a imm : Nat) : IWord :=
  { opc, dst := o.dst.code, nwb := o.nwb.toNat, sa := a, rsv := 0, imm }

def cWord (opc : Nat) (sc : Scope) (sense cond target join : Nat) : CWord :=
  { opc, scope := sc.code, sense, cond, target, join, rsv := 0 }

def sWord (opc d crn a fn : Nat) : SWord := { opc, d, crn, sa := a, fn }

def outOpt : Option Out → Out
  | some o => o
  | none => ⟨.vreg 0, false⟩

def srcOpt : Option Src → Nat
  | some x => x.code
  | none => 0

/-- FN of an atomic (R255): W, Z and `.nr`. -/
def atFn (o : Option Out) (wide uns : Bool) : Nat := wide.toNat + 2 * uns.toNat + 4 * o.isNone.toNat
/-- FN of `wcmp` (R270). -/
def wcmpFn (rel : Nat) (wide uns : Bool) : Nat := rel + 8 * uns.toNat + 16 * wide.toNat
/-- FN of a barrier instruction (R270). -/
def barFn (gang : Bool) (n : Nat) : Nat := gang.toNat + 2 * n
/-- SC and FN[3:0] of `mma` (R166). -/
def mmaB (b : Nat) : Option (MTy × Nat) → Nat | none => 0x720 + b | some (_, v) => v
def mmaT : Option (MTy × Nat) → Nat | none => 0 | some (t, _) => t.code

/-- The word of an instruction, from the same tables; a step of the part has none. -/
def encode : Instr → Option Nat
  | .br sc t j => some (cWord 0x001 sc 0 0 t.toNat j.toNat).pack
  | .bt sc c t j => some (cWord 0x002 sc 0 c.code t.toNat j.toNat).pack
  | .bf sc c t j => some (cWord 0x002 sc 1 c.code t.toNat j.toNat).pack
  | .loop sc c t j => some (cWord 0x003 sc 0 c.code t.toNat j.toNat).pack
  | .call sc t => some (cWord 0x004 sc 0 0 t.toNat 0).pack
  | .callr sc c => some (cWord 0x005 sc 0 c.code 0 0).pack
  | .ret sc => some (cWord 0x006 sc 0 0 0 0).pack
  | .regang => some (cWord 0x007 .slice 0 0 0 0).pack
  | .lif n c => some (cWord 0x008 .lane n.toNat c.code 0 0).pack
  | .lelse => some (cWord 0x009 .lane 0 0 0 0).pack
  | .lendif => some (cWord 0x00A .lane 0 0 0 0).pack
  | .doneScope sc => some (cWord 0x00B sc 0 0 0 0).pack
  | .nop sc => some (cWord 0x00C sc 0 0 0 0).pack
  | .yield sc => some (cWord 0x00D sc 0 0 0 0).pack
  | .vany o a => some (kWord 0x010 o a.code 0 0 0).pack
  | .vall o a => some (kWord 0x011 o a.code 0 0 0).pack
  | .vfirst o a => some (kWord 0x012 o a.code 0 0 0).pack
  | .vcount o a => some (kWord 0x013 o a.code 0 0 0).pack
  | .vsum o a => some (kWord 0x014 o a.code 0 0 0).pack
  | .vmax u o a => some (kWord 0x015 o a.code 0 0 u.toNat).pack
  | .add o p t s a b => some (vWordF 0x040 o p ⟨.rne, false, s⟩ a.code b.code 0 t.code).pack
  | .sub o p t s a b => some (vWordF 0x041 o p ⟨.rne, false, s⟩ a.code b.code 0 t.code).pack
  | .mul o p t s a b => some (vWordF 0x042 o p ⟨.rne, false, s⟩ a.code b.code 0 t.code).pack
  | .mulhi o p t a b => some (vWord 0x043 o p a.code b.code 0 t.code).pack
  | .mad o p t s a b c => some (vWordF 0x044 o p ⟨.rne, false, s⟩ a.code b.code c.code t.code).pack
  | .div o p t a b => some (vWord 0x045 o p a.code b.code 0 t.code).pack
  | .rem o p t a b => some (vWord 0x046 o p a.code b.code 0 t.code).pack
  | .min o p t a b => some (vWord 0x047 o p a.code b.code 0 t.code).pack
  | .max o p t a b => some (vWord 0x048 o p a.code b.code 0 t.code).pack
  | .abs o p t s a => some (vWordF 0x049 o p ⟨.rne, false, s⟩ a.code 0 0 t.code).pack
  | .neg o p t s a => some (vWordF 0x04A o p ⟨.rne, false, s⟩ a.code 0 0 t.code).pack
  | .and o p t a b => some (vWord 0x04B o p a.code b.code 0 t.code).pack
  | .or o p t a b => some (vWord 0x04C o p a.code b.code 0 t.code).pack
  | .xor o p t a b => some (vWord 0x04D o p a.code b.code 0 t.code).pack
  | .andn o p t a b => some (vWord 0x04E o p a.code b.code 0 t.code).pack
  | .not o p t a => some (vWord 0x04F o p a.code 0 0 t.code).pack
  | .shl o p t s a b => some (vWordF 0x050 o p ⟨.rne, false, s⟩ a.code b.code 0 t.code).pack
  | .shr o p t a b => some (vWord 0x051 o p a.code b.code 0 t.code).pack
  | .sar o p t a b => some (vWord 0x052 o p a.code b.code 0 t.code).pack
  | .rot o p t a b => some (vWord 0x053 o p a.code b.code 0 t.code).pack
  | .clz o p t a => some (vWord 0x054 o p a.code 0 0 t.code).pack
  | .popc o p t a => some (vWord 0x055 o p a.code 0 0 t.code).pack
  | .brev o p t a => some (vWord 0x056 o p a.code 0 0 t.code).pack
  | .bfx o p t a b => some (vWord 0x057 o p a.code b.code 0 t.code).pack
  | .bfi o p t a b c => some (vWord 0x058 o p a.code b.code c.code t.code).pack
  | .ext o p t a b => some (vWord 0x059 o p a.code b.code 0 t.code).pack
  | .csel o p t a b c => some (vWord 0x05A o p a.code b.code (0x500 + c) t.code).pack
  | .mov o p t a => some (vWord 0x05B o p a.code 0 0 t.code).pack
  | .lea o p t a b c => some (vWord 0x05C o p a.code b.code c.code t.code).pack
  | .addc o p t a b c => some (vWord 0x05D o p a.code b.code (0x500 + c) t.code).pack
  | .subb o p t a b c => some (vWord 0x05E o p a.code b.code (0x500 + c) t.code).pack
  | .cmpEq o p t a b => some (vWord 0x060 o p a.code b.code 0 t.code).pack
  | .cmpNe o p t a b => some (vWord 0x061 o p a.code b.code 0 t.code).pack
  | .cmpLt o p t a b => some (vWord 0x062 o p a.code b.code 0 t.code).pack
  | .cmpLe o p t a b => some (vWord 0x063 o p a.code b.code 0 t.code).pack
  | .cmpGt o p t a b => some (vWord 0x064 o p a.code b.code 0 t.code).pack
  | .cmpGe o p t a b => some (vWord 0x065 o p a.code b.code 0 t.code).pack
  | .addImm o a x => some (iWord 0x068 o a.code x.toNat).pack
  | .subImm o a x => some (iWord 0x069 o a.code x.toNat).pack
  | .mulImm o a x => some (iWord 0x06A o a.code x.toNat).pack
  | .andImm o a x => some (iWord 0x06B o a.code x.toNat).pack
  | .orImm o a x => some (iWord 0x06C o a.code x.toNat).pack
  | .xorImm o a x => some (iWord 0x06D o a.code x.toNat).pack
  | .shlImm o a x => some (iWord 0x06E o a.code x.toNat).pack
  | .shrImm o a x => some (iWord 0x06F o a.code x.toNat).pack
  | .sarImm o a x => some (iWord 0x070 o a.code x.toNat).pack
  | .rotImm o a x => some (iWord 0x071 o a.code x.toNat).pack
  | .movi o x => some (iWord 0x072 o 0 x.toNat).pack
  | .leaImm o a x => some (iWord 0x073 o a.code x.toNat).pack
  | .ixset i false v b l => some (kWord0 0x078 v.code b.code l.code i).pack
  | .ixset i true v _ _ => some (kWord0 0x078 v.code 0 0 (8 + i)).pack
  | .ixget o i sel => some (kWord 0x079 o 0 0 0 (i + 8 * sel)).pack
  | .symq o a sel => some (kWord 0x07A o a.code 0 0 sel).pack
  | .symw false a => some (kWord0 0x07B a.code 0 0 0).pack
  | .symw true _ => some (kWord0 0x07B 0 0 0 1).pack
  | .shf o p t a b => some (vWord 0x080 o p a.code b.code 0 t.code).pack
  | .shfx o p t a b => some (vWord 0x081 o p a.code b.code 0 t.code).pack
  | .shfu o p t a b => some (vWord 0x082 o p a.code b.code 0 t.code).pack
  | .shfd o p t a b => some (vWord 0x083 o p a.code b.code 0 t.code).pack
  | .bcast o p t a b => some (vWord 0x084 o p a.code b.code 0 t.code).pack
  | .scan o op x u a => some (kWord 0x085 o a.code 0 0 (op.code + 8 * x.toNat + 16 * u.toNat)).pack
  | .pand d p a b w => some (vWord 0x088 ⟨.pred d, w⟩ p (0x500 + a) (0x500 + b) 0 0).pack
  | .por d p a b w => some (vWord 0x089 ⟨.pred d, w⟩ p (0x500 + a) (0x500 + b) 0 0).pack
  | .pxor d p a b w => some (vWord 0x08A ⟨.pred d, w⟩ p (0x500 + a) (0x500 + b) 0 0).pack
  | .pnot d p a w => some (vWord 0x08B ⟨.pred d, w⟩ p (0x500 + a) 0 0 0).pack
  | .fadd o p t m a b => some (vWordF 0x0C0 o p m a.code b.code 0 t.code).pack
  | .fsub o p t m a b => some (vWordF 0x0C1 o p m a.code b.code 0 t.code).pack
  | .fmul o p t m a b => some (vWordF 0x0C2 o p m a.code b.code 0 t.code).pack
  | .fdiv o p t m a b => some (vWordF 0x0D4 o p m a.code b.code 0 t.code).pack
  | .ffma o p t m a b c => some (vWordF 0x0C3 o p m a.code b.code c.code t.code).pack
  | .fmin o p t x a b => some (vWordF 0x0C4 o p (fmodOf .rne x) a.code b.code 0 t.code).pack
  | .fmax o p t x a b => some (vWordF 0x0C5 o p (fmodOf .rne x) a.code b.code 0 t.code).pack
  | .fabs o p t a => some (vWord 0x0C6 o p a.code 0 0 t.code).pack
  | .fneg o p t a => some (vWord 0x0C7 o p a.code 0 0 t.code).pack
  | .fclass o p t a => some (vWord 0x0D0 o p a.code 0 0 t.code).pack
  | .fcmpEq o p t x a b => some (vWordF 0x0C8 o p (fmodOf .rne x) a.code b.code 0 t.code).pack
  | .fcmpNe o p t x a b => some (vWordF 0x0C9 o p (fmodOf .rne x) a.code b.code 0 t.code).pack
  | .fcmpLt o p t x a b => some (vWordF 0x0CA o p (fmodOf .rne x) a.code b.code 0 t.code).pack
  | .fcmpLe o p t x a b => some (vWordF 0x0CB o p (fmodOf .rne x) a.code b.code 0 t.code).pack
  | .fcmpGt o p t x a b => some (vWordF 0x0CC o p (fmodOf .rne x) a.code b.code 0 t.code).pack
  | .fcmpGe o p t x a b => some (vWordF 0x0CD o p (fmodOf .rne x) a.code b.code 0 t.code).pack
  | .fcmpUn o p t x a b => some (vWordF 0x0CE o p (fmodOf .rne x) a.code b.code 0 t.code).pack
  | .fcmpOr o p t x a b => some (vWordF 0x0CF o p (fmodOf .rne x) a.code b.code 0 t.code).pack
  | .frcp o p t m a => some (vWordF 0x0D1 o p m a.code 0 0 t.code).pack
  | .frsq o p t m a => some (vWordF 0x0D2 o p m a.code 0 0 t.code).pack
  | .fsqrt o p t m a => some (vWordF 0x0D3 o p m a.code 0 0 t.code).pack
  | .fexp2 o p t m a => some (vWordF 0x0D5 o p m a.code 0 0 t.code).pack
  | .flog2 o p t m a => some (vWordF 0x0D6 o p m a.code 0 0 t.code).pack
  | .fsin o p t m a => some (vWordF 0x0D7 o p m a.code 0 0 t.code).pack
  | .fcos o p t m a => some (vWordF 0x0D8 o p m a.code 0 0 t.code).pack
  | .fscale o p t m a n => some (vWordF 0x0D9 o p m a.code n.code 0 t.code).pack
  | .fround o p t r x a => some (vWordF 0x0DA o p (fmodOf r x) a.code 0 0 t.code).pack
  | .fcvt o p t m u a => some (vWordF 0x0DB o p m a.code 0 u.code t.code).pack
  | .fcvti o p t r x u a => some (vWordF 0x0DC o p (fmodOf r x) a.code 0 u.code t.code).pack
  | .ficvt o p t m u a => some (vWordF 0x0DD o p m a.code 0 u.code t.code).pack
  | .fdot2 o p bf m a b c => some (vWordF 0x0DE o p m a.code b.code c.code (6 + bf.toNat)).pack
  | .fdot4 o p t m a b c => some (vWordF 0x0DF o p m a.code b.code c.code t.code).pack
  | .flgrd o => some (kWord 0x0E0 o 0 0 0 0).pack
  | .flgclr a => some (kWord0 0x0E1 a.code 0 0 0).pack
  | .flgset a => some (kWord0 0x0E2 a.code 0 0 0).pack
  | .bxenc d p t x a => some (vWordF 0x120 ⟨.vreg d, false⟩ p (fmodOf .rne x) a 0 0 t.code).pack
  | .bxdec d p t a x => some (vWord 0x121 ⟨.vreg d, false⟩ p a.code x.code 0 t.code).pack
  | .bxmax o p a => some (vWord 0x122 o p a 0 0 4).pack
  | .pk4 o p s4 x a b => some (vWordF 0x123 o p ⟨.rne, false, x⟩ a.code b.code 0 (12 + 2 * s4.toNat)).pack
  | .upk4 o p s4 a h => some (vWord 0x124 o p a.code h.code 0 (12 + 2 * s4.toNat)).pack
  | .pk6 o p a => some (vWord 0x125 o p a.code 0 0 11).pack
  | .upk6 o p a => some (vWord 0x126 o p a.code 0 0 11).pack
  | .f8enc o p t m a => some (vWordF 0x127 o p m a 0 0 t.code).pack
  | .f8dec d p t a => some (vWord 0x128 ⟨.vreg d, false⟩ p a.code 0 0 t.code).pack
  | .scl o p t m a x y => some (vWordF 0x129 o p m a.code x.code y.code t.code).pack
  | .mload o h b x t k => some (kWord 0x140 o (0x720 + h) b.code x.code (t.code + 16 * k)).pack
  | .mfree isTile n => some (kWord0 0x141 ((if isTile then 0x700 else 0x720) + n) 0 0 0).pack
  | .mma acc a b k w pn => some (kWord0 0x142 (0x700 + acc) (0x720 + a) (mmaB b pn) (mmaT pn + 16 * k + 128 * w.toNat)).pack
  | .mzero a => some (kWord0 0x143 (0x700 + a) 0 0 0).pack
  | .mstore a b x => some (kWord0 0x144 (0x700 + a) b.code x.code 0).pack
  | .mscale none x => some (kWord0 0x145 0 x.code 0 1).pack
  | .mscale (some h) x => some (kWord0 0x145 (0x720 + h) x.code 0 0).pack
  | .mget d a => some (kWord 0x146 ⟨.vreg d, false⟩ (0x700 + a) 0 0 0).pack
  | .mput a v => some (kWord0 0x147 (0x700 + a) v 0 0).pack
  | .merr o sel => some (kWord 0x148 o 0 0 0 sel).pack
  | .mclr => some (kWord0 0x149 0 0 0 0).pack
  | .ld o m c => some (mWord 0x160 o.dst.code o.nwb.toNat m c).pack
  | .st d m c => some (mWord 0x161 d 0 m c).pack
  | .ldsys o m c => some (mWord 0x162 o.dst.code o.nwb.toNat m c).pack
  | .stsys d m c => some (mWord 0x163 d 0 m c).pack
  | .pf m => some (mWord 0x164 0 0 m 0).pack
  | .llock o m => some (mWord 0x165 o.dst.code o.nwb.toNat m 0).pack
  | .lunlock m => some (mWord 0x166 0 0 m 0).pack
  | .lquota o q => some (kWord 0x167 o 0 0 0 q.toNat).pack
  | .biasDev o a => some (kWord 0x168 o a.code 0 0 1).pack
  | .biasHost o a => some (kWord 0x168 o a.code 0 0 0).pack
  | .battach o x none => some (kWord 0x1A0 o x.code 0 0 1).pack
  | .battach o x (some b) => some (kWord 0x1A0 o x.code b.code 0 0).pack
  | .bdetach x => some (kWord0 0x1A1 x.code 0 0 0).pack
  | .give o x m t ro => some (kWord 0x1A2 o x.code m.code t.code ro.toNat).pack
  | .bwait o x => some (kWord 0x1A3 o x.code 0 0 0).pack
  | .bstat o none c => some (kWord 0x1A4 o 0 0 0 (1 + 2 * c.toNat)).pack
  | .bstat o (some x) _ => some (kWord 0x1A4 o x.code 0 0 0).pack
  | .bzero x => some (kWord0 0x1A5 x.code 0 0 0).pack
  | .bmirror x => some (kWord0 0x1A6 (srcOpt x) 0 0 x.isNone.toNat).pack
  | .bshare o x n ro => some (kWord 0x1A7 o x.code n.code 0 ro.toNat).pack
  | .bshareOff x => some (kWord0 0x1A7 x.code 0 0 2).pack
  | .cpy o d x z tag sh => some (kWord 0x1B0 o d.code x.code z.code (tagCode tag + 8 * sh.toNat)).pack
  | .cpyd o d tag sh => some (kWord 0x1B1 o d.code 0 0 (tagCode tag + 8 * sh.toNat)).pack
  | .gat o b a z tag => some (kWord 0x1B2 o b.code a.code z.code (tagCode tag)).pack
  | .sct o a b z tag => some (kWord 0x1B3 o a.code b.code z.code (tagCode tag)).pack
  | .coll o d tag sh => some (kWord 0x1B4 o d.code 0 0 (tagCode tag + 8 * sh.toNat)).pack
  | .ewait o t => some (kWord 0x1B5 o t.code 0 0 0).pack
  | .epoll o t => some (kWord 0x1B6 o t.code 0 0 0).pack
  | .pub o b z x => some (kWord 0x1B7 o b.code z.code 0 x.toNat).pack
  | .ecancel t => some (kWord0 0x1B8 (srcOpt t) 0 0 t.isNone.toNat).pack
  | .aadd o w a b => some (kWord 0x1C0 (outOpt o) a.code b.code 0 (atFn o w false)).pack
  | .aand o w a b => some (kWord 0x1C3 (outOpt o) a.code b.code 0 (atFn o w false)).pack
  | .aor o w a b => some (kWord 0x1C4 (outOpt o) a.code b.code 0 (atFn o w false)).pack
  | .axor o w a b => some (kWord 0x1C5 (outOpt o) a.code b.code 0 (atFn o w false)).pack
  | .axchg o w a b => some (kWord 0x1C6 (outOpt o) a.code b.code 0 (atFn o w false)).pack
  | .afadd o w a b => some (kWord 0x1C8 (outOpt o) a.code b.code 0 (atFn o w false)).pack
  | .ainc o w a b => some (kWord 0x1C9 (outOpt o) a.code b.code 0 (atFn o w false)).pack
  | .amin o w u a b => some (kWord 0x1C1 (outOpt o) a.code b.code 0 (atFn o w u)).pack
  | .amax o w u a b => some (kWord 0x1C2 (outOpt o) a.code b.code 0 (atFn o w u)).pack
  | .acas o w a c n => some (kWord 0x1C7 (outOpt o) a.code c.code n.code (atFn o w false)).pack
  | .wcmpEq o w u a v => some (kWord 0x1CA o a.code v.code 0 (wcmpFn 0 w u)).pack
  | .wcmpNe o w u a v => some (kWord 0x1CA o a.code v.code 0 (wcmpFn 1 w u)).pack
  | .wcmpLt o w u a v => some (kWord 0x1CA o a.code v.code 0 (wcmpFn 2 w u)).pack
  | .wcmpLe o w u a v => some (kWord 0x1CA o a.code v.code 0 (wcmpFn 3 w u)).pack
  | .wcmpGt o w u a v => some (kWord 0x1CA o a.code v.code 0 (wcmpFn 4 w u)).pack
  | .wcmpGe o w u a v => some (kWord 0x1CA o a.code v.code 0 (wcmpFn 5 w u)).pack
  | .wcmpAny o w u a v => some (kWord 0x1CA o a.code v.code 0 (wcmpFn 6 w u)).pack
  | .wcancel o a => some (kWord 0x1CB o a.code 0 0 0).pack
  | .bararr o g n c => some (kWord 0x1CC o c.code 0 0 (barFn g n)).pack
  | .barwait g n t => some (kWord0 0x1CD t.code 0 0 (barFn g n)).pack
  | .barsync g n c => some (kWord0 0x1CE c.code 0 0 (barFn g n)).pack
  | .fence sc k => some (kWord0 0x1E0 0 0 0 (sc.code + 4 * k.code)).pack
  | .swf => some (kWord0 0x1E1 0 0 0 0).pack
  | .cpub o b z sc => some (kWord 0x1E8 o b.code z.code 0 sc.code).pack
  | .callt sc x => some (cWord 0x1E9 sc 0 x.code 0 0).pack
  | .bind o x t => some (kWord 0x1EA o x.code t.code 0 0).pack
  | .launch o r => some (kWord 0x1F0 o r.code 0 0 0).pack
  | .cntRd o h => some (kWord 0x1F1 o h.code 0 0 0).pack
  | .cntSelf o k => some (kWord 0x1F1 o 0 0 0 (1 + 4 * k.code)).pack
  | .cntNew o k h => some (kWord 0x1F1 o h.code 0 0 (2 + 4 * k.code)).pack
  | .cntClose o h => some (kWord 0x1F1 o h.code 0 0 3).pack
  | .cwait o h => some (kWord 0x1F2 o h.code 0 0 0).pack
  | .cancel o h => some (kWord 0x1F3 o h.code 0 0 0).pack
  | .cancelDrain o h => some (kWord 0x1F3 o h.code 0 0 1).pack
  | .trap x => some (sWord 0x1F8 0 0 0 x.toNat).pack
  | .brk x => some (sWord 0x1F9 0 0 0 x.toNat).pack
  | .eret d f => some (sWord 0x1FA d.code 0 f.code 0).pack
  | .eretKill d f => some (sWord 0x1FA d.code 0 f.code 1).pack
  | .mfcr d n => some (sWord 0x1FB d.code n 0 0).pack
  | .mtcr n a => some (sWord 0x1FC 0 n a.code 0).pack
  | .csave d b => some (sWord 0x1FD d.code 0 b.code 0).pack
  | .crest d f core any => some (sWord 0x1FE d.code 0 f.code (core + 16 * any.toNat)).pack
  | .freeze d m => some (sWord 0x1FF d.code 0 m.code 0).pack
  | .thaw d m => some (sWord 0x1FF d.code 0 m.code 1).pack
  | .halt d m => some (sWord 0x1FF d.code 0 m.code 2).pack
  | .matrixQueueExecute .. | .biasFlip .. | .accessQueueIssue .. | .queuedStorePerform .. | .symbolResolve ..
  | .memoryAccessComplete .. | .homeSliceWrite .. | .bankDrainComplete .. | .engineRead ..
  | .drainEngineWrite .. | .pageBoundaryRevalidation .. | .swapOut .. | .blockRestore .. | .drainTillerQueue ..
  | .drainMirrorQueue .. | .drainSystemQueue .. | .drainInboundQueue .. | .captureSystemLine ..
  | .captureCodeLine .. | .calltRepoll .. | .clauseHeader .. | .groupPromotion .. | .cancelDelivery ..
  | .launchReady .. | .gridSequencerTake .. | .ticketDispense .. | .blockStart .. | .blockRetirement ..
  | .jobdb .. | .joback .. | .faultDelivery .. | .faultRecordPost .. | .stateerr .. | .resolve .. | .s2Map ..
  | .s2Unmap .. | .s2Inval .. | .stage2WaitComplete | .s2Scrub .. | .s2Table .. | .s2Untable .. | .s2Shadd ..
  | .s2Shdel .. | .s2Expose .. | .s2Retire .. | .rangeRegisterStage .. | .rangeRegisterCommit .. | .rrsync ..
  | .contextTableWrite .. | .spdiv .. | .spdivChange .. | .apctl .. | .apertureRead .. | .apertureWrite ..
  | .hdmbaseWrite .. | .cxlMemRead .. | .cxlMemWrite .. | .snpData .. | .snpInv .. | .hccEviction ..
  | .hostLinkTraining .. | .functionLevelReset .. | .peerInboundRequest .. | .linkFailure ..
  | .bandwidthTokenRefill .. | .statusWindowRefresh .. | .drain .. | .undrain .. | .enterService ..
  | .exitService .. | .quiesce .. | .recal .. | .recalComplete .. | .spare .. | .update .. | .resume ..
  | .extend .. | .report .. | .registerWrite .. | .powerOn .. | .throttle .. | .thermalTrip ..
  | .debugPortRead .. | .modulePowerLoss | .conventionalReset | .measuredDebugEnable => none

/-- The words of a clause: its header and its instructions (R40); `none` if one of them has no word. -/
def encodeClause (h : Header) (is : List Instr) : Option (List Nat) :=
  (is.mapM encode).map (h.encode :: ·)

end Sys2Proof
end

