-- ==== Sys2Proof/Machine/Hash.lean ====
section
/-! DEFINITION. SHAKE256 (18_service R392, R394, R395 name it; its definition is that of FIPS 202, PRESUMED log 123): the measurement
extension and the digests of images and reports. -/

namespace Sys2Proof.Machine

/-- One lane of the sponge state. -/
abbrev Lane64 := BitVec 64

/-- Rotation offsets of the rho step, by x + 5 y. -/
def rhoOffsets : List Nat :=
  [0, 1, 62, 28, 27, 36, 44, 6, 55, 20, 3, 10, 43, 25, 39, 41, 45, 15, 21, 8, 18, 2, 61, 56, 14]

/-- Round constants of the iota step. -/
def iotaConstants : List Lane64 :=
  [0x0000000000000001, 0x0000000000008082, 0x800000000000808A, 0x8000000080008000, 0x000000000000808B,
   0x0000000080000001, 0x8000000080008081, 0x8000000000008009, 0x000000000000008A, 0x0000000000000088,
   0x0000000080008009, 0x000000008000000A] ++
  [0x000000008000808B, 0x800000000000008B, 0x8000000000008089, 0x8000000000008003, 0x8000000000008002,
   0x8000000000000080, 0x000000000000800A, 0x800000008000000A, 0x8000000080008081, 0x8000000000008080,
   0x0000000080000001, 0x8000000080008008]

def laneAt (a : List Lane64) (x y : Nat) : Lane64 := a.getD (x % 5 + 5 * (y % 5)) 0

/-- A state from its lanes. -/
def lanesBy (f : Nat → Nat → Lane64) : List Lane64 := (List.range 25).map fun i => f (i % 5) (i / 5)

/-- One round of the permutation. -/
def keccakRound (a : List Lane64) (rc : Lane64) : List Lane64 :=
  let c := (List.range 5).map fun x =>
    laneAt a x 0 ^^^ laneAt a x 1 ^^^ laneAt a x 2 ^^^ laneAt a x 3 ^^^ laneAt a x 4
  let d := (List.range 5).map fun x => c.getD ((x + 4) % 5) 0 ^^^ (c.getD ((x + 1) % 5) 0).rotateLeft 1
  let t := lanesBy fun x y => laneAt a x y ^^^ d.getD x 0
  -- rho and pi: lane (x, y) of the result comes from lane (x + 3 y, x)
  let b := lanesBy fun x y => (laneAt t (x + 3 * y) x).rotateLeft (rhoOffsets.getD ((x + 3 * y) % 5 + 5 * x) 0)
  let e := lanesBy fun x y => laneAt b x y ^^^ (~~~ laneAt b (x + 1) y &&& laneAt b (x + 2) y)
  match e with
  | h :: r => (h ^^^ rc) :: r
  | [] => []

def keccakF (a : List Lane64) : List Lane64 := iotaConstants.foldl keccakRound a

/-- The number bytes stand for, lowest first, as a lane. -/
def laneOfBytes (bs : List Byte) : Lane64 :=
  BitVec.ofNat 64 (bs.foldr (fun b n => b.toNat + 256 * n) 0)

def bytesOfLane (w : Lane64) : List Byte := (List.range 8).map fun i => (w >>> (8 * i)).setWidth 8

/-- Bytes of a block of the sponge (rate 1,088 bits). -/
def shakeRate : Nat := 136

def absorbBlock (a : List Lane64) (blk : List Byte) : List Lane64 :=
  keccakF (lanesBy fun x y =>
    let i := x + 5 * y
    if i < 17 then laneAt a x y ^^^ laneOfBytes ((blk.drop (8 * i)).take 8) else laneAt a x y)

/-- The message with its padding: suffix bits 1111, then the bit pad. -/
def shakePad (m : List Byte) : List Byte :=
  let r := shakeRate - m.length % shakeRate
  if r = 1 then m ++ [0x9F] else m ++ [0x1F] ++ List.replicate (r - 2) 0 ++ [0x80]

/-- Absorbs `n` blocks. -/
def absorb : Nat → List Lane64 → List Byte → List Lane64
  | 0, a, _ => a
  | n + 1, a, m => absorb n (absorbBlock a (m.take shakeRate)) (m.drop shakeRate)

/-- SHAKE256 with a 64-byte output. -/
def shake256 (m : List Byte) : List Byte :=
  let p := shakePad m
  let a := absorb (p.length / shakeRate) (List.replicate 25 0) p
  ((a.take 8).map bytesOfLane).flatten

/-- A 64-byte digest as a number, byte 0 least significant. -/
def digestNat (bs : List Byte) : Nat := bs.foldr (fun b n => b.toNat + 256 * n) 0

def natDigest (n : Nat) : List Byte := (List.range 64).map fun i => BitVec.ofNat 8 (n / 256 ^ i)

/-- MEAS := SHAKE256(MEAS followed by the digest) (R394). -/
def measExtend (meas digest : Nat) : Nat := digestNat (shake256 (natDigest meas ++ natDigest digest))

end Sys2Proof.Machine
end

