-- ==== Sys2Proof/Machine/State.lean ====
section
/-! DEFINITION. Everything the spec gives the part, as plain data, and the state after reset. The groups of fields follow
INVENTORY.md '## State'; every field's docstring names the rule that gives it. `env` holds the model's own fields. -/

namespace Sys2Proof.Machine

/-! ## Registers and late values -/

/-- EXT of an integer form (R91). -/
inductive Ext | none | sign | zero
  deriving DecidableEq, Repr

/-- An integer form (R91): value (SCALE x X + OFFSET) mod 2^w of the symbol `sym` of quarter `q`. -/
structure IForm where
  q : Nat
  sym : Nat
  scale : BitVec 64
  offset : BitVec 64
  wide : Bool
  ty : ITy
  ext : Ext
  part : Nat
  deriving DecidableEq, Repr

/-- A floating-point chain (R117): its value is the result of deferred instruction `idx` of the symbol. -/
structure FChain where
  q : Nat
  sym : Nat
  ty : FTy
  depth : Nat
  idx : Nat
  deriving DecidableEq, Repr

/-- What a 32-bit register holds: a known word, or one half of a late value (`hi` is the upper half of a 64-bit one). -/
inductive Cell
  | known (w : Word)
  | form (f : IForm) (hi : Bool)
  | chain (c : FChain) (hi : Bool)
  deriving DecidableEq, Repr

/-- The registers of the part. Block numbers are the model's (DESIGN CHOICE log 2); `l` is `sv.lane`. -/
inductive RegKey
  | vec (b g l n : Nat)             -- vector register n of a lane (R85)
  | pred (b g l p : Nat)            -- predicate p0 to p6 (R85)
  | ixv (b g l i : Nat)             -- VALUE of an index register (R87)
  | ixb (b g l i : Nat)             -- BASE
  | ixl (b g l i : Nat)             -- LIMIT
  | fsr (b g l : Nat)               -- floating-point status (R115)
  | gr (b g n : Nat)                -- g0 to g63 (R18)
  | br (b n : Nat)                  -- b0 to b63
  | nr (l k n : Nat)                -- n0 to n31 of gang k of launch l
  | dr (l n : Nat)                  -- d0 to d31 of launch l
  | view (u : UnitRef) (k : ScopeKind) (n : Nat)   -- a unit's view of an enclosing scope's register (R59, R62)
  | latch (u : UnitRef) (pos b g l : Nat) (hi : Bool) -- latch y(pos) of the clause in progress (R89); the value of a
                                      -- scope register stands at l = 64
  deriving DecidableEq, Repr

/-! ## Symbols -/

/-- Operations that defer (R117). -/
inductive DefOp | add | sub | mul | fma
  deriving DecidableEq, Repr

/-- One lane of a deferred instruction (R117): `pos` is the source that is late, `src` the deferred instruction that gives its value, or
none for the arriving value itself, of which `part` names the word (R91); then its known operands, in source order. -/
structure DefLane where
  b : Nat
  g : Nat
  l : Nat
  pos : Nat
  src : Option Nat
  part : Nat
  x : BitVec 64
  y : BitVec 64
  deriving DecidableEq, Repr

/-- A deferred instruction (R117, R118). -/
structure Deferred where
  op : DefOp
  ty : FTy
  fm : FMod
  word : Nat                           -- the instruction word
  lanes : List DefLane
  deriving DecidableEq, Repr

/-- Causes of R333. -/
inductive Cause
  | undef | clause | latch | regbound | ixbound | nonuniform | scope | stack | align
  | window | detached | page | draft | bind | dataerr | syscall | brk | cancel | bank | stateerr
  | range | prot | exec | priv | isolation | link
  deriving DecidableEq, Repr

/-- What feeds a symbol (R90): an access, or the tickets of an `ewait`, one per lane. -/
inductive SymFeed
  | access (id : Nat)
  | tickets (b : Nat) (lanes : List (Nat × Nat))
  deriving DecidableEq, Repr

/-- A symbol in use (R90, R95, R117). -/
structure Sym where
  q : Nat
  sym : Nat
  b : Nat
  g : Nat
  feed : SymFeed
  poison : Option Cause
  deferred : List Deferred
  deriving DecidableEq, Repr

/-! ## Sequencers -/

/-- A loop-stack entry (R59, R78). -/
structure Loop where
  remaining : Nat
  index : Nat
  top : Nat
  stop : Nat
  frame : Nat
  deriving DecidableEq, Repr

/-- A call-stack entry (R59, R79). -/
structure CallRec where
  ret : Nat
  depth : Nat
  re : Option Nat
  deriving DecidableEq, Repr

/-- Kinds of decision (R62). -/
inductive DKind
  | value (k : ScopeKind) (n : Nat) (c : Cell)
  | loopEntry (top stop : Nat)
  | loopStep (back : Bool)
  | clauseEnd (next : Nat) (retire : Bool) (depth : Nat)
  deriving DecidableEq, Repr

/-- A decision, with its producer's rank and sequence number (R62, R69). -/
structure Decision where
  rank : Nat
  seq : Nat
  kind : DKind
  deriving DecidableEq, Repr

/-- The clause in progress of a unit (R40, R294): its words as fetched, and the position of the next instruction. `next` is
the address that a transfer chose; `team` lists the slices that issue together (R76, R80); `ended` marks a clause whose
last instruction has executed. -/
structure ClauseRun where
  addr : Nat
  hdr : Header
  words : List Nat
  pos : Nat
  next : Option Nat
  team : List Nat
  retire : Bool
  ended : Bool
  deriving DecidableEq, Repr

/-- A replay record (R69): what the level held immediately before a decision, with the register the decision writes. -/
structure ReplayRec where
  seq : Nat
  pc : Nat
  re : Option Nat
  loops : List Loop
  calls : List CallRec
  clause : Option ClauseRun
  latches : List (RegKey × Cell)       -- its clause's latches and its views
  watches : List (Nat × Nat × Nat)
  key : Option RegKey
  prev : Cell
  deriving DecidableEq, Repr

/-! ### Engine commands -/

/-- A stream of an engine command: `len` bytes from one virtual address to another (R242 to R245). -/
structure Seg where
  dst : Nat
  src : Nat
  len : Nat
  deriving DecidableEq, Repr

/-- A collective's fields (R245). -/
structure CollRec where
  src : Nat
  dst : Nat
  count : Nat
  kind : Nat
  op : Nat
  ty : Nat
  nrank : Nat
  rank : Nat
  collid : Nat
  peers : Nat
  root : Nat
  formed : Bool
  no : Nat := 0                   -- the model's number of the collective once it has formed
  deriving DecidableEq, Repr

/-- An engine command and its ticket state (R226). -/
structure Cmd where
  seq : Nat
  issue : Nat                     -- the model's number of the issue that created it (R228)
  unit : UnitRef
  st : Nat                        -- STATE
  reason : Nat
  cause : Nat
  ctr : Option Nat                -- tagged counter
  bumped : List (Nat × Nat)
  segs : List Seg
  shadow : Bool
  coll : Option CollRec
  read : List Nat                 -- units already read
  buf : List (Nat × Byte)         -- bytes read and not yet in Eq, by their offset in the command
  trans : List (Bool × Nat × Nat × Bool) -- translations carried: (destination, virtual page, byte of M, draft mark) (R233)
  before : List (Nat × Byte)      -- bytes it has written, as they stood before (R232)
  paused : Option Nat             -- waits for the driver: page-request tag (R233)
  refused : Option Cause          -- its channel froze at it, for this violation (R233)
  marks : List Nat                -- its virtual destination pages that had W and X at issue (R295)
  word : Nat
  pc : Nat
  deriving DecidableEq, Repr

/-! ### What a sequencer holds -/

/-- How a unit waits in mid-clause. A lane's status is none until it is received. -/
inductive Park
  | none
  | monitors (lanes : List (Nat × Option Nat))   -- `wcmp` (R261)
  | barrier (token : Nat)                        -- `barwait`, `barsync` after its arrival (R267)
  | callt (entry : Nat) (polled : Bool)          -- `callt` (R302)
  | flips (lanes : List (Nat × Option Nat))      -- `bias`, `llock`, `lunlock`: one lane per step (R200, R202, R275)
  | cmds (rest : List (Nat × Cmd)) (got : List (Nat × Nat)) -- an engine issue: the commands still to be created, and the
                                                 -- tickets of the others, by `sv.lane` (R230, R275)
  | access (id : Nat)                            -- a load or atomic that waits for its value (R185, R252)
  | waiting                                      -- `bwait`, `ewait`, `cwait` (R217, R246, R331)
  | meeting                                      -- an exchange, `regang`, `bararr`, a branch of slices apart (R76, R80, R108)
  | gather                                       -- a slice-class `barwait` or `barsync` before its meeting (R261, R265)
  | bank (slot : Nat)                            -- `give`, `bdetach`, `bshare.off` until the drain completes (R213)
  | tiles                                        -- a matrix write that needs a tile while the core has none (R152)
  | stalled                                      -- the gate of R70, a checked read, or no room for a decision (R63)
  | refault                                      -- it found a fault that its block does not take now (R72)
  deriving DecidableEq, Repr

/-- A sequencer (R59). The slice fields are empty at the upper levels. -/
structure Seq where
  pc : Nat
  re : Option Nat
  loops : List Loop                    -- newest first
  calls : List CallRec                 -- newest first
  ring : List ReplayRec                -- oldest first (R69)
  watches : List (Nat × Nat × Nat)     -- (ancestor rank, top, end), newest first (R59, R62)
  queue : List Decision                -- oldest first (R62)
  kept : List (Decision × Nat)         -- gang decisions a block has consumed, with the block's next number (R62)
  log : List Decision                  -- a grid's log (R411)
  logPos : Nat                         -- the number of the next grid decision a gang reads (R411)
  dseq : Nat                           -- number of the next decision
  clause : Option ClauseRun
  retired : Bool
  done : Bool                          -- `done` executed by the block sequencer (R82)
  park : Park
  parkAt : Nat                         -- cycle at which the wait began (R261)
  mask : BitVec 4                      -- M (R59, R81)
  mstack : List (BitVec 4)             -- newest first
  waits : List (Option Nat)            -- W0 to W3 (R77)
  walk : Bool                          -- a walk of R77 is under way
  parted : Bool                        -- PARTED (R76)
  pjoin : Option Nat                   -- pending join (R76)
  passed : List Nat                    -- headers walked over since the last meeting (R108)
  wctr : List Nat                      -- w0 to w3 of a group (R85)
  promoted : Bool                      -- R323
  readyAt : Option Nat                 -- cycle since which the group has been ready, if it is (R323)
  yielded : Bool                       -- it has yielded and no other group has issued since (R83)
  deriving DecidableEq, Repr

/-! ## Memory accesses -/

/-- Kinds of queued access. -/
inductive AccKind | load | store | loadSys | storeSys | atomic (op : AtOp) (wide : Bool)
  deriving DecidableEq, Repr

/-- How far a lane's access has come. -/
inductive LaneSt
  | todo
  | queued                  -- stands in Tq, Mq or Qs (R275)
  | hole                    -- a late-data store in its place: its bytes wait (R187)
  | page (tag : Nat)        -- waits for the driver (R366)
  | done
  | failed (c : Cause)
  | void                    -- another lane of a symbolic access fails its check: no access is made (R189, R405)
  deriving DecidableEq, Repr

/-- Where a lane's access leads after the checks at issue: an intermediate address, a byte of M (die scratchpad or bank), a
bank through the tiller window, or an offset of the mirrored window. -/
inductive Tgt | none | inter (ia : Nat) | direct (key : Nat) | tiller (key : Nat) | mirror (off : Nat)
  deriving DecidableEq, Repr

/-- One lane of an access: its address once known, else the cells it is formed from (base low, base high, index). -/
structure LaneAcc where
  g : Nat
  l : Nat
  addr : Option Nat
  parts : List Cell
  disp : Nat
  size : Nat                -- bytes it reads or writes
  tgt : Tgt
  mark : Bool               -- the page had W and X at issue (R295)
  data : List Cell
  got : List Byte
  st : LaneSt
  lost : Bool := false      -- an `mload` line whose data has an uncorrectable error (R161)
  deriving DecidableEq, Repr

/-- An access issued and not yet complete (R186 to R190). `poison` marks a poisoned store record (R189). -/
structure Access where
  id : Nat
  unit : UnitRef
  kind : AccKind
  width : Nat
  ctr : Nat
  bumped : List (Nat × Nat)     -- groups (block, group) whose counter was incremented
  sym : Option (Nat × Nat)      -- quarter and symbol
  dst : Option Out
  team : List Nat
  word : Nat                    -- the instruction word
  pc : Nat                      -- its address
  lanes : List LaneAcc
  poison : Option Cause
  deriving DecidableEq, Repr

/-- An entry of Tq(s) or Qs(g, p) (R273): an access of lane `lane` of access `acc`. -/
structure QEntry where
  acc : Nat
  unit : UnitRef
  lane : Nat
  key : Nat                   -- the byte of M it reaches
  kind : AccKind
  width : Nat
  data : List Byte
  ctx : Nat
  seq : Nat                   -- the model's order number
  path : Option SysPath
  deriving DecidableEq, Repr

/-- A delivery of Mq(s, d) (R209, R275). -/
structure MEntry where
  src : Nat
  dst : Nat
  offset : Nat
  data : List Byte
  unit : UnitRef
  acc : Nat
  seq : Nat
  deriving DecidableEq, Repr

/-- A posted write of I(r) (R273, R374): to a physical byte of M. -/
structure InEntry where
  requester : Nat
  key : Nat
  data : List Byte
  ctx : Option Nat := none           -- the context whose ranges an aperture write was checked against (R361)
  wait : Option (Nat × Nat) := none  -- (function, virtual address) while its page is not translated (R374, R378)
  deriving DecidableEq, Repr

/-- A monitor entry (R259): the lanes of one issue that share it. `callt` marks a parked `callt` (R302). -/
structure Monitor where
  slice : Nat                 -- global home slice number
  ctx : Nat
  vaddr : Nat
  key : Nat
  width : Nat
  rel : Nat
  uns : Bool
  operand : Nat
  unit : UnitRef
  lanes : List Nat
  callt : Bool
  deriving DecidableEq, Repr

/-! ## Blocks -/

/-- A kernel descriptor (R308). -/
structure Desc where
  entry : Nat
  ltp : Nat
  width : Nat
  regs : Nat
  groups : Nat
  banks : Nat
  gang : Nat
  lclass : Nat
  compat : Bool
  deriving DecidableEq, Repr

/-- A bank slot (R204). -/
structure Slot where
  mirror : Bool
  shared : Bool
  shidx : Nat
  gen : Nat
  ro : Bool
  st : Nat                    -- 0 detached, 1 attached, 2 draining, 3 arriving
  bank : Nat
  target : Option (Nat × Nat) -- while a `give` drains: target block and slot
  deriving DecidableEq, Repr

/-- A barrier (R264). -/
structure Bar where
  target : Nat
  arrived : Nat
  phase : Nat
  deriving DecidableEq, Repr

/-- An operand handle (R153). The copy is held as bytes: line i at 2048 i, the exponent pairs at
2^20 + i K / 16. -/
structure Handle where
  n : Nat
  ty : MTy
  k : Nat
  base : Nat
  stride : Nat
  scale : Word
  gen : Word
  copy : List (Nat × Byte)
  deriving DecidableEq, Repr

/-- A held accumulator tile (R151): element (m, n) at 64 m + n, a missing element is +0. -/
structure Tile where
  n : Nat
  cells : List (Nat × Word)
  deriving DecidableEq, Repr

/-- A queued matrix instruction (R149). A register panel is captured at issue (R150) as bytes:
segment kb of column n stands at (8 n + kb) x 64, its elements first, its exponent pair at offset 32. -/
inductive MQEntry
  | mma (acc a b k : Nat) (wide : Bool) (panel : Option (MTy × List (Nat × Byte)))
  | mzero (acc : Nat)
  | mfreeTile (n : Nat)
  | mfreeHandle (n : Nat)
  | mscale (h : Option Nat) (v : Word)
  | swf
  | mclr
  deriving DecidableEq, Repr

/-- An entry of Eq(b) (R273): write number `idx` of command `seq`. -/
structure EEntry where
  b : Nat
  seq : Nat
  idx : Nat
  vaddr : Nat
  key : Nat
  data : List Byte
  shadow : Bool
  mark : Bool                     -- the page had W and X at issue (R230)
  deriving DecidableEq, Repr

/-- What a fault or a pre-emption does to a block. `since` and `no` are the cycle and the number of its detection (R72,
R336); `back` is the unit's sequencer before it moved past its instruction (R72, R339). -/
structure FaultInfo where
  unit : UnitRef
  cause : Cause
  pc : Nat
  addr : Nat
  info : Nat
  lanes : Nat
  preempt : Bool                  -- no record (R343)
  final : Bool                    -- a PAGE whose page cannot be mapped (R341)
  since : Nat := 0
  no : Nat := 0
  back : Option Seq := none
  deriving DecidableEq, Repr

/-- Where a block stands (R335, R343, R324). -/
inductive Phase | reserved | resident | framed | retired
  deriving DecidableEq, Repr

/-- A block (R310, R322): its place, its banks, its matrix and engine state. -/
structure Blk where
  id : Nat
  launch : Nat                    -- work-table index of its launch
  index : Nat
  member : Nat
  gangNo : Nat
  ctx : Nat
  desc : Desc
  core : Nat
  lslot : Nat                     -- lane-private slot (R184)
  chan : Nat                      -- channel of its core's engine (R224, R342)
  phase : Phase
  stop : Option FaultInfo         -- it is stopping for this fault (R71, R72)
  cancelled : Bool                -- CANCEL delivered (R324, R340)
  kill : Bool                     -- STATEERR (R340)
  hold : Option Nat               -- `csave` waits for its frame (R356)
  haltReq : Bool                  -- pre-empted with HALTED (R357)
  bars : List Bar                 -- 16 block barriers (R264)
  slots : List Slot               -- BM0 to BM15 (R204)
  mdrop : Bool                    -- R218
  mslot : Nat                     -- MSLOT as last designated (R218)
  tiles : List Tile               -- R151
  handles : List Handle           -- R153
  gen : Word                      -- operand generation (R85, R284)
  ps : Word                       -- PS (R158)
  merrSticky : Bool               -- cr.merr (R162)
  merrOvf : Bool
  mlog : List Word                -- error-log entries (R162)
  mq : List MQEntry               -- R149
  cmds : List Cmd                 -- newest 64 commands, oldest first, with older ones still in STATE 0 (R226)
  nextSeq : Nat                   -- NEXT (R227)
  frozen : Bool                   -- channel frozen (R227, R233)
  deriving DecidableEq, Repr

/-- A gang (R208, R264): its share table and barriers. -/
structure Gang where
  launch : Nat
  no : Nat
  members : List Nat              -- block numbers in ascending `sv.block`
  share : List (Nat × Nat × Nat × Bool)   -- (index, tiller, bank, ro)
  bars : List Bar
  came : List (Nat × Nat)         -- (barrier, block): the arrivals of the phase in progress (R264, R324)
  tiller : Nat                    -- tiller of its sequencer (R17, R179)
  retired : Bool
  deriving DecidableEq, Repr

/-! ## Launches -/

/-- States of a work-table entry (R315). -/
inductive EState | held | ready | active | opened | closed | done | cancelled | draining
  deriving DecidableEq, Repr

/-- A launch's own data (R308 to R310, R320). -/
structure LaunchData where
  desc : Desc
  nb : Nat
  prio : Nat
  deps : List Nat
  args : List Word
  gridSeq : Bool                  -- holds a grid sequencer (R320)
  nextStripe : Nat
  stripes : List (Nat × Nat × Nat) -- (die, next ticket, end)
  given : Nat                     -- tickets dispensed
  gangsDone : List Nat            -- gangs that have retired
  readyAt : Nat                   -- cycle at which it became ready (R321)
  deriving DecidableEq, Repr

/-- A job's data (R317, R319). -/
structure JobData where
  record : Nat
  weight : Nat
  maxprio : Nat
  root : Bool                     -- it has received its root launch
  fn : Nat
  deriving DecidableEq, Repr

/-- A work-table entry in use (R313, R314). -/
structure Entry where
  idx : Nat
  ctx : Nat
  kind : CKind
  parent : Nat                    -- index of the parent entry; its own index for a job
  pending : Nat
  st : EState
  isOpen : Bool
  creator : Nat                   -- the launch that created a phase or graph (R314)
  hard : Bool                     -- hard-cancelled
  drained : Bool                  -- drain-cancelled
  launch : Option LaunchData
  job : Option JobData
  deriving DecidableEq, Repr

/-- A STATUS word that the part still has to write for a job, then the interrupt that follows it: (function, context) (R319, R379). -/
structure Post where
  ctx : Nat
  va : Nat
  bytes : List Byte
  irq : Nat × Nat
  deriving DecidableEq, Repr

/-- The work table: entries in use, the generation of each index, and the free list of each die (R313). -/
structure Work where
  entries : List Entry
  gens : List (Nat × Nat)         -- (index, GEN); an index not listed has GEN 0 (DESIGN CHOICE log 4)
  freed : List Nat                -- indices freed since reset, oldest first: they follow the never-used ones (R313)
  used : List (Nat × Nat)         -- (die, how many indices of the die were ever taken)
  served : List ((Nat × Nat) × Nat) -- (die, job): gangs dispensed in the round of weights in progress (R321)
  posts : List Post               -- STATUS writes that wait for the driver, oldest first (R319)
  deriving DecidableEq, Repr

/-! ## Frames and fault records -/

/-- What the part keeps of a frame it has built (R348). -/
structure FrameInfo where
  fid : Nat
  ctx : Nat
  granules : Nat
  addr : Nat                      -- virtual address of the frame
  block : Option Nat              -- block number; none for an upper frame
  upper : Option UnitRef
  size : Nat
  header : List Byte              -- header as written
  item10 : List Byte
  item11 : List Byte
  item12 : List Byte              -- tile mask and handle records
  faulted : Bool
  frozen : Bool
  held : Bool
  halted : Bool
  pageTag : Option Nat            -- waits for the driver (R341)
  ready : Bool                    -- it may be restored
  core : Option Nat               -- core named by `crest`
  tiller : Nat
  queued : Nat                    -- decisions in the block sequencer's queue when the frame was built
  why : FaultInfo                 -- what it was built for
  built : List Byte               -- the frame as written
  image : Option (List Byte)      -- the frame as `eret`, `thaw` or `crest` read it
  deriving DecidableEq, Repr

/-- A record waiting to be posted (R336), 64 bytes. -/
structure FaultRec where
  no : Nat := 0                   -- when its fault was detected, among the held ones (R336)
  ctx : Nat
  bytes : List Byte
  handle : Option Nat             -- launch index, for a cancel when it cannot be posted
  fid : Option Nat
  deriving DecidableEq, Repr

/-- An open page request (R366). -/
structure PageReq where
  tag : Nat
  ctx : Nat
  page : Nat                      -- intermediate page number
  kind : Nat
  malformed : Bool
  written : Bool                  -- its record stands in the queue
  fns : List (Nat × Nat)          -- host functions whose aperture access waits, with its virtual address (R374)
  deriving DecidableEq, Repr

/-! ## Contexts and the rest of the chip -/

/-- A context's own registers. -/
structure Ctx where
  n : Nat
  entry : BitVec 128                    -- context-table entry (R362)
  ranges : List (Nat × BitVec 128)      -- range registers (R359); an unlisted one is 0
  staged : List (Nat × BitVec 64)       -- staged upper words (R361)
  crs : List (Nat × Word)               -- context-held control registers that were written (R349)
  halted : Bool                         -- R357
  pool : List Nat                       -- free frames of the shadow pool (R237)
  shadow : List (Nat × Nat)             -- (intermediate page, frame) (R237)
  lastFault : List Byte                 -- R336, R385
  deriving DecidableEq, Repr

/-- Power states. -/
inductive DevState | active | draining | drained | service
  deriving DecidableEq, Repr

/-- Host-link mode (R375). -/
inductive LinkMode | untrained | pcie | cxl
  deriving DecidableEq, Repr

/-- MESI states of the host-coherence cache (R377). -/
inductive Mesi | m | e | s
  deriving DecidableEq, Repr

/-- What the host-coherence cache sends to the host on CXL.cache (R377). -/
inductive CxlOp | rdShared | rdOwn | dirtyEvict | cleanEvict | data
  deriving DecidableEq, Repr

/-- A health word's fields (R386). -/
structure Health where
  cerr : Nat
  dstate : Nat
  grade : Nat
  errs : List Nat           -- cycles at which its latest uncorrectable errors occurred (R390)
  deriving DecidableEq, Repr

/-- The stage-2 command that waits (R368, R369). -/
inductive S2Wait
  | unmap (ctx level ia : Nat)
  | inval (ctx level ia : Nat)
  | untable (frame : Nat)
  deriving DecidableEq, Repr

/-- A bias flip in progress (R202). -/
structure Flip where
  unit : UnitRef
  lane : Nat
  page : Nat                      -- physical 64 KiB page number
  toDev : Bool
  deriving DecidableEq, Repr

/-- What the agenda may ask next (DESIGN CHOICE log 2): a unit issues, performing at most `budget` lanes of memory accesses; an event
happens; the host stores to its own memory, or loads from it, at a host physical address (R276); or a requester reads a register of a
function's BAR 0 (R6, R372), or the status window (R385). -/
inductive Act
  | issue (u : UnitRef) (budget : Nat)
  | event (i : Instr)
  | hostStore (requester addr : Nat) (bytes : List Byte)
  | hostLoad (requester addr n : Nat)
  | readReg (fn requester off : Nat)
  | readWindow (off n : Nat)
  deriving DecidableEq, Repr

structure Choice where
  elapsed : Nat
  act : Act
  dataErr : Bool := false         -- the data that this step reads of M has an uncorrectable error (R189, R294)
  refused : Bool := false         -- the chip at the other end refuses the request of this step (R382)
  deriving DecidableEq, Repr

/-! ## The groups -/

/-- Power and time; the other fields are the model's own (DESIGN CHOICE log 2, DESIGN CHOICE log 20). -/
structure Env where
  powered : Bool                  -- module power (R393, R396)
  cycle : Nat                     -- core cycles since reset (R349)
  agenda : List Choice
  cur : UnitRef
  budget : Nat
  dataErr : Bool := false         -- as the choice taken says
  refused : Bool := false         -- as the choice taken says
  ctr : Nat
  fresh : Nat                     -- the next unique number
  reply : List Byte               -- what the last host or peer request got
  aborted : Bool                  -- it was completed with completer abort (R342)
  irqs : List (Nat × Nat)         -- completion interrupts signalled: (function, vector) (R319, R371)
  deriving DecidableEq, Repr

/-- Memory and what the reference machine holds about it. -/
structure Mem where
  bytes : List Host.Cell          -- M (R273), in canonical form
  draft : List Nat                -- draft lines, by line number of M (R295)
  device : List Nat               -- HDM pages with device bias (R273, R375)
  holes : List (Nat × Nat × Nat × Nat) -- bytes of late-data stores: (byte, access, lane index, offset) (R187)
  locks : List (Nat × Nat × Nat)  -- (context, intermediate line, home slice) (R192)
  frames : List (Nat × BitVec 32) -- frame state words by frame number (R367); an unlisted one is 0
  hcc : List (Nat × Mesi)         -- host-coherence cache, by 64-byte line (R377)
  stale : List (Nat × Nat)        -- table entries overwritten by ordinary writes, as leaves under them may stand in a
                                  -- translation cache: (entry's byte of M, its bits before), newest first (R365, R368)
  buckets : List (Nat × Nat × Nat) -- (slice, context, tokens) (R193)
  spills : List (Nat × Nat)       -- (slice, tokens in the spill pool) (R193)
  borrows : List (Nat × Nat × Nat) -- (slice, context, tokens drawn from the pool since the refill) (R193)
  turns : List (Nat × Nat)        -- (slice, context that drew on its pool last) (R193)
  deriving DecidableEq, Repr

/-- Queues (R273) and accesses in flight. -/
structure Queues where
  accs : List Access              -- oldest first
  tq : List QEntry
  mq : List MEntry
  eq : List EEntry
  sq : List QEntry
  inb : List InEntry
  ycap : List (Nat × Nat × List Byte)  -- (context, line, bytes)
  fcap : List (Nat × Nat × List Byte)  -- (core, line, bytes)
  mons : List Monitor
  flips : List Flip
  pages : List PageReq
  deriving DecidableEq, Repr

/-- Frames and records of all contexts. -/
structure Faults where
  frames : List FrameInfo
  records : List FaultRec         -- oldest first
  frozenFns : List Nat            -- frozen host functions (R342)
  frozenLinks : List Nat
  frozenMgmt : Bool
  uppers : List (UnitRef × FaultInfo)  -- gang and grid sequencers that stop (R335)
  deriving DecidableEq, Repr

/-- Registers of the chip (R368, R372 to R375, R380). -/
structure Chip where
  chipId : BitVec 12
  routes : List (Nat × BitVec 32)
  linksUp : BitVec 24
  arg0 : BitVec 64
  arg1 : BitVec 64
  s2busy : Option S2Wait
  s2status : Nat
  prqBase : BitVec 64
  prqTail : BitVec 32
  prqHead : BitVec 32
  prqLog : BitVec 32
  spPend : List Bool              -- PEND of SPDIV0 to SPDIV3 (R373)
  spCur : List Nat
  spReq : List Nat
  apctl : List (Nat × BitVec 64)  -- by function (R374)
  hdmBase : BitVec 64
  hdmSize : BitVec 64
  mode : LinkMode
  hostUp : Bool
  hostFailed : Bool               -- the host link could not retrain in its mode: it stays down until a reset (R375)
  cxlOut : List (CxlOp × Nat)     -- CXL.cache messages sent, with their 64-byte lines, oldest first (R377)
  passed : List (Nat × Nat × Nat × Nat × PeerReq) -- peers' requests sent on: (link, hop, group, physical address, request) (R381)
  deriving DecidableEq, Repr

/-- Service, health and trust (R385 to R396). -/
structure Svc where
  dev : DevState
  throt : Bool
  arg : BitVec 64
  busy : Option (Nat × Nat × Nat) -- a QUIESCE or RECAL in progress: kind, index and the DSTATE it ends in
  status : Nat
  health : List (Nat × Nat × Health)  -- (kind, index, word); an unlisted domain is in service with grade 0
  spared : List (Nat × Nat)       -- (tiller, core index) whose logical number the spare holds
  spareFailed : List Nat          -- tillers whose spare has failed
  halvesOut : List Nat            -- SRAM-die halves quiesced
  slots : List Nat                -- active slot of the firmware and of the microcode (R392)
  images : List (Nat × Nat)       -- what is in the slots, as the model's image numbers: (image * 2 + slot, number)
  meas : List Nat                 -- MEAS0 to MEAS7 as 512-bit numbers (R394)
  debug : Bool                    -- measured debug (R393)
  linkErrs : List (Nat × Nat)     -- (retries, CRC errors) of each link (R385)
  window : List (Nat × Byte)      -- the status window copy (R385)
  wseq : Nat                      -- SEQ (R386)
  admitted : Nat
  completed : Nat
  deriving DecidableEq, Repr

/-- The state of the part. -/
structure State where
  env : Env
  regs : List (RegKey × Cell)
  seqs : List (UnitRef × Seq)
  blks : List Blk
  gangs : List Gang
  work : Work
  syms : List Sym
  mem : Mem
  qs : Queues
  ctxs : List Ctx
  flt : Faults
  chip : Chip
  svc : Svc
  deriving DecidableEq, Repr

/-- Faults: stops of the machine itself, apart from the faults that the instruction set takes as next states. -/
inductive Fault
  /-- Raised by the body of a program instruction when `env.cur` names no unit that stands before an instruction: `step`
  never calls a meaning so. Safe: the part has no such case. -/
  | noIssuingUnit
  deriving DecidableEq, Repr

/-- Refusals. -/
inductive Refusal
  /-- Raised by an arm of Dispatch for an instruction that has no meaning yet. Safe: nothing is claimed of it. -/
  | notModelled (mnemonic : String)
  deriving DecidableEq, Repr

/-! ## Reset -/

def Env.reset : Env :=
  { powered := true, cycle := 0, agenda := [], cur := .block 0, budget := 0, ctr := 0, fresh := 0, reply := [],
    aborted := false, irqs := [] }

def Mem.reset : Mem :=
  { bytes := [], draft := [], device := [], holes := [], locks := [], frames := [], hcc := [], stale := [], buckets := [],
    spills := [], borrows := [], turns := [] }

def Queues.reset : Queues :=
  { accs := [], tq := [], mq := [], eq := [], sq := [], inb := [], ycap := [], fcap := [], mons := [],
    flips := [], pages := [] }

def Chip.reset : Chip :=
  { chipId := 0, routes := [], linksUp := BitVec.allOnes 24, arg0 := 0, arg1 := 0, s2busy := none, s2status := 0,
    prqBase := 0, prqTail := 0, prqHead := 0, prqLog := 0, spPend := [false, false, false, false],
    spCur := [0, 0, 0, 0], spReq := [0, 0, 0, 0], apctl := [], hdmBase := 0, hdmSize := 0, mode := .untrained,
    hostUp := false, hostFailed := false, cxlOut := [], passed := [] }

/-- The status window before its first refresh: STATE 3, and COREOK 0xFF in every tiller word (R386, R387). -/
def windowReset : List (Nat × Byte) := (4, 3) :: (List.range Config.tillers).map fun t => (0x100 + 4 * t, 0xFF)

def Svc.reset : Svc :=
  { dev := .service, throt := false, arg := 0, busy := none, status := 0, health := [], spared := [],
    spareFailed := [], halvesOut := [], slots := [0, 0], images := [], meas := [measExtend 0 (Config.bootDigest 0), measExtend 0 (Config.bootDigest 1),
      measExtend 0 (Config.bootDigest 2), 0, 0, 0, 0, 0], debug := false,
    linkErrs := List.replicate 24 (0, 0), window := windowReset, wseq := 0, admitted := 0, completed := 0 }

/-- The part right after reset: powered, in SERVICE, every context invalid, no block, memory with nothing listed (R367,
R387, R396). -/
def State.reset : State :=
  { env := .reset, regs := [], seqs := [], blks := [], gangs := [],
    work := { entries := [], gens := [], freed := [], used := [], served := [], posts := [] }, syms := [], mem := .reset, qs := .reset, ctxs := [],
    flt := { frames := [], records := [], frozenFns := [], frozenLinks := [], frozenMgmt := false, uppers := [] },
    chip := .reset, svc := .reset }

end Sys2Proof.Machine
end

