-- ==== Sys2Proof/Machine/Ops.lean ====
section
/-! DEFINITION. The named operations over State: canonical maps, registers, sequencers and units, field updates. -/

namespace Sys2Proof

/-! ## Units -/

def UnitRef.rank : UnitRef → Nat
  | .slice .. => 1 | .group .. => 2 | .block .. => 3 | .gang .. => 4 | .grid .. => 5

def UnitRef.cls : UnitRef → Cls
  | .slice .. => .slice | .group .. => .group | .block .. => .block | .gang .. => .gang | .grid .. => .grid

/-- The block a unit belongs to. -/
def UnitRef.block? : UnitRef → Option Nat
  | .slice b _ _ => some b | .group b _ => some b | .block b => some b | _ => none

def UnitRef.groupNo : UnitRef → Nat
  | .slice _ g _ => g | .group _ g => g | _ => 0

def UnitRef.sliceNo : UnitRef → Nat
  | .slice _ _ k => k | _ => 0

/-- The key of a register of a unit's own scope (R18). -/
def UnitRef.ownReg (u : UnitRef) (n : Nat) : Machine.RegKey :=
  match u with
  | .group b g => .gr b g n
  | .block b => .br b n
  | .gang l k => .nr l k n
  | .grid l => .dr l n
  | .slice b g _ => .gr b g n

/-- The scope kind of a unit's own registers. -/
def UnitRef.kind : UnitRef → ScopeKind
  | .group .. => .g | .block .. => .b | .gang .. => .n | .grid .. => .d | .slice .. => .g

/-- Rank of the scope a register belongs to. -/
def ScopeKind.rank : ScopeKind → Nat | .g => 2 | .b => 3 | .n => 4 | .d => 5

end Sys2Proof

namespace Sys2Proof.Machine

/-! ## Association lists -/

/-- The value listed for a key. -/
def lookupD {α β : Type} [DecidableEq α] (d : β) (k : α) : List (α × β) → β
  | [] => d
  | (k', v) :: r => if k' = k then v else lookupD d k r

def lookup? {α β : Type} [DecidableEq α] (k : α) : List (α × β) → Option β
  | [] => none
  | (k', v) :: r => if k' = k then some v else lookup? k r

/-- Replaces the value of a key, in place, or appends the pair. -/
def assign {α β : Type} [DecidableEq α] (k : α) (v : β) : List (α × β) → List (α × β)
  | [] => [(k, v)]
  | (k', v') :: r => if k' = k then (k, v) :: r else (k', v') :: assign k v r

def erase {α β : Type} [DecidableEq α] (k : α) (m : List (α × β)) : List (α × β) := m.filter fun p => p.1 ≠ k

/-! ## Canonical maps from numbers: keys strictly rising, no entry equal to the default -/

/-- What an unlisted byte of M reads as (DESIGN CHOICE log 3). -/
def unlisted : Byte := 0

/-- The canonical form of a map whose unlisted keys read `d`. -/
def canonFrom {β : Type} [DecidableEq β] (d : β) : Option Nat → List (Nat × β) → Bool
  | _, [] => true
  | none, (k, v) :: r => v ≠ d && canonFrom d (some k) r
  | some j, (k, v) :: r => j < k && v ≠ d && canonFrom d (some k) r

/-- Reads a key. -/
def nget {β : Type} (d : β) (k : Nat) : List (Nat × β) → β
  | [] => d
  | (k', v) :: r => if k' = k then v else if k < k' then d else nget d k r

/-- Writes a key, keeping the form: writing the default removes the entry. -/
def nset {β : Type} [DecidableEq β] (d : β) (k : Nat) (v : β) : List (Nat × β) → List (Nat × β)
  | [] => if v = d then [] else [(k, v)]
  | (k', v') :: r =>
      if k' = k then (if v = d then r else (k, v) :: r)
      else if k < k' then (if v = d then (k', v') :: r else (k, v) :: (k', v') :: r)
      else (k', v') :: nset d k v r

/-- The canonical form of memory. -/
abbrev Memory.wf (m : List (Nat × Byte)) : Prop := canonFrom unlisted none m = true

/-- Reads one byte of M. -/
def readByte (m : List (Nat × Byte)) (k : Nat) : Byte := nget unlisted k m

/-- Writes one byte of M. -/
def writeByte (k : Nat) (v : Byte) (m : List (Nat × Byte)) : List (Nat × Byte) := nset unlisted k v m

/-- Reads `n` bytes, lowest address first. -/
def readBytes (m : List (Nat × Byte)) (k : Nat) : Nat → List Byte
  | 0 => []
  | n + 1 => readByte m k :: readBytes m (k + 1) n

/-- Writes bytes at rising addresses. -/
def writeBytes (k : Nat) : List Byte → List (Nat × Byte) → List (Nat × Byte)
  | [], m => m
  | b :: bs, m => writeBytes (k + 1) bs (writeByte k b m)

/-- A sorted set of numbers. -/
def insertSorted (k : Nat) : List Nat → List Nat
  | [] => [k]
  | j :: r => if j = k then j :: r else if k < j then k :: j :: r else j :: insertSorted k r

/-! ## Keys of M (DESIGN CHOICE log 3): physical bytes, banks and die scratchpads -/

/-- Physical address of a chip's local byte (R380). -/
def physKey (chip loc : Nat) : Nat := chip * 2 ^ 45 + loc
/-- Byte `o` of bank `n` of a tiller (R203). -/
def bankKey (tiller n o : Nat) : Nat := 2 ^ 60 + (tiller * 64 + n) * 131072 + o
/-- Byte `o` of a die's scratchpad (R183). -/
def spadKey (die o : Nat) : Nat := 2 ^ 61 + die * 2 ^ 32 + o
/-- The 128-byte line of a byte. -/
def lineOf (k : Nat) : Nat := k / 128

/-! ## Updates of the groups -/

def State.setEnv (s : State) (x : Env) : State := { s with env := x }
def State.setRegs (s : State) (x : List (RegKey × Cell)) : State := { s with regs := x }
def State.setSeqs (s : State) (x : List (UnitRef × Seq)) : State := { s with seqs := x }
def State.setBlks (s : State) (x : List Blk) : State := { s with blks := x }
def State.setGangs (s : State) (x : List Gang) : State := { s with gangs := x }
def State.setWork (s : State) (x : Work) : State := { s with work := x }
def State.setSyms (s : State) (x : List Sym) : State := { s with syms := x }
def State.setMem (s : State) (x : Mem) : State := { s with mem := x }
def State.setQs (s : State) (x : Queues) : State := { s with qs := x }
def State.setCtxs (s : State) (x : List Ctx) : State := { s with ctxs := x }
def State.setFlt (s : State) (x : Faults) : State := { s with flt := x }
def State.setChip (s : State) (x : Chip) : State := { s with chip := x }
def State.setSvc (s : State) (x : Svc) : State := { s with svc := x }

/-- A unique number of the model. -/
def State.bump (s : State) : State := s.setEnv { s.env with fresh := s.env.fresh + 1 }

/-! ## Registers -/

/-- The cell a register holds; a register never written holds zero (R85, R311). -/
def State.cell (s : State) (k : RegKey) : Cell := lookupD (.known 0) k s.regs

def State.setCell (s : State) (k : RegKey) (c : Cell) : State := s.setRegs (assign k c s.regs)

def State.setCells (s : State) (ks : List (RegKey × Cell)) : State :=
  s.setRegs (ks.foldl (fun m p => assign p.1 p.2 m) s.regs)

/-- The word of a register that holds a known value. -/
def Cell.word? : Cell → Option Word
  | .known w => some w
  | _ => none

/-- The word of a register that can hold no late value. -/
def State.word (s : State) (k : RegKey) : Word := ((s.cell k).word?).getD 0

def State.setWord (s : State) (k : RegKey) (w : Word) : State := s.setCell k (.known w)

/-! ## Blocks, gangs, sequencers -/

def State.blk? (s : State) (b : Nat) : Option Blk := s.blks.find? (·.id == b)

def State.mapBlk (s : State) (b : Nat) (f : Blk → Blk) : State :=
  s.setBlks (s.blks.map fun x => if x.id = b then f x else x)

def State.gang? (s : State) (l k : Nat) : Option Gang := s.gangs.find? fun g => g.launch == l && g.no == k

def State.mapGang (s : State) (l k : Nat) (f : Gang → Gang) : State :=
  s.setGangs (s.gangs.map fun g => if g.launch = l ∧ g.no = k then f g else g)

def State.seq? (s : State) (u : UnitRef) : Option Seq := lookup? u s.seqs

def State.setSeq (s : State) (u : UnitRef) (q : Seq) : State := s.setSeqs (assign u q s.seqs)

def State.mapSeq (s : State) (u : UnitRef) (f : Seq → Seq) : State :=
  match s.seq? u with
  | some q => s.setSeq u (f q)
  | none => s

def State.entry? (s : State) (i : Nat) : Option Entry := s.work.entries.find? (·.idx == i)

def State.mapEntry (s : State) (i : Nat) (f : Entry → Entry) : State :=
  s.setWork { s.work with entries := s.work.entries.map fun e => if e.idx = i then f e else e }

/-- Lanes of a group (R308). -/
def Desc.lanes (d : Desc) : Nat := 8 * 2 ^ d.width
/-- Slices of a group (R312). -/
def Desc.slices (d : Desc) : Nat := 2 * 2 ^ d.width
/-- Allocated registers per lane (R85, R308). -/
def Desc.nregs (d : Desc) : Nat := 32 * d.regs

/-- A sequencer at the start of its walk (R59, R61, R311). -/
def Seq.start (entry : Nat) : Seq :=
  { pc := entry, re := none, loops := [], calls := [], ring := [], watches := [], queue := [], kept := [], log := [],
    logPos := 0, dseq := 0, clause := none, retired := false, done := false, park := .none, parkAt := 0, mask := 0xF,
    mstack := [], waits := [none, none, none, none], walk := false, parted := false, pjoin := none, passed := [],
    wctr := [0, 0, 0, 0], promoted := false, readyAt := none, yielded := false }

/-- The parent of a unit (R61). -/
def State.parent? (s : State) : UnitRef → Option UnitRef
  | .slice b g _ => some (.group b g)
  | .group b _ => some (.block b)
  | .block b => (s.blk? b).map fun x => .gang x.launch x.gangNo
  | .gang l _ => some (.grid l)
  | .grid _ => none

def groupsOf (x : Blk) : List UnitRef := (List.range x.desc.groups).map (.group x.id)

def slicesOf (x : Blk) (g : Nat) : List UnitRef := (List.range x.desc.slices).map (.slice x.id g)

/-- The children of a unit that exist now (R61, R322). -/
def State.children (s : State) : UnitRef → List UnitRef
  | .slice .. => []
  | .group b g => match s.blk? b with | some x => slicesOf x g | none => []
  | .block b => match s.blk? b with | some x => groupsOf x | none => []
  | .gang l k => match s.gang? l k with | some g => g.members.map .block | none => []
  | .grid l => (s.gangs.filter (·.launch == l)).map fun g => .gang l g.no

def State.retired (s : State) (u : UnitRef) : Bool :=
  match s.seq? u with | some q => q.retired | none => true

/-- The non-retired slices of a unit. -/
def State.liveSlices (s : State) (u : UnitRef) : List UnitRef :=
  let groups (b : Nat) : List UnitRef := match s.blk? b with | some x => groupsOf x | none => []
  let slices (g : UnitRef) : List UnitRef := (s.children g).filter fun k => !s.retired k
  match u with
  | .slice .. => if s.retired u then [] else [u]
  | .group .. => slices u
  | .block b => (groups b).flatMap slices
  | .gang .. => (s.children u).flatMap fun x => match x with | .block b => (groups b).flatMap slices | _ => []
  | .grid _ => (s.children u).flatMap fun k => (s.children k).flatMap fun x =>
      match x with | .block b => (groups b).flatMap slices | _ => []

/-- A lane: block, group and `sv.lane`. -/
structure LaneId where
  b : Nat
  g : Nat
  l : Nat
  deriving DecidableEq, Repr

/-- The four lanes of a slice (R312). -/
def lanesOfSlice : UnitRef → List LaneId
  | .slice b g k => (List.range 4).map fun i => ⟨b, g, 4 * k + i⟩
  | _ => []

/-- The lanes of a unit whose slices have not retired: the participants of R68. -/
def State.lanesOf (s : State) (u : UnitRef) : List LaneId := (s.liveSlices u).flatMap lanesOfSlice

/-- Whether a lane is active: M holds it and it is not waiting (R77). -/
def State.laneActive (s : State) (x : LaneId) : Bool :=
  match s.seq? (.slice x.b x.g (x.l / 4)) with
  | some q => !q.retired && q.mask.getLsbD (x.l % 4) && (q.waits.getD (x.l % 4) none).isNone
  | none => false

/-- The global quarter of a group: group i lies on quarter i mod 4 of its block's core (R157). -/
def State.quarter (s : State) (b g : Nat) : Nat :=
  match s.blk? b with | some x => 4 * x.core + g % 4 | none => g % 4

/-- Tiller and die of a core (R14). -/
def tillerOf (core : Nat) : Nat := core / 8
def dieOf (core : Nat) : Nat := core / 192
def dieOfTiller (t : Nat) : Nat := t / 24

/-! ## Faults of the instruction set -/

/-- Code of a cause (R333). -/
def Cause.code : Cause → Nat
  | .undef => 0x01 | .clause => 0x02 | .latch => 0x03 | .regbound => 0x04 | .ixbound => 0x05 | .nonuniform => 0x06
  | .scope => 0x07 | .stack => 0x08 | .align => 0x09 | .window => 0x0A | .detached => 0x0B | .page => 0x0C
  | .draft => 0x0D | .bind => 0x0E | .dataerr => 0x0F | .syscall => 0x10 | .brk => 0x11 | .cancel => 0x12
  | .bank => 0x13 | .stateerr => 0x14 | .range => 0x40 | .prot => 0x41 | .exec => 0x42 | .priv => 0x43
  | .isolation => 0x44 | .link => 0x45

/-- Violations freeze their master (R333, R342). -/
def Cause.violation : Cause → Bool
  | .range | .prot | .exec | .priv | .isolation | .link => true
  | _ => false

/-- What an instruction that faults reports (R337). -/
structure Trap where
  cause : Cause
  addr : Nat
  info : Nat
  lanes : Nat
  after : Bool          -- the frame stands after the instruction (R339)
  deriving DecidableEq, Repr

/-- Why an instruction does not complete now: it stands where it is, with the state it leaves, or it faults. -/
inductive Stop
  | stay (s : State)
  | trap (t : Trap)
  deriving DecidableEq, Repr

/-- The result of an instruction's own effect. -/
abbrev Body := Except Stop State

def trapC (c : Cause) : Stop := .trap { cause := c, addr := 0, info := 0, lanes := 0, after := false }

/-- LANES of a record: bit L for each `sv.lane` (R337). -/
def laneMask (ls : List LaneId) : Nat := ls.foldl (fun n x => n ||| 2 ^ x.l) 0

def trapL (c : Cause) (ls : List LaneId) : Stop :=
  .trap { cause := c, addr := 0, info := 0, lanes := laneMask ls, after := false }

/-! ## The instruction a unit stands at -/

/-- The address of the word at a clause's position. -/
def ClauseRun.pcAt (c : ClauseRun) : Nat := c.addr + 8 + 8 * c.pos

/-- The place from which an instruction executes: the unit, its clause, its block if it has one, its launch and context. -/
structure Here where
  u : UnitRef
  q : Seq
  c : ClauseRun
  b : Nat
  launch : Nat
  ctx : Nat
  desc : Desc
  deriving DecidableEq, Repr

/-- The launch a unit belongs to. -/
def State.launchOf (s : State) : UnitRef → Nat
  | .grid l => l
  | .gang l _ => l
  | .block b | .group b _ | .slice b _ _ => match s.blk? b with | some x => x.launch | none => 0

def State.desc? (s : State) (l : Nat) : Option Desc := (s.entry? l).bind fun e => e.launch.map (·.desc)

def Desc.none : Desc :=
  { entry := 0, ltp := 0, width := 0, regs := 1, groups := 1, banks := 0, gang := 1, lclass := 0, compat := false }

/-- Where `env.cur` stands, if it stands before an instruction of a clause. -/
def State.here? (s : State) : Option Here :=
  match s.seq? s.env.cur with
  | none => .none
  | some q =>
    match q.clause with
    | none => .none
    | some c =>
      if c.ended then .none
      else
        let l := s.launchOf s.env.cur
        let b := (s.env.cur.block?).getD 0
        let x := s.blk? b
        some { u := s.env.cur, q := q, c := c, b := b, launch := l,
               ctx := match s.env.cur.block?, x with
                 | some _, some x => x.ctx
                 | _, _ => match s.entry? l with | some e => e.ctx | none => 0
               desc := match s.env.cur.block?, x with
                 | some _, some x => x.desc
                 | _, _ => (s.desc? l).getD Desc.none }

/-- The class of the clause. -/
def Here.cls (h : Here) : Cls := h.u.cls
/-- Whether the clause is a slice clause. -/
def Here.isSlice (h : Here) : Bool := h.u.cls == .slice
/-- Group of a slice or group clause. -/
def Here.g (h : Here) : Nat := h.u.groupNo
/-- The address of the instruction word. -/
def Here.pc (h : Here) : Nat := h.c.pcAt
/-- The slices that issue together, the issuing one among them, in rising order (R76, R90). -/
def Here.teamNos (h : Here) : List Nat := h.c.team.foldr insertSorted [h.u.sliceNo]
/-- The units that issue together: the team of a slice clause, else the unit (R76, R90). -/
def Here.units (h : Here) : List UnitRef :=
  if h.isSlice then h.teamNos.map (.slice h.b h.g) else [h.u]
/-- The lanes of the slices that issue together; at upper levels, of the instance (R68). -/
def Here.lanes (h : Here) (s : State) : List LaneId :=
  if h.isSlice then h.units.flatMap lanesOfSlice else s.lanesOf h.u
/-- The active ones among them (R77). -/
def Here.active (h : Here) (s : State) : List LaneId := (h.lanes s).filter s.laneActive

/-- Marks the instruction as executed: the position advances, and the clause ends after its last word or where a transfer
chose the next address. -/
def ClauseRun.advance (c : ClauseRun) : ClauseRun :=
  { c with pos := c.pos + 1, ended := c.ended || c.words.length ≤ c.pos + 1 || c.next.isSome }

/-- The unit moves past its instruction and waits no longer. -/
def State.advance (s : State) (u : UnitRef) : State :=
  s.mapSeq u fun q => { q with clause := q.clause.map ClauseRun.advance, park := .none }

/-- Of two faults of one block found in the same cycle, whether the first wins: the unit of higher rank, then the lower
`sv.group` (R72). -/
def FaultInfo.beats (i j : FaultInfo) : Bool :=
  !j.preempt && i.since == j.since &&
    (j.unit.rank < i.unit.rank || (i.unit.rank == j.unit.rank && i.unit.groupNo < j.unit.groupNo))

/-- What a fault is recorded as when it is found: its cycle, its number, and the sequencer of its unit where the frame stands
after the instruction (R72, R336, R339). -/
def faultInfo (u : UnitRef) (pc : Nat) (t : Trap) (s : State) : FaultInfo :=
  { unit := u, cause := t.cause, pc := pc, addr := t.addr, info := t.info, lanes := t.lanes, preempt := false, final := false,
    since := s.env.cycle, no := s.env.fresh, back := if t.after then s.seq? u else none }

/-- A unit stands before the instruction at which it found a fault that is not taken; it finds it again later (R72). -/
def standRefault (u : UnitRef) (s : State) : State := s.mapSeq u fun q => { q with park := .refault }

/-- A fault that another one of the same cycle displaces is not recorded: its unit stands before its instruction (R72). -/
def dropFault (i : FaultInfo) (s : State) : State :=
  standRefault i.unit (match i.back with | some q => s.setSeq i.unit q | none => s)

/-- TAKING A FAULT (R71, R72, R335, R339): the unit stands before the instruction, or after it where `t.after` says so; the
first fault detected is the block's, on a tie that of the higher rank and then of the lower group, and the block stops; any
other unit that finds one stands before its instruction and finds it again later; a gang or grid sequencer stops alone. The
frame and the record are built by FAULT_DELIVERY and FAULT_RECORD_POST. -/
def takeFault (u : UnitRef) (pc : Nat) (t : Trap) (s : State) : State :=
  let i := faultInfo u pc t s
  let s1 := (if t.after then s.advance u else s).bump
  match u.block? with
  | some b =>
      let stop (r : State) : State := r.mapBlk b fun x => { x with stop := some i }
      (match (s.blk? b).bind (·.stop) with
       | none => stop s1
       | some j => if i.beats j then stop (dropFault j s1) else standRefault u s)
  | none =>
      if s.flt.uppers.any (·.1 == u) then s
      else s1.setFlt { s1.flt with uppers := s1.flt.uppers ++ [(u, i)] }

/-- EVERY PROGRAM INSTRUCTION ends here: its own effect, then the unit moves past it; or it stands where it is; or it takes
its fault. -/
def finish (h : Here) (s : State) : Body → Host.Outcome State Fault Refusal
  | .ok t => .next (t.advance h.u)
  | .error (.stay t) => .next t
  | .error (.trap t) => .next (takeFault h.u h.pc t s)

/-- Executes a program instruction by its own effect. -/
def runInstr (body : Here → State → Body) (s : State) : Host.Outcome State Fault Refusal :=
  match s.here? with
  | none => .fault .noIssuingUnit
  | some h => finish h s (body h s)

/-- Waits: the instruction stands, nothing changed. -/
def waitHere {α : Type} (s : State) : Except Stop α := .error (.stay s)

/-- Waits for descendants or for room below: the instruction stands, and the unit counts as stalled (R63). -/
def stallHere {α : Type} (h : Here) (s : State) : Except Stop α :=
  .error (.stay (s.mapSeq h.u fun q => { q with park := .stalled }))

/-- Waits in which a unit is taken where it stands (R343): `wcmp`, `barwait`, `barsync`, `callt`, `bwait`, `ewait`, `cwait`;
and the wait for a tile, from which R152 swaps a block out. -/
def Park.stands : Park → Bool
  | .monitors _ | .barrier _ | .callt .. | .waiting | .gather | .tiles => true
  | .none | .access _ | .flips _ | .cmds .. | .bank _ | .stalled | .meeting | .refault => false

/-! ## The side-effect gate and decisions -/

/-- A unit is between clauses at this header, with nothing to consume (R70). -/
def Seq.standsAt (q : Seq) (a : Nat) : Bool := q.retired || (q.clause.isNone && q.pc == a && q.queue.isEmpty)

/-- Whether a lane's access still has to be performed. -/
def LaneAcc.open (x : LaneAcc) : Bool := match x.st with | .todo | .page _ | .hole => true | _ => false
def Access.open (a : Access) : Bool := a.lanes.any LaneAcc.open

/-- Unperformed accesses of a block's groups; those that stand behind a poisoned store record do not count, for they wait
until its fault is taken (R189). -/
def State.groupBusy (s : State) (b g : Nat) : Bool :=
  ((s.qs.accs.filter fun a => a.unit.block? == some b && a.unit.rank ≤ 2 && a.unit.groupNo == g).takeWhile
    fun a => a.poison.isNone).any Access.open

/-- Unperformed accesses of a block or gang sequencer, in the same sense. -/
def State.unitBusy (s : State) (u : UnitRef) : Bool :=
  ((s.qs.accs.filter (·.unit == u)).takeWhile fun a => a.poison.isNone).any Access.open

/-- The last number a grid has handed out that some gang has not consumed is at or after this one (R411). -/
def State.gridBehind (s : State) (l : Nat) (q : Seq) : Bool :=
  (s.children (.grid l)).any fun k => match s.seq? k with | some x => !x.retired && x.logPos < q.dseq | none => false

/-- Tickets of a launch not yet dispensed. -/
def State.undispensed (s : State) (l : Nat) : Bool :=
  match (s.entry? l).bind (·.launch) with
  | some d => d.given * d.desc.gang < d.nb
  | none => false

/-- A block that runs, or that stands swapped out without a fault (R84, R343). -/
def State.running (s : State) (x : Blk) : Bool :=
  (x.phase == .resident && x.stop.isNone) ||
    (x.phase == .framed && !(s.flt.frames.any fun f => f.block == some x.id && f.faulted))

/-- Every descendant has consumed every earlier decision and retired every instruction that precedes the clause at `a`
(R70). A gang not yet started stands at ENTRY (R311, R411). -/
def State.caughtUp (s : State) (u : UnitRef) (a : Nat) : Bool :=
  let at_ (v : UnitRef) : Bool := match s.seq? v with | some q => q.standsAt a | none => false
  let slicesOk (g : UnitRef) : Bool := (s.children g).all at_
  let blockOk (v : UnitRef) : Bool :=
    match v with
    | .block b =>
        match s.blk? b with
        | some x => x.phase == .retired || (s.running x &&
            (s.children v).all fun g => at_ g && slicesOk g && !s.groupBusy b g.groupNo)
        | none => true
    | _ => true
  match u with
  | .slice .. => true
  | .group b g => slicesOk u && !s.groupBusy b g
  | .block _ => blockOk u
  | .gang .. => (s.children u).all fun v => s.retired v || (at_ v && blockOk v && !s.unitBusy v)
  | .grid l =>
      (match s.seq? u with | some q => !s.gridBehind l q | none => true) &&
      (s.children u).all (fun k => s.retired k || (at_ k && !s.unitBusy k &&
        (s.children k).all fun v => s.retired v || (at_ v && blockOk v && !s.unitBusy v))) &&
      (!s.undispensed l || (match s.desc? l, s.seq? u with | some d, some q => d.entry == a && q.dseq == 0 | _, _ => true))

/-- A gated instruction waits for its descendants; a slice has none (R70). -/
def gate (h : Here) (s : State) : Except Stop Unit :=
  if s.caughtUp h.u h.c.addr then .ok () else stallHere h s

/-- Entries of a unit's incoming queue: the decisions that wait, and those that a block sequencer keeps (R62). -/
def Seq.queued (q : Seq) : Nat := q.queue.length + q.kept.length

/-- Whether a unit may produce `n` more decisions: no live child's queue is full and the ring has room (R63). -/
def State.mayProduce (s : State) (u : UnitRef) (n : Nat) : Bool :=
  match s.seq? u with
  | none => true
  | some q =>
    q.ring.length + n ≤ Config.queueDepth &&
    (match u with
     | .grid _ => q.log.length + n ≤ Config.queueDepth
     | _ => (s.children u).all fun v => s.retired v || (match s.seq? v with | some x => x.queued + n ≤ Config.queueDepth | none => true))

/-- Whether a register is a latch or a view of a unit. -/
def RegKey.ownOf (u : UnitRef) : RegKey → Bool
  | .latch v _ _ _ _ _ => v == u
  | .view v _ _ => v == u
  | _ => false

/-- The latches of a unit's clause in progress, and its views. -/
def State.latchesOf (s : State) (u : UnitRef) : List (RegKey × Cell) := s.regs.filter fun p => p.1.ownOf u

/-- Appends a decision to a live child's queue. -/
def pushTo (d : Decision) (s : State) (v : UnitRef) : State :=
  if s.retired v then s else s.mapSeq v fun q => { q with queue := q.queue ++ [d] }

/-- Produces a decision (R62, R69): the replay record first, then one copy in every child's queue, or in the grid's log. -/
def produce (u : UnitRef) (k : DKind) (key : Option RegKey) (s : State) : State :=
  match u, s.seq? u with
  | .slice .., _ | _, none => s
  | _, some q =>
    let r : ReplayRec :=
      { seq := q.dseq, pc := q.pc, re := q.re, loops := q.loops, calls := q.calls, clause := q.clause,
        latches := s.latchesOf u, watches := q.watches, key := key, prev := match key with | some x => s.cell x | none => .known 0 }
    let d : Decision := { rank := u.rank, seq := q.dseq, kind := k }
    let live := (s.children u).filter fun v => !s.retired v
    let s1 := s.setSeq u { q with
      dseq := q.dseq + 1,
      ring := (match u with
        | .grid _ => q.ring ++ [r]
        | _ => if live.isEmpty then q.ring else q.ring ++ [r]),
      log := (match u with | .grid _ => q.log ++ [d] | _ => q.log) }
    match u with
    | .grid _ => s1
    | _ => live.foldl (pushTo d) s1

end Sys2Proof.Machine
end

