-- ==== Sys2Proof/Machine/Flags.lean ====
section
/-! DEFINITION. Flags: the floating-point status of a lane (06_float R115, R116) and the carries and bounds of integer
results (05_integer R98, R102). -/

namespace Sys2Proof.Machine

/-! ## Floating-point flags (R115) -/

def fIV : Nat := 1
def fDZ : Nat := 2
def fOF : Nat := 4
def fUF : Nat := 8
def fIX : Nat := 16

/-- ORs flags into the `fsr` of a lane. -/
def State.orFsr (s : State) (x : LaneId) (f : Nat) : State :=
  if f = 0 then s else s.setWord (.fsr x.b x.g x.l) (s.word (.fsr x.b x.g x.l) ||| BitVec.ofNat 32 (f % 32))

/-- A lane's `fsr`. -/
def State.fsr (s : State) (x : LaneId) : Word := s.word (.fsr x.b x.g x.l)

/-! ## Integer results (R98, R102) -/

/-- Bounds of an integer type. -/
def ITy.lo (t : Sys2Proof.ITy) : Int := if t.signed then -((2 ^ (t.bits - 1) : Nat) : Int) else 0
def ITy.hi (t : Sys2Proof.ITy) : Int :=
  if t.signed then ((2 ^ (t.bits - 1) : Nat) : Int) - 1 else ((2 ^ t.bits : Nat) : Int) - 1

/-- `.sat` clamps the exact result to its type (R98). -/
def satInt (t : Sys2Proof.ITy) (sat : Bool) (x : Int) : Int :=
  if sat then min (max x (ITy.lo t)) (ITy.hi t) else x

/-- What an integer operation writes: the exact result, clamped if asked, modulo 2^w (R98). -/
def writeInt (t : Sys2Proof.ITy) (sat : Bool) (x : Int) : Nat := wrapInt t.bits (satInt t sat x)

/-- The carry out of `addc` and the borrow out of `subb` (R102). -/
def carryOut (t : Sys2Proof.ITy) (x : Int) : Bool := ((2 ^ t.bits : Nat) : Int) ≤ x
def borrowOut (x : Int) : Bool := x < 0

end Sys2Proof.Machine
end

