-- ==== Sys2Proof/Machine/Flt.lean ====
section
/-! DEFINITION. Floating-point values and their one rounding (06_float R111 to R129, 07_narrow R134, R136). A result is
computed exactly, or enclosed so tightly that its rounding is fixed, and delivered by `deliver`. -/

namespace Sys2Proof.Machine

/-- A format: widths of exponent and fraction, bias, and whether it has infinities (R111, R134). -/
structure FFmt where
  ebits : Nat
  fbits : Nat
  bias : Nat
  hasInf : Bool
  deriving DecidableEq, Repr

def FFmt.of : FTy → FFmt
  | .f32 => ⟨8, 23, 127, true⟩
  | .f64 => ⟨11, 52, 1023, true⟩
  | .f16 => ⟨5, 10, 15, true⟩
  | .bf16 => ⟨8, 7, 127, true⟩

def FFmt.of8 : F8Ty → FFmt
  | .e4m3 => ⟨4, 3, 7, false⟩
  | .e5m2 => ⟨5, 2, 15, true⟩

/-- Precision in bits. -/
def FFmt.p (f : FFmt) : Nat := f.fbits + 1
/-- Exponent of the unit of the subnormal grid. -/
def FFmt.qmin (f : FFmt) : Int := 1 - (f.bias : Int) - f.fbits
/-- Sign bit. -/
def FFmt.signBit (f : FFmt) : Nat := 2 ^ (f.ebits + f.fbits)
/-- The code of +∞ where the format has one. -/
def FFmt.infCode (f : FFmt) : Nat := (2 ^ f.ebits - 1) * 2 ^ f.fbits
/-- The default NaN (R111, R134). -/
def FFmt.nanCode (f : FFmt) : Nat :=
  if f.hasInf then f.infCode + 2 ^ (f.fbits - 1) else f.infCode + (2 ^ f.fbits - 1)
/-- The largest finite value's code: just below the first code that is no finite value. -/
def FFmt.maxCode (f : FFmt) : Nat := if f.hasInf then f.infCode - 1 else f.nanCode - 1

/-- A value read from a format: NaN (signalling or not), infinity, or a finite number m x 2^e with its sign. -/
inductive FV
  | nan (sig : Bool)
  | inf (neg : Bool)
  | fin (neg : Bool) (m : Nat) (e : Int)
  deriving DecidableEq, Repr

/-- Reads a code of a format (R111, R134). -/
def FFmt.read (f : FFmt) (w : Nat) : FV :=
  let neg := w / f.signBit % 2 == 1
  let a := w % f.signBit
  let ex := a / 2 ^ f.fbits
  let fr := a % 2 ^ f.fbits
  if f.maxCode < a then
    (if f.hasInf && fr == 0 then .inf neg else .nan (f.hasInf && fr / 2 ^ (f.fbits - 1) == 0))
  else if ex = 0 then .fin neg fr f.qmin
  else .fin neg (2 ^ f.fbits + fr) (f.qmin + (ex - 1 : Nat))

/-- An exact result: NaN, an infinity, or a finite value of magnitude m x 2^e, with `more` strictly between that and
(m + 1) x 2^e. With `more`, m has at least p + 2 bits. -/
inductive FX
  | nan
  | inf (neg : Bool)
  | num (neg : Bool) (m : Nat) (e : Int) (more : Bool)
  deriving DecidableEq, Repr

/-- Bits of a number. -/
def bitLen (m : Nat) : Nat := if m = 0 then 0 else Nat.log2 m + 1

/-- Whether the magnitude is increased: `half` compares the discarded part with one half, `odd` is the low bit kept. -/
def roundsUp (rm : RM) (neg odd : Bool) (half : Ordering) (exact : Bool) : Bool :=
  if exact then false
  else match rm with
    | .rne => half == .gt || (half == .eq && odd)
    | .rtz => false
    | .rup => !neg
    | .rdn => neg

/-- Rounds m x 2^e (and more) to a multiple of 2^q: the multiple and whether it is exact. -/
def roundAt (rm : RM) (neg : Bool) (m : Nat) (e : Int) (more : Bool) (q : Int) : Nat × Bool :=
  if q ≤ e then (m * 2 ^ (e - q).toNat, !more)
  else
    let k := (q - e).toNat
    if bitLen m + 2 < k then
      (let exact := m == 0 && !more
       ((if roundsUp rm neg false .lt exact then 1 else 0), exact))
    else
      let hi := m / 2 ^ k
      let lo := m % 2 ^ k
      let half := 2 ^ (k - 1)
      let exact := lo == 0 && !more
      let o : Ordering := if lo < half then .lt else if lo = half && !more then .eq else .gt
      (hi + (if roundsUp rm neg (hi % 2 == 1) o exact then 1 else 0), exact)

/-- A signed code. -/
def FFmt.signed (f : FFmt) (neg : Bool) (c : Nat) : Nat := if neg then f.signBit + c else c

/-- An infinite result after SAT (R114); a format without infinities gives its NaN (R145). -/
def FFmt.infRes (f : FFmt) (sat neg : Bool) : Nat :=
  if sat then f.signed neg f.maxCode else if f.hasInf then f.signed neg f.infCode else f.nanCode

/-- An overflowed result by rounding mode (R114). -/
def FFmt.overflow (f : FFmt) (rm : RM) (sat neg : Bool) : Nat :=
  match rm, neg with
  | .rne, _ | .rup, false | .rdn, true => f.infRes sat neg
  | _, _ => f.signed neg f.maxCode

/-- Delivers an exact result (R114): the code and the flags raised. -/
def FFmt.deliver (f : FFmt) (rm : RM) (sat : Bool) : FX → Nat × Nat
  | .nan => (f.nanCode, 0)
  | .inf neg => (f.infRes sat neg, 0)
  | .num neg m e more =>
    if m = 0 && !more then (f.signed neg 0, 0)
    else
      let q := e + bitLen m - f.p
      let (mu, exu) := roundAt rm neg m e more q
      let (m1, q1) := if mu = 2 ^ f.p then (2 ^ (f.p - 1), q + 1) else (mu, q)
      if q1 < f.qmin then
        let (ms, exs) := roundAt rm neg m e more f.qmin
        (f.signed neg ms, if exs then 0 else fUF ||| fIX)
      else
        let c := ((q1 - f.qmin).toNat + 1) * 2 ^ f.fbits + (m1 - 2 ^ (f.p - 1))
        if f.maxCode < c then (f.overflow rm sat neg, fOF ||| fIX)
        else (f.signed neg c, if exu then 0 else fIX)

/-! ## Exact arithmetic on finite values -/

/-- A finite value as a signed integer at exponent q, at or below its own. -/
def scaled (neg : Bool) (m : Nat) (e q : Int) : Int :=
  let v : Int := ((m * 2 ^ (e - q).toNat : Nat) : Int)
  if neg then -v else v

/-- Sum of finite terms with the sign rule of zeros (R114). -/
def sumFin (rm : RM) (ts : List (Bool × Nat × Int)) : FX :=
  let nz := ts.filter fun t => t.2.1 ≠ 0
  let q : Int := match nz with
    | [] => 0
    | t :: r => r.foldl (fun a x => min a x.2.2) t.2.2
  let v : Int := nz.foldl (fun a t => a + scaled t.1 t.2.1 t.2.2 q) 0
  if v = 0 then
    (if nz.isEmpty && ts.all (fun t => t.1) then .num true 0 0 false
     else if nz.isEmpty && ts.all (fun t => !t.1) then .num false 0 0 false
     else .num (rm == .rdn) 0 0 false)
  else .num (decide (v < 0)) v.natAbs q false

/-- A term of a sum: NaN, infinity or finite. -/
def FV.isNan : FV → Bool | .nan _ => true | _ => false
def FV.isSig : FV → Bool | .nan b => b | _ => false
def FV.isInf : FV → Bool | .inf _ => true | _ => false
def FV.isZero : FV → Bool | .fin _ m _ => m == 0 | _ => false
def FV.neg : FV → Bool | .nan _ => false | .inf n => n | .fin n _ _ => n

/-- The product of two values that are no NaN; none where it is 0 times infinity. -/
def FV.mul : FV → FV → Option FV
  | .fin a m e, .fin b n g => some (.fin (a != b) (m * n) (e + g))
  | .inf a, .inf b => some (.inf (a != b))
  | .inf a, .fin b n _ => if n = 0 then none else some (.inf (a != b))
  | .fin a m _, .inf b => if m = 0 then none else some (.inf (a != b))
  | _, _ => none

/-- Sum of terms that are no NaN; NaN where infinities of opposite sign meet. -/
def sumFV (rm : RM) (ts : List FV) : FX :=
  let infs := ts.filter FV.isInf
  match infs with
  | [] => sumFin rm (ts.map fun t => match t with | .fin n m e => (n, m, e) | _ => (false, 0, 0))
  | t :: r => if r.all (fun x => x.neg == t.neg) then .inf t.neg else .nan

/-- A result with the invalid flag. -/
def invalid (f : FFmt) : Nat × Nat := (f.nanCode, fIV)

/-- NaN operands give the default NaN, with IV where one is signalling (R122). -/
def nanIn (f : FFmt) (xs : List FV) : Option (Nat × Nat) :=
  if xs.any FV.isNan then some (f.nanCode, if xs.any FV.isSig then fIV else 0) else none

/-- Negation of a value. -/
def FV.flip : FV → FV
  | .nan b => .nan b | .inf n => .inf (!n) | .fin n m e => .fin (!n) m e

/-- Delivers a sum, with IV where infinities cancel. -/
def deliverSum (f : FFmt) (rm : RM) (sat : Bool) (ts : List FV) : Nat × Nat :=
  match sumFV rm ts with
  | .nan => invalid f
  | x => f.deliver rm sat x

def FX.ofFV : FV → FX
  | .nan _ => .nan | .inf n => .inf n | .fin n m e => .num n m e false

/-- `fadd` (R121, R122). -/
def fltAdd (f : FFmt) (m : FMod) (a b : FV) : Nat × Nat :=
  (nanIn f [a, b]).getD (deliverSum f m.rm m.sat [a, b])

def fltSub (f : FFmt) (m : FMod) (a b : FV) : Nat × Nat :=
  (nanIn f [a, b]).getD (deliverSum f m.rm m.sat [a, b.flip])

def fltMul (f : FFmt) (m : FMod) (a b : FV) : Nat × Nat :=
  (nanIn f [a, b]).getD (match a.mul b with | none => invalid f | some x => f.deliver m.rm m.sat (.ofFV x))

/-- One rounding of a sum of products and an addend. `quiet` treats every NaN among the products as quiet (R129). -/
def fltDot (f : FFmt) (m : FMod) (ps : List (FV × FV)) (c : FV) : Nat × Nat :=
  let prods := ps.map fun p => if p.1.isNan || p.2.isNan then some (FV.nan false) else p.1.mul p.2
  let sig := c.isSig || ps.any fun p => p.1.isSig || p.2.isSig
  let infs := (c :: prods.filterMap id).filterMap fun x => match x with | .inf n => some n | _ => none
  let bad := prods.any (·.isNone) || (infs.contains true && infs.contains false)
  if c.isNan || prods.any (fun x => x.any FV.isNan) then (f.nanCode, if sig || bad then fIV else 0)
  else if bad then invalid f
  else deliverSum f m.rm m.sat (prods.filterMap id ++ [c])

def fltFma (f : FFmt) (m : FMod) (a b c : FV) : Nat × Nat := fltDot f m [(a, b)] c

/-- Magnitude order of finite values. -/
def cmpFin (n1 : Bool) (m1 : Nat) (e1 : Int) (n2 : Bool) (m2 : Nat) (e2 : Int) : Ordering :=
  let q := min e1 e2
  compare (scaled n1 m1 e1 q) (scaled n2 m2 e2 q)

/-- Order of two values, none where a NaN makes them unordered (R125). -/
def FV.cmp : FV → FV → Option Ordering
  | .nan _, _ => none
  | _, .nan _ => none
  | .inf a, .inf b => some (if a = b then .eq else if a then .lt else .gt)
  | .inf a, .fin .. => some (if a then .lt else .gt)
  | .fin .., .inf b => some (if b then .gt else .lt)
  | .fin a m e, .fin b n g => some (cmpFin a m e b n g)

/-- `fmin`, `fmax` (R123) on codes. -/
def fltMinMax (f : FFmt) (isMax : Bool) (x0 y0 : Nat) : Nat × Nat :=
  let x := x0 % 2 ^ (1 + f.ebits + f.fbits)
  let y := y0 % 2 ^ (1 + f.ebits + f.fbits)
  let a := f.read x; let b := f.read y
  let fl := if a.isSig || b.isSig then fIV else 0
  match a.isNan, b.isNan with
  | true, true => (f.nanCode, fl)
  | true, false => (y, fl)
  | false, true => (x, fl)
  | false, false =>
    let aBelow : Bool := match a.cmp b with
      | some .lt => true
      | some .eq => a.neg || !b.neg
      | _ => false
    ((if aBelow == isMax then y else x), fl)

/-- Relations of `fcmp` (R125). -/
inductive FRel | eq | ne | lt | le | gt | ge | un | or
  deriving DecidableEq, Repr

def fltCmp (r : FRel) (a b : FV) : Bool × Nat :=
  let c := a.cmp b
  let holds : Bool := match r, c with
    | .eq, some o => o == .eq
    | .ne, some o => o != .eq
    | .ne, none => true
    | .lt, some o => o == .lt
    | .le, some o => o != .gt
    | .gt, some o => o == .gt
    | .ge, some o => o != .lt
    | .un, o => o.isNone
    | .or, o => o.isSome
    | _, none => false
  let anyNan := a.isNan || b.isNan
  let iv : Bool := match r with
    | .lt | .le | .gt | .ge => anyNan
    | _ => a.isSig || b.isSig
  (holds, if iv then fIV else 0)

/-- `fclass` (R126). -/
def fltClass (f : FFmt) (w : Nat) : Nat :=
  match f.read w with
  | .nan true => 256
  | .nan false => 512
  | .inf true => 1
  | .inf false => 128
  | .fin n m _ =>
    if m = 0 then (if n then 8 else 16)
    else if m < 2 ^ f.fbits then (if n then 4 else 32)
    else (if n then 2 else 64)

/-! ## Division and roots -/

/-- m x 2^e / (n x 2^g) to at least p + 2 bits. -/
def divX (f : FFmt) (neg : Bool) (m : Nat) (e : Int) (n : Nat) (g : Int) : FX :=
  let k := f.p + 3 + bitLen n
  let a := m * 2 ^ k
  .num neg (a / n) (e - g - k) (a % n != 0)

/-- Integer square root by bits: `fuel` bits remain, `r` is the root so far. -/
def isqrtGo (n : Nat) : Nat → Nat → Nat
  | 0, r => r
  | k + 1, r =>
    let t := r + 2 ^ k
    isqrtGo n k (if t * t ≤ n then t else r)

def isqrt (n : Nat) : Nat := isqrtGo n (bitLen n / 2 + 1) 0

/-- Makes an exponent even. -/
def evenExp (m : Nat) (e : Int) : Nat × Int := if e % 2 = 0 then (m, e) else (2 * m, e - 1)

def sqrtX (f : FFmt) (m : Nat) (e : Int) : FX :=
  let (m1, e1) := evenExp m e
  let k := f.p + 3
  let a := m1 * 2 ^ (2 * k)
  let r := isqrt a
  .num false r (e1 / 2 - k) (r * r != a)

def rsqrtX (f : FFmt) (m : Nat) (e : Int) : FX :=
  let (m1, e1) := evenExp m e
  let k := f.p + 3 + bitLen m1
  let a := 2 ^ (2 * k)
  let r := isqrt (a / m1)
  .num false r (-(e1 / 2) - k) (r * r * m1 != a)

def fltDiv (f : FFmt) (m : FMod) (a b : FV) : Nat × Nat :=
  (nanIn f [a, b]).getD
    (match a, b with
     | .inf _, .inf _ => invalid f
     | .inf n, x => f.deliver m.rm m.sat (.inf (n != x.neg))
     | .fin n _ _, .inf k => f.deliver m.rm m.sat (.num (n != k) 0 0 false)
     | .fin n x e, .fin k y g =>
       if y = 0 then
         (if x = 0 then invalid f
          else ((f.deliver m.rm m.sat (.inf (n != k))).1, fDZ))
       else f.deliver m.rm m.sat (divX f (n != k) x e y g)
     | _, _ => invalid f)

def fltRcp (f : FFmt) (m : FMod) (a : FV) : Nat × Nat := fltDiv f m (.fin false 1 0) a

def fltSqrt (f : FFmt) (m : FMod) (a : FV) : Nat × Nat :=
  (nanIn f [a]).getD
    (match a with
     | .fin n x e => if x = 0 then f.deliver m.rm m.sat (.num n 0 0 false)
                     else if n then invalid f else f.deliver m.rm m.sat (sqrtX f x e)
     | .inf n => if n then invalid f else f.deliver m.rm m.sat (.inf false)
     | .nan _ => invalid f)

def fltRsq (f : FFmt) (m : FMod) (a : FV) : Nat × Nat :=
  (nanIn f [a]).getD
    (match a with
     | .fin n x e => if x = 0 then ((f.deliver m.rm m.sat (.inf n)).1, fDZ)
                     else if n then invalid f else f.deliver m.rm m.sat (rsqrtX f x e)
     | .inf n => if n then invalid f else f.deliver m.rm m.sat (.num false 0 0 false)
     | .nan _ => invalid f)

/-! ## Functions whose results are irrational: fixed-point enclosures (DEDUCED log 21)

A fixed-point number at precision N stands for itself divided by 2^N. -/

/-- The integer part of a/b in steps: sum of z^(2k+1)/(2k+1), alternating where `alt`; `t` is the current power. -/
def atanSeries (alt : Bool) (num den : Nat) : Nat → Nat → Nat → Int → Int
  | 0, _, _, acc => acc
  | fuel + 1, k, t, acc =>
    if t = 0 then acc
    else
      let v : Int := ((t / (2 * k + 1) : Nat) : Int)
      atanSeries alt num den fuel (k + 1) (t * (num * num) / (den * den)) (if alt && k % 2 == 1 then acc - v else acc + v)

/-- arctan (1/n) and artanh (a/b) at precision N. -/
def atanInv (N n : Nat) : Int := atanSeries true 1 n (N + 8) 0 (2 ^ N / n) 0
def atanh (N a b : Nat) : Int := atanSeries false a b (N + 8) 0 (a * 2 ^ N / b) 0

/-- π (Machin) and ln 2 at precision N, within N + 16 units. -/
def piFix (N : Nat) : Nat :=
  let M := N + 32
  ((16 * atanInv M 5 - 4 * atanInv M 239).toNat) / 2 ^ 32
def ln2Fix (N : Nat) : Nat :=
  let M := N + 32
  ((2 * atanh M 1 3).toNat) / 2 ^ 32

/-- Exponential series: sum of x^k / k!, for x at precision N. -/
def expSeries (N x : Nat) : Nat → Nat → Nat → Nat → Nat
  | 0, _, _, acc => acc
  | fuel + 1, k, t, acc => if t = 0 then acc else expSeries N x fuel (k + 1) (t * x / 2 ^ N / (k + 1)) (acc + t)

/-- Alternating series of sine (from t = x, k = 1) and cosine (from t = 1, k = 0). -/
def sinSeries (N x2 : Nat) : Nat → Nat → Nat → Bool → Int → Int
  | 0, _, _, _, acc => acc
  | fuel + 1, k, t, minus, acc =>
    if t = 0 then acc
    else sinSeries N x2 fuel (k + 2) (t * x2 / 2 ^ N / ((k + 1) * (k + 2))) (!minus) (if minus then acc - t else acc + t)

/-- An enclosure: the value lies within `err` of `v`, all times 2^-N. -/
structure Encl where
  v : Int
  err : Nat
  N : Nat

/-- Delivers an enclosed irrational value where both ends agree. -/
def Encl.deliver? (f : FFmt) (m : FMod) (x : Encl) : Option (Nat × Nat) :=
  let neg := decide (x.v < 0)
  let a := x.v.natAbs
  if a ≤ 2 ^ (f.p + 4) + x.err then none
  else
    let lo := f.deliver m.rm m.sat (.num neg (a - x.err - 1) (-(x.N : Int)) true)
    let hi := f.deliver m.rm m.sat (.num neg (a + x.err) (-(x.N : Int)) true)
    if lo = hi then some lo else none

/-- Raises the precision until the rounding is decided. The bound is never reached (DEDUCED log 21). -/
def refine (f : FFmt) (m : FMod) (g : Nat → Encl) : Nat → Nat → Nat × Nat
  | 0, N => (((g N).deliver? f m).getD (f.nanCode, 0))
  | fuel + 1, N => match (g N).deliver? f m with
    | some r => r
    | none => refine f m g fuel (2 * N)

/-- x = m x 2^e at precision N, rounded down. -/
def fixOf (m : Nat) (e : Int) (N : Nat) : Nat :=
  let k := e + N
  if 0 ≤ k then m * 2 ^ k.toNat else m / 2 ^ (-k).toNat

/-- Precision that holds every bit of x. -/
def startN (e : Int) : Nat := 192 + (-e).toNat

/-- 2^x for x = (-1)^neg m 2^e, no integer, |x| < 2^21, whose bits all stand at precision N: 2^frac is enclosed, and the
integer part goes to the exponent. -/
def exp2Deliver (f : FFmt) (m : FMod) (neg : Bool) (x : Nat) (e : Int) : Nat → Nat → Nat × Nat
  | fuel, N =>
    let v : Int := if neg then -(fixOf x e N : Int) else fixOf x e N
    let n := v / ((2 ^ N : Nat) : Int)
    let fr := (v % ((2 ^ N : Nat) : Int)).toNat
    let y := fr * ln2Fix N / 2 ^ N
    let a := expSeries N y (N + 8) 0 (2 ^ N) 0
    let err := 16 * N + 64
    let lo := f.deliver m.rm m.sat (.num false (a - err) (n - N) true)
    let hi := f.deliver m.rm m.sat (.num false (a + err) (n - N) true)
    if lo = hi then lo
    else match fuel with
      | 0 => lo
      | k + 1 => exp2Deliver f m neg x e k (2 * N)

def fltExp2 (f : FFmt) (m : FMod) (a : FV) : Nat × Nat :=
  (nanIn f [a]).getD
    (match a with
     | .nan _ => invalid f
     | .inf n => f.deliver m.rm m.sat (if n then .num false 0 0 false else .inf false)
     | .fin n x e =>
       if x = 0 then f.deliver m.rm m.sat (.num false 1 0 false)
       else if 21 < (bitLen x : Int) + e then
         f.deliver m.rm m.sat (.num false 1 (if n then -(2 ^ 21 : Int) else 2 ^ 21) false)
       else if (bitLen x : Int) + e < -70 then
         f.deliver m.rm m.sat (.num false (if n then 2 ^ 64 - 1 else 2 ^ 64) (-64) true)
       else if 0 ≤ e ∨ x % 2 ^ (-e).toNat = 0 then
         (let i : Int := fixOf x e 0
          f.deliver m.rm m.sat (.num false 1 (if n then -i else i) false))
       else exp2Deliver f m n x e 5 (startN e))

/-- log2 of m x 2^e for m no power of two: with k = bitLen m - 1, ln (m / 2^k) / ln 2 + e + k. -/
def log2Encl (m : Nat) (e : Int) (N : Nat) : Encl :=
  let k := bitLen m - 1
  let z := 2 * atanh N (m - 2 ^ k) (m + 2 ^ k)
  { v := z * ((2 ^ N : Nat) : Int) / (ln2Fix N : Int) + (e + k) * ((2 ^ N : Nat) : Int), err := 16 * N + 64, N := N }

def fltLog2 (f : FFmt) (m : FMod) (a : FV) : Nat × Nat :=
  (nanIn f [a]).getD
    (match a with
     | .nan _ => invalid f
     | .inf n => if n then invalid f else f.deliver m.rm m.sat (.inf false)
     | .fin n x e =>
       if x = 0 then ((f.deliver m.rm m.sat (.inf true)).1, fDZ)
       else if n then invalid f
       else if x = 2 ^ (bitLen x - 1) then
         (let i : Int := e + (bitLen x - 1 : Nat)
          f.deliver m.rm m.sat (.num (decide (i < 0)) i.natAbs 0 false))
       else refine f m (log2Encl x e) 5 256)

/-- Sine or cosine of x = m x 2^e > 0: the argument is reduced with π/2 to enough bits that the remainder has N. -/
def trigEncl (isCos : Bool) (m : Nat) (e : Int) (N : Nat) : Encl :=
  let W := N + 16 + ((bitLen m : Int) + e).toNat + (-e).toNat
  let half := piFix W / 2
  let X := fixOf m e W
  let k := X / half
  let r := (X - k * half) / 2 ^ (W - N)
  let r2 := r * r / 2 ^ N
  let sinR := sinSeries N r2 (N + 8) 1 r false 0
  let cosR := sinSeries N r2 (N + 8) 0 (2 ^ N) false 0
  let quad := (if isCos then k + 1 else k) % 4
  let v := match quad with | 0 => sinR | 1 => cosR | 2 => -sinR | _ => -cosR
  { v := v, err := 16 * N + 64, N := N }

def fltTrig (isCos : Bool) (f : FFmt) (m : FMod) (a : FV) : Nat × Nat :=
  (nanIn f [a]).getD
    (match a with
     | .fin n x e =>
       if x = 0 then f.deliver m.rm m.sat (if isCos then .num false 1 0 false else .num n 0 0 false)
       else if (bitLen x : Int) + e < -60 then
         f.deliver m.rm m.sat (if isCos then .num false (2 ^ 64 - 1) (-64) true
                               else .num n (x * 2 ^ 64 - 1) (e - 64) true)
       else refine f ⟨(if n && !isCos then (match m.rm with | .rup => .rdn | .rdn => .rup | r => r) else m.rm), m.fs, m.sat⟩
              (trigEncl isCos x e) 5 256 |> fun r => if n && !isCos then (r.1 ^^^ f.signBit, r.2) else r
     | _ => invalid f)

/-- `fscale` (R121, R122). -/
def fltScale (f : FFmt) (m : FMod) (a : FV) (n : Int) : Nat × Nat :=
  (nanIn f [a]).getD
    (match a with
     | .fin k x e => f.deliver m.rm m.sat (.num k x (if x = 0 then 0 else e + n) false)
     | x => f.deliver m.rm m.sat (.ofFV x))

/-- Rounds a finite value to an integer by RM: the magnitude and whether it is exact. -/
def toIntMag (rm : RM) (neg : Bool) (m : Nat) (e : Int) : Nat × Bool := roundAt rm neg m e false 0

/-- `fround` (R121). -/
def fltRound (f : FFmt) (rm : RM) (a : FV) : Nat × Nat :=
  (nanIn f [a]).getD
    (match a with
     | .fin n x e =>
       let (i, ex) := if 0 ≤ e then (x, true) else toIntMag rm n x e
       ((f.deliver .rne false (.num n i (if 0 ≤ e then e else 0) false)).1, if ex then 0 else fIX)
     | x => f.deliver rm false (.ofFV x))

/-- `fcvt` (R127). -/
def fltCvt (f : FFmt) (m : FMod) (a : FV) : Nat × Nat := (nanIn f [a]).getD (f.deliver m.rm m.sat (.ofFV a))

/-- `fcvti` (R128): the integer and the flags. -/
def fltToInt (t : Sys2Proof.ITy) (rm : RM) (a : FV) : Nat × Nat :=
  match a with
  | .nan _ => (0, fIV)
  | .inf n => (wrapInt t.bits (if n then ITy.lo t else ITy.hi t), fIV)
  | .fin n x e =>
    let (i, ex) := toIntMag rm n x e
    let v : Int := if n then -(i : Int) else i
    if v < ITy.lo t then (wrapInt t.bits (ITy.lo t), fIV)
    else if ITy.hi t < v then (wrapInt t.bits (ITy.hi t), fIV)
    else (wrapInt t.bits v, if ex then 0 else fIX)

/-- `ficvt` (R128). -/
def fltOfInt (f : FFmt) (m : FMod) (v : Int) : Nat × Nat :=
  f.deliver m.rm m.sat (.num (decide (v < 0)) v.natAbs 0 false)

/-! ## Scaled products (R136, R147) -/

/-- The scaled product of element values and FP32 scales, with whether zero met an infinity. -/
def scaledProd (es ss : List FV) : FV :=
  if ss.any (fun x => x.isNan || x.isInf) || es.any FV.isNan then .nan false
  else if es.any FV.isZero || ss.any FV.isZero then
    (if es.any FV.isInf then .nan false else .fin ((es ++ ss).foldl (fun a x => a != x.neg) false) 0 0)
  else (es ++ ss).foldl (fun a x => (a.mul x).getD (.nan false)) (.fin false 1 0)

/-- `scl` (R147). A NaN scale hides what else meets (DESIGN CHOICE log 134). -/
def fltScl (f : FFmt) (m : FMod) (a x y : FV) : Nat × Nat :=
  match scaledProd [a] [x, y] with
  | .nan _ =>
    let iv := a.isSig || x.isSig || y.isSig || x.isInf || y.isInf ||
      (a.isInf && !(x.isNan || y.isNan) && (x.isZero || y.isZero))
    (f.nanCode, if iv then fIV else 0)
  | .inf n => f.deliver m.rm m.sat (.inf n)
  | .fin n k e => f.deliver m.rm m.sat (.num n k (if k = 0 then 0 else e) false)

end Sys2Proof.Machine
end

