-- ==== Sys2Proof/Machine/Operands.lean ====
section
/-! DEFINITION. Operands: the constant table, the reading of every source form in slice and upper clauses with the
uniformity check, late values, and the writing of destinations and latches (03_encoding R49 to R53, 04_control R64, R68,
05_integer R85 to R95). -/

namespace Sys2Proof.Machine

/-! ## How an operand is read -/

/-- The kind of an operand position: an integer of a type, a float of a type, or a packed word (R53, R86, R112). -/
inductive As | int (t : ITy) | flt (t : FTy) | packed
  deriving DecidableEq, Repr

/-- A 32-bit operand, and an address (R86, R175). -/
abbrev As.w32 : As := .int .z32
abbrev As.addr : As := .int .z64

def As.wide : As → Bool | .int t => t.wide | .flt t => t.wide | .packed => false

/-- A 32-bit value read at the position's width: sign-extended for s64 (R86), else by zeros, which R86 says for z64 only
(DESIGN CHOICE log 127). -/
def As.extend (a : As) (w : Word) : Nat :=
  match a with
  | .int .s64 => (w.signExtend 64).toNat
  | _ => w.toNat

/-! ## The constant table (R53) -/

/-- Entries 0 to 63 as signed integers. -/
def constInt (n : Nat) : Int :=
  if n ≤ 32 then n
  else [48, 64, 96, 128, 192, 256, 512, 1024, 2048, 4096, 8192, 16384, 32768, 65536, 0x7FFFFFFF, -0x80000000, -1, -2, -3,
        -4, -8, -16, -32, 0x0000FFFF, 0x00FF00FF, 0x0F0F0F0F, 0x33333333, 0x55555555, 0x01010101, 0x7F7F7F7F,
        (0x80808080 : Int) - 2 ^ 32].getD (n - 33) 0

/-- A real entry: a fraction with sign, an entry that depends on the format, an infinity or NaN. -/
inductive RConst
  | q (neg : Bool) (num den : Nat)
  | code (f : FFmt → Nat)
  | inf (neg : Bool)

/-- Irrational entries to 60 decimals, which decides their rounding in every format. -/
def deci (n : Nat) : RConst := .q false n (10 ^ 60)

/-- Entries 64 to 127. -/
def constReal (n : Nat) : RConst :=
  match n with
  | 64 => .q false 0 1 | 65 => .q true 0 1 | 66 => .q false 1 1 | 67 => .q true 1 1
  | 68 => .q false 1 2 | 69 => .q true 1 2 | 70 => .q false 2 1 | 71 => .q true 2 1
  | 72 => .q false 1 4 | 73 => .q false 4 1 | 74 => .q false 1 8 | 75 => .q false 8 1
  | 76 => .q false 3 2 | 77 => .q false 3 1 | 78 => .q false 10 1 | 79 => .q false 1 10
  | 80 => .inf false | 81 => .inf true | 82 => .code FFmt.nanCode | 83 => .code FFmt.maxCode
  | 84 => .code fun f => 2 ^ f.fbits
  | 85 => .code fun _ => 1
  | 86 => .code fun f => (f.bias - f.fbits) * 2 ^ f.fbits
  | 87 => .q false 448 1
  | 88 => .q false 57344 1
  | 89 => deci 3141592653589793238462643383279502884197169399375105820974944
  | 90 => deci 1570796326794896619231321691639751442098584699687552910487472
  | 91 => deci 6283185307179586476925286766559005768394338798750211641949889
  | 92 => deci 318309886183790671537767526745028724068919291480912897495334
  | 93 => deci 2718281828459045235360287471352662497757247093699959574966967
  | 94 => deci 693147180559945309417232121458176568075500134360255254120680
  | 95 => deci 1442695040888963407359924681001892137426645954152985934135449
  | 96 => deci 3321928094887362347870319429489390175864831393024580612054756
  | 97 => deci 301029995663981195213738894724493026768189881462108541310427
  | 98 => deci 2302585092994045684017991454684364207601101488628772976033327
  | 99 => deci 1414213562373095048801688724209698078569671875376948073176679
  | 100 => deci 707106781186547524400844362104849039284835937688474036588339
  | 101 => .q false 1 3 | 102 => .q false 2 3 | 103 => .q false 3 4
  | 104 => .q false 1 (2 ^ 8) | 105 => .q false 1 (2 ^ 16) | 106 => .q false 1 (2 ^ 24) | 107 => .q false 1 (2 ^ 32)
  | 108 => .q false (2 ^ 8) 1 | 109 => .q false (2 ^ 16) 1 | 110 => .q false (2 ^ 24) 1 | 111 => .q false (2 ^ 32) 1
  | 112 => .q false 16 1 | 113 => .q false 32 1 | 114 => .q false 64 1 | 115 => .q false 127 1
  | 116 => .q false 255 1 | 117 => .q false 1 16 | 118 => .q false 1 32 | 119 => .q false 1 255
  | 120 => .q false 1 127 | 121 => .q false 5 1 | 122 => .q false 6 1 | 123 => .q false 7 1
  | 124 => .q false 1 6 | 125 => .q false 1 7 | 126 => .q false 1 9 | _ => .q false 1 1000

/-- A real entry in a format, rounded to nearest even. -/
def constFlt (f : FFmt) (n : Nat) : Nat :=
  match constReal n with
  | .q neg a b => if a = 0 then f.signed neg 0 else (f.deliver .rne false (divX f neg a 0 b 0)).1
  | .code g => g f
  | .inf neg => f.signed neg f.infCode

/-- A real entry at an integer operand: its FP32 pattern, or at 64 bits its FP64 pattern; entries 83 to 86 are their FP32
values there (R53). -/
def constBits (wide : Bool) (n : Nat) : Nat :=
  if !wide then constFlt (FFmt.of .f32) n
  else if 83 ≤ n ∧ n ≤ 86 then
    match (FFmt.of .f32).read (constFlt (FFmt.of .f32) n) with
    | .fin neg m e => ((FFmt.of .f64).deliver .rne false (.num neg m e false)).1
    | _ => 0
  else constFlt (FFmt.of .f64) n

/-- The value a constant delivers to an operand position (R53). -/
def constVal (a : As) (n : Nat) : Nat :=
  if n < 64 then
    (match a with
     | .int t => wrapInt t.bits (constInt n)
     | .flt t => ((FFmt.of t).deliver .rne false (.num (decide (constInt n < 0)) (constInt n).natAbs 0 false)).1
     | .packed => wrapInt 32 (constInt n))
  else
    (match a with
     | .int t => constBits t.wide n
     | .flt t => constFlt (FFmt.of t) n
     | .packed => constFlt (FFmt.of .f32) n)

/-! ## Values read -/

/-- What a position reads: a number, or the cells of a late value. -/
inductive Val
  | known (v : Nat)
  | late (lo : Cell) (hi : Option Cell)
  deriving DecidableEq, Repr

def Val.of1 : Cell → Val
  | .known w => .known w.toNat
  | c => .late c none

def Val.of2 (lo hi : Cell) : Val :=
  match lo, hi with
  | .known a, .known b => .known (a.toNat + 2 ^ 32 * b.toNat)
  | _, _ => .late lo (some hi)

def Val.num : Val → Nat | .known v => v | .late .. => 0
def Val.isLate : Val → Bool | .late .. => true | _ => false

/-- The integer form a value is, whole and at the width read (R91, R93). -/
def Val.iform? : Val → Option IForm
  | .late (.form f false) none => if f.wide then none else some f
  | .late (.form f false) (some (.form g true)) => if f = g ∧ f.wide then some f else none
  | _ => none

/-- The floating-point chain a value is. -/
def Val.fchain? : Val → Option FChain
  | .late (.chain c false) none => if c.ty.wide then none else some c
  | .late (.chain c false) (some (.chain d true)) => if c = d ∧ c.ty.wide then some c else none
  | _ => none

/-- The symbol a cell refers to. -/
def Cell.sym? : Cell → Option (Nat × Nat)
  | .known _ => none
  | .form f _ => some (f.q, f.sym)
  | .chain c _ => some (c.q, c.sym)

def Val.syms : Val → List (Nat × Nat)
  | .known _ => []
  | .late lo hi => (lo.sym?.toList) ++ (hi.bind Cell.sym?).toList

/-- The cells of a number of 32 or 64 bits, of a form and of a chain. -/
def knownCells (wide : Bool) (v : Nat) : List Cell :=
  if wide then [.known (BitVec.ofNat 32 v), .known (BitVec.ofNat 32 (v / 2 ^ 32))] else [.known (BitVec.ofNat 32 v)]
def formCells (f : IForm) : List Cell := if f.wide then [.form f false, .form f true] else [.form f false]
def chainCells (c : FChain) : List Cell := if c.ty.wide then [.chain c false, .chain c true] else [.chain c false]

/-! ## Symbols -/

def State.sym? (s : State) (q n : Nat) : Option Sym := s.syms.find? fun x => x.q == q && x.sym == n

def State.mapSym (s : State) (q n : Nat) (f : Sym → Sym) : State :=
  s.setSyms (s.syms.map fun x => if x.q = q ∧ x.sym = n then f x else x)

/-- The lowest-numbered free symbol of a quarter (R90). -/
def State.freeSym (s : State) (q : Nat) : Option Nat := (List.range Config.symbolsPerQuarter).find? fun n => (s.sym? q n).isNone

def State.access? (s : State) (id : Nat) : Option Access := s.qs.accs.find? (·.id == id)

def AccKind.isWrite : AccKind → Bool | .load | .loadSys => false | _ => true

/-- Code of an access width in INFO (R337). -/
def widthCode (bytes : Nat) : Nat := Nat.log2 bytes

/-- INFO of an access fault (R337). -/
def accInfo (bytes : Nat) (write : Bool) : Nat := widthCode bytes + (if write then 8 else 0)

/-- INFO where the instruction has no WIDTH field: a free value in its place (DESIGN CHOICE log 23). -/
def openInfo (addr : Nat) (write : Bool) : Nat := (Config.widthless addr).toNat + (if write then 8 else 0)

/-- The fault that a failed access gives where it is taken (R95, R189). -/
def Access.trap (a : Access) (c : Cause) : Trap :=
  let bad := a.lanes.filter fun x => match x.st with | .failed _ | .page _ => true | _ => false
  let at_ := match bad with | x :: _ => x.addr.getD 0 | [] => 0
  { cause := c, addr := at_, after := false
    info := if a.width ≤ 32 then accInfo a.width a.kind.isWrite else openInfo at_ a.kind.isWrite
    lanes := if a.unit.rank = 1 then laneMask (bad.map fun x => ⟨0, x.g, x.l⟩) else 0 }

/-- The symbols an access still needs: those of its addresses, and of a store's data. -/
def Access.needs (a : Access) : List (Nat × Nat) :=
  a.lanes.flatMap fun y => y.parts.filterMap Cell.sym? ++ (if a.kind.isWrite then y.data.filterMap Cell.sym? else [])

def Sym.accessId? (x : Sym) : Option Nat := match x.feed with | .access id => some id | .tickets .. => none

/-- The accesses that feed the symbols an access needs. -/
def State.feeders (s : State) (a : Access) : List Access :=
  a.needs.filterMap fun p => ((s.sym? p.1 p.2).bind Sym.accessId?).bind s.access?

def Access.paged (a : Access) : Bool := a.lanes.any fun y => match y.st with | .page _ => true | _ => false

/-- Whether an access, or one that its address comes from, waits for the driver (R341, R405). -/
def State.waitsPage (s : State) : Nat → Access → Bool
  | 0, _ => false
  | n + 1, a => a.paged || (s.feeders a).any (s.waitsPage n)

def Access.bad (a : Access) : Bool := a.paged || a.lanes.any fun y => match y.st with | .failed _ => true | _ => false

/-- The access that comes first in the chain that a poison passed along (R405). -/
def State.rootOf (s : State) : Nat → Access → Access
  | 0, a => a
  | n + 1, a => match (s.feeders a).find? fun b => b.bad || s.waitsPage n b with
    | some b => s.rootOf n b
    | none => a

/-- The deferred fault of an access (R95, R189, R405). -/
def State.accTrap (s : State) (a : Access) (c : Cause) : Trap := (s.rootOf s.qs.accs.length a).trap c

/-- The cause of a poisoned symbol; a symbol whose access waits for the driver gives PAGE (R189, R341). -/
def State.symCause (s : State) (x : Sym) : Option Cause :=
  x.poison.or ((x.accessId?.bind s.access?).bind fun a => if s.waitsPage s.qs.accs.length a then some .page else none)

/-- The deferred fault of a poisoned symbol, with the number of the access it comes from. -/
def State.symTrap (s : State) (x : Sym) (c : Cause) : Nat × Trap :=
  match x.accessId?.bind s.access? with
  | some a => ((s.rootOf s.qs.accs.length a).id, s.accTrap a c)
  | none => (0, { cause := c, addr := 0, info := 0, lanes := 0, after := false })

/-- The fault of the first access in program order among poisoned symbols (R95, R405). -/
def State.poisonOf (s : State) (ls : List (Nat × Nat)) : Option Trap :=
  (ls.filterMap fun p => (s.sym? p.1 p.2).bind fun x => (s.symCause x).map (s.symTrap x)).foldl
    (fun best t => match best with | some (b : Nat × Trap) => if t.1 < b.1 then some t else best | none => some t) none
    |>.map (·.2)

/-- The fault of the first poisoned store record among the accesses of `mine` (R189). -/
def State.recordOf (s : State) (mine : UnitRef → Bool) : Option Trap :=
  (s.qs.accs.find? fun a => mine a.unit && a.kind.isWrite && a.sym.isNone && a.dst.isNone && a.bad).map fun a =>
    s.accTrap a (a.poison.getD (if a.paged then .page else .dataerr))

/-- The fault of a group's poisoned store record. -/
def State.storeRecord (s : State) (b g : Nat) : Option Trap :=
  s.recordOf fun u => u.block? == some b && u.rank ≤ 2 && u.groupNo == g

/-- The store records that an instruction of a unit takes: its group's, or its own; a block sequencer takes those of its
groups as well (DEDUCED log 25). -/
def State.recordsAt (s : State) (u : UnitRef) : Option Trap :=
  match u with
  | .slice b g _ | .group b g => s.storeRecord b g
  | .block b => (s.recordOf (· == u)).or ((s.blk? b).bind fun x => (List.range x.desc.groups).findSome? (s.storeRecord b))
  | _ => s.recordOf (· == u)

/-- Waits for symbols: a poisoned one gives its fault, and so does a poisoned store record of the group; else the
instruction stands (R64, R93, R95, R189). -/
def waitSyms {α : Type} (s : State) (u : UnitRef) (ls : List (Nat × Nat)) : Except Stop α :=
  match (s.recordsAt u).or (s.poisonOf ls) with
  | some t => .error (.trap t)
  | none => .error (.stay s)

/-! ## Latches -/

/-- Whether an instruction's result has 64 bits (R89). -/
def Instr.outWide : Instr → Bool
  | .add _ _ t _ _ _ | .sub _ _ t _ _ _ | .mul _ _ t _ _ _ | .mulhi _ _ t _ _ | .mad _ _ t _ _ _ _ | .div _ _ t _ _
  | .rem _ _ t _ _ | .min _ _ t _ _ | .max _ _ t _ _ | .abs _ _ t _ _ | .neg _ _ t _ _ | .and _ _ t _ _
  | .or _ _ t _ _ | .xor _ _ t _ _ | .andn _ _ t _ _ | .not _ _ t _ | .shl _ _ t _ _ _ | .shr _ _ t _ _
  | .sar _ _ t _ _ | .rot _ _ t _ _ | .clz _ _ t _ | .popc _ _ t _ | .brev _ _ t _ | .bfx _ _ t _ _
  | .bfi _ _ t _ _ _ | .ext _ _ t _ _ | .csel _ _ t _ _ _ | .mov _ _ t _ | .addc _ _ t _ _ _ | .subb _ _ t _ _ _
  | .shf _ _ t _ _ | .shfx _ _ t _ _ | .shfu _ _ t _ _ | .shfd _ _ t _ _ | .bcast _ _ t _ _
  | .fcvti _ _ t _ _ _ _ => t.wide
  | .cmpEq o _ t _ _ | .cmpNe o _ t _ _ | .cmpLt o _ t _ _ | .cmpLe o _ t _ _ | .cmpGt o _ t _ _ | .cmpGe o _ t _ _ =>
    t.wide && (match o.dst with | .pred _ => false | _ => true)
  | .lea .. | .leaImm .. => true
  | .fadd _ _ t _ _ _ | .fsub _ _ t _ _ _ | .fmul _ _ t _ _ _ | .ffma _ _ t _ _ _ _ | .fmin _ _ t _ _ _
  | .fmax _ _ t _ _ _ | .fabs _ _ t _ | .fneg _ _ t _ | .frcp _ _ t _ _ | .frsq _ _ t _ _ | .fsqrt _ _ t _ _
  | .fdiv _ _ t _ _ _ | .fexp2 _ _ t _ _ | .flog2 _ _ t _ _ | .fsin _ _ t _ _ | .fcos _ _ t _ _
  | .fscale _ _ t _ _ _ | .fround _ _ t _ _ _ | .fcvt _ _ t _ _ _ | .ficvt _ _ t _ _ _ => t.wide
  | .ld _ m _ | .ldsys _ m _ => m.width == .d
  | .aadd _ w _ _ | .amin _ w _ _ _ | .amax _ w _ _ _ | .aand _ w _ _ | .aor _ w _ _ | .axor _ w _ _
  | .axchg _ w _ _ | .acas _ w _ _ _ | .afadd _ w _ _ | .ainc _ w _ _ => w
  | _ => false

/-- What latch n of the clause holds: its destination and whether it has 64 bits. -/
def Here.latchInfo (h : Here) (n : Nat) : Option (Dst × Bool) :=
  match h.c.words[n]? with
  | none => none
  | some w => match decode w with
    | .ok i => i.out.map fun o => (o.dst, Instr.outWide i)
    | .error _ => none

/-- The unit whose latches a lane uses. -/
def Here.latchUnit (h : Here) (x : LaneId) : UnitRef := if h.isSlice then .slice x.b x.g (x.l / 4) else h.u

def latchKeys (u : UnitRef) (pos : Nat) (x : LaneId) (wide : Bool) : List RegKey :=
  if wide then [.latch u pos x.b x.g x.l false, .latch u pos x.b x.g x.l true] else [.latch u pos x.b x.g x.l false]

/-- Where the one value of a scope-register latch stands: no lane has this number (R312). -/
def noLane : LaneId := ⟨0, 0, 64⟩

/-- Reads a latch: at 64 bits, a 32-bit result is extended; at 32 bits, the low half (R86, R89). -/
def State.readLatch (s : State) (u : UnitRef) (n : Nat) (x : LaneId) (w64 : Bool) (a : As) : Val :=
  let lo := s.cell (.latch u n x.b x.g x.l false)
  if a.wide then
    (if w64 then Val.of2 lo (s.cell (.latch u n x.b x.g x.l true))
     else match lo with | .known w => .known (a.extend w) | c => .late c (some (.known 0)))
  else Val.of1 lo

/-! ## Reading in one lane -/

/-- A system value of a lane or unit (R312). -/
def State.sysVal (s : State) (v : SysVal) (x : LaneId) (reader : UnitRef) : Word :=
  match v with
  | .lane => BitVec.ofNat 32 x.l
  | .slice => BitVec.ofNat 32 (x.l / 4)
  | .group => BitVec.ofNat 32 x.g
  | .block => BitVec.ofNat 32 (((s.blk? x.b).map (·.member)).getD 0)
  | .gang => BitVec.ofNat 32 (((s.blk? x.b).map (·.gangNo)).getD 0)
  | .index => BitVec.ofNat 32 (((s.blk? x.b).map (·.index)).getD 0)
  | .lc => match s.seq? reader with
    | some q => BitVec.ofNat 32 ((q.loops.head?.map (·.index)).getD 0)
    | none => 0

/-- The register an indexed operand names (R86, R87). -/
def State.indexed (s : State) (nregs : Nat) (x : LaneId) (i o : Nat) (wide : Bool) : Except Cause Nat :=
  let t := (s.word (.ixv x.b x.g x.l i)).toNat + o
  if (s.word (.ixl x.b x.g x.l i)).toNat ≤ t then .error .ixbound
  else
    let n := (s.word (.ixb x.b x.g x.l i)).toNat + t
    if wide && n % 2 == 1 then .error .ixbound
    else if nregs ≤ n then .error .regbound
    else .ok n

def State.vecVal (s : State) (x : LaneId) (n : Nat) (wide : Bool) : Val :=
  if wide then Val.of2 (s.cell (.vec x.b x.g x.l n)) (s.cell (.vec x.b x.g x.l (n + 1)))
  else Val.of1 (s.cell (.vec x.b x.g x.l n))

/-- A predicate bit; p7 is pt (R49). -/
def State.predBit (s : State) (x : LaneId) (p : Nat) : Bool := p == 7 || s.word (.pred x.b x.g x.l p) != 0

def regVal (s : State) (k : Nat → RegKey) (n : Nat) (wide : Bool) : Val :=
  if wide then Val.of2 (s.cell (k n)) (s.cell (k (n + 1))) else Val.of1 (s.cell (k n))

/-- Reads a source in one lane of a slice clause, or a lane's own value of a source of lower scope. -/
def State.readLane (s : State) (h : Here) (x : LaneId) (a : As) : Src → Except Cause Val
  | .vreg n => .ok (s.vecVal x n a.wide)
  | .vidx i o => (s.indexed h.desc.nregs x i o a.wide).map fun n => s.vecVal x n a.wide
  | .latch n => .ok (s.readLatch (h.latchUnit x) n x ((h.latchInfo n).map (·.2) == some true) a)
  | .pred p => .ok (.known (a.extend (if s.predBit x p then 1 else 0)))
  | .sv v => .ok (.known (a.extend (s.sysVal v x (h.latchUnit x))))
  | .k n => .ok (.known (constVal a n))
  | .sreg k n => .ok (regVal s (.view (h.latchUnit x) k) n a.wide)
  | .tile _ | .handle _ => .ok (.known 0)

/-! ## Reading in an upper clause, and the uniformity check (R68) -/

/-- Rank of the scope a system value belongs to; `sv.lc` belongs to the reader (R312). -/
def svRank : SysVal → Nat | .lane => 0 | .slice => 1 | .group => 2 | .block | .index => 3 | .gang => 4 | .lc => 5

/-- Non-retired blocks, groups and gangs of a unit. -/
def State.liveChildren (s : State) (u : UnitRef) : List UnitRef := (s.children u).filter fun v => !s.retired v

def State.liveAt (s : State) (u : UnitRef) (rank : Nat) : List UnitRef :=
  if rank ≤ 1 then s.liveSlices u
  else if rank + 1 = u.rank then s.liveChildren u
  else if rank + 2 = u.rank then (s.liveChildren u).flatMap s.liveChildren
  else (s.liveChildren u).flatMap fun v => (s.liveChildren v).flatMap s.liveChildren

/-- A system value of a unit at its own scope or above. -/
def State.unitSysVal (s : State) (v : SysVal) (u : UnitRef) : Word :=
  match u, v with
  | .gang _ k, .gang => BitVec.ofNat 32 k
  | _, _ => s.sysVal v ⟨(u.block?).getD 0, u.groupNo, 4 * u.sliceNo⟩ u

/-- The agreed value of the participants, each with its lane where it is one: 0 with none, NONUNIFORM where two differ, with
the lanes that differ from the first (R68, R398); a bounds fault of a participant comes after NONUNIFORM (R57). -/
def agree (s : State) (u : UnitRef) (vs : List (Option LaneId × Except Cause Val)) : Except Stop Val :=
  let xs := vs.filterMap fun v => match v.2 with | .ok w => some (v.1, w) | .error _ => none
  let bad := vs.findSome? fun v => match v.2 with | .error c => some c | .ok _ => none
  let late := xs.flatMap fun x => x.2.syms
  if late ≠ [] then waitSyms s u late
  else match xs with
    | [] => (match bad with | some c => .error (trapC c) | none => .ok (.known 0))
    | x :: r =>
      if r.all (fun y => y.2 == x.2) then (match bad with | some c => .error (trapC c) | none => .ok x.2)
      else .error (trapL .nonuniform ((r.filter fun y => y.2 != x.2).filterMap (·.1)))

/-- Participants that are lanes, and participants that are instances of a scope. -/
def laneParts (ls : List LaneId) (f : LaneId → Except Cause Val) : List (Option LaneId × Except Cause Val) :=
  ls.map fun x => (some x, f x)
def unitParts (us : List UnitRef) (f : UnitRef → Val) : List (Option LaneId × Except Cause Val) :=
  us.map fun u => (none, .ok (f u))

/-- Every participant has reached the instruction; a grid's gangs have all started (R68, R84). -/
def allArrived (h : Here) (s : State) : Bool :=
  s.caughtUp h.u h.c.addr && (match h.u with | .grid l => !s.undispensed l | _ => true)

/-- A checked read waits until every participant has reached the instruction (R68). -/
def checked (h : Here) (s : State) (vs : List (Option LaneId × Except Cause Val)) : Except Stop Val :=
  if allArrived h s then agree s h.u vs else stallHere h s

/-- Reads a source in a clause of group class or above. -/
def State.readUpper (s : State) (h : Here) (a : As) : Src → Except Stop Val
  | .k n => .ok (.known (constVal a n))
  | .pred p => if p = 7 then .ok (.known 1) else checked h s (laneParts (s.lanesOf h.u) fun x => s.readLane h x a (.pred p))
  | .sv v =>
      if v == .lc || h.u.rank ≤ svRank v then .ok (.known (a.extend (s.unitSysVal v h.u)))
      else if v == .lane then checked h s (laneParts (s.lanesOf h.u) fun x => s.readLane h x a (.sv .lane))
      else checked h s (unitParts (s.liveAt h.u (svRank v)) fun u => .known (a.extend (s.unitSysVal v u)))
  | .sreg k n =>
      if k.rank = h.u.rank then .ok (regVal s h.u.ownReg n a.wide)
      else if h.u.rank < k.rank then .ok (regVal s (.view h.u k) n a.wide)
      else checked h s (unitParts (s.liveAt h.u k.rank) fun u => regVal s u.ownReg n a.wide)
  | .latch n =>
      (match h.latchInfo n with
       | some (.scope _, w) => .ok (s.readLatch h.u n noLane w a)
       | i => checked h s (laneParts (s.lanesOf h.u) fun x => .ok (s.readLatch h.u n x (i.map (·.2) == some true) a)))
  | x => checked h s (laneParts (s.lanesOf h.u) fun l => s.readLane h l a x)

/-- Reads a source that must be one value of a slice: the condition, count or displacement of a slice-scope control
instruction, checked over the slice's four lanes (R68). -/
def State.readSlice (s : State) (h : Here) (u : UnitRef) (a : As) (x : Src) : Except Stop Val :=
  agree s h.u (laneParts (lanesOfSlice u) fun l => s.readLane h l a x)

/-- One value for a unit, at any level. -/
def State.readOne (s : State) (h : Here) (a : As) (x : Src) : Except Stop Val :=
  if h.isSlice then s.readSlice h h.u a x else s.readUpper h a x

/-- The stop of several operands that comes first: NONUNIFORM before the bounds faults (R57). -/
def allOk {α : Type} (rs : List (Except Stop α)) : Except Stop (List α) :=
  let stop? (p : Stop → Bool) := rs.findSome? fun r => match r with | .error e => if p e then some e else none | .ok _ => none
  match stop? (fun e => match e with | .trap t => t.cause == .nonuniform | .stay _ => false) with
  | some e => .error e
  | none => match stop? (fun _ => true) with
    | some e => .error e
    | none => .ok (rs.filterMap fun r => match r with | .ok v => some v | .error _ => none)

/-! ## Bounds -/

/-- The number of registers of a source at a width. -/
def As.span (a : As) : Nat := if a.wide then 2 else 1

/-- REGBOUND for the registers an instruction names, with how many it takes of each (R85). -/
def Here.boundsOk (h : Here) (ns : List (Nat × Nat)) : Bool := ns.all fun p => p.1 + p.2 ≤ h.desc.nregs

/-- The vector registers named by sources and destination. -/
def srcRegs (xs : List (Src × As)) : List (Nat × Nat) :=
  xs.filterMap fun p => match p.1 with | .vreg n => some (n, p.2.span) | _ => none

/-- The vector registers of a destination; also where only the latch is written (DESIGN CHOICE log 126). -/
def outRegs (o : Out) (n : Nat) : List (Nat × Nat) := match o.dst with | .vreg k => [(k, n)] | _ => []

/-! ## Writing (R51, R89, R93) -/

/-- The registers of a destination in a lane. -/
def Dst.keys (d : Dst) (u : UnitRef) (x : LaneId) (wide : Bool) : List RegKey :=
  match d with
  | .vreg n => if wide then [.vec x.b x.g x.l n, .vec x.b x.g x.l (n + 1)] else [.vec x.b x.g x.l n]
  | .pred p => [.pred x.b x.g x.l p]
  | .scope n => if wide then [u.ownReg n, u.ownReg (n + 1)] else [u.ownReg n]

/-- A 32-bit result in its destination: a predicate receives 1 for a nonzero result, and its latch holds the same (R84,
R89, DEDUCED log 33). -/
def resultCell (o : Out) (r : Nat) : Cell :=
  .known (BitVec.ofNat 32 (match o.dst with | .pred _ => if r = 0 then 0 else 1 | _ => r))

/-- Writes the results of the lanes: where `res` is none, the latch takes what the destination held (R89). -/
def State.writeLanes (s : State) (h : Here) (o : Out) (wide : Bool) (lanes : List LaneId)
    (res : LaneId → Option (List Cell)) : State :=
  lanes.foldl (fun t x =>
    let ks := Dst.keys o.dst h.u x wide
    let lk := latchKeys (h.latchUnit x) h.c.pos x wide
    match res x with
    | some cs => if o.nwb then t.setCells (lk.zip cs) else (t.setCells (lk.zip cs)).setCells (ks.zip cs)
    | none => t.setCells (lk.zip (ks.map s.cell))) s

/-- A 32-bit write into a pair that holds a 64-bit late value waits (R93): the symbols concerned. -/
def State.splitSyms (s : State) (o : Out) (wide : Bool) (x : LaneId) : List (Nat × Nat) :=
  match o.dst with
  | .vreg n =>
      if wide || o.nwb then []
      else match s.cell (.vec x.b x.g x.l n) with
        | .form f _ => if f.wide then [(f.q, f.sym)] else []
        | .chain c _ => if c.ty.wide then [(c.q, c.sym)] else []
        | .known _ => []
  | _ => []

/-- The same for a register of the unit's own scope. -/
def State.splitScope (s : State) (u : UnitRef) (o : Out) (wide : Bool) : List (Nat × Nat) :=
  match o.dst with
  | .scope n =>
      if wide || o.nwb then []
      else match s.cell (u.ownReg n) with
        | .form f _ => if f.wide then [(f.q, f.sym)] else []
        | .chain c _ => if c.ty.wide then [(c.q, c.sym)] else []
        | .known _ => []
  | _ => []

/-- Writes registers of the unit's own scope: each write is a Value decision, recorded first (R62, R69). -/
def State.writeScope (s : State) (u : UnitRef) (n : Nat) : List Cell → State
  | [] => s
  | c :: cs =>
    ((produce u (.value u.kind n c) (some (u.ownReg n)) s).setCell (u.ownReg n) c).writeScope u (n + 1) cs

/-- Delivers one value in an upper clause: to the own-scope register, or to every active lane (R51); the latch of a scope
register is one value, else one in each lane. -/
def State.writeUpper (s : State) (h : Here) (o : Out) (wide : Bool) (cs : List Cell) : State :=
  match o.dst with
  | .scope n =>
    let t := s.setCells ((latchKeys h.u h.c.pos noLane wide).zip cs)
    if o.nwb then t else t.writeScope h.u n cs
  | _ =>
    let act := h.active s
    s.writeLanes h o wide (h.lanes s) fun x => if act.contains x then some cs else none

/-- Only the latch, with what the destination holds (R89). -/
def State.latchOld (s : State) (h : Here) (o : Out) (wide : Bool) : State :=
  match o.dst with
  | .scope n =>
    s.setCells ((latchKeys h.u h.c.pos noLane wide).zip ((Dst.keys (.scope n) h.u noLane wide).map s.cell))
  | _ => s.writeLanes h o wide (h.lanes s) fun _ => none

/-- Before an upper result is written: room for its decisions, the gate of R70, and no pair of a late value split. -/
def readyUpper (h : Here) (s : State) (o : Out) (wide : Bool) : Except Stop Unit :=
  match o.dst with
  | .scope _ =>
    if o.nwb then .ok ()
    else
      let ls := s.splitScope h.u o wide
      if ls ≠ [] then waitSyms s h.u ls
      else if s.mayProduce h.u (if wide then 2 else 1) then .ok () else stallHere h s
  | _ =>
    if o.nwb then .ok ()
    else do
      gate h s
      let ls := (h.active s).flatMap (s.splitSyms o wide)
      if ls ≠ [] then waitSyms s h.u ls

/-! ## Instructions that compute in lanes (V, I and K formats) -/

/-- What a lane computes: the cells of its result, the flags it raises, and a carry. -/
structure LaneRes where
  cells : List Cell
  flags : Nat
  carry : Option Bool
  deriving DecidableEq, Repr

def LaneRes.of (wide : Bool) (v : Nat) : LaneRes := { cells := knownCells wide v, flags := 0, carry := none }

/-- The lanes of a slice clause in which an instruction with PRED p executes (R88). -/
def Here.execLanes (h : Here) (s : State) (p : Nat) : List LaneId := (h.active s).filter fun x => s.predBit x p

/-- Reads all sources in a lane: the values, or the cause. -/
def readAll (s : State) (h : Here) (x : LaneId) : List (Src × As) → Except Cause (List Val)
  | [] => .ok []
  | (y, a) :: r => do
    let v ← s.readLane h x a y
    let vs ← readAll s h x r
    .ok (v :: vs)

/-- The operand faults of lanes, REGBOUND and IXBOUND in operand order, with the lanes at which the first was found
(R57, R87, R337). -/
def laneFault (ls : List (LaneId × Except Cause (List Val))) : Option Stop :=
  match ls.findSome? fun p => match p.2 with | .error c => some c | .ok _ => none with
  | none => none
  | some c => some (trapL c ((ls.filter fun p => match p.2 with | .error d => d == c | .ok _ => false).map (·.1)))

/-- Reads the sources of every executing lane. -/
def readLanes (s : State) (h : Here) (lanes : List LaneId) (srcs : List (Src × As)) :
    Except Stop (List (LaneId × List Val)) :=
  let rs := lanes.map fun x => (x, readAll s h x srcs)
  match laneFault rs with
  | some e => .error e
  | none => .ok (rs.filterMap fun p => match p.2 with | .ok v => some (p.1, v) | .error _ => none)

/-- An instruction of a slice clause: reads, computes and writes in its executing lanes; `op` answers none where it must
wait for a late value. `carryTo` is the predicate that receives a carry. -/
def laneSlice (out : Out) (wide : Bool) (p : Nat) (srcs : List (Src × As)) (carryTo : Nat)
    (op : List Val → Option LaneRes) (h : Here) (s : State) : Body := do
  if !h.boundsOk (srcRegs srcs ++ outRegs out (if wide then 2 else 1)) then .error (trapC .regbound) else .ok ()
  let ins ← readLanes s h (h.execLanes s p) srcs
  let res := ins.map fun r => (r.1, r.2, op r.2)
  let late := res.flatMap fun r => (if r.2.2.isNone then r.2.1.flatMap Val.syms else []) ++ s.splitSyms out wide r.1
  if late ≠ [] then waitSyms s h.u late
  else
    let val (x : LaneId) : Option LaneRes := (res.find? fun r => r.1 == x).bind fun r => r.2.2
    let t := s.writeLanes h out wide (h.lanes s) fun x => (val x).map (·.cells)
    .ok (res.foldl (fun t r => match r.2.2 with
      | some v => match v.carry with
        | some b => (if carryTo < 7 then (t.orFsr r.1 v.flags).setWord (.pred r.1.b r.1.g r.1.l carryTo) (if b then 1 else 0)
                     else t.orFsr r.1 v.flags)
        | none => t.orFsr r.1 v.flags
      | none => t) t)

/-- The PRED of an upper clause is a checked read; pt is 1 (R88). -/
def upperPred (h : Here) (s : State) (p : Nat) : Except Stop Bool :=
  if p = 7 then .ok true else (s.readUpper h .w32 (.pred p)).map fun v => v.num != 0

/-- The same instruction in an upper clause: once, with checked operands (R68, R88). A carry and flags go to registers of
lanes, so the instruction is gated (R70, R116). -/
def laneUpper (out : Out) (wide : Bool) (p : Nat) (srcs : List (Src × As)) (carryTo : Nat)
    (op : List Val → Option LaneRes) (h : Here) (s : State) : Body := do
  let go ← upperPred h s p
  if !go then
    (if !h.boundsOk (srcRegs srcs ++ outRegs out (if wide then 2 else 1)) then .error (trapC .regbound)
     else .ok (s.latchOld h out wide))
  else do
    let vs ← allOk (srcs.map fun q => s.readUpper h q.2 q.1)
    if !h.boundsOk (srcRegs srcs ++ outRegs out (if wide then 2 else 1)) then .error (trapC .regbound) else .ok ()
    match op vs with
    | none => waitSyms s h.u (vs.flatMap Val.syms)
    | some r => do
      readyUpper h s out wide
      if (carryTo < 7 && r.carry.isSome) || r.flags ≠ 0 then gate h s else .ok ()
      let act := h.active s
      let t := s.writeUpper h out wide r.cells
      let t := (s.lanesOf h.u).foldl (fun t x => t.orFsr x r.flags) t
      .ok (if carryTo < 7 then
        (match r.carry with
         | some b => act.foldl (fun t x => t.setWord (.pred x.b x.g x.l carryTo) (if b then 1 else 0)) t
         | none => t)
        else t)

/-- EVERY V-, I- AND K-FORMAT INSTRUCTION THAT COMPUTES LANE BY LANE. -/
def laneInstr (out : Out) (wide : Bool) (p : Nat) (srcs : List (Src × As)) (carryTo : Nat)
    (op : List Val → Option LaneRes) (h : Here) (s : State) : Body :=
  if h.isSlice then laneSlice out wide p srcs carryTo op h s else laneUpper out wide p srcs carryTo op h s

/-- All operands known, else the instruction waits (R93). -/
def allKnown (vs : List Val) : Option (List Nat) :=
  if vs.any Val.isLate then none else some (vs.map Val.num)

end Sys2Proof.Machine
end

