-- ==== Sys2Proof/Machine/Mem.lean ====
section
/-! DEFINITION. Addresses and memory: contexts, the two stages of translation, the regions of the address space, the checks
an access makes at issue, and the one way a byte of M is written (09_memory R175 to R184, 10_banks R203 to R209, 12_sync
R259, R260, 14_code R295, 17_translation_outside R359 to R367, R380, R382). -/

namespace Sys2Proof.Machine

/-! ## Contexts -/

def Ctx.blank (n : Nat) : Ctx :=
  { n := n, entry := 0, ranges := [], staged := [], crs := [], halted := false, pool := [], shadow := [], lastFault := [] }

def State.ctx (s : State) (n : Nat) : Ctx := (s.ctxs.find? (·.n == n)).getD (Ctx.blank n)

def State.mapCtx (s : State) (n : Nat) (f : Ctx → Ctx) : State :=
  if s.ctxs.any (·.n == n) then s.setCtxs (s.ctxs.map fun x => if x.n = n then f x else x)
  else s.setCtxs (s.ctxs ++ [f (Ctx.blank n)])

/-- Bits [lo+len-1 : lo] of a 128-bit entry. -/
def bits128 (v : BitVec 128) (lo len : Nat) : Nat := bitsOf v.toNat lo len

/-- Fields of a context-table entry (R362). -/
def Ctx.valid (c : Ctx) : Bool := c.entry.getLsbD 63
def Ctx.sys (c : Ctx) : Bool := c.entry.getLsbD 62
def Ctx.host (c : Ctx) : Bool := c.entry.getLsbD 61
def Ctx.peer (c : Ctx) : Bool := c.entry.getLsbD 60
def Ctx.group (c : Ctx) : Nat := bits128 c.entry 48 12
def Ctx.fn (c : Ctx) : Nat := bits128 c.entry 32 6
def Ctx.root (c : Ctx) : Nat := bits128 c.entry 64 41

/-- Reset values of the context-held control registers (R262, R280); every other one is 0. -/
def crDefault (n : Nat) : Word := if n = 0x20 then 0x400 else if n = 0x21 then 0x10100 else 0

def Ctx.cr (c : Ctx) (n : Nat) : Word := lookupD (crDefault n) n c.crs
def State.cr (s : State) (ctx n : Nat) : Word := (s.ctx ctx).cr n

/-! ## Stage 1 (R359, R360) -/

/-- A range register covers a global address. -/
def rangeCovers (r : BitVec 128) (a : Nat) : Bool :=
  let base := bits128 r 0 41
  let off := bits128 r 96 30
  let size := bits128 r 64 30
  r.getLsbD 63 && off + size < 2 ^ 30 && base * 65536 ≤ a && a < (base + size + 1) * 65536 &&
    a < 0x01FF000000000000

def rightR (r : BitVec 128) : Bool := r.getLsbD 62
def rightW (r : BitVec 128) : Bool := r.getLsbD 61
def rightX (r : BitVec 128) : Bool := r.getLsbD 60
def rightBias (r : BitVec 128) : Bool := r.getLsbD 59

/-- The lowest-numbered register that covers an address, with the intermediate address. -/
def State.stage1 (s : State) (ctx a : Nat) : Option (BitVec 128 × Nat) :=
  let c := s.ctx ctx
  (List.range 16).findSome? fun i =>
    let r := lookupD (0 : BitVec 128) i c.ranges
    if rangeCovers r a then some (r, ctx * 2 ^ 46 + bits128 r 96 30 * 65536 + (a - bits128 r 0 41 * 65536)) else none

/-! ## Physical addresses and keys of M (R380) -/

def chipOf (pa : Nat) : Nat := pa / 2 ^ 45 % 4096
def localOf (pa : Nat) : Nat := pa % 2 ^ 45
def State.ownChip (s : State) (pa : Nat) : Bool := chipOf pa == s.chip.chipId.toNat

/-- The byte of M behind a physical address: this chip's own local byte, or a byte of another chip. -/
def State.keyOf (s : State) (pa : Nat) : Nat := if s.ownChip pa then localOf pa else 2 ^ 57 + pa

/-- Own package memory below 192 GiB. -/
def isPackage (key : Nat) : Bool := key < Config.packageBytes

/-! ## Frame states (R367) -/

/-- State codes of a frame. -/
def fsClean : Nat := 0
def fsMapped : Nat := 1
def fsTable : Nat := 2
def fsShadow : Nat := 3
def fsDirty : Nat := 4
def fsRetired : Nat := 5

def State.frameWord (s : State) (f : Nat) : BitVec 32 := nget 0 f s.mem.frames
def frameState (w : BitVec 32) : Nat := bitsOf w.toNat 29 3
def frameExp (w : BitVec 32) : Bool := w.getLsbD 28
def frameGroup (w : BitVec 32) : Nat := bitsOf w.toNat 16 12
def frameOwner (w : BitVec 32) : Nat := bitsOf w.toNat 0 6
def mkFrameWord (st : Nat) (exp : Bool) (group owner : Nat) : BitVec 32 :=
  BitVec.ofNat 32 (st * 2 ^ 29 + exp.toNat * 2 ^ 28 + group * 2 ^ 16 + owner)
def State.setFrame (s : State) (f : Nat) (w : BitVec 32) : State := s.setMem { s.mem with frames := nset 0 f w s.mem.frames }

/-! ## Stage 2 (R364, R366) -/

/-- The result of a walk. -/
inductive Walk
  | leaf (pa : Nat) (wp : Bool) (entry level : Nat)   -- physical address, WP, where the entry stands, its level
  | missing
  | malformed
  deriving DecidableEq, Repr

/-- A page-table entry's rules at a level (R364). -/
def entryOk (e level : Nat) : Bool :=
  let isLeaf := bitsOf e 62 1 == 1
  bitsOf e 57 4 == 0 && bitsOf e 0 13 == 0 &&
    (if isLeaf then
      bitsOf e 13 3 == 0 &&
      (if level = 1 then bitsOf e 16 20 == 0 else if level = 2 then bitsOf e 16 10 == 0 else true)
     else level < 3 && bitsOf e 61 1 == 0)

/-- Bytes that an entry of a level maps. -/
def levelBytes : Nat → Nat | 1 => 2 ^ 36 | 2 => 2 ^ 26 | _ => 2 ^ 16
def levelIndex (ia : Nat) : Nat → Nat | 1 => bitsOf ia 36 10 | 2 => bitsOf ia 26 10 | _ => bitsOf ia 16 10

/-- The entry at a byte of M as the tables hold it now. -/
def State.entryNow (s : State) (key : Nat) : Nat := leNat (readBytes s.mem.bytes key 8)

/-- The entry as a cached leaf may still have been found through it: which overwritten entries are still in effect is a free
value (R365, DESIGN CHOICE log 135). -/
def State.entryOld (s : State) (ia key : Nat) : Nat :=
  (lookup? key ((s.mem.stale.zipIdx.filter fun p => Config.leafCached (ia / 65536) s.env.cycle p.2).map (·.1))).getD (s.entryNow key)

/-- Walks from the table at physical address `tbl`, reading entries by `rd`; `fuel` levels remain. -/
def State.walkFrom (s : State) (rd : Nat → Nat) (ia : Nat) : Nat → Nat → Nat → Walk
  | 0, _, _ => .malformed
  | fuel + 1, level, tbl =>
    let at_ := tbl + 8 * levelIndex ia level
    let e := rd (s.keyOf at_)
    if bitsOf e 63 1 = 0 then .missing
    else if !entryOk e level then .malformed
    else if bitsOf e 62 1 = 1 then
      .leaf (bitsOf e 16 41 * 65536 + ia % levelBytes level) (bitsOf e 61 1 == 1) at_ level
    else
      let next := bitsOf e 16 41 * 65536
      if s.ownChip next && isPackage (localOf next) && frameState (s.frameWord (localOf next / 65536)) == fsTable then
        s.walkFrom rd ia fuel (level + 1) (next + bitsOf e 13 3 * 8192)
      else .malformed

/-- The walk of the tables as they stand. -/
def State.walkNow (s : State) (ia : Nat) : Walk := s.walkFrom s.entryNow ia 3 1 ((s.ctx (ia / 2 ^ 46)).root * 65536)

/-- Stage 2: a leaf of the translation cache, which only an overwritten table entry can make differ from the tables, else the
walk (R364, R365). -/
def State.stage2 (s : State) (ia : Nat) : Walk :=
  if s.mem.stale = [] then s.walkNow ia
  else match s.walkFrom (s.entryOld ia) ia 3 1 ((s.ctx (ia / 2 ^ 46)).root * 65536) with
    | .leaf pa wp at_ level => .leaf pa wp at_ level
    | _ => s.walkNow ia

/-! ## Routes (R375, R382) -/

/-- Whether a local byte lies on a host-bias page of host-managed device memory. -/
def State.hostBias (s : State) (loc : Nat) : Bool :=
  s.chip.mode == .cxl && s.chip.hdmBase.toNat ≤ loc && loc < s.chip.hdmBase.toNat + s.chip.hdmSize.toNat &&
    !s.mem.device.contains (loc / 65536)

/-- The links that the route entry of another chip names, lowest first: none where it is not valid (R380). -/
def State.linksTo (s : State) (chip : Nat) : List Nat :=
  let e := lookupD (0 : BitVec 32) chip s.chip.routes
  if e.getLsbD 31 then (List.range 24).filter fun i => e.getLsbD i else []

/-- The link that a request uses: set bit `key mod (number of set bits)` of LINKS; the key is the logical core of its source, or the
inbound link of a request that is sent on (R381). -/
def State.linkTo (s : State) (chip key : Nat) : Option Nat :=
  let ls := s.linksTo chip
  ls[key % ls.length]?

/-- A usable route to another chip: V set and LINKS not 0 (R382). -/
def State.routeUp (s : State) (chip : Nat) : Bool := !(s.linksTo chip).isEmpty

/-- The path of a physical address for a context, or none where the route is refused with ISOLATION. -/
def State.pathOf (s : State) (ctx pa : Nat) : Option (Option SysPath) :=
  if s.ownChip pa then
    (if Config.hostWindow ≤ localOf pa then
       (if (s.ctx ctx).host && s.chip.hostUp then some (some .host) else none)
     else if s.hostBias (localOf pa) then (if s.chip.hostUp then some (some .host) else none)
     else some none)
  else if (s.ctx ctx).peer && s.routeUp (chipOf pa) then some (some (.peer (chipOf pa)))
  else none

/-- Where an intermediate address leads. -/
inductive Route
  | pkg (key : Nat)
  | sys (p : SysPath) (key : Nat)
  | refused
  | prot
  | miss (malformed : Bool)
  deriving DecidableEq, Repr

/-- Translation at the home die: WP forbids writes, then the route is checked (R364, R382). -/
def State.route (s : State) (ia : Nat) (write : Bool) : Route :=
  match s.stage2 ia with
  | .missing => .miss false
  | .malformed => .miss true
  | .leaf pa wp _ _ =>
    if write && wp then .prot
    else match s.pathOf (ia / 2 ^ 46) pa with
      | none => .refused
      | some none => .pkg (s.keyOf pa)
      | some (some p) => .sys p (s.keyOf pa)

/-- Home die and L2 slice of an intermediate address (R363). -/
def homeDie (z : Nat) : Nat :=
  bitsOf z 16 2 ^^^ bitsOf z 18 2 ^^^ bitsOf z 20 2 ^^^ bitsOf z 22 2 ^^^ bitsOf z 24 2
def homeSlice (z : Nat) : Nat :=
  homeDie z * 64 + (bitsOf z 7 6 ^^^ bitsOf z 13 6 ^^^ bitsOf z 19 6 ^^^ bitsOf z 25 6 ^^^ bitsOf z 31 6 ^^^
    bitsOf z 37 6 ^^^ bitsOf z 43 6 ^^^ bitsOf z 49 3)

/-! ## Regions (R177, R178) -/

inductive Region | global | dieSpad | tiller | block | mirror | lane | gap
  deriving DecidableEq, Repr

/-- First bytes of the windows. -/
def dieBase : Nat := 0x01FF000000000000
def tillerBase : Nat := 0x01FF000100000000
def blockBase : Nat := 0x01FF000101000000
def mirrorBase : Nat := 0x01FF000101200000
def laneBase : Nat := 0x01FF000101300000

def regionOf (a : Nat) : Region :=
  if a < dieBase then .global
  else if a < dieBase + 0xC0000000 then .dieSpad
  else if tillerBase ≤ a ∧ a < tillerBase + 0x800000 then .tiller
  else if blockBase ≤ a ∧ a < blockBase + 0x200000 then .block
  else if mirrorBase ≤ a ∧ a < mirrorBase + 0x20000 then .mirror
  else if laneBase ≤ a ∧ a < laneBase + 0x10000 then .lane
  else .gap

/-- The region of an access of `n` bytes, a gap where it leaves its region (R178). -/
def regionOfSpan (a n : Nat) : Region := if regionOf a = regionOf (a + (n - 1)) then regionOf a else .gap

/-- Regions that a clause class reaches (R179). -/
def clsReaches (c : Cls) (r : Region) : Bool :=
  match c, r with
  | _, .gap => false
  | .slice, _ | .group, _ => true
  | .block, r => r != .lane
  | _, .global | _, .dieSpad => true
  | _, _ => false

/-! ## Places -/

/-- The die of a unit: its core's, its gang's tiller's, or its launch unit's (R179). -/
def State.dieOf (s : State) : UnitRef → Nat
  | .grid l => l / Config.entriesPerDie
  | .gang l k => match s.gang? l k with | some g => dieOfTiller g.tiller | none => 0
  | .slice b _ _ | .group b _ | .block b => match s.blk? b with | some x => Machine.dieOf x.core | none => 0

/-- A block's gang. -/
def State.gangOf (s : State) (b : Nat) : Option Gang := (s.blk? b).bind fun x => s.gang? x.launch x.gangNo

def Blk.slot (x : Blk) (n : Nat) : Slot :=
  x.slots.getD n { mirror := false, shared := false, shidx := 0, gen := 0, ro := false, st := 0, bank := 0, target := none }

def Blk.mirrorSlot (x : Blk) : Option (Nat × Slot) :=
  (List.range 16).findSome? fun n => if (x.slot n).mirror then some (n, x.slot n) else none

/-! ## The checks at issue (R189, R206, R208, R209) -/

/-- What an access at an address may do at issue. -/
inductive Reach
  | ok (t : Tgt) (mark : Bool)
  | wait
  | fault (c : Cause)
  | page (malformed : Bool) (ia : Nat)
  deriving DecidableEq, Repr

/-- What kind of rights an access needs: read, write, both. -/
inductive Need | r | w | rw
  deriving DecidableEq, Repr

def Need.writes : Need → Bool | .r => false | _ => true
def Need.reads : Need → Bool | .w => false | _ => true

/-- A global access: stage 1, rights, then what stage 2 already tells (R180, R253, R382). -/
def State.reachGlobal (s : State) (ctx a : Nat) (need : Need) : Reach :=
  match s.stage1 ctx a with
  | none => .fault .range
  | some (r, ia) =>
    if (need.reads && !rightR r) || (need.writes && !rightW r) then .fault .prot
    else match s.route ia need.writes with
      | .refused => .fault .isolation
      | .prot => .fault .prot
      | .miss m => .page m ia
      | _ => .ok (.inter ia) (need.writes && rightX r)

/-- Bank byte of a slot's bank: a block's banks lie in its own tiller. -/
def bankOf (x : Blk) (bank o : Nat) : Nat := bankKey (tillerOf x.core) bank o

/-- An access of `n` bytes at `a` by a unit of class `c` of block `b`, group `g`, lane `l` (R189 order). `atomic` names an
atomic, which the mirrored window refuses. -/
def State.reach (s : State) (c : Cls) (u : UnitRef) (ctx : Nat) (desc : Desc) (b g l a n : Nat) (need : Need)
    (atomic aligned : Bool) : Reach :=
  if aligned && a % n != 0 then .fault .align
  else
    let r := regionOfSpan a n
    if !clsReaches c r then .fault .window
    else match r with
    | .global => s.reachGlobal ctx a need
    | .gap => .fault .window
    | .dieSpad =>
      let w := (s.cr ctx 0x30).toNat
      let o := a - dieBase
      let base := bitsOf w 16 12 * 2 ^ 20
      let d := s.dieOf u
      if bitsOf w 0 12 * 2 ^ 20 < o + n then .fault .window
      else if s.chip.spCur.getD d 0 * 2 ^ 28 < base + o + n then .fault .window
      else .ok (.direct (spadKey d (base + o))) false
    | .lane =>
      let w := s.cr ctx 0x31
      if !w.getLsbD 31 then .fault .window
      else match s.blk? b with
        | none => .fault .window
        | some x =>
          let va := bitsOf w.toNat 0 16 * 2 ^ 41 + (tillerOf x.core * 128 + x.lslot) * 2 ^ 27 +
            (g * desc.lanes + l) * 65536 + (a - laneBase)
          s.reachGlobal ctx va need
    | .block =>
      (match s.blk? b with
       | none => .fault .window
       | some x =>
         let o := a - blockBase
         let sl := x.slot (o / Config.bankBytes)
         match sl.st with
         | 1 => if need.writes && sl.ro then .fault .bank else .ok (.direct (bankOf x sl.bank (o % Config.bankBytes))) false
         | 3 => .wait
         | _ => .fault .detached)
    | .tiller =>
      (match s.blk? b, s.gangOf b with
       | some _, some gg =>
         let o := a - tillerBase
         match gg.share.find? fun e => e.1 == o / Config.bankBytes with
         | none => .fault .detached
         | some (_, t, bank, ro) =>
           if need.writes && ro then .fault .bank else .ok (.tiller (bankKey t bank (o % Config.bankBytes))) false
       | _, _ => .fault .window)
    | .mirror =>
      (match s.blk? b with
       | none => .fault .window
       | some x =>
         if atomic then .fault .bank
         else if x.mirrorSlot.isNone then .fault .detached
         else .ok (.mirror (a - mirrorBase)) false)

/-- The order in which the checks of several lanes are found (R189). -/
def faultRank : Cause → Nat
  | .align => 0 | .window => 1 | .detached => 2 | .bank => 3 | .range => 4 | .prot => 5 | .isolation => 6 | _ => 7

/-! ## Page requests (R366, R372) -/

/-- Writes a record into the page-request queue where it has room: at BASE, a physical address (DESIGN CHOICE log 22). -/
def pageRecord (p : PageReq) : List Byte :=
  leBytes 4 p.tag ++ leBytes 1 p.ctx ++ leBytes 1 p.kind ++ leBytes 1 p.malformed.toNat ++ leBytes 1 0 ++
    leBytes 8 (p.page * 65536) ++ leBytes 16 0

/-! ## Writing M (R260, R187, R295) -/

/-- Relations of `wcmp` (R259). -/
def relHolds (rel : Nat) (uns : Bool) (n v w : Nat) : Bool :=
  let a : Int := if uns then v else signedOf n v
  let b : Int := if uns then w else signedOf n w
  match rel with
  | 0 => v == w
  | 1 => v != w
  | 2 => decide (a < b)
  | 3 => decide (a ≤ b)
  | 4 => decide (b < a)
  | 5 => decide (b ≤ a)
  | _ => (v &&& w) != 0

def State.readNat (s : State) (key n : Nat) : Nat := leNat (readBytes s.mem.bytes key n)

/-- Whether a late-data store holds one of these bytes back (R187). -/
def State.holed (s : State) (key n : Nat) : Bool := s.mem.holes.any fun h => key ≤ h.1 && h.1 < key + n

/-- A monitor's condition, which is read once no late-data store holds the location back (R187, R260); that of a parked
`callt` is that STATE is no longer 1 (R302). -/
def Monitor.holds (m : Monitor) (s : State) : Bool :=
  !s.holed m.key m.width &&
  if m.callt then bitsOf (s.readNat m.key m.width) 62 2 != 1
  else relHolds m.rel m.uns (8 * m.width) (s.readNat m.key m.width) m.operand

/-- Gives a status to lanes of a list that have none. -/
def giveStatus (ls : List Nat) (v : Nat) (xs : List (Nat × Option Nat)) : List (Nat × Option Nat) :=
  xs.map fun p => if ls.contains p.1 && p.2.isNone then (p.1, some v) else p

/-- Wakes the waiters of a monitor entry with a status; a parked `callt` polls again (R260, R263, R302). -/
def wakeMonitor (v : Nat) (s : State) (m : Monitor) : State :=
  s.mapSeq m.unit fun q =>
    match q.park with
    | .monitors xs => { q with park := .monitors (giveStatus m.lanes v xs) }
    | .callt e _ => if m.callt then { q with park := .callt e true } else q
    | _ => q

/-- Re-evaluates the monitors on the lines that a write touched (R260). -/
def State.wakeAt (s : State) (key n : Nat) : State :=
  let hit (m : Monitor) : Bool := lineOf key ≤ lineOf m.key && lineOf m.key ≤ lineOf (key + (n - 1)) && m.holds s
  let fired := s.qs.mons.filter hit
  if fired.isEmpty then s
  else fired.foldl (wakeMonitor 0) (s.setQs { s.qs with mons := s.qs.mons.filter fun m => !hit m })

/-- Every write of M, the translation caches apart: the bytes change, a late-data store in its place loses the bytes written
over, and the monitors on the line are re-evaluated in the same step (R187, R260). -/
def State.pokeRaw (s : State) (key : Nat) (bs : List Byte) : State :=
  let n := bs.length
  ((s.setMem { s.mem with
    bytes := writeBytes key bs s.mem.bytes
    holes := s.mem.holes.filter fun h => !(key ≤ h.1 && h.1 < key + n) })).wakeAt key n

/-- The valid entries of TABLE frames that a write of `n` bytes meets: leaves under them may stay in a translation cache until
INVAL (R365, R368). -/
def State.metEntries (s : State) (key n : Nat) : List (Nat × Nat) :=
  if isPackage key && frameState (s.frameWord (key / 65536)) == fsTable then
    ((List.range ((key + n + 7) / 8 - key / 8)).map fun i => (8 * (key / 8 + i), s.entryNow (8 * (key / 8 + i)))).filter
      fun p => bitsOf p.2 63 1 == 1
  else []

/-- EVERY ORDINARY WRITE OF M. -/
def State.poke (s : State) (key : Nat) (bs : List Byte) : State :=
  let t := s.pokeRaw key bs
  match s.metEntries key bs.length with
  | [] => t
  | es => t.setMem { t.mem with stale := es ++ t.mem.stale }

/-- Cached leaves found through the entries of these bytes of M are dropped. -/
def State.dropStale (s : State) (hit : Nat → Bool) : State :=
  s.setMem { s.mem with stale := s.mem.stale.filter fun p => !hit p.1 }

/-- Sets the draft mark of the lines written, where the page is a code-generation page (R295). -/
def State.markDraft (s : State) (mark : Bool) (key n : Nat) : State :=
  if mark && isPackage key then
    s.setMem { s.mem with draft :=
      (List.range (lineOf (key + (n - 1)) + 1 - lineOf key)).foldl (fun d i => insertSorted (lineOf key + i) d) s.mem.draft }
  else s

/-- Writes the record of a page request where the queue has room (R366, R372). -/
def State.postPage (s : State) (p : PageReq) : State × Bool :=
  let log := s.chip.prqLog.toNat
  let used := (s.chip.prqTail.toNat + 2 ^ 32 - s.chip.prqHead.toNat) % 2 ^ 32
  if 4 ≤ log ∧ log ≤ 12 ∧ used < 2 ^ log then
    let at_ := s.chip.prqBase.toNat + 32 * (s.chip.prqTail.toNat % 2 ^ log)
    let s1 := s.poke (s.keyOf at_) (pageRecord p)
    (s1.setChip { s1.chip with prqTail := s1.chip.prqTail + 1 }, true)
  else (s, false)

/-- A walk that finds no leaf: merges with an open request on the page, or opens one (R366). Answers its tag. -/
def State.pageMiss (s : State) (ia kind : Nat) : State × Nat :=
  match s.qs.pages.find? fun p => p.page == ia / 65536 with
  | some p => (s, p.tag)
  | none =>
    let p : PageReq := { tag := s.env.fresh % 2 ^ 31, ctx := ia / 2 ^ 46, page := ia / 65536, kind := kind,
                         malformed := (match s.stage2 ia with | .malformed => true | _ => false), written := false, fns := [] }
    let (s1, ok) := s.bump.postPage p
    (s1.setQs { s1.qs with pages := s1.qs.pages ++ [{ p with written := ok }] }, p.tag)

/-- PAGE taken precisely at an instruction, which has no effect: the walk that met the missing mapping has its record written,
and the fault is taken (R189, R341, R366). -/
def pageStop {α : Type} (h : Here) (s : State) (ia kind : Nat) (t : Trap) : Except Stop α :=
  .error (.stay (takeFault h.u h.pc t (s.pageMiss ia kind).1))

/-- Writes the records that waited for room. -/
def State.flushPages (s : State) : State :=
  s.qs.pages.foldl (fun t p =>
    if p.written then t
    else
      let (t1, ok) := t.postPage p
      if ok then t1.setQs { t1.qs with pages := t1.qs.pages.map fun x => if x.tag = p.tag then { x with written := true } else x }
      else t) s

/-! ## The host-coherence cache (R377) -/

/-- A CXL.cache message to the host. -/
def State.cxlSend (s : State) (op : CxlOp) (line : Nat) : State :=
  s.setChip { s.chip with cxlOut := s.chip.cxlOut ++ [(op, line)] }

/-- A line leaves the cache: DirtyEvict of an M line, CleanEvict of another (R377). -/
def State.hccEvict (s : State) (line : Nat) : State :=
  match lookup? line s.mem.hcc with
  | none => s
  | some st => (s.setMem { s.mem with hcc := erase line s.mem.hcc }).cxlSend (if st = .m then .dirtyEvict else .cleanEvict) line

/-- Room for a line: the cache has 16 ways, and which set a line uses and which way gives way are free values (R377, DESIGN
CHOICE log 136). -/
def State.hccRoom (s : State) (line : Nat) : State :=
  let set := s.mem.hcc.filter fun e => Config.hccSet e.1 == Config.hccSet line && e.1 != line
  if set.length < Config.hccWays then s
  else s.hccEvict ((set.map (·.1)).getD (Config.hccVictim line s.env.cycle % set.length) 0)

/-- A device read or write of one 64-byte line through the host-coherence cache (R377). -/
def State.hccLine (s : State) (line : Nat) (write : Bool) : State :=
  match lookup? line s.mem.hcc, write with
  | some .m, true | some _, false => s
  | some .e, true => s.setMem { s.mem with hcc := assign line .m s.mem.hcc }
  | _, true =>
    let t := (s.hccRoom line).cxlSend .rdOwn line
    t.setMem { t.mem with hcc := assign line .m t.mem.hcc }
  | none, false =>
    let t := (s.hccRoom line).cxlSend .rdShared line
    (t.setMem { t.mem with hcc := assign line (if Config.hostGrants t.env.ctr then .e else .s) t.mem.hcc }).setEnv
      { t.env with ctr := t.env.ctr + 1 }

/-- A device access to a line of host memory or of a host-bias page, in CXL mode: both 64-byte halves. -/
def State.hccTouch (s : State) (key : Nat) (write : Bool) : State :=
  if s.chip.mode = .cxl then (s.hccLine (2 * lineOf key) write).hccLine (2 * lineOf key + 1) write else s

def State.sysTouch (s : State) (p : SysPath) (key : Nat) (write : Bool) : State :=
  match p with | .host => s.hccTouch key write | .peer _ => s

end Sys2Proof.Machine
end

