-- ==== Sys2Proof/Machine/Access.lean ====
section
/-! DEFINITION. Accesses after issue: the program order of a group's accesses, one lane performed per step, the queues of the
paths outside the order, and the arrival of late values (09_memory R182 to R190, 05_integer R94, R95, 06_float R118,
13_ordering R273 to R278). -/

namespace Sys2Proof.Machine

/-! ## Program order P(g) -/

/-- Whose program order an access stands in: slices and the group sequencer share their group's (R273). -/
def orderOf : UnitRef → UnitRef
  | .slice b g _ => .group b g
  | u => u

def State.ctxOf (s : State) (u : UnitRef) : Nat :=
  match u.block? with
  | some b => ((s.blk? b).map (·.ctx)).getD 0
  | none => ((s.entry? (s.launchOf u)).map (·.ctx)).getD 0

def State.descOf (s : State) (u : UnitRef) : Desc :=
  match u.block? with
  | some b => ((s.blk? b).map (·.desc)).getD Desc.none
  | none => (s.desc? (s.launchOf u)).getD Desc.none

def Access.returns (a : Access) : Bool := match a.kind with | .load | .loadSys => true | _ => a.sym.isSome || a.dst.isSome

/-- Whether a lane keeps later accesses of its order waiting: it has not taken its place, or it is a poisoned store record
(R189). -/
def LaneAcc.blocks (a : Access) (x : LaneAcc) : Bool :=
  match x.st with
  | .todo | .page _ => true
  | .failed _ => !a.returns
  | _ => false

def Access.blocks (a : Access) : Bool := a.lanes.any (LaneAcc.blocks a)

/-- Whether the accesses of a unit `v` stand in the program order of a unit: those of its own order, and those of the sequencers
above it (R70, R273). -/
def State.inOrder (s : State) (u v : UnitRef) : Bool :=
  orderOf v == orderOf u ||
    (match v with
     | .block b => u.block? == some b && u.rank ≤ 2
     | .gang l k => u.rank ≤ 3 && ((u.block?.bind s.blk?).map fun x => x.launch == l && x.gangNo == k).getD false
     | .grid l => u.rank ≤ 4 && s.launchOf u == l
     | _ => false)

/-- Accesses of an order that precede one. -/
def State.earlier (s : State) (a : Access) : List Access :=
  (s.qs.accs.takeWhile fun b => b.id != a.id).filter fun b => s.inOrder a.unit b.unit

def State.ordered (s : State) (u : UnitRef) : List Access := s.qs.accs.filter fun b => s.inOrder u b.unit

def State.mapAcc (s : State) (id : Nat) (f : Access → Access) : State :=
  s.setQs { s.qs with accs := s.qs.accs.map fun a => if a.id = id then f a else a }

def Access.mapLane (a : Access) (i : Nat) (f : LaneAcc → LaneAcc) : Access :=
  { a with lanes := a.lanes.mapIdx fun j x => if j = i then f x else x }

def State.mapLane (s : State) (id i : Nat) (f : LaneAcc → LaneAcc) : State := s.mapAcc id fun a => a.mapLane i f

def AccKind.need : AccKind → Need | .load | .loadSys => .r | .store | .storeSys => .w | .atomic .. => .rw
def AccKind.isAtomic : AccKind → Bool | .atomic .. => true | _ => false

/-! ## Failing (R95, R189) -/

/-- Whether a lane of an access still needs a symbol. -/
def LaneAcc.needsSym (a : Access) (p : Nat × Nat) (y : LaneAcc) : Bool :=
  (match y.st with | .todo | .hole => true | _ => false) &&
    (y.parts.any (fun c => c.sym? == some p) || (a.kind.isWrite && y.data.any fun c => c.sym? == some p))

def LaneAcc.fail (c : Cause) (y : LaneAcc) : LaneAcc := { y with st := .failed c }

/-- Fails the lanes of an access that `hit` names; a store becomes a poisoned store record. Lanes whose address is still late
make no access then (R405). -/
def Access.failLanes (a : Access) (c : Cause) (hit : LaneAcc → Bool) : Access :=
  let one (y : LaneAcc) : LaneAcc :=
    if hit y then LaneAcc.fail c y else if y.addr.isNone && y.st == .todo then { y with st := .void } else y
  { a with lanes := a.lanes.map one, poison := if a.returns then a.poison else a.poison.or (some c) }

def Sym.setPoison (c : Cause) (x : Sym) : Sym := { x with poison := x.poison.or (some c) }

/-- A symbol is poisoned, and the poison passes on through every queued access that needs it (R187, R405). -/
def State.passPoison (c : Cause) : Nat → Nat × Nat → State → State
  | 0, _, s => s
  | n + 1, p, s =>
    let s1 := s.mapSym p.1 p.2 fun x => Sym.setPoison c x
    let victims := s1.qs.accs.filter fun a => a.lanes.any (LaneAcc.needsSym a p)
    if victims.isEmpty then s1
    else
      let gone (h : Nat × Nat × Nat × Nat) : Bool := victims.any fun a => a.id == h.2.1 &&
        (match a.lanes[h.2.2.1]? with | some y => LaneAcc.needsSym a p y | none => false)
      let s2 := s1.setMem { s1.mem with holes := s1.mem.holes.filter fun h => !gone h }
      let mark (a : Access) : Access := if victims.any (·.id == a.id) then a.failLanes c (LaneAcc.needsSym a p) else a
      let s3 := s2.setQs { s2.qs with accs := s2.qs.accs.map mark }
      (victims.filterMap (·.sym)).foldl (fun t q => t.passPoison c n q) s3

/-- A lane fails: its symbol is poisoned, or the access becomes a poisoned store record. -/
def State.failLane (s : State) (a : Access) (i : Nat) (c : Cause) : State :=
  let t := s.mapLane a.id i fun x => { x with st := .failed c }
  match a.sym with
  | some p => t.passPoison c (s.qs.accs.length + 1) p
  | none => if a.returns then t else t.mapAcc a.id fun b => { b with poison := b.poison.or (some c) }

/-- A lane's access that waits for the driver. -/
def Access.pageTag? (a : Access) : Option Nat := a.lanes.findSome? fun x => match x.st with | .page t => some t | _ => none

/-! ## Data -/

/-- The bytes of known cells, lowest register first. -/
def cellsBytes (cs : List Cell) (n : Nat) : Option (List Byte) :=
  if cs.all (fun c => c.word?.isSome) then
    some ((cs.flatMap fun c => leBytes 4 ((c.word?.getD 0).toNat)).take n)
  else none

/-- The new value of an atomic (R256, R257): a is the old value, b and c the operands. -/
def atomicNew (op : AtOp) (wide : Bool) (a b c : Nat) : Nat :=
  let w := if wide then 64 else 32
  match op with
  | .add => (a + b) % 2 ^ w
  | .min uns => if uns then min a b else (if signedOf w a ≤ signedOf w b then a else b)
  | .max uns => if uns then max a b else (if signedOf w a ≤ signedOf w b then b else a)
  | .and => a &&& b
  | .or => a ||| b
  | .xor => a ^^^ b
  | .xchg => b
  | .cas => if a = b then c else a
  | .fadd =>
    let f := FFmt.of (if wide then .f64 else .f32)
    (fltAdd f ⟨.rne, true, false⟩ (f.read a) (f.read b)).1
  | .inc => if b ≤ a then 0 else a + 1

/-- Applies an access to bytes of M: what it reads, and what it writes. -/
def applyKind (k : AccKind) (n : Nat) (old data : List Byte) : Option (List Byte) :=
  match k with
  | .load | .loadSys => none
  | .store | .storeSys => some data
  | .atomic op wide => some (leBytes n (atomicNew op wide (leNat old) (leNat (data.take n)) (leNat (data.drop n))))

/-! ## Queues -/

def QEntry.overlaps (e : QEntry) (key n : Nat) : Bool := e.key < key + n && key < e.key + e.width

/-- Entries of an order in the system queues. -/
def State.sqOf (s : State) (u : UnitRef) : List QEntry := s.qs.sq.filter fun e => orderOf e.unit == orderOf u
def State.tqOf (s : State) (u : UnitRef) : List QEntry := s.qs.tq.filter fun e => orderOf e.unit == orderOf u
def State.mqOf (s : State) (u : UnitRef) : List MEntry := s.qs.mq.filter fun e => orderOf e.unit == orderOf u

/-- No entry added by the unit's order stands in Tq or Mq. -/
def State.windowsDrained (s : State) (u : UnitRef) : Bool := (s.tqOf u).isEmpty && (s.mqOf u).isEmpty

/-- Y(x): a byte of a captured line. -/
def State.yByte (s : State) (ctx key : Nat) : Option Byte :=
  (s.qs.ycap.find? fun e => e.1 == ctx && e.2.1 == lineOf key).bind fun e => e.2.2[key % 128]?

def State.emptyY (s : State) (ctx : Nat) : State := s.setQs { s.qs with ycap := s.qs.ycap.filter fun e => e.1 != ctx }

/-- A system-scope read of one byte: the newest overlapping store entry of the order's queues, else Y, else M (R275). -/
def State.sysByte (s : State) (u : UnitRef) (ctx key : Nat) : Byte :=
  match (s.sqOf u).reverse.find? fun e => !e.kind.isAtomic && e.overlaps key 1 with
  | some e => e.data.getD (key - e.key) 0
  | none => (s.yByte ctx key).getD (readByte s.mem.bytes key)

def State.addSq (s : State) (e : QEntry) : State := s.setQs { s.qs with sq := s.qs.sq ++ [e] }
def State.addTq (s : State) (e : QEntry) : State := s.setQs { s.qs with tq := s.qs.tq ++ [e] }
def State.addMq (s : State) (es : List MEntry) : State := s.setQs { s.qs with mq := s.qs.mq ++ es }

/-! ## One lane in its place -/

/-- The channel pair of a frame: die x 6 + pair (R385, DESIGN CHOICE log 31). -/
def pairOfFrame (f : Nat) : Nat := homeDie (f * 65536) * 6 + Config.pairOf f % 6

/-- Accesses to a page that a bias flip holds, or whose channel pair is being recalibrated, wait at the home die (R376, R391). -/
def State.heldPage (s : State) (key : Nat) : Bool :=
  (s.qs.flips.any fun f => f.page == key / 65536) ||
    (match s.svc.busy with
     | some (1, i, _) => isPackage key && pairOfFrame (key / 65536) == i
     | _ => false)

def State.heldIa (s : State) (ia : Nat) : Bool :=
  match s.chip.s2busy with
  | some (.unmap c lv a) | some (.inval c lv a) => ia / levelBytes lv == (c * 2 ^ 46 + a % 2 ^ 46) / levelBytes lv
  | some (.untable f) => ia / 2 ^ 46 == frameOwner (s.frameWord f)
  | none => false

/-! ## Tokens of a home slice (R193) -/

def State.tokens (s : State) (slice ctx : Nat) : Nat :=
  ((s.mem.buckets.find? fun b => b.1 == slice && b.2.1 == ctx).map (·.2.2)).getD 0
def State.spill (s : State) (slice : Nat) : Nat := lookupD 0 slice s.mem.spills
def State.borrowed (s : State) (slice ctx : Nat) : Nat :=
  ((s.mem.borrows.find? fun b => b.1 == slice && b.2.1 == ctx).map (·.2.2)).getD 0

/-- A context may draw on the pool: it pays by tokens, its bucket is empty, and CAP leaves it more in this microsecond. -/
def State.mayBorrow (s : State) (slice ctx : Nat) : Bool :=
  let w := (s.cr ctx 0x33).toNat
  bitsOf w 0 16 != 0 && s.tokens slice ctx == 0 && s.borrowed slice ctx < bitsOf w 24 8

/-- Contexts other than one that wait on the pool of a slice with an access. -/
def State.poolRivals (s : State) (slice ctx : Nat) : List Nat :=
  (s.qs.accs.filter fun a => a.lanes.any fun y => y.st == .todo && (match y.tgt with | .inter ia => homeSlice ia == slice | _ => false)).map
    (fun a => s.ctxOf a.unit) |>.filter fun c => c != ctx && s.mayBorrow slice c

/-- The pool serves waiting contexts in round-robin order, from the one after the context that it served last. -/
def State.poolTurn (s : State) (slice ctx : Nat) : Bool :=
  let last := lookupD 63 slice s.mem.turns
  let dist (c : Nat) : Nat := (c + 64 - (last + 1) % 64) % 64
  (s.poolRivals slice ctx).all fun c => dist ctx ≤ dist c

/-- One line request of a context pays a token of its bucket, else of the pool; none where it waits at the slice. -/
def State.payOne (s : State) (slice ctx : Nat) : Option State :=
  let set (k : Nat) (n : Nat) (l : List (Nat × Nat × Nat)) := (l.filter fun b => !(b.1 == slice && b.2.1 == k)) ++ [(slice, k, n)]
  if bitsOf (s.cr ctx 0x33).toNat 0 16 = 0 then some s
  else if s.tokens slice ctx ≠ 0 then some (s.setMem { s.mem with buckets := set ctx (s.tokens slice ctx - 1) s.mem.buckets })
  else if s.spill slice ≠ 0 && s.mayBorrow slice ctx && s.poolTurn slice ctx then
    some (s.setMem { s.mem with
      spills := assign slice (s.spill slice - 1) s.mem.spills
      borrows := set ctx (s.borrowed slice ctx + 1) s.mem.borrows
      turns := assign slice ctx s.mem.turns })
  else none

/-- The line requests of an access of `n` bytes at an intermediate address. A load that hits in L1 sends none, which is a free
value (R193, DESIGN CHOICE log 72). -/
def State.pay (s : State) (ctx ia n : Nat) (load : Bool) : Option State :=
  if bitsOf (s.cr ctx 0x33).toNat 0 16 = 0 then some s
  else if load && Config.hitsL1 (ia / 128) s.env.cycle then some s
  else ((List.range ((ia + (n - 1)) / 128 + 1 - ia / 128)).map fun i => homeSlice ((ia / 128 + i) * 128)).foldlM
    (fun t slice => t.payOne slice ctx) s

/-- A lane's access pays its line requests, then performs on M. -/
def paid (s : State) (ctx ia n : Nat) (load : Bool) (f : State → Option State) : Option State := (s.pay ctx ia n load).bind f

/-! ## The range scoreboard (R191) -/

/-- A virtual range in pieces that end at 64 KiB boundaries. -/
def pagePieces (va len : Nat) : List (Nat × Nat) :=
  if len = 0 then []
  else (List.range ((va % 65536 + len + 65535) / 65536)).map fun i =>
    let lo := if i = 0 then 0 else 65536 * i - va % 65536
    ((va + lo) % 2 ^ 64, min len (65536 * (i + 1) - va % 65536) - lo)

/-- The byte of M that a command's carried translation gives for an address. -/
def Cmd.key? (c : Cmd) (dst : Bool) (va : Nat) : Option Nat :=
  (c.trans.find? fun t => t.1 == dst && t.2.1 == va / 65536).map fun t => t.2.2.1 + va % 65536

/-- Bytes of an element of a collective (R48, R245). -/
def CollRec.elem (r : CollRec) : Nat := if r.ty = 6 ∨ r.ty = 7 then 2 else 4
/-- Bytes that one rank reads and that one rank receives (R245). -/
def CollRec.srcLen (r : CollRec) : Nat :=
  if r.kind = 1 then r.nrank * r.count * r.elem
  else if r.kind = 3 ∧ r.rank ≠ r.root then 0
  else r.count * r.elem
def CollRec.dstLen (r : CollRec) : Nat := if r.kind = 2 then r.nrank * r.count * r.elem else r.count * r.elem

/-- The virtual ranges that a command reads or writes. -/
def Cmd.ranges (c : Cmd) (dst : Bool) : List (Nat × Nat) :=
  match c.coll with
  | some r => [if dst then (r.dst, r.dstLen) else (r.src, r.srcLen)]
  | none => c.segs.map fun g => (if dst then g.dst else g.src, g.len)

/-- The ranges of M that a command reads or writes, so far as it carries their translations. -/
def Cmd.spans (c : Cmd) (dst : Bool) : List (Nat × Nat) :=
  ((c.ranges dst).flatMap fun g => pagePieces g.1 g.2).filterMap fun p => (c.key? dst p.1).map fun k => (k, p.2)

/-- A byte of a bank lies in one of the banks of a core's blocks. -/
def State.coreBank (s : State) (core key : Nat) : Bool :=
  s.blks.any fun x => x.phase == .resident && x.core == core &&
    x.slots.any fun sl => sl.st != 0 && bankOf x sl.bank 0 ≤ key && key < bankOf x sl.bank 0 + Config.bankBytes

/-- An access is an `mstore` (R171): a store of a block sequencer whose rows are longer than any register holds. -/
def Access.isMstore (a : Access) : Bool := a.unit.rank == 3 && a.kind == .store && a.width == 256

/-- A lane whose bytes have not performed: it has no place yet, waits for its data, or stands in a queue. -/
def State.laneFlies (s : State) (a : Access) (y : LaneAcc) (i : Nat) : Bool :=
  match y.st with
  | .todo | .page _ | .hole => true
  | .queued => s.qs.tq.any (fun e => e.acc == a.id && e.lane == i) || s.qs.sq.any (fun e => e.acc == a.id && e.lane == i) ||
      (match y.tgt with | .mirror o => s.qs.mq.any fun e => e.acc == a.id && e.offset == o | _ => false)
  | _ => false

/-- The ranges of an access to a target: of M (`true`) or of intermediate addresses. -/
def State.tgtSpans (s : State) (b : Nat) (t : Tgt) (n : Nat) : List (Bool × Nat × Nat) :=
  match t with
  | .none => []
  | .direct k | .tiller k => [(true, k, n)]
  | .inter ia => [(false, ia, n)]
  | .mirror o => (((s.gangOf b).map (·.members)).getD []).filterMap fun d =>
      (s.blk? d).bind fun x => x.mirrorSlot.map fun p => (true, bankOf x p.2.bank o, n)

/-- The entries of a core, for each engine command in flight into a bank of the core's blocks and for each `mstore` in flight,
whichever window or path its rows take (R171). -/
def State.board (s : State) (core : Nat) : List (List (Bool × Nat × Nat)) :=
  let mine := s.blks.filter fun x => x.phase == .resident && x.core == core
  let cmds := mine.flatMap fun x => (x.cmds.filter (·.st == 0)).filterMap fun c =>
    let rs := (c.spans true).filter fun p => s.coreBank core p.1
    if rs.isEmpty then none else some (rs.map fun p => (true, p.1, p.2))
  let stores := (s.qs.accs.filter fun a => a.isMstore && mine.any fun x => a.unit == .block x.id).filterMap fun a =>
    let rows := a.lanes.zipIdx.filter fun p => s.laneFlies a p.1 p.2
    if rows.isEmpty then none else some (rows.flatMap fun p => s.tgtSpans ((a.unit.block?).getD 0) p.1.tgt p.1.size)
  cmds ++ stores

/-- Whether an access overlaps an entry of its core. -/
def State.boardHit (s : State) (u : UnitRef) (t : Tgt) (n : Nat) : Bool :=
  match u.block?.bind s.blk? with
  | none => false
  | some x =>
    let es := (s.board x.core).flatten
    (s.tgtSpans x.id t n).any fun p => es.any fun e => e.1 == p.1 && e.2.1 < p.2.1 + p.2.2 && p.2.1 < e.2.1 + e.2.2

/-- An ordinary access performs on M (R275). -/
def performM (s : State) (a : Access) (i : Nat) (x : LaneAcc) (key : Nat) : Option State :=
  let n := x.size
  match a.kind with
  | .store | .storeSys =>
    if a.kind == .storeSys && !((s.sqOf a.unit).isEmpty && s.windowsDrained a.unit) then none
    else match cellsBytes x.data n with
      | some bs => some (((s.poke key bs).markDraft x.mark key n).mapLane a.id i fun y => { y with st := .done })
      | none =>
        let keep := s.mem.holes.filter fun h => !(key ≤ h.1 && h.1 < key + n)
        let new := (List.range n).map fun o => (key + o, a.id, i, o)
        some (((s.setMem { s.mem with holes := keep ++ new }).markDraft x.mark key n).mapLane a.id i fun y => { y with st := .hole })
  | .load | .loadSys =>
    if s.holed key n then none
    else
      let s := if a.kind == .loadSys then s.emptyY (s.ctxOf a.unit) else s
      some (s.mapLane a.id i fun y => { y with st := .done, got := readBytes s.mem.bytes key n })
  | .atomic op wide =>
    if s.holed key n then none
    else
      let old := readBytes s.mem.bytes key n
      match applyKind (.atomic op wide) n old ((cellsBytes x.data (2 * n)).getD []) with
      | some bs => some (((s.poke key bs).markDraft x.mark key n).mapLane a.id i fun y => { y with st := .done, got := old })
      | none => none

/-- A system-scope access (R275): a load reads now; a store or atomic joins its queue. -/
def performSys (s : State) (a : Access) (i : Nat) (x : LaneAcc) (p : SysPath) (key : Nat) : Option State :=
  let n := x.size
  let ctx := s.ctxOf a.unit
  match a.kind with
  | .load | .loadSys =>
    if (s.sqOf a.unit).any fun e => e.kind.isAtomic && e.overlaps key n then none
    else
      let s := if a.kind == .loadSys then s.emptyY ctx else s
      let bs := (List.range n).map fun o => s.sysByte a.unit ctx (key + o)
      some ((s.sysTouch p key false).mapLane a.id i fun y => { y with st := .done, got := bs })
  | k =>
    if k == .storeSys && !((s.sqOf a.unit).isEmpty && s.windowsDrained a.unit) then none
    else match cellsBytes x.data (2 * n) with
      | none => none
      | some bs =>
        some (((s.bump.addSq { acc := a.id, unit := a.unit, lane := i, key := key, kind := k, width := n,
                               data := if k.isAtomic then bs else bs.take n, ctx := ctx, seq := s.env.fresh,
                               path := some p })).mapLane a.id i fun y => { y with st := .queued })

/-- A tiller-window access joins Tq(b) (R275). -/
def performTiller (s : State) (a : Access) (i : Nat) (x : LaneAcc) (key : Nat) : Option State :=
  if a.kind == .storeSys && !((s.sqOf a.unit).isEmpty && s.windowsDrained a.unit) then none
  else match (if a.kind.isWrite then cellsBytes x.data (2 * x.size) else some []) with
    | none => none
    | some bs =>
      let s := if a.kind == .loadSys then s.emptyY (s.ctxOf a.unit) else s
      some (((s.bump.addTq { acc := a.id, unit := a.unit, lane := i, key := key, kind := a.kind, width := x.size,
                             data := if a.kind.isAtomic then bs else bs.take x.size, ctx := s.ctxOf a.unit,
                             seq := s.env.fresh, path := none })).mapLane a.id i fun y => { y with st := .queued })

/-- A mirrored-window access (R209, R275). -/
def performMirror (s : State) (a : Access) (i : Nat) (x : LaneAcc) (o : Nat) : Option State :=
  match a.unit.block? with
  | none => none
  | some b =>
    match s.blk? b, s.gangOf b with
    | some blk, some gg =>
      if a.kind.isWrite then
        if a.kind == .storeSys && !((s.sqOf a.unit).isEmpty && s.windowsDrained a.unit) then none
        else match cellsBytes x.data x.size with
          | none => none
          | some bs =>
            let es := gg.members.map fun d =>
              ({ src := b, dst := d, offset := o, data := bs, unit := a.unit, acc := a.id, seq := s.env.fresh } : MEntry)
            some ((s.bump.addMq es).mapLane a.id i (fun y => { y with st := .queued }))
      else if s.qs.mq.any fun e => e.src == b && e.dst == b && e.offset < o + x.size && o < e.offset + e.data.length then none
      else match blk.mirrorSlot with
        | none => some (s.failLane a i .detached)
        | some (_, sl) =>
          if s.holed (bankOf blk sl.bank o) x.size then none else
          let s := if a.kind == .loadSys then s.emptyY (s.ctxOf a.unit) else s
          some (s.mapLane a.id i fun y => { y with st := .done, got := readBytes s.mem.bytes (bankOf blk sl.bank o) x.size })
    | _, _ => none

/-- Performs a lane whose target is known; none where the step is not enabled. A missing mapping is found at every lane of the
access on that page (R366). -/
def performAt (s : State) (a : Access) (i : Nat) (x : LaneAcc) : Option State :=
  match x.tgt with
  | .none => none
  | .direct key => performM s a i x key
  | .tiller key => performTiller s a i x key
  | .mirror o => performMirror s a i x o
  | .inter ia =>
    if s.heldIa ia then none
    else match s.route ia a.kind.isWrite with
      | .pkg key => if s.heldPage key then none
        else paid s (s.ctxOf a.unit) ia x.size (a.kind == .load) fun t => performM t a i x key
      | .sys p key => if s.heldPage key then none else performSys s a i x p key
      | .refused => some (s.failLane a i .isolation)
      | .prot => some (s.failLane a i .prot)
      | .miss _ =>
        let (t, tag) := s.pageMiss ia (if a.kind.isWrite then 1 else 0)
        let same (y : LaneAcc) : Bool := match y.tgt with | .inter j => y.st == .todo && j / 65536 == ia / 65536 | _ => false
        some (t.mapAcc a.id fun b => { b with lanes := b.lanes.map fun y => if same y then { y with st := .page tag } else y })

/-- The address of a lane whose cells are known (R175). -/
def LaneAcc.formed (x : LaneAcc) : Option Nat :=
  match x.addr, x.parts with
  | some va, _ => some va
  | none, [lo, hi, ix] =>
    (match lo.word?, hi.word?, ix.word? with
     | some l, some h, some d => some ((l.toNat + 2 ^ 32 * h.toNat + (d.signExtend 64).toNat + x.disp) % 2 ^ 64)
     | _, _, _ => none)
  | none, _ => none

/-- A symbolic access issues once every lane's address can be formed (R186): all lanes are checked, the cause found first in
the order of R189 fails every lane that meets it, and then no access is made. -/
def issueSymbolic (s : State) (a : Access) : Option State :=
  match a.lanes.mapM LaneAcc.formed with
  | none => none
  | some vas =>
    let rs := (a.lanes.zip vas).map fun p =>
      (p.2, if p.1.st != .todo then .ok p.1.tgt p.1.mark else s.reach a.unit.cls a.unit (s.ctxOf a.unit) (s.descOf a.unit) ((a.unit.block?).getD 0) p.1.g
        (if a.unit.rank = 1 then p.1.l else 0) p.2 p.1.size a.kind.need a.kind.isAtomic true)
    let hits (r : LaneAcc × Nat × Reach) : Bool := match r.2.2 with
      | .ok tg _ => r.1.st == .todo && s.boardHit a.unit tg r.1.size
      | .page _ ia => s.boardHit a.unit (.inter ia) r.1.size
      | _ => false
    if rs.any (fun r => r.2 == .wait) || (a.lanes.zip rs).any hits then none
    else
      let cs := rs.filterMap fun r => match r.2 with | .fault c => some c | _ => none
      match cs with
      | [] =>
        let place (q : LaneAcc × Nat × Reach) : LaneAcc := match q.2.2 with
          | .ok tg m => { q.1 with addr := some q.2.1, tgt := tg, mark := m }
          | .page _ ia => { q.1 with addr := some q.2.1, tgt := .inter ia }
          | _ => q.1
        some (s.mapAcc a.id fun b => { b with lanes := (b.lanes.zip rs).map place })
      | c0 :: more =>
        let c := more.foldl (fun x y => if faultRank y < faultRank x then y else x) c0
        let bad (q : LaneAcc × Nat × Reach) : LaneAcc :=
          if q.2.2 = .fault c then { q.1 with addr := some q.2.1, st := .failed c } else { q.1 with st := .void }
        let t := s.mapAcc a.id fun b =>
          { b with lanes := (b.lanes.zip rs).map bad, poison := if b.returns then b.poison else b.poison.or (some c) }
        some (match a.sym with | some p => t.passPoison c (s.qs.accs.length + 1) p | none => t)

/-- A lane that is issued again without a target, since a slot was arriving or absent then, is checked now (R206). -/
def retarget (s : State) (a : Access) (i : Nat) (x : LaneAcc) (va : Nat) : Option State :=
  match s.reach a.unit.cls a.unit (s.ctxOf a.unit) (s.descOf a.unit) ((a.unit.block?).getD 0) x.g
      (if a.unit.rank = 1 then x.l else 0) va x.size a.kind.need a.kind.isAtomic false with
  | .wait => none
  | .fault c => some (s.failLane a i c)
  | .page _ ia =>
    performAt (s.mapLane a.id i fun y => { y with tgt := .inter ia }) a i { x with tgt := .inter ia }
  | .ok tg m =>
    performAt (s.mapLane a.id i fun y => { y with tgt := tg, mark := m }) a i { x with tgt := tg, mark := m }

/-- Whether a unit's accesses stand in a frame, and so perform no further (R335, R347). -/
def State.inFrame (s : State) (u : UnitRef) : Bool :=
  match u.block? with
  | some b => (match s.blk? b with | some x => x.phase == .framed && !x.kill | none => false)
  | none => s.flt.frames.any fun f => f.upper == some u

/-- Performs the first waiting lane of an access that stands at the head of its order (R275). -/
def performNext (s : State) (id : Nat) : Option State :=
  match s.access? id with
  | none => none
  | some a =>
    if (s.earlier a).any Access.blocks || s.inFrame a.unit then none
    else
      match a.lanes.zipIdx.find? fun p => LaneAcc.blocks a p.1 with
      | none => none
      | some (x, i) =>
        (match x.st, x.addr with
         | .todo, some va => if x.tgt = .none then retarget s a i x va else performAt s a i x
         | .todo, none =>
           (match issueSymbolic s a with
            | none => none
            | some t => match (t.access? id).bind fun b => b.lanes[i]? with
              | some y => (match y.st with | .todo => performAt t a i y | _ => some t)
              | none => some t)
         | _, _ => none)

/-- Performs up to `n` lanes. -/
def performUpTo (id : Nat) : Nat → State → State
  | 0, s => s
  | n + 1, s => match performNext s id with
    | some t => performUpTo id n t
    | none => s

/-- The earlier accesses of the unit's order that may perform: those up to a poisoned store record, behind which nothing performs
until it is taken (R189). -/
def State.goOn (s : State) (u : UnitRef) : List Access := (s.ordered u).takeWhile fun a => a.poison.isNone

/-- Every one of them has taken its place: the unit's instruction is at the head of P(g) (R275, DEDUCED log 25). -/
def State.atHead (s : State) (u : UnitRef) : Bool := !(s.goOn u).any Access.blocks

/-- Every one of them has performed, those in queues too. -/
def State.allPerformed (s : State) (u : UnitRef) : Bool :=
  !(s.goOn u).any Access.open && s.windowsDrained u &&
    (s.sqOf u).all fun e => (s.ordered u).any fun a => a.id == e.acc && !(s.goOn u).any (·.id == a.id)

/-! ## Tickets (R226) -/

/-- The status word of a ticket. -/
def Blk.ticketWord (x : Blk) (t : Nat) : Nat :=
  let q := t % 65536
  if q = 0 then 6 * 2 ^ 16
  else match (x.cmds.drop (x.cmds.length - 64)).find? fun c => c.seq == q with
    | some c => q + c.st * 2 ^ 16 + c.reason * 2 ^ 20 + c.cause * 2 ^ 24
    | none => q + 7 * 2 ^ 16

/-- Whether a ticket's command has reached a final state. -/
def Blk.ticketFinal (x : Blk) (t : Nat) : Bool := bitsOf (x.ticketWord t) 16 4 != 0

/-! ## Arrival (R91, R94, R118) -/

/-- The bytes that arrived for a lane: its own lane's, or the one lane of a group-class access. -/
def State.symBytes (s : State) (x : Sym) (l : Option Nat) : List Byte :=
  match x.feed with
  | .access id =>
    (match s.access? id with
     | none => []
     | some a =>
       if a.unit.rank ≠ 1 then (a.lanes.head?.map (·.got)).getD []
       else match l with
         | some k => ((a.lanes.find? fun y => y.l == k).map (·.got)).getD []
         | none => (a.lanes.head?.map (·.got)).getD [])
  | .tickets b ls =>
    let tk : Option Nat := match l with
      | some k => (lookup? k ls).or (ls.head?.map Prod.snd)
      | none => ls.head?.map Prod.snd
    match tk, s.blk? b with
    | some q, some blk => leBytes 4 (blk.ticketWord q)
    | _, _ => leBytes 4 0

/-- The bytes that a form's PART names: a word of a wide load, or the whole value (R91). -/
def partBytes (part : Nat) (bs : List Byte) : List Byte := if 8 < bs.length then (bs.drop (4 * part)).take 4 else bs

/-- The value of an integer form for arrived bytes (R91). -/
def IForm.value (f : IForm) (bs : List Byte) : Nat :=
  let u := leNat (partBytes f.part bs)
  let x : Nat := match f.ext with
    | .none => u
    | .zero => u % 2 ^ 32
    | .sign => ((BitVec.ofNat 32 u).signExtend 64).toNat
  let v := f.scale.toNat * x + f.offset.toNat
  if f.wide then v % 2 ^ 64 else v % 2 ^ 32

/-- One half of a value. -/
def halfWord (v : Nat) (hi : Bool) : Cell := .known (BitVec.ofNat 32 (if hi then v / 2 ^ 32 else v))

/-- Results of deferred instructions: for each, the value in each lane where it executed. -/
abbrev Chains := List (List (LaneId × Nat))

/-- Evaluates a deferred operation on codes, its late operand at a position. -/
def evalDef (d : Deferred) (pos late x y : Nat) : Nat × Nat :=
  let f := FFmt.of d.ty
  let r (v : Nat) := f.read v
  match d.op, pos with
  | .add, _ => fltAdd f d.fm (r late) (r x)
  | .sub, 0 => fltSub f d.fm (r late) (r x)
  | .sub, _ => fltSub f d.fm (r x) (r late)
  | .mul, _ => fltMul f d.fm (r late) (r x)
  | .fma, 0 => fltFma f d.fm (r late) (r x) (r y)
  | .fma, 1 => fltFma f d.fm (r x) (r late) (r y)
  | .fma, _ => fltFma f d.fm (r x) (r y) (r late)

/-- The arriving value read as a type (R118). -/
def baseOf (t : FTy) (bs : List Byte) : Nat :=
  leNat bs % (match t with | .f16 | .bf16 => 2 ^ 16 | .f32 => 2 ^ 32 | .f64 => 2 ^ 64)

/-- Evaluates the deferred instructions of a symbol once each, in program order, ORing their flags (R118). -/
def evalDeferred (s0 : State) (x : Sym) : List Deferred → State → Chains → State × Chains
  | [], s, cs => (s, cs)
  | d :: r, s, cs =>
    let res := d.lanes.map fun l =>
      let late := match l.src with
        | none => baseOf d.ty (partBytes l.part (s0.symBytes x (some l.l)))
        | some k => (lookup? (⟨l.b, l.g, l.l⟩ : LaneId) (cs.getD k [])).getD 0
      ((⟨l.b, l.g, l.l⟩ : LaneId), evalDef d l.pos late l.x.toNat l.y.toNat)
    let s1 := if d.fm.fs then s else res.foldl (fun t p => t.orFsr p.1 p.2.2) s
    evalDeferred s0 x r s1 (cs ++ [res.map fun p => (p.1, p.2.1)])

/-- What a cell becomes when symbol x resolves. -/
def resolveCell (s : State) (x : Sym) (cs : Chains) (l : Option LaneId) : Cell → Cell
  | .known w => .known w
  | .form f hi =>
    if f.q = x.q ∧ f.sym = x.sym then halfWord (f.value (s.symBytes x (l.map (·.l)))) hi else .form f hi
  | .chain c hi =>
    if c.q = x.q ∧ c.sym = x.sym then
      halfWord ((l.bind fun y => lookup? y (cs.getD c.idx [])).getD 0) hi
    else .chain c hi

/-- The lane a register belongs to. -/
def RegKey.lane? : RegKey → Option LaneId
  | .vec b g l _ => some ⟨b, g, l⟩
  | .latch (.slice _ _ _) _ b g l _ => some ⟨b, g, l⟩
  | .latch _ _ b g l _ => if l = noLane.l then none else some ⟨b, g, l⟩
  | _ => none

def DKind.mapCell (f : Cell → Cell) : DKind → DKind
  | .value k n c => .value k n (f c)
  | d => d

def Seq.mapCells (f : Option LaneId → Cell → Cell) (q : Seq) : Seq :=
  let dd (d : Decision) : Decision := { d with kind := DKind.mapCell (f none) d.kind }
  { q with
    queue := q.queue.map dd, log := q.log.map dd, kept := q.kept.map fun p => (dd p.1, p.2),
    ring := q.ring.map fun r => { r with prev := f none r.prev, latches := r.latches.map fun p => (p.1, f (RegKey.lane? p.1) p.2) } }

/-- SYMBOL ARRIVAL (R94, R118): every register, latch, view, queued decision and queued access that holds a form or chain of
the symbol becomes known, and the symbol is free. -/
def State.resolveSym (s : State) (x : Sym) : State :=
  let (s1, cs) := evalDeferred s x x.deferred s []
  let f := resolveCell s x cs
  let ln (a : Access) (y : LaneAcc) : Option LaneId := some ⟨(a.unit.block?).getD 0, y.g, y.l⟩
  let s2 := s1.setRegs (s1.regs.map fun p => (p.1, f (RegKey.lane? p.1) p.2))
  let s3 := s2.setSeqs (s2.seqs.map fun p => (p.1, p.2.mapCells f))
  let s4 := s3.setQs { s3.qs with accs := s3.qs.accs.map fun a =>
    { a with lanes := a.lanes.map fun y => { y with parts := y.parts.map (f (ln a y)), data := y.data.map (f (ln a y)) } } }
  s4.setSyms (s4.syms.filter fun y => !(y.q == x.q && y.sym == x.sym))

/-- Whether anything still refers to a symbol (R95, R119). -/
def State.symUsed (s : State) (q n : Nat) : Bool :=
  let c (x : Cell) : Bool := x.sym? == some (q, n)
  s.regs.any (fun p => c p.2) ||
  s.qs.accs.any (fun a => a.lanes.any fun y => y.parts.any c || y.data.any c) ||
  s.seqs.any (fun p =>
    (p.2.queue ++ p.2.log ++ p.2.kept.map (·.1)).any fun d => match d.kind with | .value _ _ x => c x | _ => false) ||
  (match s.sym? q n with | some x => !x.deferred.isEmpty | none => false)

/-! ## Completion (R190) -/

def State.setSeqCtr (s : State) (b g c : Nat) (f : Nat → Nat) : State :=
  s.mapSeq (.group b g) fun q => { q with wctr := q.wctr.mapIdx fun i v => if i = c then f v else v }

def State.ctrOf (s : State) (b g c : Nat) : Nat := ((s.seq? (.group b g)).map fun q => q.wctr.getD c 0).getD 0

/-- The byte of M behind a virtual address of a context, for the part's own accesses (R336). -/
def State.vaKey (s : State) (ctx va : Nat) (write : Bool) : Option Nat :=
  match s.stage1 ctx va with
  | some (r, ia) =>
    if write && !rightW r then none
    else match s.route ia write with
      | .pkg k | .sys _ k => some k
      | _ => none
  | none => none

/-- Writes bytes at a virtual address, byte by byte where it is mapped. -/
def State.pokeVa (s : State) (ctx va : Nat) (bs : List Byte) : State :=
  match s.vaKey ctx va true with
  | some k => s.poke k bs
  | none => s

/-- Offset and length of section `i` in a frame's header (R344). -/
def FrameInfo.sect (f : FrameInfo) (i : Nat) : Nat × Nat :=
  let at_ := 64 + 8 * (i - 1)
  (leNat ((f.header.drop at_).take 4), leNat ((f.header.drop (at_ + 4)).take 4))

/-- Bytes put into a list at an offset. -/
def splice (off : Nat) (bs xs : List Byte) : List Byte := xs.take off ++ bs ++ xs.drop (off + bs.length)

/-- Changes bytes of item 10 in a frame and in the part's copy alike (R190, R348). -/
def State.patchItem10 (s : State) (fid ctx off : Nat) (bs : List Byte) : State :=
  match s.flt.frames.find? fun f => f.fid == fid && f.ctx == ctx with
  | none => s
  | some f =>
    let s1 := s.setFlt { s.flt with frames := s.flt.frames.map fun x =>
      if x.fid = fid ∧ x.ctx = ctx then { x with item10 := splice off bs x.item10 } else x }
    s1.pokeVa ctx (f.addr + (f.sect 10).1 + off) bs

/-- Changes item 11, the bank map, in the same way (R210, R348). -/
def State.patchItem11 (s : State) (fid ctx : Nat) (bs : List Byte) : State :=
  match s.flt.frames.find? fun f => f.fid == fid && f.ctx == ctx with
  | none => s
  | some f =>
    let s1 := s.setFlt { s.flt with frames := s.flt.frames.map fun x =>
      if x.fid = fid ∧ x.ctx = ctx then { x with item11 := bs } else x }
    s1.pokeVa ctx (f.addr + (f.sect 11).1) bs

def State.frameOf (s : State) (b : Nat) : Option FrameInfo := s.flt.frames.find? fun f => f.block == some b

/-- A wait counter changes, in a block's frame too where it stands in one (R190). -/
def State.bumpCtr (s : State) (b g c : Nat) (f : Nat → Nat) : State :=
  let s1 := s.setSeqCtr b g c f
  match s1.frameOf b with
  | none => s1
  | some fr => s1.patchItem10 fr.fid fr.ctx (4 * g + c) [BitVec.ofNat 8 (s1.ctrOf b g c)]

/-- Adds to or takes from the wait counters of groups. -/
def State.bumpCtrs (s : State) (gs : List (Nat × Nat)) (c : Nat) (f : Nat → Nat) : State :=
  gs.foldl (fun t p => t.bumpCtr p.1 p.2 c f) s

/-- Removes an access and takes its counters back. -/
def State.dropAcc (s : State) (a : Access) : State :=
  (s.setQs { s.qs with accs := s.qs.accs.filter fun b => b.id != a.id }).bumpCtrs a.bumped a.ctr (· - 1)

/-- Whether every lane has performed and nothing of the access stands in a queue. -/
def State.accDone (s : State) (a : Access) : Bool :=
  a.lanes.all (fun x => match x.st with | .done => true | .queued => !a.returns | _ => false) &&
    !(s.qs.tq.any (·.acc == a.id)) && !(s.qs.mq.any (·.acc == a.id)) && !(s.qs.sq.any (·.acc == a.id))

/-- The groups whose counter an instruction of a unit changes (R190, R228): started and not retired. -/
def State.ctrGroups (s : State) (u : UnitRef) : List (Nat × Nat) :=
  let ofBlock (b : Nat) : List (Nat × Nat) := match s.blk? b with
    | some x => if x.phase == .reserved || x.phase == .retired then []
                else (List.range x.desc.groups).filterMap fun g => if s.retired (.group b g) then none else some (b, g)
    | none => []
  match u with
  | .slice b g _ | .group b g => [(b, g)]
  | .block b => ofBlock b
  | .gang .. => (s.children u).flatMap fun v => ofBlock ((v.block?).getD 0)
  | .grid _ => (s.children u).flatMap fun k => (s.children k).flatMap fun v => ofBlock ((v.block?).getD 0)

/-- Whether one more issue would take a counter past 255. -/
def State.ctrFull (s : State) (gs : List (Nat × Nat)) (c : Nat) : Bool := gs.any fun p => 255 ≤ s.ctrOf p.1 p.2 c

end Sys2Proof.Machine
end

