-- ==== Sys2Proof/Machine/Walk.lean ====
section
/-! DEFINITION. Walking the program text (row CLAUSE_HEADER): fetching, decisions, loop ends, stepping over, the start and the
end of a clause (03_encoding R40 to R43, 04_control R61 to R67, R76 to R78, 14_code R293 to R296, 05_integer R108). -/

namespace Sys2Proof.Machine

/-! ## Addresses of text -/

/-- A PC has 57 bits (R59). -/
def pcWrap (x : Int) : Nat := wrapInt 57 x

/-- The header after a clause (R40). -/
def ClauseRun.after (c : ClauseRun) : Nat := pcWrap (c.addr + c.hdr.bytes)

/-! ## Fetch (R293, R294, R296) -/

/-- Why a word cannot be fetched: an unfinished host or stage-2 command holds its page, a fault, or no mapping. -/
inductive FetchErr
  | wait
  | cause (c : Cause)
  | page (ia : Nat)
  deriving DecidableEq, Repr

/-- The buffers a unit fetches through: F(c) of its core, the gang unit's of a tiller, the launch unit's of a die (R293). The
shared ones are numbered after the 768 cores (DESIGN CHOICE log 19). -/
def State.fetchBuf (s : State) : UnitRef → Nat
  | .grid l => 864 + l / Config.entriesPerDie
  | .gang l k => 768 + ((s.gang? l k).map (·.tiller)).getD 0
  | .block b | .group b _ | .slice b _ _ => ((s.blk? b).map (·.core)).getD 0

/-- The 128 bytes of a captured line. -/
def State.capturedLine (s : State) (buf line : Nat) : Option (List Byte) :=
  (s.qs.fcap.find? fun e => e.1 == buf && e.2.1 == line).map (·.2.2)

/-- One word, with the checks of R294 in their order. -/
def State.fetchWord (s : State) (u : UnitRef) (va : Nat) : Except FetchErr Nat :=
  let ctx := s.ctxOf u
  if va % 8 ≠ 0 then .error (.cause .align)
  else if regionOfSpan va 8 ≠ .global then .error (.cause .window)
  else match s.stage1 ctx va with
    | none => .error (.cause .range)
    | some (r, ia) =>
      if !rightX r then .error (.cause .exec)
      else if s.heldIa ia then .error .wait
      else match s.route ia false with
        | .miss _ => .error (.page ia)
        | .pkg key =>
          if s.heldPage key then .error .wait
          else if s.mem.draft.contains (lineOf key) then .error (.cause .draft)
          else if s.env.dataErr then .error (.cause .dataerr)
          else match s.capturedLine (s.fetchBuf u) (lineOf key) with
            | some bs => .ok (leNat ((bs.drop (key % 128)).take 8))
            | none => if s.holed key 8 then .error .wait else .ok (s.readNat key 8)
        | _ => .error (.cause .exec)

/-- `n` words, the first failing one's error. -/
def State.fetchWords (s : State) (u : UnitRef) (va : Nat) : Nat → Except FetchErr (List Nat)
  | 0 => .ok []
  | n + 1 => do
    let w ← s.fetchWord u va
    let ws ← s.fetchWords u (va + 8) n
    .ok (w :: ws)

/-- The address of the first word that fails among those of a clause. -/
def State.fetchBadAt (s : State) (u : UnitRef) (va : Nat) : Nat → Nat
  | 0 => va
  | n + 1 => match s.fetchWord u va with
    | .error _ => va
    | .ok _ => s.fetchBadAt u (va + 8) n

/-! ## Meeting points (R108, R265) -/

/-- Whether a word's opcode meets the other slices: exchanges, `scan`, block formats and barriers. -/
def isMeet (w : Nat) : Bool :=
  let o := bitsOf w 55 9
  (0x080 ≤ o && o ≤ 0x085) || (0x120 ≤ o && o ≤ 0x122) || (0x1CC ≤ o && o ≤ 0x1CE)

/-- Whether a clause that a slice walks over holds a meeting point at or after a position. -/
def State.peekMeet (s : State) (u : UnitRef) (addr pos count : Nat) : Bool :=
  (List.range (count + 1)).any fun k => pos ≤ k && (match s.fetchWord u (addr + 8 + 8 * k) with
    | .ok w => isMeet w
    | .error _ => false)

/-- Whether a slice holds nobody up at the clause at `a`, which the asker has passed `n` times: it has retired, has passed
more often, or walks over the clause itself (R108). -/
def State.clearOf (s : State) (a n : Nat) (v : UnitRef) : Bool :=
  match s.seq? v with
  | none => true
  | some q => q.retired || n < q.passed.count a || (q.walk && (match q.clause with
      | none => q.pc == a
      | some c => c.addr == a && c.ended))

/-- The slices of a unit's group, itself excepted. -/
def State.siblings (s : State) (u : UnitRef) : List UnitRef :=
  match u with
  | .slice b g _ => (s.children (.group b g)).filter (· != u)
  | _ => []

/-- The elements that two lists share, with their multiplicity. -/
def bagMeet : List Nat → List Nat → List Nat
  | [], _ => []
  | x :: xs, ys => if ys.contains x then x :: bagMeet xs (ys.erase x) else bagMeet xs ys

def bagMeetAll : List (List Nat) → List Nat
  | [] => []
  | [x] => x
  | x :: r => bagMeet x (bagMeetAll r)

/-- Forgets the passings that every live slice of a group shares. -/
def State.normPassed (s : State) (b g : Nat) : State :=
  let live := (s.children (.group b g)).filter fun v => !s.retired v
  let common := bagMeetAll (live.map fun v => ((s.seq? v).map (·.passed)).getD [])
  if common.isEmpty then s
  else live.foldl (fun t v => t.mapSeq v fun q => { q with passed := q.passed.diff common }) s

/-! ## Freeing replay records (R69, R411) -/

/-- The number of the oldest decision of `p` that its child `v` has not consumed. -/
def State.behind (s : State) (p : UnitRef) (dseq : Nat) (v : UnitRef) : Nat :=
  match s.seq? v with
  | none => dseq
  | some x =>
    if x.retired then dseq
    else match p with
      | .grid _ => x.logPos
      | _ => ((x.queue.find? fun d => d.rank == p.rank).map (·.seq)).getD dseq

/-- The oldest decision of `p` that some child has not consumed; a gang not yet started has consumed none. -/
def State.oldest (s : State) (p : UnitRef) (q : Seq) : Nat :=
  (s.children p).foldl (fun n v => min n (s.behind p q.dseq v))
    (match p with | .grid l => if s.undispensed l then 0 else q.dseq | _ => q.dseq)

/-- Frees the records, the log entries and the kept decisions that nobody needs any more (R62, R69, R411). -/
def State.trim (s : State) (p : UnitRef) : State :=
  match s.seq? p with
  | none => s
  | some q =>
    let m := s.oldest p q
    s.setSeq p { q with
      ring := q.ring.filter fun r => m ≤ r.seq
      log := (match p with | .grid _ => q.log.filter fun d => m ≤ d.seq | _ => q.log)
      kept := q.kept.filter fun d => m < d.2 }

def State.trimParent (s : State) (u : UnitRef) : State :=
  match s.parent? u with
  | some p => s.trim p
  | none => s

/-! ## Consuming decisions (R62, R66) -/

/-- Decisions that a unit has not consumed; a gang's stand in its grid's log (R411). -/
def State.waiting (s : State) (u : UnitRef) (q : Seq) : List Decision :=
  match u with
  | .gang l _ => ((s.seq? (.grid l)).map fun g => g.log.filter fun d => q.logPos ≤ d.seq).getD []
  | _ => q.queue

/-- The next decision for a unit. -/
def State.nextDecision (s : State) (u : UnitRef) (q : Seq) : Option Decision := (s.waiting u q).head?

def Decision.isValue (d : Decision) : Bool := match d.kind with | .value .. => true | _ => false

/-- What a unit consumes in one step: a decision, or all the values that wait first, so that those of one instruction stay together
(DEDUCED log 149). -/
def State.nextRun (s : State) (u : UnitRef) (q : Seq) (d : Decision) : List Decision :=
  if d.isValue then (s.waiting u q).takeWhile Decision.isValue else [d]

/-- Drops the newest `n` watches of a rank. -/
def dropNewest (r : Nat) : Nat → List (Nat × Nat × Nat) → List (Nat × Nat × Nat)
  | 0, l => l
  | _ + 1, [] => []
  | n + 1, x :: l => if x.1 = r then dropNewest r n l else x :: dropNewest r (n + 1) l

/-- The effect of a decision on the level that consumes it, its register view excepted (R62). -/
def Seq.consume (d : Decision) (q : Seq) : Seq :=
  match d.kind with
  | .value .. => q
  | .loopEntry top stop => { q with watches := (d.rank, top, stop) :: q.watches }
  | .loopStep true =>
      (match q.watches.find? fun w => w.1 == d.rank with
       | some w => { q with pc := w.2.1 }
       | none => q)
  | .loopStep false => { q with watches := dropNewest d.rank 1 q.watches }
  | .clauseEnd next _ depth =>
      { q with pc := next
               watches := dropNewest d.rank ((q.watches.filter fun w => w.1 == d.rank).length - depth) q.watches }

/-- Whether a slice's lanes stand under a mask or a wait (R66). -/
def Seq.laneState (q : Seq) : Bool := !q.mstack.isEmpty || q.waits.any Option.isSome

/-- SCOPE on consuming a decision: `follow` is the header after the one the level stands at (R66, R82). -/
def scopeOnConsume (u : UnitRef) (q : Seq) (d : Decision) (follow : Option Nat) : Bool :=
  match u, d.kind with
  | .slice .., .loopStep _ => q.laneState
  | .slice .., .clauseEnd next retire _ => q.laneState && (retire || some next != follow)
  | .group .., .clauseEnd _ retire _ => retire && d.rank == 3
  | _, _ => false

/-- Room in the queue of every live child, to pass `n` decisions down. -/
def State.roomBelow (s : State) (u : UnitRef) (n : Nat) : Bool :=
  (s.children u).all fun v => s.retired v ||
    (match s.seq? v with | some x => x.queued + n ≤ Config.queueDepth | none => true)

/-- What a unit does at a header. -/
inductive Arrive
  | go (s : State)
  | hold                                          -- its own clause waits for counters or symbols, or a word is held (R43)
  | trap (t : Trap)
  | bad (own : Bool) (at_ : Nat) (e : FetchErr)   -- a word cannot be fetched; `own` where only this level fetches it
  | start (h : Header) (words : List Nat)

/-- Where a walk of R77 comes to on its way to a header: the least wait address, where it lies before that (R47, R77). -/
def Seq.landing (q : Seq) (next : Nat) : Nat :=
  if q.walk then (q.waits.filterMap id).foldl min next else next

/-- What a decision leaves of the sequencer that consumes it: its effect, and its place in the queue or the log. -/
def Seq.take (u : UnitRef) (d : Decision) (q : Seq) : Seq :=
  let q1 := let c := Seq.consume d q; { c with pc := match d.kind with | .clauseEnd .. => c.landing c.pc | _ => c.pc }
  let retire := match u, d.kind with | .slice .., .clauseEnd _ true _ => d.rank == 2 | _, _ => false
  match u with
  | .gang .. => { q1 with logPos := q.logPos + 1 }
  | .block _ => { q1 with queue := q.queue.tail, kept := q.kept ++ [(d, q.dseq)] }
  | _ => { q1 with queue := q.queue.tail, retired := q.retired || retire }

/-- Passes a decision down, then applies it (R62). -/
def takeDecision (u : UnitRef) (s : State) (d : Decision) : State :=
  let s1 := ((s.children u).foldl (pushTo d) s).mapSeq u (Seq.take u d)
  match d.kind with
  | .value k n c => s1.setCell (.view u k n) c
  | _ => s1

/-- Consumes what stands next, once it can be passed down (R62, R66). -/
def consume (u : UnitRef) (q : Seq) (d : Decision) (follow : Option Nat) (s : State) : Arrive :=
  let ds := s.nextRun u q d
  if scopeOnConsume u q d follow then .trap { cause := .scope, addr := 0, info := 0, lanes := 0, after := false }
  else if !s.roomBelow u ds.length then .go s
  else .go (((ds.foldl (takeDecision u) (s.setSeq u q)).trim u).trimParent u)

/-! ## The conditions of a clause (R43) -/

/-- The groups of the scope instance that executes a clause, with whether their block is resident. -/
def State.groupsUnder (s : State) (u : UnitRef) : List (Nat × Nat × Bool) :=
  let ofBlock (v : UnitRef) : List (Nat × Nat × Bool) := match v with
    | .block b => match s.blk? b with
      | some x => if x.phase == .retired || x.phase == .reserved then []
                  else (List.range x.desc.groups).filterMap fun g =>
                    if s.retired (.group b g) then none else some (b, g, x.phase == .resident)
      | none => []
    | _ => []
  match u with
  | .slice b g _ | .group b g => [(b, g, true)]
  | .block _ => ofBlock u
  | .gang .. => (s.children u).flatMap ofBlock
  | .grid _ => (s.children u).flatMap fun k => (s.children k).flatMap ofBlock

/-- WAIT and SYMW: the clause may start, must wait, or takes a deferred fault (R43, R95, R189). -/
def clauseReady (u : UnitRef) (h : Header) (s : State) : Except Stop Unit :=
  let gs := s.groupsUnder u
  if gs.any fun p => (List.range 4).any fun n => h.wait n < 3 && h.wait n < s.ctrOf p.1 p.2.1 n then waitHere s
  else if !h.symw then .ok ()
  else match gs.findSome? fun p => s.storeRecord p.1 p.2.1 with
    | some t => .error (.trap t)
    | none =>
      let ls := (s.syms.filter fun x => gs.any fun p => p.1 == x.b && p.2.1 == x.g).map fun x => (x.q, x.sym)
      if gs.any (fun p => !p.2.2) then waitHere s
      else if ls = [] then .ok ()
      else match s.poisonOf ls with
        | some t => .error (.trap t)
        | none => waitHere s

/-! ## At a header (R61, R65, R77, R78) -/

/-- Arrival: lanes that wait here stop waiting (R77). -/
def Seq.arrive (q : Seq) : Seq :=
  { q with
    walk := q.walk && !(q.waits.any fun w => w == some q.pc)
    waits := q.waits.map fun w => if w = some q.pc then none else w }

/-- A level that stays at the header ends a region that ends here or before (R65, DEDUCED log 13). -/
def Seq.endRegion (q : Seq) : Seq := { q with re := if q.re.any fun r => r ≤ q.pc then none else q.re }

/-- The end of the level's own newest loop (R78). -/
def loopEnd (u : UnitRef) (q : Seq) (e : Loop) (s : State) : State :=
  if !s.mayProduce u 1 then s
  else
    let back := e.remaining ≠ 1
    let s1 := produce u (.loopStep back) none s
    s1.mapSeq u fun x =>
      if back then { x with pc := e.top
                            loops := { e with remaining := (e.remaining + (2 ^ 32 - 1)) % 2 ^ 32
                                              index := (e.index + 1) % 2 ^ 32 } :: q.loops.tail }
      else { x with loops := q.loops.tail }

/-- A slice walks over a clause of its own class; past a meeting point only with every other slice (R77, R108). -/
def walkOver (u : UnitRef) (q : Seq) (h : Header) (s : State) : State :=
  let next := q.landing (pcWrap (q.pc + h.bytes))
  if q.parted || !s.peekMeet u q.pc 0 h.count then s.setSeq u { q with pc := next }
  else if (s.siblings u).all (s.clearOf q.pc (q.passed.count q.pc)) then
    let s1 := s.setSeq u { q with pc := next, passed := q.pc :: q.passed }
    (match u with | .slice b g _ => s1.normPassed b g | _ => s1)
  else s

/-- What a unit that has no loop end of its own at its header does there, its region ended. -/
def stayAtHeader (u : UnitRef) (q : Seq) (s : State) : Arrive :=
  let ranks := ([2, 3, 4, 5] : List Nat).filter fun r =>
    match q.watches.find? fun w => w.1 == r with | some w => w.2.2 == q.pc | none => false
  let d? := s.nextDecision u q
  let step := match d? with
    | none => true
    | some d => match d.kind with | .loopStep _ => ranks.contains d.rank | _ => false
  if !ranks.isEmpty && step then
    (match d? with
     | none => .go s
     | some d => consume u q d none s)
  else match s.fetchWord u q.pc with
    | .error .wait => .hold
    | .error e => .bad false q.pc e
    | .ok w =>
      match decodeHeader w with
      | none => .bad false q.pc (.cause .clause)
      | some h =>
        let next := pcWrap (q.pc + h.bytes)
        if u.rank < h.cls.rank then
          if q.re.isSome || !q.calls.isEmpty || q.parted then
            .trap { cause := .scope, addr := 0, info := 0, lanes := 0, after := false }
          else match d? with
            | none => .go s
            | some d => consume u q d (some next) s
        else if h.cls.rank < u.rank then .go (s.setSeq u { q with pc := next })
        else if q.walk then .go (walkOver u q h s)
        else match s.fetchWords u (q.pc + 8) (h.count + 1) with
          | .error .wait => .hold
          | .error e => .bad true (s.fetchBadAt u (q.pc + 8) (h.count + 1)) e
          | .ok ws =>
            match clauseReady u h s with
            | .ok _ => .start h ws
            | .error (.stay _) => .hold
            | .error (.trap t) => .trap t

/-- The level's own newest loop ends at its header (R78). -/
def Seq.loopHere (q : Seq) : Option Loop := q.loops.head?.bind fun e => if e.stop = q.pc then some e else none

/-- What a unit between clauses does at its header, after `Seq.arrive`: a loop end of its own comes first; only where it stays
does a region end here (R65). -/
def atHeader (u : UnitRef) (q : Seq) (s : State) : Arrive :=
  match q.loopHere with
  | some e => .go (loopEnd u q e s)
  | none => stayAtHeader u q.endRegion (s.setSeq u q.endRegion)

/-! ## Faults at a header (R42, R294) -/

/-- Whether what a unit does at its header takes it further: a step, a decision consumed, its own loop's end, or a clause. -/
def State.canWalk (s : State) (u : UnitRef) : Bool :=
  match s.seq? u with
  | none => false
  | some q =>
    if q.retired || q.clause.isSome then false
    else match atHeader u q.arrive s with
      | .go t => (match t.seq? u with
        | some r => r.pc != q.pc || r.queue != q.queue || r.logPos != q.logPos || r.loops != q.loops
        | none => false)
      | .start .. | .hold | .trap _ => true
      | .bad .. => false

/-- The sequencers above a unit, nearest first. -/
def State.above (s : State) (u : UnitRef) : List UnitRef :=
  let up (v : Option UnitRef) : Option UnitRef := v.bind s.parent?
  let a := s.parent? u
  let b := up a
  let c := up b
  let d := up c
  [a, b, c, d].filterMap id

/-- A unit stands between clauses at an address. -/
def State.standsBetween (s : State) (a : Nat) (v : UnitRef) : Bool :=
  match s.seq? v with
  | some q => !q.retired && q.clause.isNone && q.pc == a
  | none => false

/-- A unit has stopped for a fault of its own. -/
def State.stopped (s : State) (u : UnitRef) : Bool :=
  match u.block? with
  | some b => (match (s.blk? b).bind (·.stop) with | some i => i.unit == u | none => false)
  | none => s.flt.uppers.any (·.1 == u)

/-- A sequencer above a level that stands at a bad header waits for what only a level below it can do: room for a decision, its
gate, a checked read or vote, a barrier, monitor or `done`; between clauses it cannot go on (R42). -/
def State.heldAbove (s : State) (p : UnitRef) : Bool :=
  match s.seq? p with
  | none => true
  | some q => q.retired || s.stopped p || (match q.clause with
    | none => !s.canWalk p
    | some c =>
      if c.ended then !s.mayProduce p 1
      else q.park.stands || (q.park == .stalled && (!s.caughtUp p c.addr || !s.mayProduce p 1)))

/-- The descendants of a unit. -/
def State.descendants (s : State) (u : UnitRef) : List UnitRef :=
  let down (vs : List UnitRef) : List UnitRef := vs.flatMap s.children
  let a := s.children u
  let b := down a
  let c := down b
  a ++ b ++ c ++ down c

/-- The slices that another slice leads in the clause it issues. -/
def State.isFollower (s : State) (u : UnitRef) : Bool :=
  match u with
  | .slice b g k => (s.children (.group b g)).any fun v => v != u &&
      (match s.seq? v with
       | some q => (match q.clause with | some c => c.team.contains k | none => false)
       | none => false)
  | _ => false

/-- A barrier instruction in progress waits for a phase that is not over (R267). -/
def State.phaseStands (s : State) (u : UnitRef) (c : ClauseRun) (tok : Nat) : Bool :=
  let bars (gang : Bool) : List Bar := match u.block? with
    | none => []
    | some b => if gang then ((s.gangOf b).map (·.bars)).getD [] else ((s.blk? b).map (·.bars)).getD []
  match (c.words[c.pos]?).map decode with
  | some (.ok (.barwait gang n _)) | some (.ok (.barsync gang n _)) => (bars gang)[n]?.any (·.phase == tok)
  | _ => false

/-- A unit has accesses that still perform. -/
def State.ownBusy (s : State) (u : UnitRef) : Bool :=
  match u with
  | .slice b g _ | .group b g => s.groupBusy b g
  | _ => s.unitBusy u


/-- A gang or grid sequencer has blocks below that are still to come (not dispensed, not started, framed or stopping), or retires, since every
level below it has. -/
def State.waitsBelow (s : State) (u : UnitRef) : Bool :=
  let waits (v : UnitRef) : Bool := match v.block?.bind s.blk? with | some x => x.phase == .reserved || x.phase == .framed || x.stop.isSome | none => false
  match u with
  | .gang .. => (s.children u).any waits || (s.children u).all s.retired
  | .grid l => s.undispensed l || ((s.children u).any fun k => (s.children k).any waits) || (s.children u).all s.retired
  | _ => false

/-- A level below a bad header has come there, or comes no further, with no access left to perform: it has retired; between clauses it
waits for a decision, at no other bad header; in mid-clause for a phase, for a slice of its group that waits so, or for room or its
gate; and so do the levels below it, none of which is still to come (R42, DEDUCED log 14). -/
def State.settled (s : State) (a : Nat) : Nat → UnitRef → Bool
  | 0, _ => true
  | n + 1, v => match s.seq? v with
    | none => true
    | some q => (q.retired || s.isFollower v || ((match q.clause with
        | none => q.pc == a || (match atHeader v q.arrive s with | .bad .. => false | _ => !s.canWalk v)
        | some c => !c.ended && (match q.park with
          | .barrier t => s.phaseStands v c t
          | .meeting | .gather => (s.siblings v).any fun w => (s.seq? w).any fun x => !x.retired && x.clause.isNone
          | .stalled => !s.caughtUp v c.addr || !s.mayProduce v 1
          | _ => false)) && !s.ownBusy v && !s.waitsBelow v)) && (s.children v).all (s.settled a n)

/-- A level has come to the header at `a` in program order: it stands there, and so does a line of levels below it, down to a slice or to
a level below which nothing runs; or nothing below it comes further without it (R42, DEDUCED log 14). -/
def State.standsAllDown (s : State) (a : Nat) : Nat → UnitRef → Bool
  | 0, _ => true
  | n + 1, v => s.standsBetween a v && (match v with
    | .slice .. => true
    | _ =>
      ((s.children v).filter fun w => !s.retired w).any (s.standsAllDown a n) ||
        (!s.waitsBelow v && (s.children v).all (s.settled a 5)))

/-- Whether this level raises the fault of the header at `a` now: it has come there in program order, no level above it stands there,
and each sequencer above it and above every level below it that stands there has come there or is held. A word of an own clause
concerns its level alone (R42, DEDUCED log 14). -/
def State.raisesAt (s : State) (own : Bool) (a : Nat) (u : UnitRef) : Bool :=
  own ||
    (!((s.above u).any (s.standsBetween a)) && s.standsAllDown a 5 u &&
     (u :: (s.descendants u).filter (s.standsBetween a)).all fun v => (s.above v).all fun p => s.standsBetween a p || s.heldAbove p)

/-- The record of a fault at a header (R337, R403). -/
def headerTrap (c : Cause) (addr : Nat) (us : List UnitRef) : Trap :=
  { cause := c, addr := if c == .clause then 0 else addr, info := 0,
    lanes := laneMask (us.flatMap lanesOfSlice), after := false }

/-- Takes the fault of a word that cannot be fetched; a missing mapping is reported to the driver (R294, R341). -/
def headerFault (us : List UnitRef) (u : UnitRef) (a at_ : Nat) (e : FetchErr) (s : State) : State :=
  match e with
  | .wait => s
  | .cause c => takeFault u a (headerTrap c at_ us) s
  | .page ia => takeFault u a (headerTrap .page at_ us) (s.pageMiss ia 2).1

/-! ## The end of a clause (R62, R77, R82) -/

def State.dropLatches (s : State) (us : List UnitRef) : State :=
  s.setRegs (s.regs.filter fun p => match p.1 with | .latch v _ _ _ _ _ => !us.contains v | _ => true)

/-- Slices leave their clause; one that walks over a meeting point of its rest waits for the others (R108). -/
def leaveSlices (b g : Nat) (u : UnitRef) (q : Seq) (c : ClauseRun) (s : State) : State :=
  let team := c.team.map (.slice b g)
  let meets := !q.parted && c.words.any isMeet
  let rest := q.walk && (c.words.drop c.pos).any isMeet
  if meets && rest && !(s.siblings u).all (s.clearOf c.addr (q.passed.count c.addr)) then s
  else
    let nx := c.next.getD c.after
    let s1 := team.foldl (fun t v => t.mapSeq v fun x =>
      { x with pc := x.landing nx, clause := none, park := .none, parkAt := s.env.cycle, retired := x.retired || c.retire
               passed := if meets then c.addr :: x.passed else x.passed }) s
    let s2 := (s1.dropLatches team).normPassed b g
    if c.retire then s2.trim (.group b g) else s2

/-- A unit whose clause has ended moves on: upper levels send the Clause end (R62). -/
def leaveClause (u : UnitRef) (q : Seq) (c : ClauseRun) (s : State) : State :=
  match u with
  | .slice b g _ => leaveSlices b g u q c s
  | _ =>
    if !s.mayProduce u 1 then s
    else
      let nx := c.next.getD c.after
      let s1 := produce u (.clauseEnd nx c.retire q.loops.length) none s
      let s2 := (s1.mapSeq u fun x =>
        { x with pc := nx, clause := none, park := .none, parkAt := s.env.cycle, retired := x.retired || c.retire, done := x.done || c.retire }).dropLatches [u]
      if c.retire then s2.trimParent u else s2

/-! ## CLAUSE_HEADER -/

/-- The units that stand at a header together: the joined slices of a group with one PC, or the unit alone (R76, R77). -/
def State.together (s : State) (u : UnitRef) (q : Seq) : List UnitRef :=
  match u with
  | .slice b g _ =>
    if q.parted then [u]
    else (s.children (.group b g)).filter fun v => !s.isFollower v && (match s.seq? v with
      | some x => !x.retired && !x.parted && x.clause.isNone && x.pc == q.pc
      | none => false)
  | _ => [u]

/-- What the units at a header have done so far: the state, those that start the clause, and the first stop. -/
structure HeaderRun where
  s : State
  ready : List UnitRef
  clause : Option (Header × List Nat)
  stop : Option (UnitRef × Sum Trap (Bool × Nat × FetchErr))

def headerOne (r : HeaderRun) (v : UnitRef) : HeaderRun :=
  match r.s.seq? v with
  | none => r
  | some q0 =>
    let q := q0.arrive
    let s := r.s.setSeq v q
    match atHeader v q s with
    | .go t => { r with s := t.mapSeq v fun x => if x.pc = q0.pc then x else { x with parkAt := s.env.cycle } }
    | .hold => { r with s := s.setSeq v q.endRegion }
    | .trap t => { r with s := s.setSeq v q.endRegion, stop := r.stop.or (some (v, .inl t)) }
    | .bad own at_ e => { r with s := s.setSeq v q.endRegion, stop := r.stop.or (some (v, .inr (own, at_, e))) }
    | .start h ws => { r with s := s.setSeq v q.endRegion, ready := r.ready ++ [v], clause := some (h, ws) }

/-! ## Pass positions of a quarter (R43, R83, R93, R323) -/

/-- Pass positions that a group occupies. -/
def Desc.positions (d : Desc) : Nat := max 1 (d.lanes / 16)

/-- The units of a group: its sequencer, then its slices. -/
def State.groupUnits (s : State) (b g : Nat) : List UnitRef := .group b g :: s.children (.group b g)

/-- Every slice of a group that has not retired waits at an instruction that parks it, or its sequencer does (R261). -/
def State.groupStands (s : State) (b g : Nat) : Bool :=
  let waits (u : UnitRef) : Bool := match s.seq? u with | some q => q.clause.isSome && q.park.stands | none => false
  waits (.group b g) || (let live := (s.children (.group b g)).filter fun v => !s.retired v && !s.isFollower v
                         !live.isEmpty && live.all waits)

/-- A group keeps its positions from the start of a clause to its end, waits included; a parked group gives them up (R323, R261,
DESIGN CHOICE log 38). -/
def State.holdsPasses (s : State) (b g : Nat) : Bool :=
  (s.groupUnits b g).any (fun u => match s.seq? u with
    | some q => (match q.clause with | some c => !c.ended | none => false)
    | none => false) && !s.groupStands b g

/-- The groups of the blocks that run on a quarter (R157). -/
def State.quarterGroups (s : State) (q : Nat) : List (Nat × Nat) :=
  (s.blks.filter fun x => x.phase == .resident).flatMap fun x =>
    ((List.range x.desc.groups).filter fun g => 4 * x.core + g % 4 == q).map fun g => (x.id, g)

def State.passesOf (s : State) (b : Nat) : Nat := ((s.blk? b).map fun x => x.desc.positions).getD 1

/-- Free pass positions of a quarter: a slot has four passes. -/
def State.freePasses (s : State) (q : Nat) : Nat :=
  Config.passes - (((s.quarterGroups q).filter fun p => s.holdsPasses p.1 p.2).map fun p => s.passesOf p.1).foldl (· + ·) 0

/-- A unit that has yielded (R83). -/
def State.hasYielded (s : State) (u : UnitRef) : Bool :=
  let y (v : UnitRef) : Bool := ((s.seq? v).map (·.yielded)).getD false
  match u with
  | .slice b g _ => y u || y (.group b g)
  | _ => y u

/-- Whether a unit may act: it is no follower and has not retired; its block is resident and runs; a gang or grid sequencer has
not stopped and its context is not halted (R335, R340, R357). -/
def State.runs (s : State) (u : UnitRef) : Bool :=
  !s.retired u && !s.isFollower u && (match u.block? with
    | some b => (match s.blk? b with
      | none => false
      | some x => x.phase == .resident && !x.kill && x.stop.isNone && !x.cancelled)
    | none => !(s.flt.uppers.any (·.1 == u)) && !(s.ctx (s.ctxOf u)).halted)

/-- The header of the clause that a group could start now, by the first of its units that has one. -/
def State.readyHeader (s : State) (p : Nat × Nat) : Option Header :=
  (s.groupUnits p.1 p.2).findSome? fun u =>
    match s.seq? u with
    | none => none
    | some q =>
      if q.clause.isSome || !s.runs u || s.hasYielded u then none
      else match atHeader u q.arrive s with
        | .start h _ => some h
        | _ => none

/-- The ready groups of a quarter that hold no positions, one excepted. -/
def State.rivals (s : State) (q : Nat) (me : Nat × Nat) : List ((Nat × Nat) × Header) :=
  (s.quarterGroups q).filterMap fun p => if p = me || s.holdsPasses p.1 p.2 then none else (s.readyHeader p).map fun h => (p, h)

/-- Groups that are ready and were not are dated (R323, DESIGN CHOICE log 38). -/
def State.dateReady (s : State) (ps : List (Nat × Nat)) : State :=
  ps.foldl (fun t p => t.mapSeq (.group p.1 p.2) fun q => { q with readyAt := q.readyAt.or (some s.env.cycle) }) s

/-- Whether a group precedes another: promoted ones first, oldest first, then the higher PRIO, then the older (R323). -/
def State.precedes (s : State) (x y : (Nat × Nat) × Header) : Bool :=
  let of (p : Nat × Nat) : Bool × Nat := match s.seq? (.group p.1 p.2) with
    | some q => (q.promoted, q.readyAt.getD s.env.cycle)
    | none => (false, s.env.cycle)
  let a := of x.1
  let b := of y.1
  if a.1 || b.1 then a.1 && (!b.1 || a.2 < b.2)
  else y.2.prio < x.2.prio || (x.2.prio == y.2.prio && a.2 < b.2)

/-- Whether a unit of a group may start a clause now: its group has positions, or they are free and no ready group that fits
precedes it; one that has yielded lets another ready group go first (R83, R323). -/
def State.mayStart (s : State) (u : UnitRef) (h : Header) : Bool :=
  match u with
  | .slice b g _ | .group b g =>
    let q := s.quarter b g
    let rs := s.rivals q (b, g)
    !(s.hasYielded u && !rs.isEmpty) &&
      (s.holdsPasses b g ||
        (s.passesOf b ≤ s.freePasses q &&
          rs.all fun r => s.freePasses q < s.passesOf r.1.1 || !s.precedes r ((b, g), h)))
  | _ => true

/-- A group that starts a clause is ready no longer, and the other groups of its quarter have let one pass (R83, R323). -/
def State.startedPass (s : State) (u : UnitRef) : State :=
  match u with
  | .slice b g _ | .group b g =>
    let others := ((s.quarterGroups (s.quarter b g)).filter (· != (b, g))).flatMap fun p => s.groupUnits p.1 p.2
    let s1 := others.foldl (fun t v => t.mapSeq v fun q => { q with yielded := false }) s
    let s2 := s1.mapSeq (.group b g) fun q => { q with promoted := false, readyAt := none, yielded := false }
    s2.mapSeq u fun q => { q with yielded := false }
  | _ => s

/-- The poisoned store record that a gang or grid sequencer takes where it next stands at a header: no unit below it takes that one
(R189, DEDUCED log 70). -/
def State.ownRecord (s : State) (u : UnitRef) : Option Trap :=
  match u with
  | .gang .. | .grid _ => s.recordsAt u
  | _ => none

/-- One step of a unit between clauses. -/
def walkFrom (u : UnitRef) (q : Seq) (s : State) : State :=
  match s.ownRecord u with
  | some t => takeFault u q.pc t s
  | none =>
  let us := s.together u q
  let r := us.foldl headerOne { s := s, ready := [], clause := none, stop := none }
  let s1 := match r.stop with
    | none => r.s
    | some (v, .inl t) => takeFault v q.pc t r.s
    | some (v, .inr (own, at_, e)) => if r.s.raisesAt own q.pc v then headerFault us v q.pc at_ e r.s else r.s
  match r.ready, r.clause with
  | v :: vs, some (h, ws) =>
    let s1 := match u with
      | .slice b g _ | .group b g => s1.dateReady ((b, g) :: (s1.rivals (s1.quarter b g) (b, g)).map (·.1))
      | _ => s1
    if !s1.mayStart v h then s1
    else
    let s1 := s1.startedPass v
    let c : ClauseRun := { addr := q.pc, hdr := h, words := ws, pos := 0, next := none,
                           team := (v :: vs).map UnitRef.sliceNo, retire := false, ended := false }
    s1.mapSeq v fun x => { x with park := .none, clause := some c }
  | _, _ => s1

/-! ## Stopping at clause boundaries (R43, R71, R343) -/

/-- The unit whose fault stops a block; a pre-emption has none. -/
def Blk.faulting (x : Blk) : Option UnitRef := x.stop.bind fun i => if i.preempt then none else some i.unit

/-- The sequencers of a block. -/
def State.blockUnits (s : State) (b : Nat) : List UnitRef := .block b :: s.descendants (.block b)

/-- The units that a unit waits for in mid-clause: at a meeting point the other slices of its group, at a gate, a checked read or a
full queue its descendants (R63, R70, R80, R108). -/
def State.waitsOn (s : State) (w : UnitRef) : List UnitRef :=
  match s.seq? w with
  | none => []
  | some q => if q.clause.isNone then [] else match q.park with
    | .meeting => s.siblings w
    | .stalled => s.descendants w
    | _ => []

/-- A unit cannot go on while its block stops: it is the one that faulted, it waits where R343 takes it, or it stands before a
decision of a sequencer that cannot go on. -/
def State.stuck (s : State) (f : Option UnitRef) : Nat → UnitRef → Bool
  | 0, _ => false
  | n + 1, v => f == some v || (match s.seq? v with
    | none => false
    | some q => !q.retired && !s.isFollower v && (match q.clause with
      | some c => !c.ended && (q.park.stands || q.park == .refault)
      | none => !s.canWalk v && (match s.parent? v with | some p => s.stuck f n p | none => false)))

/-- The units that a stopping block lets go on past their clause boundaries, since a unit in mid-clause waits for them and would
otherwise not reach its own (R43, DEDUCED log 41). -/
def State.pulled (s : State) (f : Option UnitRef) (w : UnitRef) : List UnitRef :=
  let vs := s.waitsOn w
  if vs.any (s.stuck f 4) then []
  else vs ++ (match vs, w with | _ :: _, .slice b g _ => [.group b g, .block b] | _, _ => [])

/-- Where a stop takes a unit: at a clause boundary; parked (R343); before the instruction of its fault; or in mid-clause where the
units it waits for cannot go on (R71, DEDUCED log 41). -/
def State.takenAt (s : State) (f : Option UnitRef) (w : UnitRef) : Bool :=
  match s.seq? w with
  | none => true
  | some q => q.retired || s.isFollower w || f == some w || (match q.clause with
    | none => true
    | some c => !c.ended && (q.park.stands || q.park == .refault ||
        ((q.park == .meeting || q.park == .stalled) && (s.pulled f w).isEmpty)))

/-- Whether a unit of a block that stops goes on: in mid-clause until the stop takes it; at a boundary only for a unit that waits
for it in mid-clause. -/
def State.finishing (s : State) (b : Nat) (f : Option UnitRef) (u : UnitRef) : Bool :=
  match s.seq? u with
  | none => false
  | some q => f != some u &&
    (if q.clause.isSome then !s.takenAt f u else (s.blockUnits b).any fun w => (s.pulled f w).contains u)

/-- Whether a unit may act: it is no follower and has not retired; its block is resident and runs, or is stopping while the
unit still has to reach its clause's end; a gang or grid sequencer has not stopped and its context is not halted (R71, R324,
R335, R340, R357). -/
def State.mayIssue (s : State) (u : UnitRef) : Bool :=
  match s.seq? u with
  | none => false
  | some q => !q.retired && !s.isFollower u && (match u.block? with
    | some b => (match s.blk? b with
      | none => false
      | some x => x.phase == .resident && !x.kill &&
          ((x.stop.isNone && !x.cancelled) || s.finishing b x.faulting u))
    | none => !(s.flt.uppers.any (·.1 == u)) && !(s.ctx (s.ctxOf u)).halted)

/-- CLAUSE_HEADER: a unit whose clause has ended leaves it; a unit between clauses acts at its header. -/
def execClauseHeader (u : UnitRef) (s : State) : Host.Outcome State Fault Refusal :=
  match s.seq? u with
  | none => .next s
  | some q =>
    if !s.mayIssue u then .next s
    else match q.clause with
      | some c => .next (if c.ended then leaveClause u q c s else s)
      | none => .next (walkFrom u q s)

end Sys2Proof.Machine
end

