-- ==== Sys2Proof/Machine/Control.lean ====
section
/-! DEFINITION. The control class: branches, loops, calls, lane masks, `regang`, `done` and votes (04_control R75 to R84). -/

namespace Sys2Proof.Machine

/-! ## What a control instruction makes of each unit -/

/-- The turn of one unit: the change of its sequencer, the address it goes to, and whether its clause ends here. -/
structure Turn where
  unit : UnitRef
  next : Option Nat
  ends : Bool
  upd : Seq → Seq

def Turn.same (x y : Turn) : Bool := x.next == y.next && x.ends == y.ends

def ClauseRun.turn (c : ClauseRun) (t : Turn) : ClauseRun := { c with next := t.next, ended := t.ends }

/-- Applies the turns of the units that issue. Where they differ, the slices issue separately from here (R76, R77); a slice that stood
at the instruction apart from the issuing one moves past it too. -/
def turnAll (h : Here) (ts : List Turn) (s : State) : State :=
  let s1 := ts.foldl (fun t x => t.mapSeq x.unit x.upd) s
  match ts with
  | [] => s1
  | t :: _ =>
    if ts.all t.same then ts.foldl (fun r x =>
      let r1 := r.mapSeq x.unit fun q => { q with clause := q.clause.map fun c => c.turn t }
      if x.unit = h.u then r1 else r1.advance x.unit) s1
    else ts.foldl (fun r x =>
      let c := ({ h.c with team := [x.unit.sliceNo] } : ClauseRun).turn x
      r.mapSeq x.unit fun q => if x.unit = h.u then { q with clause := some c }
                               else { q with clause := some c.advance, park := .none }) s1

/-- A target address: 8 x TARGET from the clause header, sign-extended (R47). -/
def Here.target (h : Here) (t : BitVec 20) : Nat := pcWrap (h.c.addr + 8 * t.toInt)
/-- A join address (R47). -/
def Here.join (h : Here) (j : BitVec 16) : Nat := pcWrap (h.c.addr + 8 * j.toNat)

/-- The later of RE and an address (R65). -/
def laterRe (re : Option Nat) (a : Nat) : Option Nat := some (match re with | some r => max r a | none => a)

/-- SCOPE where a slice-scope control instruction finds lanes masked or waiting (R66). -/
def slicesWhole (h : Here) (s : State) : Except Stop Unit :=
  if h.isSlice && h.units.any fun u => ((s.seq? u).map Seq.laneState).getD false then .error (trapC .scope) else .ok ()

/-- The condition, count or displacement of each unit, checked (R64, R68, R76). -/
def condOf (h : Here) (s : State) (c : Src) : Except Stop (List (UnitRef × Nat)) := do
  let vs ← allOk (h.units.map fun u => (if h.isSlice then s.readSlice h u .w32 c else s.readUpper h .w32 c).map fun v => (u, v))
  if h.boundsOk (srcRegs [(c, .w32)]) then .ok () else .error (trapC .regbound)
  let late := vs.flatMap fun v => v.2.syms
  if late ≠ [] then waitSyms s h.u late else .ok (vs.map fun v => (v.1, v.2.num))

/-! ## Slices of one group that stand apart (R76, R77) -/

/-- A slice stands before the instruction at a clause's position, itself or with the slice that leads it. -/
def State.standsBefore (s : State) (addr pos : Nat) (v : UnitRef) : Bool :=
  let at_ (w : UnitRef) : Bool := match s.seq? w with
    | some q => (match q.clause with
      | some c => c.addr == addr && c.pos == pos && !c.ended && c.team.contains v.sliceNo
      | none => false)
    | none => false
  at_ v || (s.siblings v).any at_

/-- The live slices of the group that this issue does not hold. -/
def otherSlices (h : Here) (s : State) : List UnitRef :=
  (s.children (.group h.b h.g)).filter fun v => !s.retired v && !h.units.contains v

/-- The instruction as the slices that stand at it issue it together. -/
def metHere (h : Here) (s : State) : Here :=
  let us := (otherSlices h s).filter (s.standsBefore h.c.addr h.c.pos)
  let all := (s.children (.group h.b h.g)).filter fun v => h.units.contains v || us.contains v
  { h with c := { h.c with team := all.map UnitRef.sliceNo } }

/-- The clause a slice is in, its own or that of the slice that leads it. -/
def State.leadClause (s : State) (v : UnitRef) : Option ClauseRun :=
  let own (w : UnitRef) : Option ClauseRun := (s.seq? w).bind fun q => q.clause.bind fun c =>
    if c.team.contains v.sliceNo then some c else none
  (own v).or ((s.siblings v).findSome? own)

/-- A slice that waits neither at a meeting point nor parked comes further by itself; between clauses, once a sequencer above it that
it waits for does (R63, R108, R261). -/
def State.comes (s : State) : Nat → UnitRef → Bool
  | 0, _ => false
  | n + 1, v => match s.seq? v with
    | none => false
    | some q => match q.clause with
      | some _ => !q.park.stands && q.park != .meeting && q.park != .stalled
      | none => s.canWalk v || (match s.parent? v with | some p => s.comes n p | none => false)

/-- Whether a slice of a joined group is still to reach the instruction: it stands before it in the text, does not walk over it, and
comes further by itself (R76, DEDUCED log 36). -/
def State.comesTo (s : State) (h : Here) (v : UnitRef) : Bool :=
  match s.seq? v with
  | none => false
  | some q => !q.parted && (match s.leadClause v with
    | some c => c.addr < h.c.addr || (c.addr == h.c.addr && c.pos < h.c.pos && !c.ended)
    | none => q.pc < h.c.addr || (q.pc == h.c.addr && !q.walk)) && s.comes 5 v

/-- A conditional branch of slice scope compares the outcomes of the slices of a joined group: the slices that are apart and still come
to it are waited for, and it issues for all that stand at it (R76, DEDUCED log 36). -/
def branchTeam (h : Here) (s : State) : Except Stop Here :=
  if !h.isSlice || h.q.parted then .ok h
  else if (otherSlices h s).any (s.comesTo h) then .error (.stay (s.mapSeq h.u fun q => { q with park := .meeting }))
  else .ok (metHere h s)

/-- Where outcomes differ, every slice of the group that has not retired parts (R76). -/
def partAll (h : Here) (j : Nat) (s : State) : State :=
  ((s.children (.group h.b h.g)).filter fun v => !s.retired v).foldl (fun t v => t.mapSeq v fun q =>
    if q.parted then q else { q with parted := true, pjoin := some j }) s

/-! ## Branches (R75 to R77) -/

/-- Pops the loops of the current call frame that do not hold the address, newest first (R78). -/
def popOutside (a frame : Nat) : List Loop → List Loop
  | [] => []
  | e :: r => if e.frame = frame ∧ ¬(e.top ≤ a ∧ a < e.stop) then popOutside a frame r else e :: r

/-- A branch of slice scope or above (R76). -/
def branchScope (cond : Option Src) (sense : Bool) (target : BitVec 20) (join : BitVec 16) (h0 : Here) (s : State) : Body := do
  slicesWhole h0 s
  let h ← match cond with | none => .ok h0 | some _ => branchTeam h0 s
  slicesWhole h s
  let outs ← match cond with
    | none => .ok (h.units.map fun u => (u, true))
    | some c => (condOf h s c).map fun vs => vs.map fun v => (v.1, (v.2 != 0) != sense)
  let differ := h.isSlice && outs.any fun x => outs.any fun y => x.2 != y.2
  let j := h.join join
  let t := h.target target
  .ok (turnAll h (outs.map fun x =>
    { unit := x.1, next := if x.2 then some t else none, ends := false
      upd := fun q => { q with
        re := laterRe q.re j
        loops := if x.2 then popOutside t q.calls.length q.loops else q.loops } }) (if differ then partAll h j s else s))

/-- The lanes of a slice that begin to wait. -/
def Seq.waitAt (q : Seq) (k : Nat) (a : Nat) (goes : LaneId → Bool) (b g : Nat) : Seq :=
  { q with waits := q.waits.mapIdx fun i w => if goes ⟨b, g, 4 * k + i⟩ then some a else w }

/-- A lane is in M and does not wait. -/
def Seq.activeLanes (q : Seq) : List Nat :=
  (List.range 4).filter fun i => q.mask.getLsbD i && (q.waits.getD i none).isNone

/-- A lane-scope branch (R77). -/
def branchLane (cond : Option Src) (sense : Bool) (target : BitVec 20) (h : Here) (s : State) : Body := do
  let act := h.active s
  let t := h.target target
  let goes ← match cond with
    | none => .ok act
    | some c => do
      if h.boundsOk (srcRegs [(c, .w32)]) then .ok () else .error (trapC .regbound)
      let ins ← readLanes s h act [(c, .w32)]
      let late := ins.flatMap fun r => r.2.flatMap Val.syms
      if late ≠ [] then waitSyms s h.u late
      else .ok ((ins.filter fun r => ((r.2.head?.map Val.num).getD 0 != 0) != sense).map (·.1))
  .ok (turnAll h (h.units.map fun u =>
    let q0 := ((s.seq? u).getD h.q).waitAt u.sliceNo t goes.contains h.b h.g
    let walks := q0.activeLanes.isEmpty && q0.waits.any Option.isSome
    { unit := u, next := none, ends := walks
      upd := fun q => { (q.waitAt u.sliceNo t goes.contains h.b h.g) with walk := q.walk || walks } }) s)

def branch (sc : Scope) (cond : Option Src) (sense : Bool) (target : BitVec 20) (join : BitVec 16) (h : Here) (s : State) : Body :=
  if sc = .lane then branchLane cond sense target h s else branchScope cond sense target join h s

def execBr (sc : Scope) (target : BitVec 20) (join : BitVec 16) (s : State) : Host.Outcome State Fault Refusal :=
  runInstr (branch sc none false target join) s

def execBt (sc : Scope) (cond : Src) (target : BitVec 20) (join : BitVec 16) (s : State) : Host.Outcome State Fault Refusal :=
  runInstr (branch sc (some cond) false target join) s

def execBf (sc : Scope) (cond : Src) (target : BitVec 20) (join : BitVec 16) (s : State) : Host.Outcome State Fault Refusal :=
  runInstr (branch sc (some cond) true target join) s

/-! ## `loop` (R78) -/

def loopBody (count : Src) (top : BitVec 20) (stop : BitVec 16) (h : Here) (s : State) : Body := do
  slicesWhole h s
  let ns ← condOf h s count
  let full (u : UnitRef) : Bool := Config.loopDepth ≤ ((s.seq? u).map (·.loops.length)).getD 0
  if ns.any fun x => x.2 != 0 && full x.1 then .error (trapC .stack) else .ok ()
  let a := h.target top
  let e := h.join stop
  let enters := !h.isSlice && ns.any fun x => x.2 != 0
  if enters && !s.mayProduce h.u 1 then stallHere h s else .ok ()
  let s1 := if enters then produce h.u (.loopEntry a e) none s else s
  .ok (turnAll h (ns.map fun x =>
    { unit := x.1, next := if x.2 = 0 then some e else none, ends := false
      upd := fun q => { q with
        re := laterRe q.re e
        loops := if x.2 = 0 then q.loops
                 else { remaining := x.2, index := 0, top := a, stop := e, frame := q.calls.length } :: q.loops } }) s1)

def execLoop (_sc : Scope) (count : Src) (top : BitVec 20) (stop : BitVec 16) (s : State) : Host.Outcome State Fault Refusal :=
  runInstr (loopBody count top stop) s

/-! ## Calls (R79) -/

/-- Pushes the call and goes to `to`; STACK where some unit's stack is full (R73). -/
def pushCalls (h : Here) (tos : List (UnitRef × Nat)) (s : State) : Body :=
  let full (u : UnitRef) : Bool := Config.callDepth ≤ ((s.seq? u).map (·.calls.length)).getD 0
  if tos.any fun x => full x.1 then .error (trapC .stack)
  else .ok (turnAll h (tos.map fun x =>
    { unit := x.1, next := some x.2, ends := false
      upd := fun q => { q with
        calls := { ret := h.c.after, depth := q.loops.length, re := q.re } :: q.calls
        re := none } }) s)

def callBody (target : BitVec 20) (h : Here) (s : State) : Body := do
  slicesWhole h s
  pushCalls h (h.units.map fun u => (u, h.target target)) s

def callrBody (disp : Src) (h : Here) (s : State) : Body := do
  slicesWhole h s
  let ds ← condOf h s disp
  let at_ (d : Nat) : Int := h.c.addr + signedOf 32 d
  match ds.find? fun x => wrapInt 64 (at_ x.2) % 8 != 0 with
  | some x => .error (.trap { cause := .align, addr := wrapInt 64 (at_ x.2), info := 0, lanes := 0, after := false })
  | none => pushCalls h (ds.map fun x => (x.1, pcWrap (at_ x.2))) s

def retBody (h : Here) (s : State) : Body := do
  slicesWhole h s
  let tops := h.units.map fun u => (u, ((s.seq? u).bind fun q => q.calls.head?))
  if tops.any fun x => x.2.isNone then .error (trapC .stack)
  else .ok (turnAll h (tops.map fun x =>
    { unit := x.1, next := x.2.map (·.ret), ends := false
      upd := fun q => match x.2 with
        | none => q
        | some e => { q with calls := q.calls.tail, loops := q.loops.drop (q.loops.length - e.depth), re := e.re } }) s)

def execCall (_sc : Scope) (target : BitVec 20) (s : State) : Host.Outcome State Fault Refusal := runInstr (callBody target) s

def execCallr (_sc : Scope) (disp : Src) (s : State) : Host.Outcome State Fault Refusal := runInstr (callrBody disp) s

def execRet (_sc : Scope) (s : State) : Host.Outcome State Fault Refusal := runInstr retBody s

/-! ## `regang` (R80) -/

/-- Joins the slices again: the lowest one leads them from the instruction at which they stand. -/
def rejoin (h : Here) (us : List UnitRef) (s : State) : State :=
  let join (q : Seq) : Seq := { q with parted := false, pjoin := none, park := .none, passed := [], pc := h.c.addr }
  match us with
  | [] => s
  | l :: _ =>
    us.foldl (fun t u => t.mapSeq u fun q =>
      if u = l then
        let c : ClauseRun := { (q.clause.getD h.c) with team := us.map UnitRef.sliceNo }
        { (join q) with clause := some (if l = h.u then c else c.advance) }
      else { (join q) with clause := none }) s

def regangBody (h : Here) (s : State) : Body := do
  slicesWhole h s
  if !h.q.parted then .ok s
  else if h.q.pjoin ≠ some h.c.addr then .error (trapC .scope)
  else
    let live := (s.children (.group h.b h.g)).filter fun v => !s.retired v
    if live.all (s.standsBefore h.c.addr h.c.pos) then .ok (rejoin h live s)
    else .error (.stay (s.mapSeq h.u fun q => { q with park := .meeting }))

def execRegang (s : State) : Host.Outcome State Fault Refusal := runInstr regangBody s

/-! ## Lane masks (R81) -/

/-- Changes the lane state of every slice that issues. -/
def mapSlices (h : Here) (f : UnitRef → Seq → Seq) (s : State) : State := h.units.foldl (fun t u => t.mapSeq u (f u)) s

def lifBody (neg : Bool) (cond : Src) (h : Here) (s : State) : Body := do
  if h.boundsOk (srcRegs [(cond, .w32)]) then .ok () else .error (trapC .regbound)
  let ins ← readLanes s h (h.lanes s) [(cond, .w32)]
  let inM (x : LaneId) : Bool := ((s.seq? (.slice x.b x.g (x.l / 4))).map fun q => q.mask.getLsbD (x.l % 4)).getD false
  let late := (ins.filter fun r => inM r.1).flatMap fun r => r.2.flatMap Val.syms
  if h.units.any fun u => Config.maskDepth ≤ ((s.seq? u).map (·.mstack.length)).getD 0 then .error (trapC .stack)
  else if late ≠ [] then waitSyms s h.u late
  else
    let holds (u : UnitRef) (i : Nat) : Bool :=
      match ins.find? fun r => r.1 == ⟨h.b, h.g, 4 * u.sliceNo + i⟩ with
      | some r => ((r.2.head?.map Val.num).getD 0 != 0) != neg
      | none => false
    .ok (mapSlices h (fun u q => { q with
      mstack := q.mask :: q.mstack
      mask := BitVec.ofNat 4 (((List.range 4).filter fun i => q.mask.getLsbD i && holds u i).foldl (fun n i => n + 2 ^ i) 0) }) s)

/-- `lelse` and `lendif` need an entry on the mask stack (R73). -/
def needMask (h : Here) (s : State) (f : BitVec 4 → List (BitVec 4) → Seq → Seq) : Body :=
  if h.units.any fun u => ((s.seq? u).map (·.mstack.isEmpty)).getD true then .error (trapC .stack)
  else .ok (mapSlices h (fun _ q => match q.mstack with | t :: r => f t r q | [] => q) s)

def lelseBody (h : Here) (s : State) : Body := needMask h s fun t _ q => { q with mask := t &&& ~~~ q.mask }

def lendifBody (h : Here) (s : State) : Body := needMask h s fun t r q => { q with mask := t, mstack := r }

def execLif (neg : Bool) (cond : Src) (s : State) : Host.Outcome State Fault Refusal := runInstr (lifBody neg cond) s
def execLelse (s : State) : Host.Outcome State Fault Refusal := runInstr lelseBody s
def execLendif (s : State) : Host.Outcome State Fault Refusal := runInstr lendifBody s

/-! ## `done`, `nop`, `yield` (R82, R83) -/

/-- The symbols that the registers, the queued stores and the deferred instructions of lanes refer to (R96, R119). -/
def State.lateOf (s : State) (u : UnitRef) (lanes : List LaneId) : List (Nat × Nat) :=
  let regs := s.regs.filterMap fun p => match p.1 with
    | .vec b g l _ => if lanes.contains ⟨b, g, l⟩ then p.2.sym? else none
    | .gr b g _ => if u == .group b g then p.2.sym? else none
    | _ => none
  let stores := s.qs.accs.flatMap fun a =>
    if a.kind.isWrite && !a.returns then
      a.lanes.flatMap fun y =>
        if orderOf a.unit == orderOf u && (u.rank == 2 || lanes.any fun x => x.l == y.l) then (y.parts ++ y.data).filterMap Cell.sym? else []
    else []
  let defs := (s.syms.filter fun x => x.deferred.any fun d => d.lanes.any fun y => lanes.contains ⟨y.b, y.g, y.l⟩).map fun x => (x.q, x.sym)
  regs ++ stores ++ defs

/-- `done` waits for every late value of the retiring unit, and takes a deferred fault (R95, R96, R119, R189). -/
def settled (h : Here) (s : State) : Except Stop Unit :=
  match s.recordsAt h.u with
  | some t => .error (.trap t)
  | none =>
    let lanes := if h.isSlice then h.lanes s else (s.children h.u).flatMap lanesOfSlice
    let ls := s.lateOf h.u lanes
    if ls = [] then .ok () else waitSyms s h.u ls

/-- The clause ends here for every unit that issues. -/
def endHere (h : Here) (retire : Bool) (s : State) : State :=
  s.mapSeq h.u fun q => { q with clause := q.clause.map fun c => { c with ended := true, retire := c.retire || retire } }

/-- `done.block` waits for its matrix queue, its `mstore` rows and the commands of its block, and takes the fault of a row that failed
(R150, R189, R239). -/
def blockDrained (h : Here) (s : State) : Except Stop Unit :=
  match h.u with
  | .block b =>
    (match s.recordsAt h.u with
     | some t => .error (.trap t)
     | none =>
       if ((s.blk? b).map fun x => !x.mq.isEmpty || x.cmds.any (·.st == 0)).getD false ||
           s.qs.accs.any (fun a => a.unit == h.u && a.lanes.zipIdx.any fun p => s.laneFlies a p.1 p.2) then waitHere s
       else .ok ())
  | _ => .ok ()

def doneBody (h : Here) (s : State) : Body := do
  slicesWhole h s
  if h.isSlice then .ok () else gate h s
  if h.u.rank ≤ 2 then settled h s else blockDrained h s
  .ok (endHere h true s)

def execDoneScope (_sc : Scope) (s : State) : Host.Outcome State Fault Refusal := runInstr doneBody s

def execNop (_sc : Scope) (s : State) : Host.Outcome State Fault Refusal := runInstr (fun _ s => .ok s) s

/-- `yield` ends the clause, and the group, or the parted slice, lets another ready group of its quarter go first (R83). -/
def yieldBody (h : Here) (s : State) : Body :=
  let who := match h.u with | .slice b g _ => if h.q.parted then h.u else .group b g | u => u
  .ok ((endHere h false s).mapSeq who fun q => { q with yielded := true })

def execYield (_sc : Scope) (s : State) : Host.Outcome State Fault Refusal := runInstr yieldBody s

/-! ## Votes (R84) -/

/-- The result of a vote from the participants' values, in order. -/
def voteAny (vs : List Nat) : Nat := if vs.any (· != 0) then 1 else 0
def voteAll (vs : List Nat) : Nat := if vs.all (· != 0) then 1 else 0
def voteFirst (vs : List Nat) : Nat := vs.head?.getD 0
def voteCount (vs : List Nat) : Nat := (vs.filter (· != 0)).length
def voteSum (vs : List Nat) : Nat := vs.foldl (· + ·) 0 % 2 ^ 32
def voteMax (uns : Bool) (vs : List Nat) : Nat :=
  if uns then vs.foldl max 0
  else vs.foldl (fun m v => if signedOf 32 m < signedOf 32 v then v else m) 0x80000000

/-- Order of participants: `sv.block`, then `sv.group`, then `sv.lane` (R84). Lanes of different gangs that agree in all three keep the
order in which their gangs were dispensed, which is the model's (DESIGN CHOICE log 124). -/
def voteKey (s : State) (x : LaneId) : Nat := ((((s.blk? x.b).map (·.member)).getD 0) * 64 + x.g) * 64 + x.l

/-- Inserts by rising key, after equal ones. -/
def insertBy (k : Nat) (v : Nat) : List (Nat × Nat) → List (Nat × Nat)
  | [] => [(k, v)]
  | p :: r => if k < p.1 then (k, v) :: p :: r else p :: insertBy k v r

/-- Whether a source has one value in each lane of a slice clause, or one value for all (R84). -/
def Here.perLane (h : Here) : Src → Bool
  | .vreg _ | .vidx .. | .pred _ => true
  | .latch n => (match h.latchInfo n with | some (.scope _, _) => false | _ => true)
  | .sv v => v == .lane
  | _ => false

/-- Whether the participants are lanes or instances of a lower scope. -/
def Here.voteLower (h : Here) (a : Src) : Bool :=
  h.perLane a || (match a with
    | .sreg k _ => k.rank < h.u.rank
    | .sv v => v != .lc && svRank v < h.u.rank
    | _ => false)

/-- The participants' values in an upper clause, those of equal order in the order of their gangs (DESIGN CHOICE log 124). -/
def voteUpper (h : Here) (s : State) (a : Src) : Except Stop (List (Nat × Except Cause Val)) :=
  let lanes := (s.lanesOf h.u).map fun x => (voteKey s x, s.readLane h x .w32 a)
  let units (r : Nat) (f : UnitRef → Val) := (s.liveAt h.u r).map fun u =>
    (voteKey s ⟨(u.block?).getD 0, u.groupNo, 4 * u.sliceNo⟩, (.ok (f u) : Except Cause Val))
  let one := (s.readUpper h .w32 a).map fun v => [(0, (.ok v : Except Cause Val))]
  if h.perLane a then .ok lanes
  else match a with
    | .sreg k n => if k.rank < h.u.rank then .ok (units k.rank fun u => regVal s u.ownReg n false) else one
    | .sv v => if v == .lc || h.u.rank ≤ svRank v then one
               else .ok (units (svRank v) fun u => .known (s.unitSysVal v u).toNat)
    | _ => one

/-- The values in order, or what the vote waits for. -/
def voteVals (s : State) (u : UnitRef) (vs : List (Nat × Except Cause Val)) : Except Stop (List Nat) :=
  match vs.findSome? fun v => match v.2 with | .error c => some c | .ok _ => none with
  | some c => .error (trapC c)
  | none =>
    let xs := vs.filterMap fun v => match v.2 with | .ok w => some (v.1, w) | .error _ => none
    let late := xs.flatMap fun x => x.2.syms
    if late ≠ [] then waitSyms s u late
    else .ok ((xs.foldl (fun r x => insertBy x.1 x.2.num r) []).map (·.2))

def voteSliceBody (out : Out) (a : Src) (f : List Nat → Nat) (h : Here) (s : State) : Body := do
  if h.boundsOk (srcRegs [(a, .w32)] ++ outRegs out 1) then .ok () else .error (trapC .regbound)
  let act := h.active s
  let ofUnit (u : UnitRef) : List LaneId := if h.perLane a then act.filter fun x => x.l / 4 == u.sliceNo else (lanesOfSlice u).take 1
  let ins ← readLanes s h (h.units.flatMap ofUnit) [(a, .w32)]
  let late := ins.flatMap (fun r => r.2.flatMap Val.syms) ++ act.flatMap (s.splitSyms out false)
  if late ≠ [] then waitSyms s h.u late
  else
    let res (k : Nat) : Nat := f ((ins.filter fun r => r.1.l / 4 == k).map fun r => (r.2.head?.map Val.num).getD 0)
    .ok (s.writeLanes h out false (h.lanes s) fun x => if act.contains x then some [resultCell out (res (x.l / 4))] else none)

def voteUpperBody (out : Out) (a : Src) (f : List Nat → Nat) (h : Here) (s : State) : Body := do
  if !h.voteLower a || allArrived h s then .ok () else stallHere h s
  let vs ← voteUpper h s a
  let xs ← voteVals s h.u vs
  if h.boundsOk (srcRegs [(a, .w32)] ++ outRegs out 1) then .ok () else .error (trapC .regbound)
  readyUpper h s out false
  .ok (s.writeUpper h out false [resultCell out (f xs)])

def vote (out : Out) (a : Src) (f : List Nat → Nat) (h : Here) (s : State) : Body :=
  if h.isSlice then voteSliceBody out a f h s else voteUpperBody out a f h s

def execVany (out : Out) (a : Src) (s : State) : Host.Outcome State Fault Refusal := runInstr (vote out a voteAny) s
def execVall (out : Out) (a : Src) (s : State) : Host.Outcome State Fault Refusal := runInstr (vote out a voteAll) s
def execVfirst (out : Out) (a : Src) (s : State) : Host.Outcome State Fault Refusal := runInstr (vote out a voteFirst) s
def execVcount (out : Out) (a : Src) (s : State) : Host.Outcome State Fault Refusal := runInstr (vote out a voteCount) s
def execVsum (out : Out) (a : Src) (s : State) : Host.Outcome State Fault Refusal := runInstr (vote out a voteSum) s
def execVmax (uns : Bool) (out : Out) (a : Src) (s : State) : Host.Outcome State Fault Refusal := runInstr (vote out a (voteMax uns)) s

end Sys2Proof.Machine
end

