-- ==== Sys2Proof/Machine/Memory.lean ====
section
/-! DEFINITION. The memory access class and the steps of the memory side (09_memory R175 to R202, 05_integer R94, 12_sync
R260). -/

namespace Sys2Proof.Machine

/-! ## What an issue waits for (R187 to R190, R198) -/

/-- A lane whose address is still late. -/
def LaneAcc.symbolic (y : LaneAcc) : Bool := y.addr.isNone && (match y.st with | .todo | .failed _ => true | _ => false)

/-- What earlier accesses of the order make a memory instruction wait for; `strict` names every instruction of R188, and
`release` a `stsys`. A poisoned store record is taken here (R189). -/
def memBars (h : Here) (s : State) (strict release : Bool) : Except Stop Unit :=
  match s.recordsAt h.u with
  | some t => .error (.trap t)
  | none =>
    let prior := s.ordered h.u
    let acquire := (prior.filter fun a => a.kind == .loadSys).filterMap (·.sym)
    let stores := (prior.filter fun a => a.kind.isWrite && a.lanes.any fun y => y.addr.isNone && y.st == .todo).flatMap Access.needs
    let loads := (prior.filter fun a => a.returns && a.lanes.any LaneAcc.symbolic).flatMap fun a => a.sym.toList ++ a.needs
    let all := prior.flatMap Access.needs
    let ls := acquire ++ stores ++ (if strict then loads else []) ++ (if release then all else [])
    if ls ≠ [] then waitSyms s h.u ls else .ok ()

/-- Accesses that stand in a quarter's access queue: with a late address or late data (R186). -/
def State.queuedOn (s : State) (q : Nat) : Nat :=
  (s.qs.accs.filter fun a => (match a.unit.block? with | some b => s.quarter b a.unit.groupNo == q | none => false) &&
    a.lanes.any fun y => y.st == .hole || (y.st == .todo && (y.addr.isNone || y.data.any fun c => c.sym?.isSome))).length

/-- Room for the counter, and for an access that must be queued (R186, R190). -/
def memRoom (h : Here) (s : State) (ctr : Nat) (late : Bool) : Except Stop Unit :=
  if ctr ≠ 0 && s.ctrFull (s.ctrGroups h.u) ctr then waitHere s
  else if late && Config.accessQueueDepth ≤ s.queuedOn (s.quarter h.b h.g) then waitHere s
  else .ok ()

/-! ## Lanes of an access (R175, R189) -/

/-- The displacement of an M-format word. -/
def memDisp (m : MemOp) : Nat := wrapInt 64 (m.offs.toInt * m.width.bytes)

/-- Registers that a width fills (R196). -/
def regsOf (bytes : Nat) : Nat := max 1 (bytes / 4)

def Val.cells (wide : Bool) : Val → List Cell
  | .known v => knownCells wide v
  | .late lo hi => lo :: hi.toList

/-- Symbols of an operand that is late and no integer form: the instruction waits for them (R93, R186). -/
def notForm (v : Val) : List (Nat × Nat) := if v.isLate && v.iform?.isNone then v.syms else []

/-- One lane of an access, its address formed where base and index are known (R175). -/
def laneAcc (g l disp size : Nat) (base index : Val) (data : List Cell) : LaneAcc :=
  let known := !base.isLate && !index.isLate
  { g := g, l := l, disp := disp, size := size, tgt := .none, mark := false, data := data, got := [], st := .todo
    addr := if known then some ((base.num + ((BitVec.ofNat 32 index.num).signExtend 64).toNat + disp) % 2 ^ 64) else none
    parts := if known then [] else base.cells true ++ index.cells false }

/-- The checks of the lanes whose address is known, in the order of R189; the first cause found is raised with every lane
that meets it. -/
def checkLanes (h : Here) (s : State) (k : AccKind) (aligned : Bool) (info : Nat → Nat) (ls : List LaneAcc) : Except Stop (List LaneAcc) :=
  let rs := ls.map fun x => (x, x.addr.map fun va =>
    s.reach h.cls h.u h.ctx h.desc h.b x.g (if h.isSlice then x.l else 0) va x.size k.need k.isAtomic aligned)
  let bad := rs.filterMap fun p => match p.2 with | some (.fault c) => some (p.1, c) | _ => none
  match bad with
  | b :: r =>
    let c := r.foldl (fun c p => if faultRank p.2 < faultRank c then p.2 else c) b.2
    let those := (bad.filter fun p => p.2 == c).map (·.1)
    let at_ := (those.head?.bind (·.addr)).getD 0
    .error (.trap { cause := c, addr := at_, info := info at_, after := false
                    lanes := if h.isSlice then laneMask (those.map fun x => ⟨h.b, x.g, x.l⟩) else 0 })
  | [] =>
    if rs.any fun p => p.2 == some .wait then waitHere s
    else
      let xs := rs.map fun p => match p.2 with
        | some (.ok t m) => { p.1 with tgt := t, mark := m }
        | some (.page _ ia) => { p.1 with tgt := .inter ia }
        | _ => p.1
      if xs.any fun x => s.boardHit h.u x.tgt x.size then waitHere s else .ok xs

/-! ## Sending an access -/

/-- Records an access at the end of its order and counts it; a symbol that is poisoned already fails it (R190, R405). -/
def sendAccess (h : Here) (k : AccKind) (w ctr : Nat) (sym : Option (Nat × Nat)) (dst : Option Out) (lanes : List LaneAcc)
    (s : State) : State :=
  let gs := if ctr = 0 then [] else s.ctrGroups h.u
  let a : Access := { id := s.env.fresh, unit := h.u, kind := k, width := w, ctr := ctr, bumped := gs, sym := sym, dst := dst,
                      team := h.c.team, word := h.c.words.getD h.c.pos 0, pc := h.pc, lanes := lanes, poison := none }
  let s1 := (s.bump.setQs { s.qs with accs := s.qs.accs ++ [a] }).bumpCtrs gs ctr (· + 1)
  a.needs.foldl (fun t p => match (t.sym? p.1 p.2).bind (·.poison) with
    | some c => t.passPoison c (t.qs.accs.length + 1) p
    | none => t) s1

/-- A new symbol (R90). -/
def newSym (q n b g : Nat) (feed : SymFeed) (s : State) : State :=
  s.setSyms (s.syms ++ [{ q := q, sym := n, b := b, g := g, feed := feed, poison := none, deferred := [] }])

/-- The fresh forms of a load: one 64-bit form, or 32-bit ones with a PART each (R90, R91). -/
def freshCells (q n bytes : Nat) : List Cell :=
  if bytes = 8 then formCells { q := q, sym := n, scale := 1, offset := 0, wide := true, ty := .s64, ext := .none, part := 0 }
  else (List.range (regsOf bytes)).map fun i =>
    .form { q := q, sym := n, scale := 1, offset := 0, wide := false, ty := .s32, ext := .none, part := i } false

/-- The registers of a load as known words: the lowest address in the lowest register (R196). -/
def loadedCells (bytes : Nat) (bs : List Byte) : List Cell :=
  (List.range (regsOf bytes)).map fun i => .known (BitVec.ofNat 32 (leNat ((bs.drop (4 * i)).take 4)))

/-- Delivers the cells of a load to vector registers beyond the first, where it fills 4 or 8 (R196). -/
def writeRest (o : Out) (bytes : Nat) (run : List LaneId) (cs : List Cell) (s : State) : State :=
  match o.dst with
  | .vreg n =>
    if bytes ≤ 8 then s
    else run.foldl (fun t x => t.setCells ((cs.zipIdx.drop 1).map fun p => (.vec x.b x.g x.l (n + p.2), p.1))) s
  | _ => s

/-- The destination of a load in the lanes of a slice clause. -/
def loadSliceDst (h : Here) (o : Out) (bytes : Nat) (run : List LaneId) (cs : List Cell) (s : State) : State :=
  writeRest o bytes run cs (s.writeLanes h o (bytes == 8) (h.lanes s) fun x =>
    if run.contains x then some (if bytes = 8 then cs else cs.take 1) else none)

/-- The destination of a load in an upper clause. -/
def loadUpperDst (h : Here) (o : Out) (bytes : Nat) (cs : List Cell) (s : State) : State :=
  writeRest o bytes (h.active s) cs (s.writeUpper h o (bytes == 8) (if bytes = 8 then cs else cs.take 1))

/-! ## An access that the unit waits for (R185, R189) -/

/-- Performs on; the unit is past the access once every lane has its value or its place. A fault is taken at the instruction,
which then makes its access anew (R189). -/
def awaited (h : Here) (s : State) (id : Nat) : Except Stop (State × Option Access) :=
  let t := performUpTo id s.env.budget s
  match t.access? id with
  | none => .ok (t, none)
  | some a =>
    match a.lanes.findSome? fun y => match y.st with | .failed c => some c | .page _ => some .page | _ => none with
    | some c => .error (.stay (takeFault h.u h.pc (a.trap c) (t.dropAcc a)))
    | none =>
      if a.lanes.all fun y => y.st == .done || (y.st == .queued && !a.returns) then .ok (t, some a)
      else .error (.stay (t.mapSeq h.u fun q => { q with park := .access id }))

/-! ## `ld`, `ldsys` (R197, R198) -/

/-- A load of a slice clause; where no lane executes it takes no symbol and makes no access (DESIGN CHOICE log 128). -/
def loadSlice (k : AccKind) (o : Out) (m : MemOp) (ctr : Nat) (h : Here) (s : State) : Body := do
  let w := m.width.bytes
  let srcs := [(m.base, As.addr), (m.index, As.w32)]
  if h.boundsOk (srcRegs srcs ++ outRegs o (regsOf w)) then .ok () else .error (trapC .regbound)
  let run := h.execLanes s m.pred
  let ins ← readLanes s h run srcs
  memBars h s false false
  if run = [] then .ok (s.latchOld h o (w == 8))
  else do
    let late := ins.flatMap (fun r => r.2.flatMap notForm) ++
      (if w ≤ 4 then run.flatMap (s.splitSyms o false) else [])
    if late ≠ [] then waitSyms s h.u late else .ok ()
    let ls := ins.map fun r => laneAcc r.1.g r.1.l (memDisp m) w (r.2.headD (.known 0)) ((r.2.drop 1).headD (.known 0)) []
    memRoom h s ctr (ls.any fun x => x.addr.isNone)
    let ls ← checkLanes h s k true (fun _ => accInfo w false) ls
    let q := s.quarter h.b h.g
    match s.freeSym q with
    | none => waitHere s
    | some n =>
      let id := s.env.fresh
      let t := sendAccess h k w ctr (some (q, n)) (some o) ls (newSym q n h.b h.g (.access id) s)
      .ok (performUpTo id s.env.budget (loadSliceDst h o w run (freshCells q n w) t))

/-- The one access of a clause of group class: its destination is late (R185). -/
def loadGroup (k : AccKind) (o : Out) (w ctr : Nat) (ls : List LaneAcc) (h : Here) (s : State) : Body :=
  let q := s.quarter h.b h.g
  match s.freeSym q with
  | none => waitHere s
  | some n =>
    let id := s.env.fresh
    let t := sendAccess h k w ctr (some (q, n)) (some o) ls (newSym q n h.b h.g (.access id) s)
    .ok (performUpTo id s.env.budget (loadUpperDst h o w (freshCells q n w) t))

/-- A load that waits for its value, and then writes it (R185). -/
def loadWait (o : Out) (w : Nat) (h : Here) (s : State) (id : Nat) : Body := do
  let (t, a) ← awaited h s id
  match a with
  | none => .ok t
  | some a => .ok (loadUpperDst h o w (loadedCells w ((a.lanes.head?.map (·.got)).getD [])) (t.dropAcc a))

/-- A load of an upper clause waits for the levels below, as a gated instruction does, so that it reads what in-order execution would
read (R63, R70, R197); a grid sequencer does not wait for gangs still to be dispensed unless its load is gated (DEDUCED log 35). -/
def gateLoad (k : AccKind) (d : Dst) (h : Here) (s : State) : Except Stop Unit :=
  let own := k != .loadSys && (match d with | .vreg _ => false | _ => true)
  match h.u with
  | .grid l => if own && s.undispensed l then .ok () else gate h s
  | _ => gate h s

def loadUpper (k : AccKind) (o : Out) (m : MemOp) (ctr : Nat) (h : Here) (s : State) : Body :=
  let w := m.width.bytes
  match h.q.park with
  | .access id => loadWait o w h s id
  | _ => do
    let srcs := [(m.base, As.addr), (m.index, As.w32)]
    gateLoad k o.dst h s
    let go ← upperPred h s m.pred
    let bounds : Except Stop Unit := if h.boundsOk (srcRegs srcs ++ outRegs o (regsOf w)) then .ok () else .error (trapC .regbound)
    if !go then do
      bounds
      .ok (s.latchOld h o (w == 8))
    else do
      let vs ← allOk (srcs.map fun q => s.readUpper h q.2 q.1)
      bounds
      readyUpper h s o (w == 8)
      memBars h s false false
      if (match o.dst with | .vreg _ => (h.active s).isEmpty | _ => false) then .ok (s.latchOld h o (w == 8))
      else do
        let late := if h.u.rank = 2 then vs.flatMap notForm else vs.flatMap Val.syms
        if late ≠ [] then waitSyms s h.u late else .ok ()
        let x := laneAcc h.g 0 (memDisp m) w (vs.headD (.known 0)) ((vs.drop 1).headD (.known 0)) []
        memRoom h s ctr x.addr.isNone
        let ls ← checkLanes h s k true (fun _ => accInfo w false) [x]
        if h.u.rank = 2 then loadGroup k o w ctr ls h s
        else loadWait o w h (sendAccess h k w ctr none (some o) ls s) s.env.fresh

def loadBody (k : AccKind) (o : Out) (m : MemOp) (ctr : Nat) (h : Here) (s : State) : Body :=
  if h.isSlice then loadSlice k o m ctr h s else loadUpper k o m ctr h s

def execLd (o : Out) (m : MemOp) (ctr : Nat) (s : State) : Host.Outcome State Fault Refusal := runInstr (loadBody .load o m ctr) s

def execLdsys (o : Out) (m : MemOp) (ctr : Nat) (s : State) : Host.Outcome State Fault Refusal :=
  runInstr (loadBody .loadSys o m ctr) s

/-! ## `st`, `stsys` (R187, R197, R198) -/

/-- The data registers of a store. -/
def dataSrcs (d w : Nat) : List (Src × As) := (List.range (regsOf w)).map fun i => (.vreg (d + i), .packed)

def storeSlice (k : AccKind) (d : Nat) (m : MemOp) (ctr : Nat) (h : Here) (s : State) : Body := do
  let w := m.width.bytes
  let srcs := [(m.base, As.addr), (m.index, As.w32)] ++ dataSrcs d w
  if h.boundsOk (srcRegs srcs) then .ok () else .error (trapC .regbound)
  let run := h.execLanes s m.pred
  let ins ← readLanes s h run srcs
  memBars h s true (k == .storeSys)
  if run = [] then .ok s
  else do
    let late := ins.flatMap fun r => (r.2.take 2).flatMap notForm
    if late ≠ [] then waitSyms s h.u late else .ok ()
    let ls := ins.map fun r => laneAcc r.1.g r.1.l (memDisp m) w (r.2.headD (.known 0)) ((r.2.drop 1).headD (.known 0))
      ((r.2.drop 2).flatMap fun v => v.cells false)
    memRoom h s ctr (ls.any fun x => x.addr.isNone || x.data.any fun c => c.sym?.isSome)
    let ls ← checkLanes h s k true (fun _ => accInfo w true) ls
    .ok (performUpTo s.env.fresh s.env.budget (sendAccess h k w ctr none none ls s))

/-- A store of a block, gang or grid clause is past once it has its place; where it fails it is a poisoned store record (R189). -/
def storePlaced (h : Here) (s : State) (id : Nat) : Body :=
  let t := performUpTo id s.env.budget s
  match t.access? id with
  | some a =>
    if a.lanes.any fun y => y.st == .todo then .error (.stay (t.mapSeq h.u fun q => { q with park := .access id })) else .ok t
  | none => .ok t

def storeUpper (k : AccKind) (d : Nat) (m : MemOp) (ctr : Nat) (h : Here) (s : State) : Body :=
  let w := m.width.bytes
  match h.q.park with
  | .access id => storePlaced h s id
  | _ => do
    let srcs := [(m.base, As.addr), (m.index, As.w32)] ++ dataSrcs d w
    gate h s
    let go ← upperPred h s m.pred
    let bounds : Except Stop Unit := if h.boundsOk (srcRegs srcs) then .ok () else .error (trapC .regbound)
    if !go then do
      bounds
      .ok s
    else do
      let vs ← allOk (srcs.map fun q => s.readUpper h q.2 q.1)
      bounds
      memBars h s true (k == .storeSys)
      let late := if h.u.rank = 2 then (vs.take 2).flatMap notForm else vs.flatMap Val.syms
      if late ≠ [] then waitSyms s h.u late else .ok ()
      let x := laneAcc h.g 0 (memDisp m) w (vs.headD (.known 0)) ((vs.drop 1).headD (.known 0)) ((vs.drop 2).flatMap fun v => v.cells false)
      memRoom h s ctr (x.addr.isNone || (h.u.rank = 2 && x.data.any fun c => c.sym?.isSome))
      let ls ← checkLanes h s k true (fun _ => accInfo w true) [x]
      let t := sendAccess h k w ctr none none ls s
      if h.u.rank = 2 then .ok (performUpTo s.env.fresh s.env.budget t) else storePlaced h t s.env.fresh

def storeBody (k : AccKind) (d : Nat) (m : MemOp) (ctr : Nat) (h : Here) (s : State) : Body :=
  if h.isSlice then storeSlice k d m ctr h s else storeUpper k d m ctr h s

def execSt (d : Nat) (m : MemOp) (ctr : Nat) (s : State) : Host.Outcome State Fault Refusal := runInstr (storeBody .store d m ctr) s

def execStsys (d : Nat) (m : MemOp) (ctr : Nat) (s : State) : Host.Outcome State Fault Refusal :=
  runInstr (storeBody .storeSys d m ctr) s

/-! ## `pf` (R199) -/

/-- `pf` changes nothing that a program reads, and never faults after decode. -/
def execPf (_m : MemOp) (s : State) : Host.Outcome State Fault Refusal := runInstr (fun _ s => .ok s) s

/-! ## Operands of upper clauses, and parks -/

/-- Operands of a gated instruction of an upper clause: checked, and known (R64, R68, R70). -/
def upNums (h : Here) (s : State) (srcs : List (Src × As)) : Except Stop (List Nat) := do
  gate h s
  let vs ← allOk (srcs.map fun q => s.readUpper h q.2 q.1)
  if h.boundsOk (srcRegs srcs) then .ok () else .error (trapC .regbound)
  let late := vs.flatMap Val.syms
  if late ≠ [] then waitSyms s h.u late else .ok (vs.map Val.num)

/-- The issuing block. -/
def blkHere (h : Here) (s : State) : Except Stop Blk :=
  match s.blk? h.b with
  | some x => .ok x
  | none => waitHere s

/-- Parks the unit; the time at which it parked is kept (R152, R261). -/
def parkHere {α : Type} (h : Here) (p : Park) (s : State) : Except Stop α :=
  .error (.stay (s.mapSeq h.u fun q => { q with park := p, parkAt := if q.park.stands then q.parkAt else s.env.cycle }))

/-! ## Line locks (R192, R200, R201) -/

/-- The addresses that an instruction of one address per lane acts on: the executing lanes in a slice clause, one address in
an upper clause (gated); none where PRED is 0. -/
def laneAddrs (h : Here) (s : State) (p : Nat) (srcs : List (Src × As)) : Except Stop (List (LaneId × List Nat)) :=
  if h.isSlice then do
    if h.boundsOk (srcRegs srcs) then .ok () else .error (trapC .regbound)
    let ins ← readLanes s h (h.execLanes s p) srcs
    let late := ins.flatMap fun r => r.2.flatMap Val.syms
    if late ≠ [] then waitSyms s h.u late else .ok (ins.map fun r => (r.1, r.2.map Val.num))
  else do
    gate h s
    let go ← upperPred h s p
    if !go then do
      if h.boundsOk (srcRegs srcs) then .ok [] else .error (trapC .regbound)
    else do
      let vs ← allOk (srcs.map fun q => s.readUpper h q.2 q.1)
      if h.boundsOk (srcRegs srcs) then .ok () else .error (trapC .regbound)
      let late := vs.flatMap Val.syms
      if late ≠ [] then waitSyms s h.u late else .ok [(⟨h.b, h.g, 0⟩, vs.map Val.num)]

/-- Writes 32-bit results: each lane's own in a slice clause, the one result in an upper clause (R51). -/
def writeResults (h : Here) (o : Out) (rs : List (LaneId × Nat)) (s : State) : State :=
  if h.isSlice then s.writeLanes h o false (h.lanes s) fun x => (lookup? x rs).map fun v => [resultCell o v]
  else match rs with
    | [] => s.latchOld h o false
    | r :: _ => s.writeUpper h o false [resultCell o r.2]

/-- Room for a result: bounds, decisions, and no pair of a late value split (R85, R93). -/
def readyResult (h : Here) (s : State) (o : Out) : Except Stop Unit :=
  if !h.boundsOk (outRegs o 1) then .error (trapC .regbound)
  else if h.isSlice then
    (let late := (h.active s).flatMap (s.splitSyms o false)
     if late ≠ [] then waitSyms s h.u late else .ok ())
  else readyUpper h s o false

/-- The address of an M-format lane. -/
def memAddr (m : MemOp) (ns : List Nat) : Nat :=
  (ns.headD 0 + ((BitVec.ofNat 32 ((ns.drop 1).headD 0)).signExtend 64).toNat + (memDisp m)) % 2 ^ 64

/-- Lines locked in the set of a line. -/
def State.setLocks (s : State) (ia : Nat) : Nat :=
  (s.mem.locks.filter fun e => e.2.2 == homeSlice ia && Config.l2Set e.2.1 == Config.l2Set (ia / 128)).length

def State.lockCount (s : State) (ctx : Nat) : Nat := (s.mem.locks.filter fun e => e.1 == ctx).length

/-- What one lane of `llock` finds: a status, with the locks as they are then, or a missing mapping. -/
inductive LockLane
  | status (v : Nat) (s : State)
  | page (s : State)

/-- One lane of `llock`, in the order of R200: the line is fetched only where it is to be locked. -/
def lockLine (ctx a : Nat) (s : State) : LockLane :=
  if regionOf a ≠ .global then .status 3 s
  else match s.stage1 ctx a with
    | none => .status 3 s
    | some (r, ia) =>
      if !rightR r then .status 3 s
      else
        let line := ia / 128
        match s.route ia false with
        | .sys .. | .refused | .prot => .status 3 s
        | w =>
          match s.mem.locks.find? fun e => e.2.1 == line with
          | some e => .status (if e.1 = ctx then 0 else 2) s
          | none =>
            if 12 ≤ s.setLocks ia then .status 2 s
            else if s.lockCount ctx = bitsOf (s.cr ctx 0x32).toNat 0 16 then .status 1 s
            else match w with
              | .miss _ => .page (s.pageMiss ia 0).1
              | _ => .status 0 (s.setMem { s.mem with locks := s.mem.locks ++ [(ctx, line, homeSlice ia)] })

/-- Stands for a lane that met a missing mapping, among the statuses of `llock`. -/
def lockPaged : Nat := 16

/-- Up to `n` more lanes in ascending order, one per step of the reference machine (R275); the statuses so far. -/
def lockLanes (ctx : Nat) (f : Nat → State → LockLane) : List (LaneId × Nat) → Nat → List (Nat × Option Nat) → State →
    State × List (Nat × Option Nat)
  | [], _, xs, s => (s, xs)
  | (x, a) :: r, n, xs, s =>
    match (lookup? x.l xs).bind id, n with
    | some _, _ => lockLanes ctx f r n xs s
    | none, 0 => (s, xs)
    | none, n + 1 =>
      match f a s with
      | .status v t => lockLanes ctx f r n (assign x.l (some v) xs) t
      | .page t => lockLanes ctx f r n (assign x.l (some lockPaged) xs) t

/-- The lanes of `llock` or `lunlock` in their order: every status, or the unit stands with those it has; it acts at the head of
its program order (R200, R275). -/
def lockSteps (h : Here) (xs : List (LaneId × Nat)) (f : Nat → State → LockLane) (s : State) :
    Except Stop (State × List (Nat × Option Nat)) :=
  if !s.atHead h.u then waitHere s
  else
    let start := match h.q.park with | .flips l => l | _ => xs.map fun p => (p.1.l, none)
    let (t, sts) := lockLanes h.ctx f xs s.env.budget start s
    if sts.all fun p => p.2.isSome then .ok (t, sts)
    else .error (.stay (t.mapSeq h.u fun q => { q with park := .flips sts }))

def llockBody (o : Out) (m : MemOp) (h : Here) (s : State) : Body := do
  let xs ← laneAddrs h s m.pred [(m.base, .addr), (m.index, .w32)]
  readyResult h s o
  memBars h s true false
  let at_ := xs.map fun p => (p.1, memAddr m p.2)
  let (t, sts) ← lockSteps h at_ (lockLine h.ctx) s
  match at_.filter fun p => lookup? p.1.l sts == some (some lockPaged) with
  | [] => .ok (writeResults h o (at_.map fun p => (p.1, ((lookup? p.1.l sts).bind id).getD 0)) t)
  | p :: ps =>
    .error (.stay (takeFault h.u h.pc { cause := .page, addr := p.2, info := accInfo m.width.bytes false, after := false
                                        lanes := if h.isSlice then laneMask ((p :: ps).map (·.1)) else 0 } t))

def execLlock (o : Out) (m : MemOp) (s : State) : Host.Outcome State Fault Refusal := runInstr (llockBody o m) s

/-- Releases a line that the context holds. -/
def unlockLine (ctx a : Nat) (s : State) : State :=
  match s.stage1 ctx a with
  | none => s
  | some (_, ia) => s.setMem { s.mem with locks := s.mem.locks.filter fun e => !(e.1 == ctx && e.2.1 == ia / 128) }

def lunlockBody (m : MemOp) (h : Here) (s : State) : Body := do
  let xs ← laneAddrs h s m.pred [(m.base, .addr), (m.index, .w32)]
  memBars h s true false
  let (t, _) ← lockSteps h (xs.map fun p => (p.1, memAddr m p.2)) (fun a s => .status 0 (unlockLine h.ctx a s)) s
  .ok t

def execLunlock (m : MemOp) (s : State) : Host.Outcome State Fault Refusal := runInstr (lunlockBody m) s

/-- One value for every active lane, or for the unit's own register. -/
def writeOne (h : Here) (o : Out) (v : Nat) (s : State) : State :=
  if h.isSlice then
    let act := h.active s
    s.writeLanes h o false (h.lanes s) fun x => if act.contains x then some [resultCell o v] else none
  else s.writeUpper h o false [resultCell o v]

def lquotaBody (o : Out) (q : Bool) (h : Here) (s : State) : Body := do
  readyResult h s o
  .ok (writeOne h o (if q then bitsOf (s.cr h.ctx 0x32).toNat 0 16 else s.lockCount h.ctx % 2 ^ 32) s)

def execLquota (o : Out) (q : Bool) (s : State) : Host.Outcome State Fault Refusal := runInstr (lquotaBody o q) s

/-! ## Bias (R202, R275, R376) -/

/-- What one lane of `bias` finds: a status at once, or the page to flip. -/
inductive BiasLane
  | status (v : Nat)
  | flip (page : Nat)
  | prot
  | page
  deriving DecidableEq, Repr

def biasLane (ctx a : Nat) (toDev : Bool) (s : State) : BiasLane :=
  match s.stage1 ctx a with
  | none => .prot
  | some (r, ia) =>
    if !rightBias r then .prot
    else match s.stage2 ia with
      | .leaf pa _ _ _ =>
        let loc := localOf pa
        if !(s.ownChip pa && s.chip.mode == .cxl && s.chip.hdmBase.toNat ≤ loc &&
             loc < s.chip.hdmBase.toNat + s.chip.hdmSize.toNat) then .status 2
        else if s.mem.device.contains (loc / 65536) == toDev then .status 1
        else .flip (loc / 65536)
      | _ => .page

/-- Earlier accesses of the order to a page have performed, and none of them stands in a system queue (R202, R275). -/
def State.pageQuiet (s : State) (u : UnitRef) (page : Nat) : Bool :=
  !((s.sqOf u).any fun e => e.key / 65536 == page) && s.atHead u &&
    !(s.mem.holes.any fun h => h.1 / 65536 == page && (s.ordered u).any fun a => a.id == h.2.1)

/-- Takes the lanes in ascending order until one has to wait for its flip. -/
def biasLanes (h : Here) (toDev : Bool) : List (LaneId × Nat) → List (Nat × Option Nat) → State → State × List (Nat × Option Nat)
  | [], xs, s => (s, xs)
  | (x, a) :: r, xs, s =>
    match (lookup? x.l xs).bind id with
    | some _ => biasLanes h toDev r xs s
    | none =>
      match biasLane h.ctx a toDev s with
      | .status v => biasLanes h toDev r (assign x.l (some v) xs) s
      | .flip p =>
        if s.qs.flips.any fun f => f.unit == h.u then (s, xs)
        else if !s.pageQuiet h.u p then (s, xs)
        else (s.setQs { s.qs with flips := s.qs.flips ++ [{ unit := h.u, lane := x.l, page := p, toDev := toDev }] }, xs)
      | _ => (s, xs)

def biasBody (o : Out) (a : Src) (toDev : Bool) (h : Here) (s : State) : Body := do
  let xs ← laneAddrs h s 7 [(a, .addr)]
  readyResult h s o
  memBars h s true false
  let at_ := xs.map fun p => (p.1, p.2.headD 0)
  let start := match h.q.park with | .flips l => l | _ => xs.map fun p => (p.1.l, none)
  let undone := at_.filter fun p => ((lookup? p.1.l start).bind id).isNone
  let bad (k : BiasLane) := undone.filter fun p => biasLane h.ctx p.2 toDev s == k
  let trap (c : Cause) (ps : List (LaneId × Nat)) : Trap :=
    { cause := c, addr := (ps.head?.map (·.2)).getD 0, info := accInfo 8 false, after := false
      lanes := if h.isSlice then laneMask (ps.map (·.1)) else 0 }
  if bad .prot ≠ [] then .error (.trap (trap .prot (bad .prot)))
  else if bad .page ≠ [] then
    pageStop h s (((bad .page).head?.bind fun p => s.stage1 h.ctx p.2).map (·.2) |>.getD 0) 0 (trap .page (bad .page))
  else
    let (t, sts) := biasLanes h toDev at_ start s
    if sts.all fun p => p.2.isSome then
      .ok (writeResults h o (at_.map fun p => (p.1, ((lookup? p.1.l sts).bind id).getD 0)) t)
    else .error (.stay (t.mapSeq h.u fun q => { q with park := .flips sts }))

def execBiasDev (o : Out) (a : Src) (s : State) : Host.Outcome State Fault Refusal := runInstr (biasBody o a true) s
def execBiasHost (o : Out) (a : Src) (s : State) : Host.Outcome State Fault Refusal := runInstr (biasBody o a false) s

/-- Sets the bias of a page: host caches give up its lines, and every captured copy of them goes (R275, R376). -/
def State.setBias (s : State) (page : Nat) (toDev : Bool) : State :=
  let off (line : Nat) : Bool := line / 512 != page
  let s1 := s.setMem { s.mem with
    device := if toDev then insertSorted page s.mem.device else s.mem.device.filter (· != page) }
  let s1 := if toDev then ((s.mem.hcc.map (·.1)).filter fun l => l / 1024 == page).foldl State.hccEvict s1 else s1
  s1.setQs { s1.qs with ycap := s1.qs.ycap.filter fun e => off e.2.1 }

/-! ## Steps of the memory side -/

/-- The next lane of an access that has yet to take its place. -/
def Access.nextLane (a : Access) : Option (LaneAcc × Nat) := a.lanes.zipIdx.find? fun p => LaneAcc.blocks a p.1

/-- One more lane of an access where `ok` allows it. -/
def performIf (id : Nat) (ok : Access → LaneAcc → Bool) (s : State) : State :=
  match (s.access? id).bind fun a => a.nextLane.map fun p => ok a p.1 with
  | some true => (performNext s id).getD s
  | _ => s

/-- Late data. -/
def LaneAcc.lateData (y : LaneAcc) : Bool := y.data.any fun c => c.sym?.isSome

/-- ACCESS_QUEUE_ISSUE: an access in the queue takes its place once its address is known (R186, R188). -/
def execAccessQueueIssue (a : Nat) (s : State) : Host.Outcome State Fault Refusal :=
  .next (performIf a (fun _ _ => true) s)

/-- HOME_SLICE_WRITE: a write performs at its home slice, and the monitors on its line are re-evaluated (R260). -/
def execHomeSliceWrite (a : Nat) (s : State) : Host.Outcome State Fault Refusal :=
  .next (performIf a (fun x y => x.kind.isWrite && !y.lateData) s)

/-- The bytes of a late-data store that no later store has written over (R187). -/
def fillHole (a : Access) (i : Nat) (y : LaneAcc) (s : State) : State :=
  match cellsBytes y.data y.size with
  | none => s
  | some bs =>
    let mine := s.mem.holes.filter fun h => h.2.1 == a.id && h.2.2.1 == i
    let met := match mine with | [] => [] | h :: _ => s.metEntries (h.1 - h.2.2.2) y.size
    let s1 := (s.setMem { s.mem with
      stale := if met = [] then s.mem.stale else met ++ s.mem.stale
      bytes := mine.foldl (fun m h => writeByte h.1 (bs.getD h.2.2.2 0) m) s.mem.bytes
      holes := s.mem.holes.filter fun h => !(h.2.1 == a.id && h.2.2.1 == i) }).mapLane a.id i fun x => { x with st := .done }
    match mine with
    | [] => s1
    | h :: _ => (s1.markDraft y.mark (h.1 - h.2.2.2) y.size).wakeAt (h.1 - h.2.2.2) y.size

/-- QUEUED_STORE_PERFORM: a store queued with late data performs once the data is known (R187). -/
def execQueuedStorePerform (a : Nat) (s : State) : Host.Outcome State Fault Refusal :=
  match s.access? a with
  | none => .next s
  | some x =>
    match x.lanes.zipIdx.find? fun p => p.1.st == .hole && !p.1.lateData with
    | some (y, i) => .next (fillHole x i y s)
    | none => .next (performIf a (fun x y => x.kind.isWrite && !y.lateData) s)

/-- Frees a symbol; the access that fed it is over, with its counters (R90, R190). -/
def freeFeed (x : Sym) (s : State) : State :=
  match x.accessId?.bind s.access? with
  | some a => s.dropAcc a
  | none => s

/-- SYMBOL_RESOLVE: the value of a symbol arrives, or a poisoned symbol to which nothing refers is freed (R94, R95). -/
def execSymbolResolve (q n : Nat) (s : State) : Host.Outcome State Fault Refusal :=
  match s.sym? q n with
  | none => .next s
  | some x =>
    if s.inFrame (.block x.b) then .next s else
    match x.poison with
    | some _ =>
      if s.symUsed q n then .next s
      else .next (freeFeed x (s.setSyms (s.syms.filter fun y => !(y.q == q && y.sym == n))))
    | none =>
      let arrived : Bool := match x.feed with
        | .access id => (match s.access? id with | some a => a.lanes.all fun y => y.st == .done | none => false)
        | .tickets b ls => (match s.blk? b with | some k => ls.all fun p => k.ticketFinal p.2 | none => false)
      if arrived then .next (freeFeed x (s.resolveSym x)) else .next s

/-- A line of an operand that a block sequencer reads (R161, R167). -/
def Access.isMatrixLine (a : Access) : Bool := a.unit.rank == 3 && a.kind == .load && a.width == 128

/-- A line of an operand arrives with an uncorrectable error (R161). -/
def lostLine (a : Access) (i : Nat) (s : State) : State :=
  match performNext s a.id with
  | none => s
  | some t => t.mapLane a.id i fun y => { y with lost := y.st == .done || y.st == .queued }

/-- MEMORY_ACCESS_COMPLETE: an access without a late value is over once every lane has performed, and its counters fall
(R190); or the data that its next lane reads has an uncorrectable error (R180, R189); or the target chip refuses the load of
its next lane (R382). -/
def execMemoryAccessComplete (a : Nat) (dataErr refused : Bool) (s : State) : Host.Outcome State Fault Refusal :=
  match s.access? a with
  | none => .next s
  | some x =>
    if dataErr || refused then
      (match x.nextLane with
       | some (y, i) =>
         let peer : Bool := match y.tgt with
           | .inter ia => (match s.route ia false with | .sys (.peer _) _ => !x.kind.isWrite | _ => false)
           | _ => false
         if !x.isMatrixLine && x.kind.need.reads && y.st == .todo && !(s.earlier x).any Access.blocks && (dataErr || peer) then
           .next (s.failLane x i (if dataErr then .dataerr else .isolation))
         else if x.isMatrixLine && dataErr then .next (lostLine x i s)
         else .next s
       | none => .next s)
    else if !x.returns && s.accDone x then .next (s.dropAcc x)
    else .next s

end Sys2Proof.Machine
end

