-- ==== Sys2Proof/Machine/Bank.lean ====
section
/-! DEFINITION. The bank class: slots, the free pool, `give` and its drain, mirror designation and the share table, and the
items of a frame that the part keeps up to date (10_banks R203 to R223, 16_system R345, R348). -/

namespace Sys2Proof.Machine

/-! ## The open values -/

/-- The next free value (DESIGN CHOICE log 20). -/
def State.nextFree (s : State) : Nat := (Config.freeValue s.env.ctr).toNat
def State.spendFree (s : State) : State := s.setEnv { s.env with ctr := s.env.ctr + 1 }

/-! ## Registers of slots (R204, R218) -/

/-- BMs. -/
def Slot.word (x : Slot) : Nat :=
  x.mirror.toNat * 2 ^ 31 + x.shared.toNat * 2 ^ 30 + x.shidx % 64 * 2 ^ 24 + x.gen % 256 * 2 ^ 16 + x.ro.toNat * 2 ^ 10 +
    x.st % 4 * 2 ^ 8 + x.bank % 64

/-- The block bank word. -/
def Blk.bankWord (x : Blk) : Nat :=
  (match x.mirrorSlot with | some p => 2 ^ 31 + p.1 * 2 ^ 24 | none => x.mslot % 16 * 2 ^ 24) +
    (x.slots.filter fun sl => sl.st == 1 || sl.st == 3).length * 2 ^ 16 + x.mdrop.toNat

def Blk.setSlot (n : Nat) (f : Slot → Slot) (x : Blk) : Blk :=
  { x with slots := x.slots.mapIdx fun i sl => if i = n then f sl else sl }

def Slot.empty : Slot :=
  { mirror := false, shared := false, shidx := 0, gen := 0, ro := false, st := 0, bank := 0, target := none }

/-- A slot enters attached (R205). -/
def Slot.attach (bank : Nat) (ro : Bool) (x : Slot) : Slot :=
  { x with st := 1, bank := bank, ro := ro, gen := (x.gen + 1) % 256, mirror := false, shared := false, target := none }

/-! ## Items 10 and 11 of a frame (R345, R348) -/

/-- `cr.eng` (R227). -/
def Blk.eng (x : Blk) : Nat :=
  x.frozen.toNat * 2 ^ 31 + (x.cmds.filter (·.st == 0)).length % 256 * 2 ^ 16 + x.nextSeq % 65536

/-- The token of a `barsync` arrival that a unit of the block has made on its barrier n, or on its gang's, and still waits for (R267). -/
def State.syncToken (s : State) (x : Blk) (gang : Bool) (n : Nat) : Option Nat :=
  (s.seqs.findSome? fun p =>
    if p.1.block? = some x.id then
      (match p.2.park, p.2.clause with
       | .barrier t, some c => (match (c.words[c.pos]?).map decode with
         | some (.ok (.barsync g k _)) => if g = gang ∧ k = n then some t else none
         | _ => none)
       | _, _ => none)
    else none)

/-- The flags of barrier n in item 10: [0] a token of the block's barrier, [1] one of the gang's, then held in [15:8] (DESIGN CHOICE log 12). -/
def State.syncFlags (s : State) (x : Blk) (n : Nat) : Nat :=
  (s.syncToken x false n).isSome.toNat + 2 * (s.syncToken x true n).isSome.toNat + 256 * ((s.syncToken x true n).getD 0 % 256)

/-- Item 10 of a block. -/
def State.item10 (s : State) (x : Blk) : List Byte :=
  ((List.range x.desc.groups).flatMap fun g => (List.range 4).map fun c => BitVec.ofNat 8 (s.ctrOf x.id g c)) ++
    leBytes 4 x.eng ++
    ((List.range 64).flatMap fun i => leBytes 4 (((x.cmds.drop (x.cmds.length - 64))[i]?.map fun c => x.ticketWord c.seq).getD 0)) ++
    ((List.range 16).flatMap fun n =>
      let b := x.bars.getD n { target := 0, arrived := 0, phase := 0 }
      leBytes 2 b.target ++ leBytes 2 b.arrived ++ leBytes 1 b.phase ++ leBytes 1 ((s.syncToken x false n).getD 0) ++
        leBytes 2 (s.syncFlags x n))

/-- Item 11 of a block. -/
def Blk.item11 (x : Blk) : List Byte :=
  ((List.range 16).flatMap fun n => leBytes 4 (x.slot n).word) ++ leBytes 4 x.bankWord

/-- Brings items 10 and 11 of a block's frame, and the part's copy, up to date with the block. -/
def State.syncFrame (b : Nat) (s : State) : State :=
  match s.blk? b, s.frameOf b with
  | some x, some f =>
    let s1 := if f.item10 = s.item10 x then s else s.patchItem10 f.fid f.ctx 0 (s.item10 x)
    if f.item11 = x.item11 then s1 else s1.patchItem11 f.fid f.ctx x.item11
  | _, _ => s

/-! ## The free pool (R203) -/

/-- A bank is bound to a slot of a block of the tiller. -/
def State.bankHeld (s : State) (t n : Nat) : Bool :=
  s.blks.any fun x => tillerOf x.core == t && x.slots.any fun sl => sl.st != 0 && sl.bank == n

def State.freeBanks (s : State) (t : Nat) : List Nat := (List.range Config.banksPerTiller).filter fun n => !s.bankHeld t n

/-- A bank that leaves a block for the free pool is zeroed. -/
def State.zeroBank (s : State) (t n : Nat) : State :=
  let lo := bankKey t n 0
  s.setMem { s.mem with bytes := s.mem.bytes.filter fun p => !(lo ≤ p.1 && p.1 < lo + Config.bankBytes) }

/-- A slot becomes detached: what BANK then reads is open (R204, DESIGN CHOICE log 20). -/
def State.detachSlot (s : State) (b n : Nat) : State :=
  let v := s.nextFree % 64
  (s.mapBlk b (Blk.setSlot n fun sl => { sl with st := 0, bank := v, target := none })).spendFree

/-! ## Operands (R213) -/

/-- A bank instruction's fault. -/
def bankTrap {α : Type} : Except Stop α := .error (trapC .bank)

def slotArg (v : Nat) : Except Stop Nat := if 15 < v then bankTrap else .ok v

/-! ## `battach` (R214) -/

def battachBody (o : Out) (slot : Src) (bank : Option Src) (h : Here) (s : State) : Body := do
  let ns ← upNums h s ((slot, .w32) :: (bank.toList.map fun b => (b, As.w32)))
  readyResult h s o
  let x ← blkHere h s
  let n ← slotArg (ns.headD 0)
  let named := (ns.drop 1).headD 0
  if bank.isSome && 63 < named then bankTrap
  else if (x.slot n).st ≠ 0 then bankTrap
  else
    let free := s.freeBanks (tillerOf x.core)
    match (if bank.isSome then free.find? (· == named) else free.head?) with
    | none => .ok (writeOne h o 0xFFFFFFFF s)
    | some k => .ok (writeOne h o k (s.mapBlk h.b (Blk.setSlot n (Slot.attach k false))))

def execBattach (o : Out) (slot : Src) (bank : Option Src) (s : State) : Host.Outcome State Fault Refusal :=
  runInstr (battachBody o slot bank) s

/-! ## Drains (R215, R216, R222) -/

/-- A byte lies in a bank. -/
def inBank (t n key : Nat) : Bool := bankKey t n 0 ≤ key && key < bankKey t n 0 + Config.bankBytes

/-- A lane of an access may still reach a bank through the block window. -/
def laneTouches (t n : Nat) (y : LaneAcc) : Bool :=
  match y.st with
  | .todo | .page _ | .hole => (match y.tgt with
    | .direct k => inBank t n k
    | .none => y.addr.isNone
    | _ => false)
  | _ => false

/-- A lane that failed was to reach the bank (R189): through its target, or through the slot its address names. -/
def laneFailedAt (x : Blk) (n bank : Nat) (y : LaneAcc) : Bool :=
  (match y.st with | .failed _ => true | _ => false) &&
    (match y.tgt with
     | .direct k => inBank (tillerOf x.core) bank k
     | _ => match y.addr with
       | some va => regionOf va == .block && (va - blockBase) / Config.bankBytes == n
       | none => true)

/-- The poisoned store record of a group that a `give` or `bdetach` takes: one that targets the bank (R215, R216), or one that keeps an
access of its group to the bank from performing, for which the drain would wait for ever (DEDUCED log 137). -/
def State.bankRecord (s : State) (x : Blk) (n bank : Nat) : Option Trap :=
  (s.qs.accs.find? fun a => a.unit.block? == some x.id && a.kind.isWrite && a.sym.isNone && a.dst.isNone && a.bad &&
    (a.lanes.any (laneFailedAt x n bank) ||
      (s.ordered a.unit).any fun b => a.id < b.id && b.lanes.any (laneTouches (tillerOf x.core) bank))).map fun a =>
        s.accTrap a (a.poison.getD (if a.paged then .page else .dataerr))

/-- Engine commands of a block that have not ended and read or write a bank, and engine writes that stand in its queue. -/
def State.engTouches (s : State) (x : Blk) (t n : Nat) : Bool :=
  (x.cmds.any fun c => c.st == 0 && (c.spans true ++ c.spans false).any fun p => inBank t n p.1) ||
  s.qs.eq.any fun e => e.b == x.id && inBank t n e.key

/-- Every earlier access and engine command of the block to a bank has performed (R216). -/
def State.bankDrained (s : State) (x : Blk) (bank : Nat) : Bool :=
  let t := tillerOf x.core
  !(s.qs.accs.any fun a => a.unit.block? == some x.id && a.lanes.any (laneTouches t bank)) &&
    !(s.mem.holes.any fun hl => inBank t bank hl.1 &&
      (match s.access? hl.2.1 with | some a => a.unit.block? == some x.id | none => false)) &&
    !s.engTouches x t bank

/-- Every tiller-window access of the gang to a bank has performed (R222). -/
def State.shareDrained (s : State) (g : Gang) (t n : Nat) : Bool :=
  !(s.qs.tq.any fun e => inBank t n e.key) &&
  !(s.qs.accs.any fun a => (match a.unit.block? with | some b => g.members.contains b | none => false) &&
    a.lanes.any fun y => (match y.st with | .todo | .page _ => true | _ => false) &&
      (match y.tgt with | .tiller k => inBank t n k | _ => false)) &&
  g.members.all fun b => match s.blk? b with | some x => !s.engTouches x t n | none => true

/-- The instruction waits for a drain. -/
def drainWait {α : Type} (h : Here) (n : Nat) (s : State) : Except Stop α := parkHere h (.bank n) s

/-- The tail of `bshare.off`: the entry is empty; SHARED is cleared once the bank's tiller-window accesses have performed. -/
def unshare (h : Here) (n : Nat) (s : State) : Except Stop State := do
  let x ← blkHere h s
  let sl := x.slot n
  if !sl.shared then .ok s
  else
    match s.gangOf h.b with
    | none => .ok s
    | some g =>
      let t := tillerOf x.core
      let s1 := s.mapGang g.launch g.no fun y => { y with share := y.share.filter fun e => !(e.1 == sl.shidx && e.2.1 == t && e.2.2.1 == sl.bank) }
      if s1.shareDrained g t sl.bank then
        .ok ((s1.mapBlk h.b (Blk.setSlot n fun y => { y with shared := false, shidx := s.nextFree % 64 })).spendFree)
      else drainWait h n s1

/-! ## `bdetach`, `give` (R215, R216) -/

/-- The slot that a bank instruction names; one that waits for its drain has read it. -/
def drainSlot (h : Here) (s : State) (srcs : List (Src × As)) : Except Stop (Nat × List Nat) :=
  match h.q.park with
  | .bank n => .ok (n, [])
  | _ => do
    let ns ← upNums h s srcs
    let n ← slotArg (ns.headD 0)
    .ok (n, ns)

def bdetachBody (slot : Src) (h : Here) (s : State) : Body := do
  let (n, ns) ← drainSlot h s [(slot, .w32)]
  let x ← blkHere h s
  let sl := x.slot n
  let begun := ns.isEmpty
  if begun && !(sl.st = 1 && sl.shared) then (if sl.st = 2 then drainWait h n s else .ok s)
  else if sl.st = 0 then .ok s
  else if sl.st = 3 then bankTrap
  else if sl.st = 2 then drainWait h n s
  else do
    match (if begun then none else s.bankRecord x n sl.bank) with
    | some t => .error (.trap t)
    | none => .ok ()
    let s1 ← unshare h n s
    drainWait h n (s1.mapBlk h.b fun y =>
      { (Blk.setSlot n (fun z => { z with mirror := false, st := 2, target := none }) y) with
        mslot := if sl.mirror then s1.nextFree % 16 else y.mslot }).spendFree

def execBdetach (slot : Src) (s : State) : Host.Outcome State Fault Refusal := runInstr (bdetachBody slot) s

/-- The member that a `give` names, where it may receive: in the gang, started, not retired, of this tiller (R216). -/
def State.giveTarget (s : State) (x : Blk) (m : Nat) : Option Blk :=
  ((s.gangOf x.id).bind fun g => g.members[m]?).bind s.blk? |>.bind fun y =>
    if (y.phase == .resident || y.phase == .framed) && tillerOf y.core == tillerOf x.core then some y else none

/-- A `give` that waits for its drain completes once the bank has moved (R216). -/
def giveDrained (o : Out) (n : Nat) (h : Here) (s : State) : Body := do
  let x ← blkHere h s
  if (x.slot n).st = 2 then .error (.stay s) else .ok (writeOne h o 0 s)

def giveBody (o : Out) (slot member tslot : Src) (ro : Bool) (h : Here) (s : State) : Body :=
  match h.q.park with
  | .bank n => giveDrained o n h s
  | _ => do
    let ns ← upNums h s [(slot, .w32), (member, .w32), (tslot, .w32)]
    readyResult h s o
    let x ← blkHere h s
    let n ← slotArg (ns.headD 0)
    let m := (ns.drop 1).headD 0
    let tn ← slotArg ((ns.drop 2).headD 0)
    let sl := x.slot n
    if x.desc.gang ≤ m then bankTrap
    else if sl.st ≠ 1 || sl.shared || sl.mirror then bankTrap
    else match s.giveTarget x m with
      | none => bankTrap
      | some y =>
        match s.bankRecord x n sl.bank with
        | some t => .error (.trap t)
        | none =>
          if (y.slot tn).st ≠ 0 then .ok (writeOne h o 1 s)
          else
            let s1 := (s.mapBlk y.id (Blk.setSlot tn fun z => { z with st := 3, bank := sl.bank, ro := sl.ro || ro })).syncFrame y.id
            drainWait h n (s1.mapBlk h.b (Blk.setSlot n fun z => { z with st := 2, target := some (y.id, tn) }))

def execGive (o : Out) (slot member tslot : Src) (ro : Bool) (s : State) : Host.Outcome State Fault Refusal :=
  runInstr (giveBody o slot member tslot ro) s

/-- BANK_DRAIN_COMPLETE: the bank arrives at the target's slot, or returns zeroed to the free pool (R203, R205, R207, R210). -/
def execBankDrainComplete (b slot : Nat) (s : State) : Host.Outcome State Fault Refusal :=
  match s.blk? b with
  | none => .next s
  | some x =>
    let sl := x.slot slot
    let shareOk : Bool := x.phase != .retired || (match s.gangOf b with | some g => s.shareDrained g (tillerOf x.core) sl.bank | none => true)
    if sl.st ≠ 2 || !s.bankDrained x sl.bank || !shareOk then .next s
    else
      let t := tillerOf x.core
      let s1 := s.detachSlot b slot
      match sl.target with
      | none => .next (s1.zeroBank t sl.bank)
      | some (tb, ts) =>
        match s.blk? tb with
        | none => .next (s1.zeroBank t sl.bank)
        | some y =>
          if y.phase == .retired then .next ((s1.detachSlot tb ts).zeroBank t sl.bank)
          else .next ((s1.mapBlk tb (Blk.setSlot ts fun z => Slot.attach sl.bank z.ro z)).syncFrame tb)

/-! ## `bwait`, `bstat`, `bzero` (R217 to R219) -/

def bwaitBody (o : Out) (slot : Src) (h : Here) (s : State) : Body := do
  let ns ← upNums h s [(slot, .w32)]
  readyResult h s o
  let x ← blkHere h s
  let n ← slotArg (ns.headD 0)
  if (x.slot n).st = 1 then .ok (writeOne h o (x.slot n).word s) else parkHere h .waiting s

def execBwait (o : Out) (slot : Src) (s : State) : Host.Outcome State Fault Refusal := runInstr (bwaitBody o slot) s

def bstatBody (o : Out) (slot : Option Src) (clr : Bool) (h : Here) (s : State) : Body := do
  let ns ← upNums h s (slot.toList.map fun x => (x, As.w32))
  readyResult h s o
  let x ← blkHere h s
  match slot with
  | some _ => do
    let n ← slotArg (ns.headD 0)
    .ok (writeOne h o (x.slot n).word s)
  | none =>
    let t := if clr then s.mapBlk h.b fun y => { y with mdrop := false } else s
    .ok (writeOne h o x.bankWord t)

def execBstat (o : Out) (slot : Option Src) (clr : Bool) (s : State) : Host.Outcome State Fault Refusal :=
  runInstr (bstatBody o slot clr) s

/-- The stores of `bzero`, in rising order. -/
def zeroLanes (x : Blk) (n : Nat) (sl : Slot) : List LaneAcc :=
  (List.range 4096).map fun i =>
    { g := 0, l := 0, addr := some (blockBase + n * Config.bankBytes + 32 * i), parts := [], disp := 0, size := 32,
      tgt := .direct (bankOf x sl.bank (32 * i)), mark := false, data := List.replicate 8 (.known 0), got := [], st := .todo }

def bzeroBody (slot : Src) (h : Here) (s : State) : Body :=
  match h.q.park with
  | .access id => storePlaced h s id
  | _ => do
    let ns ← upNums h s [(slot, .w32)]
    let x ← blkHere h s
    let n ← slotArg (ns.headD 0)
    let sl := x.slot n
    if sl.st ≠ 1 || sl.ro then bankTrap
    else if s.boardHit h.u (.direct (bankOf x sl.bank 0)) Config.bankBytes then waitHere s
    else storePlaced h (sendAccess h .store 32 0 none none (zeroLanes x n sl) s) s.env.fresh

def execBzero (slot : Src) (s : State) : Host.Outcome State Fault Refusal := runInstr (bzeroBody slot) s

/-! ## `bmirror`, `bshare` (R220 to R222) -/

def bmirrorBody (slot : Option Src) (h : Here) (s : State) : Body := do
  let ns ← upNums h s (slot.toList.map fun x => (x, As.w32))
  let x ← blkHere h s
  let clear (y : Blk) : Blk := { y with slots := y.slots.map fun z => { z with mirror := false } }
  match slot with
  | none =>
    if x.mirrorSlot.isNone then .ok s
    else .ok ((s.mapBlk h.b fun y => { clear y with mslot := s.nextFree % 16 }).spendFree)
  | some _ => do
    let n ← slotArg (ns.headD 0)
    let sl := x.slot n
    if sl.st ≠ 1 || sl.ro || sl.shared then bankTrap
    else .ok (s.mapBlk h.b fun y => Blk.setSlot n (fun z => { z with mirror := true }) (clear y))

def execBmirror (slot : Option Src) (s : State) : Host.Outcome State Fault Refusal := runInstr (bmirrorBody slot) s

def bshareBody (o : Out) (slot index : Src) (ro : Bool) (h : Here) (s : State) : Body := do
  let ns ← upNums h s [(slot, .w32), (index, .w32)]
  readyResult h s o
  let x ← blkHere h s
  let n ← slotArg (ns.headD 0)
  let i := (ns.drop 1).headD 0
  let sl := x.slot n
  if 63 < i || sl.st ≠ 1 || sl.shared || sl.mirror then bankTrap
  else match s.gangOf h.b with
    | none => bankTrap
    | some g =>
      if g.share.any fun e => e.1 == i then .ok (writeOne h o 1 s)
      else
        let s1 := s.mapGang g.launch g.no fun y => { y with share := y.share ++ [(i, tillerOf x.core, sl.bank, ro || sl.ro)] }
        .ok (writeOne h o 0 (s1.mapBlk h.b (Blk.setSlot n fun z => { z with shared := true, shidx := i })))

def execBshare (o : Out) (slot index : Src) (ro : Bool) (s : State) : Host.Outcome State Fault Refusal :=
  runInstr (bshareBody o slot index ro) s

def bshareOffBody (slot : Src) (h : Here) (s : State) : Body := do
  let (n, _) ← drainSlot h s [(slot, .w32)]
  unshare h n s

def execBshareOff (slot : Src) (s : State) : Host.Outcome State Fault Refusal := runInstr (bshareOffBody slot) s

end Sys2Proof.Machine
end

