-- ==== Sys2Proof/Machine/Float.lean ====
section
/-! DEFINITION. The floating-point class: arithmetic with deferral, comparison, conversion, dot products and the flag
instructions (06_float R116 to R130). -/

namespace Sys2Proof.Machine

/-! ## Results -/

/-- A result code with its flags; FS keeps the flags unchanged (R116). -/
def LaneRes.ofFlt (wide fs : Bool) (r : Nat × Nat) : LaneRes :=
  { cells := knownCells wide r.1, flags := if fs then 0 else r.2, carry := none }

def opFlt (wide fs : Bool) (f : List Nat → Nat × Nat) (vs : List Val) : Option LaneRes :=
  (allKnown vs).map fun ns => LaneRes.ofFlt wide fs (f ns)

def argN (ns : List Nat) (i : Nat) : Nat := ns.getD i 0

/-! ## Deferral (R117) -/

/-- What a lane defers: its late source's symbol, position, origin, part and depth, and its known operands. -/
structure Defers where
  q : Nat
  sym : Nat
  pos : Nat
  src : Option Nat
  part : Nat
  depth : Nat
  deriving DecidableEq, Repr

/-- Whether the values of a lane let the operation defer: exactly one late source, named once, that is a fresh form of the
right width or a chain of the type with depth 0 or 1. -/
def deferKey (t : FTy) (srcs : List (Src × As)) (vs : List Val) : Option Defers :=
  match (vs.zipIdx.filter fun p => p.1.isLate) with
  | [(v, i)] =>
    let once := match srcs[i]? with | some s => (srcs.filter fun x => x.1 == s.1).length == 1 | none => false
    if !once then none
    else match v.iform?, v.fchain? with
      | some f, _ =>
        if f.scale = 1 ∧ f.offset = 0 ∧ f.ext = .none ∧ f.wide = t.wide then
          some { q := f.q, sym := f.sym, pos := i, src := none, part := f.part, depth := 0 } else none
      | none, some c =>
        if c.ty = t ∧ c.depth ≤ 1 then
          some { q := c.q, sym := c.sym, pos := i, src := some c.idx, part := 0, depth := c.depth } else none
      | none, none => none
  | _ => none

/-- What a lane records: where its late operand comes from, and its known operands in source order. -/
def deferLane (x : LaneId) (vs : List Val) (k : Defers) : DefLane :=
  let ks := (vs.filter fun v => !v.isLate).map Val.num
  { b := x.b, g := x.g, l := x.l, pos := k.pos, src := k.src, part := k.part, x := BitVec.ofNat 64 (argN ks 0), y := BitVec.ofNat 64 (argN ks 1) }

/-- Distinct elements in order of first occurrence. -/
def distinct {α : Type} [BEq α] : List α → List α
  | [] => []
  | x :: r => x :: (distinct r).filter (· != x)

/-- Records a deferred instruction once for each symbol; answers its place in the symbol's list. -/
def recordDefs (op : DefOp) (t : FTy) (m : FMod) (w : Nat) (rows : List (LaneId × List Val × Defers)) :
    List (Nat × Nat) → State → State × List ((Nat × Nat) × Nat)
  | [], s => (s, [])
  | p :: r, s =>
    let d : Deferred := { op := op, ty := t, fm := m, word := w
                          lanes := (rows.filter fun x => (x.2.2.q, x.2.2.sym) == p).map fun x => deferLane x.1 x.2.1 x.2.2 }
    let n := ((s.sym? p.1 p.2).map (·.deferred.length)).getD 0
    let (s1, rest) := recordDefs op t m w rows r (s.mapSym p.1 p.2 fun x => { x with deferred := x.deferred ++ [d] })
    (s1, (p, n) :: rest)

/-- The symbols that record four deferred instructions already. -/
def overfull (s : State) (ps : List (Nat × Nat)) : List (Nat × Nat) :=
  ps.filter fun p => 4 ≤ ((s.sym? p.1 p.2).map (·.deferred.length)).getD 0

/-- `fadd`, `fsub`, `fmul` and `ffma` in a slice clause: each lane is judged by its own operands (DESIGN CHOICE log 131). -/
def deferSlice (dop : DefOp) (t : FTy) (m : FMod) (out : Out) (p : Nat) (srcs : List (Src × As))
    (op : List Val → Option LaneRes) (h : Here) (s : State) : Body := do
  if h.boundsOk (srcRegs srcs ++ outRegs out (if t.wide then 2 else 1)) then .ok () else .error (trapC .regbound)
  let ins ← readLanes s h (h.execLanes s p) srcs
  let late := ins.flatMap fun r =>
    (if r.2.any Val.isLate && (deferKey t srcs r.2).isNone then r.2.flatMap Val.syms else []) ++ s.splitSyms out t.wide r.1
  if late ≠ [] then waitSyms s h.u late
  else
    let rows := ins.filterMap fun r => (deferKey t srcs r.2).map fun k => (r.1, r.2, k)
    let syms := distinct (rows.map fun r => (r.2.2.q, r.2.2.sym))
    let full := overfull s syms
    if full ≠ [] then waitSyms s h.u full
    else
      let (s1, places) := recordDefs dop t m (h.c.words.getD h.c.pos 0) rows syms s
      let val (x : LaneId) : Option LaneRes :=
        match rows.find? fun r => r.1 == x with
        | some r => some { cells := chainCells { q := r.2.2.q, sym := r.2.2.sym, ty := t, depth := r.2.2.depth + 1,
                                                 idx := (lookup? (r.2.2.q, r.2.2.sym) places).getD 0 }, flags := 0, carry := none }
        | none => (ins.find? fun r => r.1 == x).bind fun r => op r.2
      let t1 := s1.writeLanes h out t.wide (h.lanes s) fun x => (val x).map (·.cells)
      .ok (ins.foldl (fun u r => u.orFsr r.1 (((val r.1).map (·.flags)).getD 0)) t1)

/-- The four instructions that defer. -/
def vDefer (dop : DefOp) (o : Out) (p : Nat) (t : FTy) (m : FMod) (srcs : List Src) (f : List Nat → Nat × Nat) (s : State) :
    Host.Outcome State Fault Refusal :=
  runInstr (fun h s =>
    let xs := srcs.map fun x => (x, As.flt t)
    if h.isSlice then deferSlice dop t m o p xs (opFlt t.wide m.fs f) h s
    else laneUpper o t.wide p xs 7 (opFlt t.wide m.fs f) h s) s

/-- The other instructions of the class. -/
def vFlt (o : Out) (wide : Bool) (p : Nat) (srcs : List (Src × As)) (fs : Bool) (f : List Nat → Nat × Nat) (s : State) :
    Host.Outcome State Fault Refusal := runInstr (laneInstr o wide p srcs 7 (opFlt wide fs f)) s

/-- The i-th operand read in a type. -/
def fv (t : FTy) (ns : List Nat) (i : Nat) : FV := (FFmt.of t).read (argN ns i)

/-! ## Arithmetic (R121 to R124) -/

def execFadd (o : Out) (p : Nat) (t : FTy) (m : FMod) (a b : Src) (s : State) : Host.Outcome State Fault Refusal :=
  vDefer .add o p t m [a, b] (fun ns => fltAdd (.of t) m (fv t ns 0) (fv t ns 1)) s

def execFsub (o : Out) (p : Nat) (t : FTy) (m : FMod) (a b : Src) (s : State) : Host.Outcome State Fault Refusal :=
  vDefer .sub o p t m [a, b] (fun ns => fltSub (.of t) m (fv t ns 0) (fv t ns 1)) s

def execFmul (o : Out) (p : Nat) (t : FTy) (m : FMod) (a b : Src) (s : State) : Host.Outcome State Fault Refusal :=
  vDefer .mul o p t m [a, b] (fun ns => fltMul (.of t) m (fv t ns 0) (fv t ns 1)) s

def execFfma (o : Out) (p : Nat) (t : FTy) (m : FMod) (a b c : Src) (s : State) : Host.Outcome State Fault Refusal :=
  vDefer .fma o p t m [a, b, c] (fun ns => fltFma (.of t) m (fv t ns 0) (fv t ns 1) (fv t ns 2)) s

def execFmin (o : Out) (p : Nat) (t : FTy) (fs : Bool) (a b : Src) (s : State) : Host.Outcome State Fault Refusal :=
  vFlt o t.wide p [(a, .flt t), (b, .flt t)] fs (fun ns => fltMinMax (.of t) false (argN ns 0) (argN ns 1)) s

def execFmax (o : Out) (p : Nat) (t : FTy) (fs : Bool) (a b : Src) (s : State) : Host.Outcome State Fault Refusal :=
  vFlt o t.wide p [(a, .flt t), (b, .flt t)] fs (fun ns => fltMinMax (.of t) true (argN ns 0) (argN ns 1)) s

/-- The code of a type's width, without its sign. -/
def fltAbs (f : FFmt) (w : Nat) : Nat := w % f.signBit
/-- The code with its sign inverted. -/
def fltNeg (f : FFmt) (w : Nat) : Nat := (w % (2 * f.signBit)) ^^^ f.signBit

def execFabs (o : Out) (p : Nat) (t : FTy) (a : Src) (s : State) : Host.Outcome State Fault Refusal :=
  vFlt o t.wide p [(a, .flt t)] true (fun ns => (fltAbs (.of t) (argN ns 0), 0)) s

def execFneg (o : Out) (p : Nat) (t : FTy) (a : Src) (s : State) : Host.Outcome State Fault Refusal :=
  vFlt o t.wide p [(a, .flt t)] true (fun ns => (fltNeg (.of t) (argN ns 0), 0)) s

/-! ## Comparison and class (R125, R126) -/

def vFcmp (o : Out) (p : Nat) (t : FTy) (fs : Bool) (a b : Src) (r : FRel) (s : State) : Host.Outcome State Fault Refusal :=
  vFlt o false p [(a, .flt t), (b, .flt t)] fs (fun ns => let c := fltCmp r (fv t ns 0) (fv t ns 1); (c.1.toNat, c.2)) s

def execFcmpEq (o : Out) (p : Nat) (t : FTy) (fs : Bool) (a b : Src) (s : State) : Host.Outcome State Fault Refusal :=
  vFcmp o p t fs a b .eq s

def execFcmpNe (o : Out) (p : Nat) (t : FTy) (fs : Bool) (a b : Src) (s : State) : Host.Outcome State Fault Refusal :=
  vFcmp o p t fs a b .ne s

def execFcmpLt (o : Out) (p : Nat) (t : FTy) (fs : Bool) (a b : Src) (s : State) : Host.Outcome State Fault Refusal :=
  vFcmp o p t fs a b .lt s

def execFcmpLe (o : Out) (p : Nat) (t : FTy) (fs : Bool) (a b : Src) (s : State) : Host.Outcome State Fault Refusal :=
  vFcmp o p t fs a b .le s

def execFcmpGt (o : Out) (p : Nat) (t : FTy) (fs : Bool) (a b : Src) (s : State) : Host.Outcome State Fault Refusal :=
  vFcmp o p t fs a b .gt s

def execFcmpGe (o : Out) (p : Nat) (t : FTy) (fs : Bool) (a b : Src) (s : State) : Host.Outcome State Fault Refusal :=
  vFcmp o p t fs a b .ge s

def execFcmpUn (o : Out) (p : Nat) (t : FTy) (fs : Bool) (a b : Src) (s : State) : Host.Outcome State Fault Refusal :=
  vFcmp o p t fs a b .un s

def execFcmpOr (o : Out) (p : Nat) (t : FTy) (fs : Bool) (a b : Src) (s : State) : Host.Outcome State Fault Refusal :=
  vFcmp o p t fs a b .or s

def execFclass (o : Out) (p : Nat) (t : FTy) (a : Src) (s : State) : Host.Outcome State Fault Refusal :=
  vFlt o false p [(a, .flt t)] true (fun ns => (fltClass (.of t) (argN ns 0), 0)) s

/-! ## Correctly rounded functions (R121, R122) -/

def execFrcp (o : Out) (p : Nat) (t : FTy) (m : FMod) (a : Src) (s : State) : Host.Outcome State Fault Refusal :=
  vFlt o t.wide p [(a, .flt t)] m.fs (fun ns => fltRcp (.of t) m (fv t ns 0)) s

def execFrsq (o : Out) (p : Nat) (t : FTy) (m : FMod) (a : Src) (s : State) : Host.Outcome State Fault Refusal :=
  vFlt o t.wide p [(a, .flt t)] m.fs (fun ns => fltRsq (.of t) m (fv t ns 0)) s

def execFsqrt (o : Out) (p : Nat) (t : FTy) (m : FMod) (a : Src) (s : State) : Host.Outcome State Fault Refusal :=
  vFlt o t.wide p [(a, .flt t)] m.fs (fun ns => fltSqrt (.of t) m (fv t ns 0)) s

def execFdiv (o : Out) (p : Nat) (t : FTy) (m : FMod) (a b : Src) (s : State) : Host.Outcome State Fault Refusal :=
  vFlt o t.wide p [(a, .flt t), (b, .flt t)] m.fs (fun ns => fltDiv (.of t) m (fv t ns 0) (fv t ns 1)) s

def execFexp2 (o : Out) (p : Nat) (t : FTy) (m : FMod) (a : Src) (s : State) : Host.Outcome State Fault Refusal :=
  vFlt o t.wide p [(a, .flt t)] m.fs (fun ns => fltExp2 (.of t) m (fv t ns 0)) s

def execFlog2 (o : Out) (p : Nat) (t : FTy) (m : FMod) (a : Src) (s : State) : Host.Outcome State Fault Refusal :=
  vFlt o t.wide p [(a, .flt t)] m.fs (fun ns => fltLog2 (.of t) m (fv t ns 0)) s

def execFsin (o : Out) (p : Nat) (t : FTy) (m : FMod) (a : Src) (s : State) : Host.Outcome State Fault Refusal :=
  vFlt o t.wide p [(a, .flt t)] m.fs (fun ns => fltTrig false (.of t) m (fv t ns 0)) s

def execFcos (o : Out) (p : Nat) (t : FTy) (m : FMod) (a : Src) (s : State) : Host.Outcome State Fault Refusal :=
  vFlt o t.wide p [(a, .flt t)] m.fs (fun ns => fltTrig true (.of t) m (fv t ns 0)) s

def execFscale (o : Out) (p : Nat) (t : FTy) (m : FMod) (a n : Src) (s : State) : Host.Outcome State Fault Refusal :=
  vFlt o t.wide p [(a, .flt t), (n, .int .s32)] m.fs (fun ns => fltScale (.of t) m (fv t ns 0) (signedOf 32 (argN ns 1))) s

def execFround (o : Out) (p : Nat) (t : FTy) (rm : RM) (fs : Bool) (a : Src) (s : State) : Host.Outcome State Fault Refusal :=
  vFlt o t.wide p [(a, .flt t)] fs (fun ns => fltRound (.of t) rm (fv t ns 0)) s

/-! ## Conversions (R127, R128) -/

def execFcvt (o : Out) (p : Nat) (t : FTy) (m : FMod) (st : FTy) (a : Src) (s : State) : Host.Outcome State Fault Refusal :=
  vFlt o t.wide p [(a, .flt st)] m.fs (fun ns => fltCvt (.of t) m (fv st ns 0)) s

def execFcvti (o : Out) (p : Nat) (t : ITy) (rm : RM) (fs : Bool) (st : FTy) (a : Src) (s : State) : Host.Outcome State Fault Refusal :=
  vFlt o t.wide p [(a, .flt st)] fs (fun ns => fltToInt t rm (fv st ns 0)) s

def execFicvt (o : Out) (p : Nat) (t : FTy) (m : FMod) (st : ITy) (a : Src) (s : State) : Host.Outcome State Fault Refusal :=
  vFlt o t.wide p [(a, .int st)] m.fs (fun ns => fltOfInt (.of t) m (if st.signed then signedOf st.bits (argN ns 0) else (argN ns 0 : Int))) s

/-! ## Dot products (R129) -/

/-- Element `i` of a packed word. -/
def packedElem (f : FFmt) (bits w i : Nat) : FV := f.read (bitsOf w (bits * i) bits)

/-- The products of `n` packed elements, plus an f32. -/
def dotPacked (f : FFmt) (bits n : Nat) (m : FMod) (ns : List Nat) : Nat × Nat :=
  fltDot (.of .f32) m ((List.range n).map fun i => (packedElem f bits (argN ns 0) i, packedElem f bits (argN ns 1) i))
    ((FFmt.of .f32).read (argN ns 2))

/-- An element of an 8-bit type with a NaN read as quiet (R129). -/
def quiet : FV → FV | .nan _ => .nan false | x => x

def dotPacked8 (f : FFmt) (m : FMod) (ns : List Nat) : Nat × Nat :=
  fltDot (.of .f32) m ((List.range 4).map fun i => (quiet (packedElem f 8 (argN ns 0) i), quiet (packedElem f 8 (argN ns 1) i)))
    ((FFmt.of .f32).read (argN ns 2))

def execFdot2 (o : Out) (p : Nat) (bf : Bool) (m : FMod) (a b c : Src) (s : State) : Host.Outcome State Fault Refusal :=
  vFlt o false p [(a, .packed), (b, .packed), (c, .flt .f32)] m.fs (dotPacked (.of (if bf then .bf16 else .f16)) 16 2 m) s

def execFdot4 (o : Out) (p : Nat) (t : F8Ty) (m : FMod) (a b c : Src) (s : State) : Host.Outcome State Fault Refusal :=
  vFlt o false p [(a, .packed), (b, .packed), (c, .flt .f32)] m.fs (dotPacked8 (.of8 t) m) s

/-! ## The flag instructions (R119, R130) -/

/-- The symbols with deferred instructions that executed in some of the lanes. -/
def State.deferSyms (s : State) (lanes : List LaneId) : List (Nat × Nat) :=
  (s.syms.filter fun x => x.deferred.any fun d => d.lanes.any fun y => lanes.contains ⟨y.b, y.g, y.l⟩).map fun x => (x.q, x.sym)

/-- `flgrd` waits for the deferred instructions of its active lanes, as `flgclr` and `flgset` do (DESIGN CHOICE log 132). -/
def flgrdBody (o : Out) (h : Here) (s : State) : Body := do
  if h.boundsOk (outRegs o 1) then .ok () else .error (trapC .regbound)
  let act := h.active s
  let late := s.deferSyms act ++ act.flatMap (s.splitSyms o false)
  if late ≠ [] then waitSyms s h.u late
  else .ok (s.writeLanes h o false (h.lanes s) fun x => if act.contains x then some [.known (s.fsr x)] else none)

/-- Clears or sets flags by a mask (DESIGN CHOICE log 132). -/
def flagMask (f : Word → Word → Word) (mask : Src) (h : Here) (s : State) : Body := do
  if h.boundsOk (srcRegs [(mask, .w32)]) then .ok () else .error (trapC .regbound)
  let act := h.active s
  let ins ← readLanes s h act [(mask, .w32)]
  let late := s.deferSyms act ++ ins.flatMap fun r => r.2.flatMap Val.syms
  if late ≠ [] then waitSyms s h.u late
  else .ok (ins.foldl (fun t r =>
    let k := BitVec.ofNat 32 ((r.2.head?.map Val.num).getD 0 % 32)
    t.setWord (.fsr r.1.b r.1.g r.1.l) (f (s.fsr r.1) k)) s)

def execFlgrd (o : Out) (s : State) : Host.Outcome State Fault Refusal :=
  runInstr (flgrdBody o) s

def execFlgclr (mask : Src) (s : State) : Host.Outcome State Fault Refusal :=
  runInstr (flagMask (fun w k => w &&& ~~~ k) mask) s

def execFlgset (mask : Src) (s : State) : Host.Outcome State Fault Refusal :=
  runInstr (flagMask (fun w k => w ||| k) mask) s

end Sys2Proof.Machine
end

