-- ==== Sys2Proof/Machine/Integer.lean ====
section
/-! DEFINITION. The integer class: arithmetic, shifts, bit fields, comparisons, immediate forms, predicates, index registers and
the inspection of late values, with the transforms of integer forms (05_integer R91, R92, R98 to R107). -/

namespace Sys2Proof.Machine

/-! ## Exact results (R98 to R102) -/

/-- The number a code of a type stands for. -/
def ITy.val (t : Sys2Proof.ITy) (v : Nat) : Int := if t.signed then signedOf t.bits v else v

/-- `shl` by 128 or more already gives what every larger count gives: 0, or the clamp. -/
def shlCap (b : Nat) : Nat := min b 128

/-- Quotient and remainder (R99). -/
def divRem (t : Sys2Proof.ITy) (a b : Nat) : Int × Int :=
  let x := ITy.val t a
  let y := ITy.val t b
  if b = 0 then (((2 ^ t.bits : Nat) : Int) - 1, x)
  else (x.tdiv y, x.tmod y)

/-- Bits of a word as a list of positions that are set. -/
def popCount (w v : Nat) : Nat := ((List.range w).filter fun i => v.testBit i).length
def leadingZeros (w v : Nat) : Nat := if v = 0 then w else w - 1 - Nat.log2 v
def bitReverse (w v : Nat) : Nat := (List.range w).foldl (fun n i => if v.testBit i then n + 2 ^ (w - 1 - i) else n) 0
def rotLeft (w v k : Nat) : Nat := (v * 2 ^ (k % w)) % 2 ^ w + v / 2 ^ (w - k % w)

/-- A field of `len` bits read as the type says. -/
def fieldVal (t : Sys2Proof.ITy) (len v : Nat) : Int := if t.signed then signedOf len v else v

/-- `bfx` (R100). -/
def bitExtract (t : Sys2Proof.ITy) (a spec : Nat) : Int :=
  let pos := spec % 256
  let len := spec / 256 % 256
  if t.bits ≤ pos ∨ len = 0 then 0
  else fieldVal t (min len (t.bits - pos)) (bitsOf a pos (min len (t.bits - pos)))

/-- `bfi` (R100). -/
def bitInsert (w a b spec : Nat) : Nat :=
  let pos := spec % 256
  let len := min (spec / 256 % 256) (w - pos)
  if w ≤ pos ∨ spec / 256 % 256 = 0 then a
  else a - bitsOf a pos len * 2 ^ pos + b % 2 ^ len * 2 ^ pos

/-- `ext` (R100). -/
def extendAt (t : Sys2Proof.ITy) (a n : Nat) : Int :=
  if n = 0 then 0 else if t.bits ≤ n then ITy.val t a else fieldVal t n (a % 2 ^ n)

/-! ## Results from values -/

/-- The i-th value. -/
def arg (ns : List Nat) (i : Nat) : Nat := ns.getD i 0

/-- A result computed from known values, clamped where asked (R98). -/
def opInt (t : ITy) (sat : Bool) (f : List Nat → Int) (vs : List Val) : Option LaneRes :=
  (allKnown vs).map fun ns => LaneRes.of t.wide (writeInt t sat (f ns))

/-- A result of two operands read as the type says. -/
def opBin (t : ITy) (sat : Bool) (f : Int → Int → Int) : List Val → Option LaneRes :=
  opInt t sat fun ns => f (ITy.val t (arg ns 0)) (ITy.val t (arg ns 1))

/-- A result of one operand read as the type says. -/
def opUn (t : ITy) (sat : Bool) (f : Int → Int) : List Val → Option LaneRes := opInt t sat fun ns => f (ITy.val t (arg ns 0))

/-- A result on bits (R98). -/
def opBits (t : ITy) (f : List Nat → Nat) : List Val → Option LaneRes := opInt t false fun ns => (f ns : Int)

/-- A comparison writes 1 or 0; a predicate takes it as a bit. -/
def opCmp (o : Out) (t : ITy) (f : Int → Int → Bool) (vs : List Val) : Option LaneRes :=
  (allKnown vs).map fun ns =>
    LaneRes.of (t.wide && (match o.dst with | .pred _ => false | _ => true))
      (if f (ITy.val t (arg ns 0)) (ITy.val t (arg ns 1)) then 1 else 0)

/-! ## Transforms of forms (R91, R92) -/

/-- A form with new SCALE and OFFSET, modulo 2^w; TYPE changes in a V-format transform. -/
def IForm.remake (f : IForm) (t : Option ITy) (scale offset : Int) : IForm :=
  let w := if f.wide then 64 else 32
  { f with scale := BitVec.ofNat 64 (wrapInt w scale), offset := BitVec.ofNat 64 (wrapInt w offset), ty := t.getD f.ty }

def IForm.a (f : IForm) : Int := f.scale.toNat
def IForm.b (f : IForm) : Int := f.offset.toNat

/-- Two forms that may be combined. -/
def IForm.like (f g : IForm) : Bool := f.q == g.q && f.sym == g.sym && f.ext == g.ext && f.part == g.part && f.wide == g.wide

/-- A form as a lane's result. -/
def LaneRes.ofForm (f : IForm) : LaneRes := { cells := formCells f, flags := 0, carry := none }

/-- `add`, with `sign` -1 for `sub`: a form and a known value, or two forms of one symbol. -/
def addForms (t : Option ITy) (sign : Int) : List Val → Option LaneRes
  | [x, y] =>
    match x.iform?, y.iform?, x, y with
    | some f, some g, _, _ => if f.like g then some (.ofForm (f.remake t (f.a + sign * g.a) (f.b + sign * g.b))) else none
    | some f, none, _, .known k => some (.ofForm (f.remake t f.a (f.b + sign * k)))
    | none, some g, .known k, _ => some (.ofForm (g.remake t (sign * g.a) (k + sign * g.b)))
    | _, _, _, _ => none
  | _ => none

/-- `mul`: a form and a known value. -/
def mulForms (t : Option ITy) : List Val → Option LaneRes
  | [x, y] =>
    match x.iform?, y.iform?, x, y with
    | some f, none, _, .known k => some (.ofForm (f.remake t (f.a * k) (f.b * k)))
    | none, some g, .known k, _ => some (.ofForm (g.remake t (g.a * k) (g.b * k)))
    | _, _, _, _ => none
  | _ => none

/-- `shl`: a form by a known count below the width. -/
def shlForms (t : Option ITy) : List Val → Option LaneRes
  | [x, .known y] =>
    match x.iform? with
    | some f => if y < (if f.wide then 64 else 32) then
        some (.ofForm (f.remake t (f.a * ((2 ^ y : Nat) : Int)) (f.b * ((2 ^ y : Nat) : Int)))) else none
    | none => none
  | _ => none

def negForms (t : Option ITy) : List Val → Option LaneRes
  | [x] => x.iform?.map fun f => .ofForm (f.remake t (-f.a) (-f.b))
  | _ => none

/-- `mov` copies a form with the type of the instruction, and a chain as it is (R92, R117). -/
def movForms (t : ITy) : List Val → Option LaneRes
  | [x] =>
    match x.iform?, x.fchain? with
    | some f, _ => some (.ofForm (f.remake (some t) f.a f.b))
    | none, some c => some { cells := chainCells c, flags := 0, carry := none }
    | none, none => none
  | _ => none

/-- `lea` with a known base and shift (R92, R101). -/
def leaForms (t : ITy) : List Val → Option LaneRes
  | [.known base, x, .known sh] =>
    let c : Int := ((2 ^ (sh % 64) : Nat) : Int)
    match x.iform? with
    | some f =>
      if f.wide then some (.ofForm (f.remake (some t) (f.a * c) (base + f.b * c)))
      else if f.a = 1 ∧ f.b = 0 ∧ f.ext = .none then
        some (.ofForm (IForm.remake { f with wide := true, ext := if t.signed then .sign else .zero }
          (some (if t.signed then .s64 else .z64)) c base))
      else none
    | none => none
  | _ => none

/-- Immediate `lea` of a 64-bit form. -/
def leaImmForms (imm : Int) : List Val → Option LaneRes
  | [x] => match x.iform? with
    | some f => if f.wide then some (.ofForm (f.remake none f.a (f.b + imm))) else none
    | none => none
  | _ => none

/-- A transform where SAT is 0 and an operand is late, else the known result. -/
def orForms (sat : Bool) (forms known : List Val → Option LaneRes) (vs : List Val) : Option LaneRes :=
  if vs.any Val.isLate then (if sat then none else forms vs) else known vs

/-! ## V format (R98) -/

/-- The shape of most instructions of the class. -/
def vInt (o : Out) (p : Nat) (t : ITy) (srcs : List (Src × As)) (op : List Val → Option LaneRes) (s : State) :
    Host.Outcome State Fault Refusal := runInstr (laneInstr o t.wide p srcs 7 op) s

def execAdd (o : Out) (p : Nat) (t : ITy) (sat : Bool) (a b : Src) (s : State) : Host.Outcome State Fault Refusal :=
  vInt o p t [(a, .int t), (b, .int t)] (orForms sat (addForms (some t) 1) (opBin t sat fun x y => x + y)) s

def execSub (o : Out) (p : Nat) (t : ITy) (sat : Bool) (a b : Src) (s : State) : Host.Outcome State Fault Refusal :=
  vInt o p t [(a, .int t), (b, .int t)] (orForms sat (addForms (some t) (-1)) (opBin t sat fun x y => x - y)) s

def execMul (o : Out) (p : Nat) (t : ITy) (sat : Bool) (a b : Src) (s : State) : Host.Outcome State Fault Refusal :=
  vInt o p t [(a, .int t), (b, .int t)] (orForms sat (mulForms (some t)) (opBin t sat fun x y => x * y)) s

def execMulhi (o : Out) (p : Nat) (t : ITy) (a b : Src) (s : State) : Host.Outcome State Fault Refusal :=
  vInt o p t [(a, .int t), (b, .int t)] (opBin t false fun x y => x * y / ((2 ^ t.bits : Nat) : Int)) s

def execMad (o : Out) (p : Nat) (t : ITy) (sat : Bool) (a b c : Src) (s : State) : Host.Outcome State Fault Refusal :=
  vInt o p t [(a, .int t), (b, .int t), (c, .int t)] (opInt t sat fun ns => ITy.val t (arg ns 0) * ITy.val t (arg ns 1) + ITy.val t (arg ns 2)) s

def execDiv (o : Out) (p : Nat) (t : ITy) (a b : Src) (s : State) : Host.Outcome State Fault Refusal :=
  vInt o p t [(a, .int t), (b, .int t)] (opInt t false fun ns => (divRem t (arg ns 0) (arg ns 1)).1) s

def execRem (o : Out) (p : Nat) (t : ITy) (a b : Src) (s : State) : Host.Outcome State Fault Refusal :=
  vInt o p t [(a, .int t), (b, .int t)] (opInt t false fun ns => (divRem t (arg ns 0) (arg ns 1)).2) s

def execMin (o : Out) (p : Nat) (t : ITy) (a b : Src) (s : State) : Host.Outcome State Fault Refusal :=
  vInt o p t [(a, .int t), (b, .int t)] (opBin t false fun x y => min x y) s

def execMax (o : Out) (p : Nat) (t : ITy) (a b : Src) (s : State) : Host.Outcome State Fault Refusal :=
  vInt o p t [(a, .int t), (b, .int t)] (opBin t false fun x y => max x y) s

def execAbs (o : Out) (p : Nat) (t : ITy) (sat : Bool) (a : Src) (s : State) : Host.Outcome State Fault Refusal :=
  vInt o p t [(a, .int t)] (opUn t sat fun x => (x.natAbs : Int)) s

def execNeg (o : Out) (p : Nat) (t : ITy) (sat : Bool) (a : Src) (s : State) : Host.Outcome State Fault Refusal :=
  vInt o p t [(a, .int t)] (orForms sat (negForms (some t)) (opUn t sat fun x => -x)) s

def execAnd (o : Out) (p : Nat) (t : ITy) (a b : Src) (s : State) : Host.Outcome State Fault Refusal :=
  vInt o p t [(a, .int t), (b, .int t)] (opBits t fun ns => arg ns 0 &&& arg ns 1) s

def execOr (o : Out) (p : Nat) (t : ITy) (a b : Src) (s : State) : Host.Outcome State Fault Refusal :=
  vInt o p t [(a, .int t), (b, .int t)] (opBits t fun ns => arg ns 0 ||| arg ns 1) s

def execXor (o : Out) (p : Nat) (t : ITy) (a b : Src) (s : State) : Host.Outcome State Fault Refusal :=
  vInt o p t [(a, .int t), (b, .int t)] (opBits t fun ns => arg ns 0 ^^^ arg ns 1) s

def execAndn (o : Out) (p : Nat) (t : ITy) (a b : Src) (s : State) : Host.Outcome State Fault Refusal :=
  vInt o p t [(a, .int t), (b, .int t)] (opBits t fun ns => arg ns 0 &&& (2 ^ t.bits - 1 - arg ns 1)) s

def execNot (o : Out) (p : Nat) (t : ITy) (a : Src) (s : State) : Host.Outcome State Fault Refusal :=
  vInt o p t [(a, .int t)] (opBits t fun ns => 2 ^ t.bits - 1 - arg ns 0) s

def execShl (o : Out) (p : Nat) (t : ITy) (sat : Bool) (a b : Src) (s : State) : Host.Outcome State Fault Refusal :=
  vInt o p t [(a, .int t), (b, .w32)] (orForms sat (shlForms (some t)) (opInt t sat fun ns => ITy.val t (arg ns 0) * ((2 ^ shlCap (arg ns 1) : Nat) : Int))) s

def execShr (o : Out) (p : Nat) (t : ITy) (a b : Src) (s : State) : Host.Outcome State Fault Refusal :=
  vInt o p t [(a, .int t), (b, .w32)] (opBits t fun ns => arg ns 0 / 2 ^ min (arg ns 1) t.bits) s

def execSar (o : Out) (p : Nat) (t : ITy) (a b : Src) (s : State) : Host.Outcome State Fault Refusal :=
  vInt o p t [(a, .int t), (b, .w32)] (opInt t false fun ns => signedOf t.bits (arg ns 0) / ((2 ^ min (arg ns 1) (t.bits - 1) : Nat) : Int)) s

def execRot (o : Out) (p : Nat) (t : ITy) (a b : Src) (s : State) : Host.Outcome State Fault Refusal :=
  vInt o p t [(a, .int t), (b, .w32)] (opBits t fun ns => rotLeft t.bits (arg ns 0) (arg ns 1)) s

def execClz (o : Out) (p : Nat) (t : ITy) (a : Src) (s : State) : Host.Outcome State Fault Refusal :=
  vInt o p t [(a, .int t)] (opBits t fun ns => leadingZeros t.bits (arg ns 0)) s

def execPopc (o : Out) (p : Nat) (t : ITy) (a : Src) (s : State) : Host.Outcome State Fault Refusal :=
  vInt o p t [(a, .int t)] (opBits t fun ns => popCount t.bits (arg ns 0)) s

def execBrev (o : Out) (p : Nat) (t : ITy) (a : Src) (s : State) : Host.Outcome State Fault Refusal :=
  vInt o p t [(a, .int t)] (opBits t fun ns => bitReverse t.bits (arg ns 0)) s

def execBfx (o : Out) (p : Nat) (t : ITy) (a spec : Src) (s : State) : Host.Outcome State Fault Refusal :=
  vInt o p t [(a, .int t), (spec, .w32)] (opInt t false fun ns => bitExtract t (arg ns 0) (arg ns 1)) s

def execBfi (o : Out) (p : Nat) (t : ITy) (a b spec : Src) (s : State) : Host.Outcome State Fault Refusal :=
  vInt o p t [(a, .int t), (b, .int t), (spec, .w32)] (opBits t fun ns => bitInsert t.bits (arg ns 0) (arg ns 1) (arg ns 2)) s

def execExt (o : Out) (p : Nat) (t : ITy) (a n : Src) (s : State) : Host.Outcome State Fault Refusal :=
  vInt o p t [(a, .int t), (n, .w32)] (opInt t false fun ns => extendAt t (arg ns 0) (arg ns 1)) s

def execCsel (o : Out) (p : Nat) (t : ITy) (a b : Src) (c : Nat) (s : State) : Host.Outcome State Fault Refusal :=
  vInt o p t [(a, .int t), (b, .int t), (.pred c, .w32)] (opBits t fun ns => if arg ns 2 != 0 then arg ns 0 else arg ns 1) s

def execMov (o : Out) (p : Nat) (t : ITy) (a : Src) (s : State) : Host.Outcome State Fault Refusal :=
  vInt o p t [(a, .int t)] (orForms false (movForms t) (opBits t fun ns => arg ns 0)) s

/-- `lea`: a 64-bit result for every index type (R101). -/
def leaKnown (t : ITy) (vs : List Val) : Option LaneRes :=
  (allKnown vs).map fun ns =>
    LaneRes.of true (wrapInt 64 ((arg ns 0 : Int) + ITy.val t (arg ns 1) * ((2 ^ (arg ns 2 % 64) : Nat) : Int)))

/-- The 64-bit base of `lea`: a 32-bit latch or system value in it is extended by its sign where TYPE is s64, else by zeros, which R86
says for z64 only (DESIGN CHOICE log 127). -/
def baseAs (t : ITy) : As := if t = .s64 then .int .s64 else .addr

def execLea (o : Out) (p : Nat) (t : ITy) (base index shift : Src) (s : State) : Host.Outcome State Fault Refusal :=
  runInstr (laneInstr o true p [(base, baseAs t), (index, .int t), (shift, .w32)] 7 (orForms false (leaForms t) (leaKnown t))) s

/-- `addc` and `subb` read unsigned; the predicate takes the carry or the borrow (R102). -/
def addCarry (t : ITy) (vs : List Val) : Option LaneRes :=
  (allKnown vs).map fun ns =>
    let x : Int := (arg ns 0 : Int) + arg ns 1 + arg ns 2
    { LaneRes.of t.wide (wrapInt t.bits x) with carry := some (carryOut t x) }

def subBorrow (t : ITy) (vs : List Val) : Option LaneRes :=
  (allKnown vs).map fun ns =>
    let x : Int := (arg ns 0 : Int) - arg ns 1 - arg ns 2
    { LaneRes.of t.wide (wrapInt t.bits x) with carry := some (borrowOut x) }

def execAddc (o : Out) (p : Nat) (t : ITy) (a b : Src) (q : Nat) (s : State) : Host.Outcome State Fault Refusal :=
  runInstr (laneInstr o t.wide p [(a, .int t), (b, .int t), (.pred q, .w32)] q (addCarry t)) s

def execSubb (o : Out) (p : Nat) (t : ITy) (a b : Src) (q : Nat) (s : State) : Host.Outcome State Fault Refusal :=
  runInstr (laneInstr o t.wide p [(a, .int t), (b, .int t), (.pred q, .w32)] q (subBorrow t)) s

/-! ## Comparisons (R98) -/

/-- A comparison; its result has 64 bits for a 64-bit type unless it goes to a predicate. -/
def vCmp (o : Out) (p : Nat) (t : ITy) (a b : Src) (f : Int → Int → Bool) (s : State) : Host.Outcome State Fault Refusal :=
  runInstr (laneInstr o (t.wide && (match o.dst with | .pred _ => false | _ => true)) p [(a, .int t), (b, .int t)] 7 (opCmp o t f)) s

def execCmpEq (o : Out) (p : Nat) (t : ITy) (a b : Src) (s : State) : Host.Outcome State Fault Refusal :=
  vCmp o p t a b (fun x y => x == y) s

def execCmpNe (o : Out) (p : Nat) (t : ITy) (a b : Src) (s : State) : Host.Outcome State Fault Refusal :=
  vCmp o p t a b (fun x y => x != y) s

def execCmpLt (o : Out) (p : Nat) (t : ITy) (a b : Src) (s : State) : Host.Outcome State Fault Refusal :=
  vCmp o p t a b (fun x y => decide (x < y)) s

def execCmpLe (o : Out) (p : Nat) (t : ITy) (a b : Src) (s : State) : Host.Outcome State Fault Refusal :=
  vCmp o p t a b (fun x y => decide (x ≤ y)) s

def execCmpGt (o : Out) (p : Nat) (t : ITy) (a b : Src) (s : State) : Host.Outcome State Fault Refusal :=
  vCmp o p t a b (fun x y => decide (y < x)) s

def execCmpGe (o : Out) (p : Nat) (t : ITy) (a b : Src) (s : State) : Host.Outcome State Fault Refusal :=
  vCmp o p t a b (fun x y => decide (y ≤ x)) s

/-! ## Immediate forms (R103) -/

/-- An immediate form on 32 bits, in every executing lane. -/
def iInt (o : Out) (a : Src) (op : List Val → Option LaneRes) (s : State) : Host.Outcome State Fault Refusal :=
  runInstr (laneInstr o false 7 [(a, .w32)] 7 op) s

/-- The immediate beside the value read. -/
def withImm (imm : Nat) (vs : List Val) : List Val := vs ++ [.known imm]

def execAddImm (o : Out) (a : Src) (imm : BitVec 32) (s : State) : Host.Outcome State Fault Refusal :=
  iInt o a (fun vs => orForms false (addForms none 1) (opBin .z32 false fun x y => x + y) (withImm imm.toNat vs)) s

def execSubImm (o : Out) (a : Src) (imm : BitVec 32) (s : State) : Host.Outcome State Fault Refusal :=
  iInt o a (fun vs => orForms false (addForms none (-1)) (opBin .z32 false fun x y => x - y) (withImm imm.toNat vs)) s

def execMulImm (o : Out) (a : Src) (imm : BitVec 32) (s : State) : Host.Outcome State Fault Refusal :=
  iInt o a (fun vs => orForms false (mulForms none) (opBin .z32 false fun x y => x * y) (withImm imm.toNat vs)) s

def execAndImm (o : Out) (a : Src) (imm : BitVec 32) (s : State) : Host.Outcome State Fault Refusal :=
  iInt o a (fun vs => opBits .z32 (fun ns => arg ns 0 &&& arg ns 1) (withImm imm.toNat vs)) s

def execOrImm (o : Out) (a : Src) (imm : BitVec 32) (s : State) : Host.Outcome State Fault Refusal :=
  iInt o a (fun vs => opBits .z32 (fun ns => arg ns 0 ||| arg ns 1) (withImm imm.toNat vs)) s

def execXorImm (o : Out) (a : Src) (imm : BitVec 32) (s : State) : Host.Outcome State Fault Refusal :=
  iInt o a (fun vs => opBits .z32 (fun ns => arg ns 0 ^^^ arg ns 1) (withImm imm.toNat vs)) s

def execShlImm (o : Out) (a : Src) (imm : BitVec 5) (s : State) : Host.Outcome State Fault Refusal :=
  iInt o a (fun vs => orForms false (shlForms none) (opBits .z32 fun ns => arg ns 0 * 2 ^ arg ns 1) (withImm imm.toNat vs)) s

def execShrImm (o : Out) (a : Src) (imm : BitVec 5) (s : State) : Host.Outcome State Fault Refusal :=
  iInt o a (fun vs => opBits .z32 (fun ns => arg ns 0 / 2 ^ arg ns 1) (withImm imm.toNat vs)) s

def execSarImm (o : Out) (a : Src) (imm : BitVec 5) (s : State) : Host.Outcome State Fault Refusal :=
  iInt o a (fun vs => opInt .s32 false (fun ns => signedOf 32 (arg ns 0) / ((2 ^ arg ns 1 : Nat) : Int)) (withImm imm.toNat vs)) s

def execRotImm (o : Out) (a : Src) (imm : BitVec 5) (s : State) : Host.Outcome State Fault Refusal :=
  iInt o a (fun vs => opBits .z32 (fun ns => rotLeft 32 (arg ns 0) (arg ns 1)) (withImm imm.toNat vs)) s

def execMovi (o : Out) (imm : BitVec 32) (s : State) : Host.Outcome State Fault Refusal :=
  runInstr (laneInstr o false 7 [] 7 fun _ => some (LaneRes.of false imm.toNat)) s

/-- The base is extended by zeros (DESIGN CHOICE log 127). -/
def execLeaImm (o : Out) (base : Src) (imm : BitVec 32) (s : State) : Host.Outcome State Fault Refusal :=
  runInstr (laneInstr o true 7 [(base, .addr)] 7 (orForms false (leaImmForms imm.toInt)
    fun vs => (allKnown vs).map fun ns => LaneRes.of true (wrapInt 64 ((arg ns 0 : Int) + imm.toInt)))) s

/-! ## Predicates (R104) -/

/-- A bit operation on predicates. -/
def predOp (d p : Nat) (nwb : Bool) (srcs : List Nat) (f : List Nat → Nat) (s : State) : Host.Outcome State Fault Refusal :=
  runInstr (laneInstr ⟨.pred d, nwb⟩ false p (srcs.map fun n => (.pred n, .w32)) 7
    fun vs => (allKnown vs).map fun ns => LaneRes.of false (f ns)) s

def execPand (d p a b : Nat) (nwb : Bool) (s : State) : Host.Outcome State Fault Refusal :=
  predOp d p nwb [a, b] (fun ns => arg ns 0 &&& arg ns 1) s

def execPor (d p a b : Nat) (nwb : Bool) (s : State) : Host.Outcome State Fault Refusal :=
  predOp d p nwb [a, b] (fun ns => arg ns 0 ||| arg ns 1) s

def execPxor (d p a b : Nat) (nwb : Bool) (s : State) : Host.Outcome State Fault Refusal :=
  predOp d p nwb [a, b] (fun ns => arg ns 0 ^^^ arg ns 1) s

def execPnot (d p a : Nat) (nwb : Bool) (s : State) : Host.Outcome State Fault Refusal :=
  predOp d p nwb [a] (fun ns => 1 - arg ns 0) s

/-! ## Index registers (R87, R105) -/

/-- Sets the fields of index register `i` in a lane. -/
def setIndex (i : Nat) (valOnly : Bool) (x : LaneId) (ns : List Nat) (s : State) : State :=
  let s1 := s.setWord (.ixv x.b x.g x.l i) (BitVec.ofNat 32 (arg ns 0 % 65536))
  if valOnly then s1
  else (s1.setWord (.ixb x.b x.g x.l i) (BitVec.ofNat 32 (arg ns 1 % 1024))).setWord (.ixl x.b x.g x.l i)
    (BitVec.ofNat 32 (arg ns 2 % 65536))

def ixsetBody (i : Nat) (valOnly : Bool) (value base limit : Src) (h : Here) (s : State) : Body := do
  let srcs := if valOnly then [(value, As.w32)] else [(value, As.w32), (base, As.w32), (limit, As.w32)]
  if h.boundsOk (srcRegs srcs) then .ok () else .error (trapC .regbound)
  let ins ← readLanes s h (h.active s) srcs
  let late := ins.flatMap fun r => r.2.flatMap Val.syms
  if late ≠ [] then waitSyms s h.u late
  else .ok (ins.foldl (fun t r => setIndex i valOnly r.1 (r.2.map Val.num) t) s)

def ixgetBody (o : Out) (i sel : Nat) (h : Here) (s : State) : Body := do
  if h.boundsOk (outRegs o 1) then .ok () else .error (trapC .regbound)
  let act := h.active s
  let late := act.flatMap (s.splitSyms o false)
  let key (x : LaneId) : RegKey :=
    match sel with | 0 => .ixv x.b x.g x.l i | 1 => .ixb x.b x.g x.l i | _ => .ixl x.b x.g x.l i
  if late ≠ [] then waitSyms s h.u late
  else .ok (s.writeLanes h o false (h.lanes s) fun x => if act.contains x then some [s.cell (key x)] else none)

def execIxset (i : Nat) (valOnly : Bool) (value base limit : Src) (s : State) : Host.Outcome State Fault Refusal :=
  runInstr (ixsetBody i valOnly value base limit) s

def execIxget (o : Out) (i sel : Nat) (s : State) : Host.Outcome State Fault Refusal :=
  runInstr (ixgetBody o i sel) s

/-! ## Late values inspected (R106, R107) -/

def Ext.code : Ext → Nat | .none => 0 | .sign => 1 | .zero => 2

/-- Whether the symbol of a late value is poisoned. -/
def State.poisoned (s : State) (q n : Nat) : Bool := ((s.sym? q n).bind s.symCause).isSome

/-- What `symq` reads of a cell (R106); PART of a chain is 0 (DESIGN CHOICE log 129). -/
def symqWord (s : State) (sel : Nat) : Cell → Nat
  | .known w => (match sel with | 1 => 1 | 2 => w.toNat | _ => 0)
  | .form f _ =>
    (match sel with
     | 0 => 2 ^ 31 + (s.poisoned f.q f.sym).toNat * 2 ^ 30 + f.sym * 2 ^ 24 + 2 ^ 22 + f.ext.code * 2 ^ 18 + f.part * 16 +
              f.ty.code
     | 1 => f.scale.toNat % 2 ^ 32
     | 2 => f.offset.toNat % 2 ^ 32
     | 5 => f.scale.toNat / 2 ^ 32
     | _ => f.offset.toNat / 2 ^ 32)
  | .chain c _ =>
    (match sel with
     | 0 => 2 ^ 31 + (s.poisoned c.q c.sym).toNat * 2 ^ 30 + c.sym * 2 ^ 24 + 2 * 2 ^ 22 + c.depth * 2 ^ 20 + c.ty.code
     | _ => 0)

/-- The register of a lane that `symq` and `symw` name. -/
def symCell (s : State) (h : Here) (x : LaneId) : Src → Except Cause Cell
  | .vidx i o => (s.indexed h.desc.nregs x i o false).map fun n => s.cell (.vec x.b x.g x.l n)
  | .vreg n => .ok (s.cell (.vec x.b x.g x.l n))
  | _ => .ok (.known 0)

/-- The cells of the active lanes, or the operand fault. -/
def symCells (s : State) (h : Here) (a : Src) : Except Stop (List (LaneId × Cell)) :=
  let rs := (h.active s).map fun x => (x, symCell s h x a)
  match laneFault (rs.map fun p => (p.1, p.2.map fun _ => ([] : List Val))) with
  | some e => .error e
  | none => .ok (rs.filterMap fun p => match p.2 with | .ok c => some (p.1, c) | .error _ => none)

/-- The g register that a group clause names. -/
def symGroupCell (s : State) (h : Here) : Src → Cell
  | .sreg .g n => s.cell (.gr h.b h.g n)
  | _ => .known 0

def symqBody (o : Out) (a : Src) (sel : Nat) (h : Here) (s : State) : Body := do
  if h.boundsOk (srcRegs [(a, .w32)] ++ outRegs o 1) then .ok () else .error (trapC .regbound)
  if h.isSlice then do
    let cs ← symCells s h a
    let late := cs.flatMap fun p => s.splitSyms o false p.1
    if late ≠ [] then waitSyms s h.u late
    else .ok (s.writeLanes h o false (h.lanes s) fun x =>
      (cs.find? fun p => p.1 == x).map fun p => [.known (BitVec.ofNat 32 (symqWord s sel p.2))])
  else do
    readyUpper h s o false
    .ok (s.writeUpper h o false [.known (BitVec.ofNat 32 (symqWord s sel (symGroupCell s h a)))])

def symwBody (all : Bool) (a : Src) (h : Here) (s : State) : Body := do
  if all then
    let ls := (s.syms.filter fun x => x.b == h.b && x.g == h.g).map fun x => (x.q, x.sym)
    if ls ≠ [] then waitSyms s h.u ls else .ok s
  else do
    if h.boundsOk (srcRegs [(a, .w32)]) then .ok () else .error (trapC .regbound)
    let ls ← if h.isSlice then (symCells s h a).map fun cs => cs.filterMap fun p => p.2.sym?
             else .ok (symGroupCell s h a).sym?.toList
    if ls ≠ [] then waitSyms s h.u ls else .ok s

def execSymq (o : Out) (a : Src) (sel : Nat) (s : State) : Host.Outcome State Fault Refusal :=
  runInstr (symqBody o a sel) s

def execSymw (all : Bool) (a : Src) (s : State) : Host.Outcome State Fault Refusal :=
  runInstr (symwBody all a) s

end Sys2Proof.Machine
end

