-- ==== Sys2Proof/Machine/Lanes.lean ====
section
/-! DEFINITION. Meeting points of a group's slices: exchanges and `scan` (05_integer R108 to R110). -/

namespace Sys2Proof.Machine

/-! ## Meeting (R108) -/

/-- Whether every other live slice stands at the instruction, or walks over it. -/
def allMet (h : Here) (s : State) : Bool :=
  (otherSlices h s).all fun v =>
    s.standsBefore h.c.addr h.c.pos v || s.clearOf h.c.addr (h.q.passed.count h.c.addr) v

/-- The other slices that issued the instruction move past it too. -/
def advanceOthers (h : Here) (s : State) : State :=
  (otherSlices h s).foldl (fun t v => if s.standsBefore h.c.addr h.c.pos v then t.advance v else t) s

/-- A meeting point: SCOPE for a parted slice; waits for the others, in `p`; then executes once for all of them. -/
def meetIn (p : Park) (body : Here → State → Body) (h : Here) (s : State) : Body :=
  if h.q.parted then .error (trapC .scope)
  else if !allMet h s then
    .error (.stay (s.mapSeq h.u fun q => { q with park := p, parkAt := if q.park.stands then q.parkAt else s.env.cycle }))
  else (body (metHere h s) s).map fun t => advanceOthers h t

/-- The meeting point of an exchange or of `scan`. -/
def meet (body : Here → State → Body) (h : Here) (s : State) : Body := meetIn .meeting body h s

/-- The lanes of a group, those of retired slices too. -/
def groupLanes (h : Here) : List LaneId := (List.range h.desc.lanes).map fun l => ⟨h.b, h.g, l⟩

/-- Reads a source in every lane of the group, all known (R108). -/
def readGroup (h : Here) (s : State) (srcs : List (Src × As)) : Except Stop (List (LaneId × List Nat)) := do
  let ins ← readLanes s h (groupLanes h) srcs
  let late := ins.flatMap fun r => r.2.flatMap Val.syms
  if late ≠ [] then waitSyms s h.u late
  else .ok (ins.map fun r => (r.1, r.2.map Val.num))

def valAt (ins : List (LaneId × List Nat)) (l i : Nat) : Nat := ((ins.find? fun r => r.1.l == l).map fun r => arg r.2 i).getD 0

/-! ## Exchanges (R109) -/

/-- The value lane `l` receives: the source lane's, or its own where there is none. In compatibility mode the lane is taken in
32 bits and modulo 16. -/
def exchangeVal (h : Here) (ins : List (LaneId × List Nat)) (src : Nat → Nat → Int) (l : Nat) : Nat :=
  let k := src l (valAt ins l 1)
  let k := if h.desc.compat then ((wrapInt 32 k % 16 : Nat) : Int) else k
  if 0 ≤ k ∧ k < h.desc.lanes then valAt ins k.toNat 0 else valAt ins l 0

def exchangeBody (o : Out) (p : Nat) (t : ITy) (a b : Src) (src : Nat → Nat → Int) (h : Here) (s : State) : Body := do
  let n := if t.wide then 2 else 1
  if h.boundsOk (srcRegs [(a, .int t), (b, .w32)] ++ outRegs o n) then .ok () else .error (trapC .regbound)
  let ins ← readGroup h s [(a, .int t), (b, .w32)]
  let run := h.execLanes s p
  let late := run.flatMap (s.splitSyms o t.wide)
  if late ≠ [] then waitSyms s h.u late
  else .ok (s.writeLanes h o t.wide (h.lanes s) fun x =>
    if run.contains x then some (knownCells t.wide (exchangeVal h ins src x.l)) else none)

def exchange (o : Out) (p : Nat) (t : ITy) (a b : Src) (src : Nat → Nat → Int) (s : State) : Host.Outcome State Fault Refusal :=
  runInstr (meet (exchangeBody o p t a b src)) s

def execShf (o : Out) (p : Nat) (t : ITy) (a b : Src) (s : State) : Host.Outcome State Fault Refusal :=
  exchange o p t a b (fun _ n => n) s

def execShfx (o : Out) (p : Nat) (t : ITy) (a b : Src) (s : State) : Host.Outcome State Fault Refusal :=
  exchange o p t a b (fun l n => ((l ^^^ n : Nat) : Int)) s

def execShfu (o : Out) (p : Nat) (t : ITy) (a b : Src) (s : State) : Host.Outcome State Fault Refusal :=
  exchange o p t a b (fun l n => (l : Int) - n) s

def execShfd (o : Out) (p : Nat) (t : ITy) (a b : Src) (s : State) : Host.Outcome State Fault Refusal :=
  exchange o p t a b (fun l n => (l : Int) + n) s

def execBcast (o : Out) (p : Nat) (t : ITy) (a b : Src) (s : State) : Host.Outcome State Fault Refusal :=
  exchange o p t a b (fun _ n => n) s

/-! ## `scan` (R110) -/

def scanUnit (op : ScanOp) (uns : Bool) : Nat :=
  match op with
  | .add | .or | .xor => 0
  | .and => 0xFFFFFFFF
  | .min => if uns then 0xFFFFFFFF else 0x7FFFFFFF
  | .max => if uns then 0 else 0x80000000

def scanStep (op : ScanOp) (uns : Bool) (acc v : Nat) : Nat :=
  match op with
  | .add => (acc + v) % 2 ^ 32
  | .and => acc &&& v
  | .or => acc ||| v
  | .xor => acc ^^^ v
  | .min => if uns then min acc v else if signedOf 32 v < signedOf 32 acc then v else acc
  | .max => if uns then max acc v else if signedOf 32 acc < signedOf 32 v then v else acc

/-- The results of the active lanes in rising order. -/
def scanFrom (op : ScanOp) (excl uns : Bool) : Nat → List (LaneId × Nat) → List (LaneId × Nat)
  | _, [] => []
  | acc, (x, v) :: r =>
    let next := scanStep op uns acc v
    (x, if excl then acc else next) :: scanFrom op excl uns next r

def scanBody (o : Out) (op : ScanOp) (excl uns : Bool) (a : Src) (h : Here) (s : State) : Body := do
  if h.boundsOk (srcRegs [(a, .w32)] ++ outRegs o 1) then .ok () else .error (trapC .regbound)
  let ins ← readGroup h s [(a, .w32)]
  let act := h.active s
  let late := act.flatMap (s.splitSyms o false)
  if late ≠ [] then waitSyms s h.u late
  else
    let res := scanFrom op excl uns (scanUnit op uns) ((ins.filter fun r => act.contains r.1).map fun r => (r.1, arg r.2 0))
    .ok (s.writeLanes h o false (h.lanes s) fun x => (lookup? x res).map fun v => knownCells false v)

def execScan (o : Out) (op : ScanOp) (excl uns : Bool) (a : Src) (s : State) : Host.Outcome State Fault Refusal :=
  runInstr (meet (scanBody o op excl uns a)) s

end Sys2Proof.Machine
end

