-- ==== Sys2Proof/Machine/Narrow.lean ====
section
/-! DEFINITION. The narrow and block formats class (07_narrow R131 to R147). -/

namespace Sys2Proof.Machine

/-! ## Block formats (R131, R140, R141) -/

/-- Width k of a BX element. -/
def BTy.k : BTy → Nat | .bx8 => 8 | .bx6 => 6 | .bx4 => 4

/-- The value of a BX element of a block (R131). -/
def bxValue (t : BTy) (ea eb code : Nat) : FV :=
  let k := BTy.k t
  let e := if bitsOf code (k - 2) 1 = 1 then eb else ea
  if e = 0xFF then .nan false
  else .fin (bitsOf code (k - 1) 1 == 1) (bitsOf code 0 (k - 2)) ((e : Int) - 127 - (k - 3 : Nat))

/-- A non-negative number m x 2^e rounded to nearest even. -/
def roundInt (m : Nat) (e : Int) : Nat := if 0 ≤ e then m * 2 ^ e.toNat else (toIntMag .rne false m e).1

/-- The exponents of a block from its finite magnitudes; with none, m is 0 (R140, DESIGN CHOICE log 133). -/
def bxExponents (t : BTy) (vs : List FV) : Nat × Nat :=
  let tops := vs.filterMap fun v => match v with
    | .fin _ m e => if m = 0 then none else some ((Nat.log2 m : Int) + e)
    | _ => none
  match tops with
  | [] => (0, 0)
  | x :: r =>
    let ea := (min (max (r.foldl max x + 127) 0) 254).toNat
    (ea, ea - (BTy.k t - 2))

/-- The magnitude of a value under exponent E, and its error in units of 2^u. -/
def bxTry (t : BTy) (m : Nat) (e : Int) (u : Int) (ex : Nat) : Nat × Nat :=
  let k := BTy.k t
  let g : Int := (ex : Int) - 127 - (k - 3 : Nat)
  let q := min (roundInt m (e - g)) (2 ^ (k - 2) - 1)
  (q, (((m * 2 ^ (e - u).toNat : Nat) : Int) - ((q * 2 ^ (g - u).toNat : Nat) : Int)).natAbs)

/-- One element of a block without NaN, with its flags (R140). -/
def bxElem (t : BTy) (ea eb : Nat) : FV → Nat × Nat
  | .nan _ => (0, 0)
  | .inf n => (n.toNat * 2 ^ (BTy.k t - 1) + (2 ^ (BTy.k t - 2) - 1), fOF + fIX)
  | .fin n m e =>
    let k := BTy.k t
    let u := min e ((eb : Int) - 127 - (k - 3 : Nat))
    let a := bxTry t m e u ea
    let b := bxTry t m e u eb
    let sel := decide (b.2 < a.2)
    let r := if sel then b else a
    (n.toNat * 2 ^ (k - 1) + sel.toNat * 2 ^ (k - 2) + r.1,
      (if r.2 ≠ 0 then fIX else 0) + (if m ≠ 0 ∧ r.1 = 0 then fUF else 0))

/-- `bxenc` of 32 values: the stream as a number, the exponent word, and the flags of each element (R140). -/
def bxEncode (t : BTy) (vs : List FV) : Nat × Nat × List Nat :=
  if vs.any FV.isNan then (0, 0xFFFF, vs.map fun v => if v.isSig then fIV else 0)
  else
    let (ea, eb) := bxExponents t vs
    let es := vs.map (bxElem t ea eb)
    (es.zipIdx.foldl (fun n p => n + p.1.1 * 2 ^ (BTy.k t * p.2)) 0, ea + eb * 256, es.map (·.2))

/-- The 32 values of quad `a` in the octet that begins at lane `j` (R133). -/
def octetVals (ins : List (LaneId × List Nat)) (j : Nat) : List Nat :=
  (List.range 32).map fun e => valAt ins (j + e / 4) (e % 4)

def quadSrcs (a : Nat) (as : As) : List (Src × As) := (List.range 4).map fun i => (.vreg (a + i), as)

/-- Writes the first register with its latch, and the others (R137). -/
def writeMany (h : Here) (d : Nat) (run : List LaneId) (res : LaneId → List Nat) (s : State) : State :=
  let t := s.writeLanes h ⟨.vreg d, false⟩ false (h.lanes s) fun x => if run.contains x then some (knownCells false (arg (res x) 0)) else none
  run.foldl (fun t x =>
    t.setCells (((res x).zipIdx.drop 1).map fun p => (.vec x.b x.g x.l (d + p.2), .known (BitVec.ofNat 32 p.1)))) t

def bxencBody (d p : Nat) (t : BTy) (fs : Bool) (a : Nat) (h : Here) (s : State) : Body := do
  if h.boundsOk [(a, 4), (d, 2)] then .ok () else .error (trapC .regbound)
  let ins ← readGroup h s (quadSrcs a .packed)
  let run := h.execLanes s p
  let enc (l : Nat) := bxEncode t ((octetVals ins (l - l % 8)).map (FFmt.of .f32).read)
  let t1 := writeMany h d run (fun x => let r := enc x.l; [r.1 / 2 ^ (32 * (x.l % 8)) % 2 ^ 32, r.2.1]) s
  if fs then .ok t1
  else .ok (run.foldl (fun u x => ((enc x.l).2.2.drop (4 * (x.l % 8)) |>.take 4).foldl (fun u f => u.orFsr x f) u) t1)

def execBxenc (d p : Nat) (t : BTy) (fs : Bool) (a : Nat) (s : State) : Host.Outcome State Fault Refusal :=
  runInstr (meet (bxencBody d p t fs a)) s

/-- The f32 code of an exact value; every NaN is the default NaN. -/
def toF32 (v : FV) : Nat := (fltCvt (.of .f32) ⟨.rne, true, false⟩ v).1

def bxdecBody (d p : Nat) (t : BTy) (a e : Src) (h : Here) (s : State) : Body := do
  if h.boundsOk (srcRegs [(a, .packed), (e, .packed)] ++ [(d, 4)]) then .ok () else .error (trapC .regbound)
  let ins ← readGroup h s [(a, .packed), (e, .packed)]
  let run := h.execLanes s p
  let k := BTy.k t
  let elem (l i : Nat) : Nat :=
    let j := l - l % 8
    let stream := (List.range k).foldl (fun n q => n + valAt ins (j + q) 0 * 2 ^ (32 * q)) 0
    let ex := valAt ins j 1
    toF32 (bxValue t (bitsOf ex 0 8) (bitsOf ex 8 8) (bitsOf stream (k * (4 * (l % 8) + i)) k))
  .ok (writeMany h d run (fun x => (List.range 4).map (elem x.l)) s)

def execBxdec (d p : Nat) (t : BTy) (a e : Src) (s : State) : Host.Outcome State Fault Refusal :=
  runInstr (meet (bxdecBody d p t a e)) s

def bxmaxBody (o : Out) (p : Nat) (a : Nat) (h : Here) (s : State) : Body := do
  if h.boundsOk ((a, 4) :: outRegs o 1) then .ok () else .error (trapC .regbound)
  let ins ← readGroup h s (quadSrcs a .packed)
  let run := h.execLanes s p
  let late := run.flatMap (s.splitSyms o false)
  let top (l : Nat) : Nat := ((octetVals ins (l - l % 8)).map fun v => v % 2 ^ 31).foldl
    (fun m v => if v ≤ 0x7F800000 then max m v else m) 0
  if late ≠ [] then waitSyms s h.u late
  else .ok (s.writeLanes h o false (h.lanes s) fun x => if run.contains x then some (knownCells false (top x.l)) else none)

def execBxmax (o : Out) (p : Nat) (a : Nat) (s : State) : Host.Outcome State Fault Refusal := runInstr (meet (bxmaxBody o p a)) s

/-! ## Packing (R143, R144) -/

/-- A word from its bytes or fields, the lowest first. -/
def packFields (w : Nat) (fs : List Nat) : Nat := fs.zipIdx.foldl (fun n p => n + p.1 % 2 ^ w * 2 ^ (w * p.2)) 0
def fieldsOf (w n v : Nat) : List Nat := (List.range n).map fun i => bitsOf v (w * i) w

/-- The nibble of a byte, clamped as S8 to S4 where asked. -/
def nibbleOf (sat : Bool) (b : Nat) : Nat :=
  if sat then wrapInt 4 (min (max (signedOf 8 b) (-8)) 7) else b % 16

def pk4Word (sat : Bool) (ns : List Nat) : Nat :=
  packFields 4 ((fieldsOf 8 4 (arg ns 0) ++ fieldsOf 8 4 (arg ns 1)).map (nibbleOf sat))

def execPk4 (o : Out) (p : Nat) (_s4 sat : Bool) (a b : Src) (s : State) : Host.Outcome State Fault Refusal :=
  runInstr (laneInstr o false p [(a, .packed), (b, .packed)] 7 (opBits .z32 (pk4Word sat))) s

def upk4Word (s4 : Bool) (ns : List Nat) : Nat :=
  packFields 8 ((fieldsOf 4 4 (bitsOf (arg ns 0) (if arg ns 1 % 2 = 1 then 16 else 0) 16)).map fun n =>
    if s4 then wrapInt 8 (signedOf 4 n) else n)

def execUpk4 (o : Out) (p : Nat) (s4 : Bool) (a h : Src) (s : State) : Host.Outcome State Fault Refusal :=
  runInstr (laneInstr o false p [(a, .packed), (h, .packed)] 7 (opBits .z32 (upk4Word s4))) s

def execPk6 (o : Out) (p : Nat) (a : Src) (s : State) : Host.Outcome State Fault Refusal :=
  runInstr (laneInstr o false p [(a, .packed)] 7 (opBits .z32 fun ns => packFields 6 (fieldsOf 8 4 (arg ns 0)))) s

def execUpk6 (o : Out) (p : Nat) (a : Src) (s : State) : Host.Outcome State Fault Refusal :=
  runInstr (laneInstr o false p [(a, .packed)] 7 (opBits .z32 fun ns => packFields 8 (fieldsOf 6 4 (arg ns 0)))) s

/-! ## 8-bit floating point and `scl` (R145 to R147) -/

def f8encVal (t : F8Ty) (m : FMod) (ns : List Nat) : Nat × Nat :=
  let rs := (List.range 4).map fun i => fltCvt (.of8 t) m (fv .f32 ns i)
  (packFields 8 (rs.map (·.1)), rs.foldl (fun f r => f ||| r.2) 0)

def execF8enc (o : Out) (p : Nat) (t : F8Ty) (m : FMod) (a : Nat) (s : State) : Host.Outcome State Fault Refusal :=
  runInstr (laneInstr o false p (quadSrcs a .packed) 7 (opFlt false m.fs (f8encVal t m))) s

def f8decBody (d p : Nat) (t : F8Ty) (a : Src) (h : Here) (s : State) : Body := do
  if h.boundsOk (srcRegs [(a, .packed)] ++ [(d, 4)]) then .ok () else .error (trapC .regbound)
  let ins ← readLanes s h (h.execLanes s p) [(a, .packed)]
  let late := ins.flatMap fun r => r.2.flatMap Val.syms
  if late ≠ [] then waitSyms s h.u late
  else
    let word (x : LaneId) : Nat := ((ins.find? fun r => r.1 == x).bind fun r => r.2.head?.map Val.num).getD 0
    .ok (writeMany h d (ins.map (·.1)) (fun x => (fieldsOf 8 4 (word x)).map fun b => toF32 (quiet ((FFmt.of8 t).read b))) s)

def execF8dec (d p : Nat) (t : F8Ty) (a : Src) (s : State) : Host.Outcome State Fault Refusal := runInstr (f8decBody d p t a) s

def execScl (o : Out) (p : Nat) (t : FTy) (m : FMod) (a s1 s2 : Src) (s : State) : Host.Outcome State Fault Refusal :=
  vFlt o false p [(a, .flt .f32), (s1, .flt .f32), (s2, .flt .f32)] m.fs
    (fun ns => fltScl (.of t) m (fv .f32 ns 0) (fv .f32 ns 1) (fv .f32 ns 2)) s

end Sys2Proof.Machine
end

