-- ==== Sys2Proof/Machine/Matrix.lean ====
section
/-! DEFINITION. The matrix class: tiles, handles and their copies, register panels, the matrix queue and the error log
(08_matrix R148 to R174). -/

namespace Sys2Proof.Machine

/-! ## Element types (R153, R154, R159) -/

/-- Bits of an element. -/
def MTy.bits : MTy → Nat
  | .f .f32 => 32 | .f .f64 => 64 | .f _ => 16 | .f8 _ => 8 | .b t => BTy.k t | .s8 => 8

def MTy.isBx : MTy → Bool | .b _ => true | _ => false

/-- Elements of a chunk. -/
def MTy.chunk : MTy → Nat
  | .f .f32 => 8 | .f .f64 => 4 | .f _ => 16 | _ => 32

/-- The value of an element with its block's exponent pair. -/
def MTy.value (t : MTy) (code ea eb : Nat) : FV :=
  match t with
  | .f x => (FFmt.of x).read code
  | .f8 x => (FFmt.of8 x).read code
  | .b x => bxValue x ea eb code
  | .s8 => let v := signedOf 8 code; .fin (decide (v < 0)) v.natAbs 0

/-- Bytes of a line and of its exponent pairs; bytes that a copy takes in the operand cache (R154, R155). -/
def MTy.lineBytes (t : MTy) (k : Nat) : Nat := k * MTy.bits t / 8
def MTy.pairBytes (t : MTy) (k : Nat) : Nat := if MTy.isBx t then k / 16 else 0
def MTy.copyBytes (t : MTy) (k : Nat) : Nat := 64 * MTy.lineBytes t k + 64 * MTy.pairBytes t k

/-- `w` bits at bit `bit` of the bytes from `base`. -/
def codeAt (m : List (Nat × Byte)) (base bit w : Nat) : Nat := bitsOf (leNat (readBytes m (base + bit / 8) 9)) (bit % 8) w

/-- K of its code in FN[6:4] (R166). -/
def kOf (code : Nat) : Nat := 32 * (code + 1)

/-! ## A block's matrix state -/

def Blk.handle? (x : Blk) (n : Nat) : Option Handle := x.handles.find? (·.n == n)
def Blk.tile? (x : Blk) (n : Nat) : Option Tile := x.tiles.find? (·.n == n)

def Blk.dropHandle (n : Nat) (x : Blk) : Blk := { x with handles := x.handles.filter (·.n != n) }
def Blk.dropTile (n : Nat) (x : Blk) : Blk := { x with tiles := x.tiles.filter (·.n != n) }

def Blk.setTile (n : Nat) (cells : List (Nat × Word)) (x : Blk) : Blk :=
  { Blk.dropTile n x with tiles := (x.tiles.filter (·.n != n)) ++ [{ n := n, cells := cells }] }

/-- Word (m, n) of a tile; an unheld one reads +0 (R151). -/
def Blk.tileWord (x : Blk) (a m n : Nat) : Word := ((x.tile? a).map fun t => nget 0 (64 * m + n) t.cells).getD 0

/-- All 4,096 words as the cells of a tile. -/
def tileCells (f : Nat → Nat → Word) : List (Nat × Word) :=
  ((List.range 4096).map fun i => (i, f (i / 64) (i % 64))).filter fun p => p.2 ≠ 0

def State.onCore (s : State) (core : Nat) : List Blk := s.blks.filter fun x => x.core == core && x.phase == .resident

/-- Tiles held on a core, and bytes of its operand cache in use (R152, R155). -/
def State.tilesOn (s : State) (core : Nat) : Nat := ((s.onCore core).map fun x => x.tiles.length).foldl (· + ·) 0
def State.cacheOn (s : State) (core : Nat) : Nat :=
  ((s.onCore core).flatMap fun x => x.handles.map fun h => MTy.copyBytes h.ty h.k).foldl (· + ·) 0

/-! ## Issue (R148 to R150, R152) -/

/-- Waits until the matrix queue is empty: the instruction reads what every earlier one leaves (R149). -/
def mqIdle (h : Here) (s : State) : Except Stop Blk := do
  let x ← blkHere h s
  if x.mq.isEmpty then .ok x else waitHere s

/-- Places an entry in the matrix queue (R149). -/
def enqueue (h : Here) (e : MQEntry) (s : State) : Body := do
  let x ← blkHere h s
  if 4 ≤ x.mq.length then waitHere s else .ok (s.mapBlk h.b fun y => { y with mq := y.mq ++ [e] })

/-- Whether a tile is held once the queued instructions have executed. -/
def Blk.heldAfter (x : Blk) (n : Nat) : Bool :=
  x.mq.foldl (fun held e => match e with
    | .mfreeTile k => held && k != n
    | .mzero k => held || k == n
    | .mma k _ _ _ wide _ => held || k == n || (wide && k + 1 == n)
    | _ => held) (x.tile? n).isSome

/-- The tiles that a write needs anew. -/
def Blk.newTiles (x : Blk) (ns : List Nat) : List Nat := ns.filter fun n => (x.tile? n).isNone

/-- Waits while the core has too few free tiles for a write (R151, R152). -/
def tileRoom (h : Here) (ns : List Nat) (s : State) : Except Stop Unit := do
  let x ← blkHere h s
  if ns.all x.heldAfter then .ok ()
  else if !x.mq.isEmpty then waitHere s
  else if s.tilesOn x.core + (x.newTiles ns).length ≤ Config.tilesPerCore then .ok ()
  else parkHere h .tiles s

/-- Makes tiles held, or waits while the core has too few free ones (R151, R152). -/
def holdTiles (h : Here) (ns : List Nat) (s : State) : Body := do
  tileRoom h ns s
  let x ← blkHere h s
  if ns.all x.heldAfter then .ok s
  else .ok (s.mapBlk h.b fun y => (x.newTiles ns).foldl (fun z n => Blk.setTile n [] z) y)

/-! ## Lines of an operand (R154, R167) -/

/-- Where each line's elements and exponent pairs stand. -/
def lineSpans (t : MTy) (k base stride : Nat) : List (Nat × Nat) :=
  (List.range 64).flatMap fun i =>
    let pairs := if stride = 0 then base + MTy.lineBytes t k else base + 64 * stride + i * MTy.pairBytes t k
    [((base + i * stride) % 2 ^ 64, MTy.lineBytes t k), (pairs % 2 ^ 64, MTy.pairBytes t k)]

/-- The 128-byte lines that spans touch, rising. -/
def linesOf (spans : List (Nat × Nat)) : List Nat :=
  spans.foldl (fun ls p =>
    if p.2 = 0 then ls
    else (List.range ((p.1 + (p.2 - 1)) / 128 + 1 - p.1 / 128)).foldl (fun l i => insertSorted (p.1 / 128 + i) l) ls) []

/-- PAGE at the instruction, where a line has no mapping (R189). -/
def pagesMapped (h : Here) (s : State) (write : Bool) (ls : List LaneAcc) : Except Stop Unit :=
  match ls.find? fun y => match y.tgt with
    | .inter ia => (match s.route ia write with | .miss _ => true | _ => false)
    | _ => false with
  | some y =>
    let at_ := y.addr.getD 0
    pageStop h s (match y.tgt with | .inter ia => ia | _ => 0) write.toNat
      { cause := .page, addr := at_, info := openInfo at_ write, lanes := 0, after := false }
  | none => .ok ()

/-- An operand's source: type, K, base and stride. -/
structure Operand where
  ty : MTy
  k : Nat
  base : Nat
  stride : Nat
  deriving DecidableEq, Repr

/-- The line that holds a byte, among the lines of an operand. -/
def lineAt (ls : List LaneAcc) (va : Nat) : Option LaneAcc := ls.find? fun y => y.addr == some (va / 128 * 128)

/-- The bytes of completed lines. -/
def gotByte (ls : List LaneAcc) (va : Nat) : Byte := ((lineAt ls va).map fun y => y.got.getD (va % 128) 0).getD 0

/-- First byte of line i's elements and of its exponent pairs (R154). -/
def Operand.lineBase (p : Operand) (i : Nat) : Nat := (p.base + i * p.stride) % 2 ^ 64
def Operand.pairBase (p : Operand) (i : Nat) : Nat :=
  (if p.stride = 0 then p.base + MTy.lineBytes p.ty p.k else p.base + 64 * p.stride + i * MTy.pairBytes p.ty p.k) % 2 ^ 64

/-- Whether the data of a byte's line has an error that reaches an element or a pair: which ones is a free value (R161, DESIGN
CHOICE log 55). -/
def lostByte (ls : List LaneAcc) (va : Nat) : Bool := ((lineAt ls va).map (·.lost)).getD false && Config.lostUnit va

/-- The elements of an operand that its lines lost, with those of lost exponent pairs (R161). -/
def Operand.lost (p : Operand) (ls : List LaneAcc) (n : Nat) : List MErrAt :=
  if !ls.any (·.lost) then []
  else
    let w := MTy.bits p.ty
    (List.range 64).flatMap fun i =>
      ((List.range p.k).filter fun e => lostByte ls ((p.lineBase i + w * e / 8) % 2 ^ 64)).map (fun e =>
        ({ kind := 0, panel := false, num := n, line := i, index := e, pair := false } : MErrAt)) ++
      ((List.range (MTy.pairBytes p.ty p.k / 2)).filter fun j => lostByte ls ((p.pairBase i + 2 * j) % 2 ^ 64)).map fun j =>
        ({ kind := 0, panel := false, num := n, line := i, index := 32 * j, pair := true } : MErrAt)

/-- Whether an element of an operand is lost: itself, or its block's exponent pair (R161). -/
def lostAt (errs : List MErrAt) (kind line : Nat) (bx : Bool) (e : Nat) : Bool :=
  errs.any fun r => r.kind == kind && r.line == line && (if r.pair && bx then r.index / 32 == e / 32 else r.index == e)

/-- Clears `w` bits of a byte string at element `e`, seen from byte `j`. -/
def clearElem (w e j : Nat) (b : Byte) : Byte :=
  BitVec.ofNat 8 (((List.range 8).filter fun k => b.getLsbD k && !(w * e ≤ 8 * j + k && 8 * j + k < w * e + w)).foldl (fun n k => n + 2 ^ k) 0)

/-- A copy as bytes: line i at 2048 i, its pairs at 2^20 + i K / 16 (R153); lost elements are +0 (R161). -/
def copyOf (p : Operand) (ls : List LaneAcc) (lost : List MErrAt) : List (Nat × Byte) :=
  let line (i : Nat) := (List.range (MTy.lineBytes p.ty p.k)).map fun o =>
    let b := gotByte ls ((p.base + i * p.stride + o) % 2 ^ 64)
    (2048 * i + o, if lost = [] then b
      else ((List.range p.k).filter (lostAt lost 0 i (MTy.isBx p.ty))).foldl (fun b e => clearElem (MTy.bits p.ty) e o b) b)
  let pairs (i : Nat) := (List.range (MTy.pairBytes p.ty p.k)).map fun o =>
    (2 ^ 20 + i * MTy.pairBytes p.ty p.k + o, gotByte ls ((p.pairBase i + o) % 2 ^ 64))
  (((List.range 64).flatMap line) ++ (List.range 64).flatMap pairs).filter fun q => q.2 ≠ unlisted

/-- The lines of operands, each operand's in rising order, all checked before any is read (R167, R189). -/
def operandLines (h : Here) (s : State) (ps : List Operand) : Except Stop (List LaneAcc) := do
  match ps.find? fun p => p.base % 8 != 0 || p.stride % 8 != 0 with
  | some p => .error (.trap { cause := .align, addr := p.base, info := openInfo p.base false, lanes := 0, after := false })
  | none => .ok ()
  memBars h s false false
  let ls ← checkLanes h s .load true (openInfo · false) (ps.flatMap fun p =>
    (linesOf (lineSpans p.ty p.k p.base p.stride)).map fun n => laneAcc 0 0 0 128 (.known (128 * n)) (.known 0) [])
  pagesMapped h s false ls
  .ok ls

/-- The completed lines of an access, operand by operand. -/
def splitLines : List Operand → List LaneAcc → List (Operand × List LaneAcc)
  | [], _ => []
  | p :: r, ls =>
    let n := (linesOf (lineSpans p.ty p.k p.base p.stride)).length
    (p, ls.take n) :: splitLines r (ls.drop n)

/-- Waits for the lines that were sent; the access stays until the instruction completes. -/
def linesRead (h : Here) (s : State) (ps : List Operand) (id : Nat) : Except Stop (State × Access × List (Operand × List LaneAcc)) := do
  let (t, a) ← awaited h s id
  match a with
  | none => waitHere s
  | some a => .ok (t.mapSeq h.u fun q => { q with park := .access id }, a, splitLines ps a.lanes)

/-! ## `mload`, `mfree`, `mscale`, `mzero` (R167, R168, R170, R172) -/

/-- A log entry (R162). -/
def MErrAt.word (e : MErrAt) : Word :=
  BitVec.ofNat 32 (e.kind * 2 ^ 30 + e.panel.toNat * 2 ^ 29 + e.num * 2 ^ 24 + e.line * 2 ^ 16 + e.index * 2 ^ 8)

/-- The order in which the errors of one instruction are logged (R161). -/
def merrKey (e : MErrAt) : Nat := ((e.kind * 32 + e.num) * 64 + e.line) * 256 + e.index

def insertErr (e : MErrAt) : List MErrAt → List MErrAt
  | [] => [e]
  | x :: r => if merrKey e < merrKey x then e :: x :: r else if merrKey e = merrKey x then x :: r else x :: insertErr e r

def Blk.logErr (x : Blk) (e : MErrAt) : Blk :=
  if x.mlog.length < 4 then { x with merrSticky := true, mlog := x.mlog ++ [MErrAt.word e] }
  else { x with merrSticky := true, merrOvf := true }

/-- The log of an `mload`, `mget` or `mstore` in the order of R161. -/
def State.logErrs (s : State) (b : Nat) (es : List MErrAt) : State :=
  if es = [] then s else s.mapBlk b fun y => (es.foldl (fun l e => insertErr e l) []).foldl Blk.logErr y

/-- FULL: the copy does not fit once the handle's old one is released (R155, R167). -/
def mloadFull (h : Here) (s : State) (o : Out) (n : Nat) (t : MTy) (k : Nat) : Option State :=
  let s1 := s.mapBlk h.b (Blk.dropHandle n)
  match s1.blk? h.b with
  | none => none
  | some x =>
    if Config.operandCacheBytes < s1.cacheOn x.core + MTy.copyBytes t k then some (writeResults h o [(noLane, 1)] s1) else none

/-- The lines have been read: the handle is bound to the copy. -/
def mloadBind (o : Out) (n : Nat) (p : Operand) (h : Here) (s : State) (id : Nat) : Body := do
  let (s1, a, ls) ← linesRead h s [p] id
  let s2 := s1.dropAcc a
  match mloadFull h s2 o n p.ty p.k with
  | some t => .ok t
  | none => do
    let x ← blkHere h s2
    let lines := (ls.head?.map (·.2)).getD []
    let lost := p.lost lines n
    let hd : Handle := { n := n, ty := p.ty, k := p.k, base := p.base, stride := p.stride, scale := 0x3F800000, gen := x.gen,
                         copy := copyOf p lines lost }
    .ok (writeResults h o [(noLane, 0)] ((s2.mapBlk h.b fun y =>
      { Blk.dropHandle n y with handles := (Blk.dropHandle n y).handles ++ [hd] }).logErrs h.b lost))

def mloadBody (o : Out) (n : Nat) (base stride : Src) (t : MTy) (k : Nat) (h : Here) (s : State) : Body := do
  let ns ← upNums h s [(base, .addr), (stride, .w32)]
  readyResult h s o
  let _ ← mqIdle h s
  let p : Operand := ⟨t, k, ns.headD 0, (ns.drop 1).headD 0⟩
  match h.q.park with
  | .access id => mloadBind o n p h s id
  | _ => do
    let ls ← operandLines h s [p]
    match mloadFull h s o n t k with
    | some r => .ok r
    | none => mloadBind o n p h (sendAccess h .load 128 0 none none ls s) s.env.fresh

def execMload (o : Out) (n : Nat) (base stride : Src) (t : MTy) (k : Nat) (s : State) : Host.Outcome State Fault Refusal :=
  runInstr (mloadBody o n base stride t (kOf k)) s

def execMfree (isTile : Bool) (n : Nat) (s : State) : Host.Outcome State Fault Refusal :=
  runInstr (fun h s => do
    gate h s
    enqueue h (if isTile then .mfreeTile n else .mfreeHandle n) s) s

def execMscale (hn : Option Nat) (v : Src) (s : State) : Host.Outcome State Fault Refusal :=
  runInstr (fun h s => do
    let ns ← upNums h s [(v, .flt .f32)]
    enqueue h (.mscale hn (BitVec.ofNat 32 (ns.headD 0))) s) s

def execMzero (acc : Nat) (s : State) : Host.Outcome State Fault Refusal :=
  runInstr (fun h s => do
    gate h s
    let t ← holdTiles h [acc] s
    enqueue h (.mzero acc) t) s

/-! ## `mma` (R156, R158, R169) -/

/-- The generation once the queued `swf` have executed. -/
def Blk.genAfter (x : Blk) : Word := x.mq.foldl (fun g e => if e == .swf then g + 1 else g) x.gen

/-- A bound handle whose copy is stale at this point. -/
def Blk.stale (x : Blk) (n : Nat) : Option Handle :=
  if x.mq.contains (.mfreeHandle n) then none
  else (x.handle? n).bind fun hd => if hd.gen = x.genAfter then none else some hd

def Handle.operand (z : Handle) : Operand := ⟨z.ty, z.k, z.base, z.stride⟩

/-- The stale handles that an `mma` reads, with their sources. -/
def Blk.staleOps (x : Blk) (ns : List Nat) : List (Nat × Operand) :=
  (ns.dedup.filterMap fun n => (x.stale n).map fun z => (n, z.operand))

/-- New copies of stale handles, with the current generation; lost elements are logged (R156, R161). -/
def State.renew (s : State) (b : Nat) (ops : List (Nat × Operand)) (ls : List (Operand × List LaneAcc)) : State :=
  let fresh := (ops.zip ls).map fun q => (q.1.1, q.1.2, q.2.2, q.1.2.lost q.2.2 q.1.1)
  (s.mapBlk b fun y => { y with handles := y.handles.map fun z => match fresh.find? fun f => f.1 == z.n with
    | some f => { z with copy := copyOf f.2.1 f.2.2.1 f.2.2.2, gen := y.gen }
    | none => z }).logErrs b (fresh.flatMap fun f => f.2.2.2)

/-- At an `mma`'s point in program order its stale copies are read anew, all of them before any is used: the state in which they
are, or the instruction stands (R156, R189). -/
def refetch (h : Here) (ns : List Nat) (s : State) : Body := do
  let x ← blkHere h s
  match x.staleOps ns with
  | [] => .ok s
  | ops =>
    if !x.mq.isEmpty then waitHere s
    else do
      let ps := ops.map (·.2)
      let (s1, id) ← (match h.q.park with
        | .access id => .ok (s, id)
        | _ => do
          let ls ← operandLines h s ps
          .ok (sendAccess h .load 128 0 none none ls s, s.env.fresh))
      let (t, a, ls) ← linesRead h s1 ps id
      .ok ((t.dropAcc a).renew h.b ops ls)

/-- The groups that hold a panel or a moved tile: groups 0 to 3, where they exist and have not retired (R158, R173). -/
def presentGroups (h : Here) (s : State) : List Nat :=
  (List.range (min 4 h.desc.groups)).filter fun g => !s.retired (.group h.b g)

/-- Captures a register panel at issue: the segments of each column, and the late values it meets. -/
def capturePanel (h : Here) (s : State) (t : MTy) (k v : Nat) : List (Nat × Byte) × List (Nat × Nat) :=
  let o := h.desc.lanes / 8
  let gcount := (k / 2 + o - 1) / o
  let cellOf (q j l : Nat) : Cell := s.cell (.vec h.b q l j)
  let parts := (List.range 64).flatMap fun n => (List.range (k / 32)).flatMap fun kb =>
    let q := n / 16
    if !(presentGroups h s).contains q then []
    else
      let sg := kb * 16 + n % 16
      let oct := 8 * (sg % o)
      let j := sg / o
      let at_ := (8 * n + kb) * 64
      ((List.range (MTy.bits t)).map fun i => (at_ + 4 * i, cellOf q (v + j) (oct + i))) ++
        (if MTy.isBx t then [(at_ + 32, cellOf q (v + gcount + j) oct)] else [])
  let bytes := parts.flatMap fun p => ((leBytes 4 ((p.2.word?.getD 0).toNat)).zipIdx.map fun b => (p.1 + b.2, b.1)).filter
    fun b => b.1 % 64 < 34
  (bytes.filter fun b => b.2 ≠ unlisted, parts.filterMap fun p => p.2.sym?)

/-- Registers of a panel (R158). -/
def panelRegs (h : Here) (t : MTy) (k : Nat) : Nat :=
  let o := h.desc.lanes / 8
  let g := (k / 2 + o - 1) / o
  if MTy.isBx t then 2 * g else g

/-- Nothing of an `mma` takes effect before all of it can: the tiles are free, and the copies are read (R150, R163). -/
def mmaBody (acc a b k : Nat) (wide : Bool) (panel : Option (MTy × Nat)) (h : Here) (s : State) : Body := do
  gate h s
  match panel with
  | some p => if !h.boundsOk [(p.2, panelRegs h p.1 k)] then .error (trapC .regbound) else .ok ()
  | none => .ok ()
  let tiles := if wide then [acc, acc + 1] else [acc]
  match h.q.park with
  | .access _ => .ok ()
  | _ => tileRoom h tiles s
  let cap := panel.map fun p => (p.1, capturePanel h s p.1 k p.2)
  match cap with
  | some c => if c.2.2 ≠ [] then waitSyms s h.u c.2.2 else .ok ()
  | none => .ok ()
  let t ← refetch h (if panel.isSome then [a] else [a, b]) s
  match (do let t2 ← holdTiles h tiles t; enqueue h (.mma acc a b k wide (cap.map fun c => (c.1, c.2.1))) t2 : Body) with
  | .ok t2 => .ok t2
  | .error _ => waitHere s

def execMma (acc a b k : Nat) (wide : Bool) (panel : Option (MTy × Nat)) (s : State) : Host.Outcome State Fault Refusal :=
  runInstr (mmaBody acc a b (kOf k) wide panel) s

/-! ## `mstore` (R171) -/

/-- The rows of a tile as stores: one access each, cut where a row crosses a 64 KiB page. -/
def rowLanes (word : Nat → Nat → Word) (base stride : Nat) : List LaneAcc :=
  (List.range 64).flatMap fun m =>
    let va := (base + m * stride) % 2 ^ 64
    let cells (lo n : Nat) : List Cell := (List.range n).map fun i => .known (word m (lo + i))
    let first := min 64 ((65536 - va % 65536) / 4)
    let piece (lo n : Nat) : LaneAcc := laneAcc 0 0 (4 * lo) (4 * n) (.known va) (.known 0) (cells lo n)
    if first = 64 then [piece 0 64] else [piece 0 first, piece first (64 - first)]

/-- The words of a tile as an instruction of the sequencer reads them, with those that have an uncorrectable error: these read as
the default NaN (R161, DESIGN CHOICE log 55). -/
def Blk.readTile (x : Blk) (acc : Nat) (s : State) : (Nat → Nat → Word) × List MErrAt :=
  let bad (m n : Nat) : Bool := s.env.dataErr && (x.tile? acc).isSome && Config.lostWord s.env.cycle (64 * m + n)
  (fun m n => if bad m n then BitVec.ofNat 32 (FFmt.of .f32).nanCode else x.tileWord acc m n,
   if !s.env.dataErr then [] else
     ((List.range 4096).filter fun i => bad (i / 64) (i % 64)).map fun i =>
       { kind := 2, panel := false, num := acc, line := i / 64, index := i % 64, pair := false })

def mstoreBody (acc : Nat) (base stride : Src) (h : Here) (s : State) : Body := do
  let ns ← upNums h s [(base, .addr), (stride, .w32)]
  let x ← mqIdle h s
  let a := ns.headD 0
  let st := (ns.drop 1).headD 0
  if a % 4 ≠ 0 ∨ st % 4 ≠ 0 then
    .error (.trap { cause := .align, addr := a, info := openInfo a true, lanes := 0, after := false })
  else .ok ()
  memBars h s true false
  if Config.scoreboardPerCore ≤ (s.board x.core).length then waitHere s else .ok ()
  let w := x.readTile acc s
  let ls ← checkLanes h s .store false (openInfo · true) (rowLanes w.1 a st)
  pagesMapped h s true ls
  .ok (performUpTo s.env.fresh s.env.budget (sendAccess h .store 256 0 none none ls (s.logErrs h.b w.2)))

def execMstore (acc : Nat) (base stride : Src) (s : State) : Host.Outcome State Fault Refusal :=
  runInstr (mstoreBody acc base stride) s

/-! ## `mget`, `mput` (R173) -/

/-- Register and lane of element (m, n) in its group, whose registers begin at v. -/
def tilePlace (w v m n : Nat) : Nat × Nat := (v + (m % 16) * (64 / w) + n / w, n % w)

def moveBounds (h : Here) (s : State) (v : Nat) : Except Stop Unit :=
  if !(presentGroups h s).isEmpty && !h.boundsOk [(v, 1024 / h.desc.lanes)] then .error (trapC .regbound) else .ok ()

/-- The register cells that hold a tile: element, register, for the groups present and their non-retired slices. -/
def tileRegs (h : Here) (s : State) (v : Nat) (skipRetired : Bool) : List (Nat × RegKey) :=
  (List.range 4096).filterMap fun i =>
    let m := i / 64
    let p := tilePlace h.desc.lanes v m (i % 64)
    let q := m / 16
    if !(presentGroups h s).contains q then none
    else if skipRetired && s.retired (.slice h.b q (p.2 / 4)) then none
    else some (i, .vec h.b q p.2 p.1)

def mgetBody (v acc : Nat) (h : Here) (s : State) : Body := do
  gate h s
  moveBounds h s v
  let x ← mqIdle h s
  let ks := tileRegs h s v true
  let late := ks.filterMap fun p => match s.cell p.2 with
    | .form f _ => if f.wide then some (f.q, f.sym) else none
    | .chain c _ => if c.ty.wide then some (c.q, c.sym) else none
    | .known _ => none
  if late ≠ [] then waitSyms s h.u late
  else
    let w := x.readTile acc s
    .ok ((s.setCells (ks.map fun p => (p.2, .known (w.1 (p.1 / 64) (p.1 % 64))))).logErrs h.b w.2)

def execMget (v acc : Nat) (s : State) : Host.Outcome State Fault Refusal := runInstr (mgetBody v acc) s

def mputBody (acc v : Nat) (h : Here) (s : State) : Body := do
  gate h s
  moveBounds h s v
  let _ ← mqIdle h s
  let ks := tileRegs h s v false
  let late := ks.filterMap fun p => (s.cell p.2).sym?
  if late ≠ [] then waitSyms s h.u late else .ok ()
  let t ← holdTiles h [acc] s
  let cells := ks.filterMap fun p => match s.cell p.2 with
    | .known w => if w = 0 then none else some (p.1, w)
    | _ => none
  .ok (t.mapBlk h.b (Blk.setTile acc cells))

def execMput (acc v : Nat) (s : State) : Host.Outcome State Fault Refusal := runInstr (mputBody acc v) s

/-! ## The error log (R161, R162, R174) -/

/-- `cr.merr`. -/
def Blk.merr (x : Blk) : Nat := x.merrSticky.toNat * 2 ^ 31 + x.merrOvf.toNat * 2 ^ 30 + x.mlog.length * 2 ^ 27

def merrBody (o : Out) (sel : Nat) (h : Here) (s : State) : Body := do
  gate h s
  readyResult h s o
  let x ← mqIdle h s
  .ok (writeOne h o (if sel = 0 then x.merr else (x.mlog.getD (sel - 1) 0).toNat) s)

def execMerr (o : Out) (sel : Nat) (s : State) : Host.Outcome State Fault Refusal := runInstr (merrBody o sel) s

def execMclr (s : State) : Host.Outcome State Fault Refusal :=
  runInstr (fun h s => do
    gate h s
    enqueue h .mclr s) s

/-! ## The arrays (R149, R159 to R161, R169) -/

/-- The elements of line `i` of a bound handle up to `kmax`, with the lost ones at +0. -/
def lineVals (hd : Handle) (i kmax : Nat) (lost : Nat → Bool) : List FV :=
  (List.range kmax).map fun e =>
    if lost e then .fin false 0 0
    else
      let pb := 2 ^ 20 + i * MTy.pairBytes hd.ty hd.k + 2 * (e / 32)
      MTy.value hd.ty (codeAt hd.copy (2048 * i) (MTy.bits hd.ty * e) (MTy.bits hd.ty))
        (readByte hd.copy pb).toNat (readByte hd.copy (pb + 1)).toNat

/-- The elements of a panel's column. -/
def panelVals (t : MTy) (p : List (Nat × Byte)) (n kmax : Nat) (lost : Nat → Bool) : List FV :=
  (List.range kmax).map fun e =>
    if lost e then .fin false 0 0
    else
      let at_ := (8 * n + e / 32) * 64
      MTy.value t (codeAt p at_ (MTy.bits t * (e % 32)) (MTy.bits t)) (readByte p (at_ + 32)).toNat (readByte p (at_ + 33)).toNat

/-- One chunk (R159). -/
def addChunk (f : FFmt) (acc : Nat) (ps : List FV) : Nat :=
  if (f.read acc).isNan || ps.any FV.isNan then f.nanCode else (deliverSum f .rne false (f.read acc :: ps)).1

/-- All chunks of one element, in rising k; `fuel` bounds their number. -/
def addChunks (f : FFmt) (ch : Nat) : Nat → List FV → Nat → Nat
  | 0, _, acc => acc
  | n + 1, ps, acc => if ps.isEmpty then acc else addChunks f ch n (ps.drop ch) (addChunk f acc (ps.take ch))

/-- The errors that an `mma` meets among those offered: elements, pairs and accumulator words that it reads. -/
def mmaErrs (x : Blk) (acc a b kmax : Nat) (wide panel : Bool) (errs : List MErrAt) : List MErrAt :=
  let ok (e : MErrAt) : Bool :=
    e.line < 64 && 0 < kmax &&
      (match e.kind with
       | 0 => !e.panel && e.num == a && e.index < kmax
       | 1 => e.panel == panel && e.num == (if panel then e.line / 16 else b) && e.index < kmax
       | 2 => !e.panel && !e.pair && (e.num == acc || (wide && e.num == acc + 1)) && e.index < 64 && (x.tile? e.num).isSome
       | _ => false)
  (errs.filter ok).foldl (fun l e => insertErr e l) []

/-- `mma` (R159, R169). -/
def mmaRun (acc a b k : Nat) (wide : Bool) (panel : Option (MTy × List (Nat × Byte))) (errs : List MErrAt) (x : Blk) : Blk :=
  let ha := x.handle? a
  let hb := if panel.isSome then none else x.handle? b
  let kb := match panel, hb with | some _, _ => k | none, some z => z.k | none, none => 0
  let kmax := match ha with | some z => min k (min z.k kb) | none => 0
  match ha with
  | none => x
  | some ha =>
    if kmax = 0 then x
    else
      let tb := match panel, hb with | some p, _ => p.1 | none, some z => z.ty | none, none => ha.ty
      let f := FFmt.of (if wide then .f64 else .f32)
      let ch := min (MTy.chunk ha.ty) (MTy.chunk tb)
      let f32 := FFmt.of .f32
      let sc := [f32.read ha.scale.toNat, f32.read ((match panel, hb with | none, some z => z.scale | _, _ => x.ps).toNat)]
      let es := mmaErrs x acc a b kmax wide panel.isSome errs
      let row (m : Nat) := lineVals ha m kmax (lostAt es 0 m (MTy.isBx ha.ty))
      let col (n : Nat) := match panel, hb with
        | some p, _ => panelVals p.1 p.2 n kmax (lostAt es 1 n (MTy.isBx tb))
        | none, some z => lineVals z n kmax (lostAt es 1 n (MTy.isBx tb))
        | none, none => []
      let old (m n : Nat) : Nat :=
        if es.any fun e => e.kind == 2 && e.line == m && e.index == n then f.nanCode
        else (x.tileWord acc m n).toNat + (if wide then (x.tileWord (acc + 1) m n).toNat * 2 ^ 32 else 0)
      let cols := ((List.range 64).map col).zipIdx
      let res := (List.range 64).flatMap fun m =>
        let r := row m
        cols.map fun c => addChunks f ch kmax ((r.zip c.1).map fun p => scaledProd [p.1, p.2] sc) (old m c.2)
      let word (hi : Bool) : List (Nat × Word) := (res.zipIdx.map fun p =>
        (p.2, BitVec.ofNat 32 (if hi then p.1 / 2 ^ 32 else p.1))).filter fun p => p.2 ≠ 0
      let y := es.foldl Blk.logErr (Blk.setTile acc (word false) x)
      if wide then Blk.setTile (acc + 1) (word true) y else y

/-- The effect of a queued matrix instruction on its block. -/
def MQEntry.run (errs : List MErrAt) (x : Blk) : MQEntry → Blk
  | .mma acc a b k wide panel => mmaRun acc a b k wide panel errs x
  | .mzero acc => Blk.setTile acc [] x
  | .mfreeTile n => Blk.dropTile n x
  | .mfreeHandle n => Blk.dropHandle n x
  | .mscale (some n) v => { x with handles := x.handles.map fun z => if z.n = n then { z with scale := v } else z }
  | .mscale none v => { x with ps := v }
  | .swf => { x with gen := x.gen + 1 }
  | .mclr => { x with merrSticky := false, merrOvf := false, mlog := [] }

/-- MATRIX_QUEUE_EXECUTE: the arrays perform the next queued instruction of a block; `errs` are the uncorrectable errors met
among the operands (R149, R161). -/
def execMatrixQueueExecute (b : Nat) (errs : List MErrAt) (s : State) : Host.Outcome State Fault Refusal :=
  match s.blk? b with
  | none => .next s
  | some x => match x.mq with
    | [] => .next s
    | e :: r => .next (s.mapBlk b fun y => MQEntry.run errs { y with mq := r } e)

end Sys2Proof.Machine
end

