-- ==== Sys2Proof/Machine/Record.lean ====
section
/-! DEFINITION. Fault records: causes, grades, handles, the 64 bytes of a record, and the queue in which a record waits to be
posted (15_launch R313, 16_system R333 to R342, 18_service R390). -/

namespace Sys2Proof.Machine

/-! ## Handles (R313) -/

/-- GEN of an index: 0 before its first use (DESIGN CHOICE log 4). -/
def State.genOf (s : State) (i : Nat) : Nat := lookupD 0 i s.work.gens
/-- The handle that names an entry now. -/
def State.handleOf (s : State) (i : Nat) : Nat := s.genOf i * 4096 + i % 4096

/-- The job above an entry (R314). -/
def State.jobUp (s : State) : Nat → Nat → Nat
  | 0, i => i
  | n + 1, i => match s.entry? i with
    | some e => if e.kind == .job then i else s.jobUp n e.parent
    | none => i
def State.jobOf (s : State) (i : Nat) : Nat := s.jobUp 4 i

/-- HANDLES of a record: the launch's and the job's (R337). -/
def State.handlesWord (s : State) (launch : Nat) : Nat := s.handleOf launch + s.handleOf (s.jobOf launch) * 65536

/-! ## WHAT (R333, R334, R337) -/

/-- Default grade of a cause (R333). -/
def Cause.grade : Cause → Nat
  | .dataerr => 2
  | .stateerr | .isolation => 1
  | _ => 0

/-- Program-originated causes (R334). -/
def Cause.prog : Cause → Bool
  | .page | .dataerr | .cancel | .stateerr | .isolation => false
  | _ => true

/-- The grade that a domain's errors give it: three within an hour of core cycles at 2.4 GHz hold the device. -/
def Health.withError (cycle : Nat) (h : Health) : Health :=
  let errs := (cycle :: h.errs).take 3
  let three := errs.length = 3 ∧ cycle ≤ errs.getD 2 0 + 8640000000000
  { h with errs := errs, grade := if three then 3 else max h.grade 1 }

def Health.clean : Health := { cerr := 0, dstate := 0, grade := 0, errs := [] }

def State.healthOf (s : State) (kind i : Nat) : Health :=
  ((s.svc.health.find? fun h => h.1 == kind && h.2.1 == i).map (·.2.2)).getD Health.clean

def State.setHealth (s : State) (kind i : Nat) (h : Health) : State :=
  s.setSvc { s.svc with health := (s.svc.health.filter fun x => !(x.1 == kind && x.2.1 == i)) ++ [(kind, i, h)] }

def State.countError (s : State) (kind i : Nat) : State := s.setHealth kind i ((s.healthOf kind i).withError s.env.cycle)

/-! ### The grade held where a cause arose (R334, R386, R390) -/

/-- The lowest lane of a LANES field. -/
def lowLane (lanes : Nat) : Nat := ((List.range 64).find? fun l => lanes.testBit l).getD 0

/-- The service domain of a byte of M: the channel pair of a frame, the SRAM-die half of a die scratchpad; none for a bank and for
memory outside the part (R391, DESIGN CHOICE log 31). -/
def domainOfKey (key : Nat) : Option (Nat × Nat) :=
  if isPackage key then some (1, pairOfFrame (key / 65536))
  else if 2 ^ 61 ≤ key then
    let die := (key - 2 ^ 61) / 2 ^ 32
    some (2, die * 4 + Config.halfOf ((key - 2 ^ 61) / 128) % 4)
  else none

/-- The logical core from which a unit's requests to another chip come: a gang's is the first of its tiller, a grid's the first of its
die (R381, DESIGN CHOICE log 144). -/
def State.sourceCore (s : State) : UnitRef → Nat
  | .grid l => l / Config.entriesPerDie * 192
  | .gang l k => ((s.gang? l k).map (·.tiller)).getD 0 * 8
  | .slice b _ _ | .group b _ | .block b => ((s.blk? b).map (·.core)).getD 0

/-- Where an access of a unit leads, for its record: a byte of M, or another chip. -/
def State.causeAt (s : State) (u : UnitRef) (addr lanes : Nat) : Nat ⊕ Nat :=
  match s.reach u.cls u (s.ctxOf u) (s.descOf u) ((u.block?).getD 0) u.groupNo (lowLane lanes) addr 1 .r false false with
  | .ok (.inter ia) _ | .page _ ia => (match s.route ia false with
    | .pkg k | .sys .host k => .inl k
    | .sys (.peer c) _ => .inr c
    | _ => (match s.stage2 ia with | .leaf pa .. => if s.ownChip pa then .inl 0 else .inr (chipOf pa) | _ => .inl 0))
  | .ok (.direct k) _ | .ok (.tiller k) _ => .inl k
  | _ => .inl (2 ^ 60)

/-- The service domain in which a cause arose: the memory whose data was in error, the link to the chip that refuses, or the core
(R334, DESIGN CHOICE log 144). -/
def State.causeDomain (s : State) (u : UnitRef) (c : Cause) (addr lanes : Nat) : Option (Nat × Nat) :=
  let core : Option (Nat × Nat) := match u.block? with | some _ => some (0, s.sourceCore u) | none => none
  match c, s.causeAt u addr lanes with
  | .dataerr, .inl k => (domainOfKey k).or core
  | .isolation, .inr chip => (s.linkTo chip (s.sourceCore u)).map fun l => (3, l)
  | .isolation, .inl _ => none
  | _, _ => core

/-- The grade that a domain holds. -/
def State.heldGrade (s : State) (d : Option (Nat × Nat)) : Nat := (d.map fun p => (s.healthOf p.1 p.2).grade).getD 0

/-- An uncorrectable error in data counts against its domain when its record is made (R390, DESIGN CHOICE log 144). -/
def State.noteError (s : State) (u : UnitRef) (c : Cause) (addr lanes : Nat) : State :=
  match c, s.causeDomain u c addr lanes with
  | .dataerr, some d => s.countError d.1 d.2
  | _, _ => s

/-- WHAT of a record. -/
def whatWord (c : Cause) (held rank : Nat) (upper : Bool) : Nat :=
  c.code + max c.grade held % 4 * 2 ^ 8 + c.violation.toNat * 2 ^ 10 + c.prog.toNat * 2 ^ 11 + rank % 8 * 2 ^ 12 +
    upper.toNat * 2 ^ 15

/-- A master word (R342). -/
def masterWord (kind index : Nat) : Nat := kind * 2 ^ 24 + index % 2 ^ 24

/-! ## The 64 bytes (R337) -/

/-- The fields of a record. -/
structure RecordFields where
  what : Nat
  frame : Nat
  pc : Nat
  addr : Nat
  handles : Nat
  index : Nat
  unit : Nat
  info : Nat
  lanes : Nat
  deriving DecidableEq, Repr

/-- The record with SEQ 0; posting writes SEQ. -/
def RecordFields.bytes (r : RecordFields) : List Byte :=
  leBytes 4 r.what ++ leBytes 4 0 ++ leBytes 8 r.frame ++ leBytes 8 r.pc ++ leBytes 8 r.addr ++ leBytes 4 r.handles ++
    leBytes 4 r.index ++ leBytes 4 r.unit ++ leBytes 4 0 ++ leBytes 4 r.info ++ leBytes 4 0 ++ leBytes 8 r.lanes

/-- UNIT of a record: group and slice; zero for a block sequencer and above (R337). -/
def unitWord : UnitRef → Nat
  | .slice _ g k => g % 32 + k % 16 * 2 ^ 5
  | .group _ g => g % 32
  | _ => 0

/-- Bases of the fault queue and the frame pool (R349). -/
def State.queueBase (s : State) (ctx : Nat) : Nat :=
  (s.cr ctx 0x40).toNat / 4096 * 4096 + (s.cr ctx 0x41).toNat % 2 ^ 25 * 2 ^ 32
def State.poolBase (s : State) (ctx : Nat) : Nat :=
  (s.cr ctx 0x43).toNat / 65536 * 65536 + (s.cr ctx 0x44).toNat % 2 ^ 25 * 2 ^ 32

/-- Puts a record behind those that were detected before it. -/
def insertRecord (r : FaultRec) : List FaultRec → List FaultRec
  | [] => [r]
  | x :: t => if r.no < x.no then r :: x :: t else x :: insertRecord r t

/-- A record joins those that wait to be posted, in order of detection (R336). -/
def State.addRecord (s : State) (r : FaultRec) : State := s.setFlt { s.flt with records := insertRecord r s.flt.records }

/-- The grade held in the domain of a fault. -/
def State.infoGrade (s : State) (i : FaultInfo) : Nat := s.heldGrade (s.causeDomain i.unit i.cause i.addr i.lanes)

/-- The record of a block's fault, built with its frame or without one (R335, R340). -/
def State.blockRecord (s : State) (x : Blk) (i : FaultInfo) (fid : Option Nat) : FaultRec :=
  { no := i.no, ctx := x.ctx, handle := some x.launch, fid := fid
    bytes := RecordFields.bytes
      { what := whatWord i.cause (s.infoGrade i) i.unit.rank false
        frame := (match fid with | some f => s.poolBase x.ctx + f * 65536 | none => 0)
        pc := i.pc, addr := i.addr, handles := s.handlesWord x.launch, index := x.index, unit := unitWord i.unit
        info := if i.cause.violation then masterWord 0 (fid.getD 0) else i.info
        lanes := i.lanes } }

/-- The record of an upper sequencer's fault (R335). -/
def State.upperRecord (s : State) (u : UnitRef) (i : FaultInfo) (fid : Option Nat) : FaultRec :=
  let ctx := s.ctxOf u
  { no := i.no, ctx := ctx, handle := some (s.launchOf u), fid := fid
    bytes := RecordFields.bytes
      { what := whatWord i.cause (s.infoGrade i) u.rank true
        frame := (match fid with | some f => s.poolBase ctx + f * 65536 | none => 0)
        pc := i.pc, addr := i.addr, handles := s.handlesWord (s.launchOf u), index := 0, unit := 0
        info := if i.cause.violation then masterWord 0 (fid.getD 0) else i.info
        lanes := i.lanes } }

/-- The record of an engine command: RANK 0, FRAME 0 (R233, R337). -/
def State.engineRecord (s : State) (x : Blk) (c : Cmd) (cause : Cause) (addr info : Nat) : FaultRec :=
  { no := s.env.fresh, ctx := x.ctx, handle := some x.launch, fid := none
    bytes := RecordFields.bytes
      { what := whatWord cause (s.heldGrade (s.causeDomain (.block x.id) cause addr 0)) 0 false
        frame := 0, pc := c.pc, addr := addr, handles := s.handlesWord x.launch, index := x.index, unit := 0
        info := if cause.violation then masterWord 1 (x.core * 16 + x.chan) else info
        lanes := 0 } }

/-- The record of a master that is no block: a host function, a link or the management controller (R337, R342). -/
def State.masterRecord (s : State) (ctx : Nat) (cause : Cause) (addr word : Nat) : FaultRec :=
  { no := s.env.fresh, ctx := ctx, handle := none, fid := none
    bytes := RecordFields.bytes
      { what := whatWord cause (if bitsOf word 24 7 = 3 then s.heldGrade (some (3, bitsOf word 0 24)) else 0) 0 false, frame := 0, pc := 0, addr := addr, handles := 0, index := 0, unit := 0
        info := word, lanes := 0 } }

end Sys2Proof.Machine
end

