-- ==== Sys2Proof/Machine/Engine.lean ====
section
/-! DEFINITION. The copy engines: issue and its checks, tickets, units read and written, revalidation, collectives, shadow
frames and `pub` (11_engines R224 to R248, 13_ordering R275, R276). -/

namespace Sys2Proof.Machine

/-! ## The end of commands (R226, R228, R235) -/

/-- Keeps the newest 64 commands and older ones still in STATE 0 (R226). -/
def keepCmds (cs : List Cmd) : List Cmd :=
  let n := cs.length - 64
  (cs.zipIdx.filter fun p => n ≤ p.2 || p.1.st == 0).map (·.1)

/-- An issue has commands that are still to be created (R228). -/
def State.issueOpen (s : State) (b issue : Nat) : Bool :=
  s.seqs.any fun p => p.1.block? == some b && (match p.2.park with
    | .cmds rest _ => rest.any fun c => c.2.issue == issue
    | _ => false)

/-- Commands of a block that `hit` names and that are in STATE 0 end in a state; their writes that have not drained go, and the
tags of the issues of which every command is final fall (R228, R248). -/
def State.endCmds (s : State) (b : Nat) (hit : Cmd → Bool) (st cause reason : Nat) : State :=
  match s.blk? b with
  | none => s
  | some x =>
    let named := x.cmds.filter fun c => c.st == 0 && hit c
    if named.isEmpty then s
    else
      let gone (n : Nat) : Bool := named.any (·.seq == n)
      let cmds := x.cmds.map fun c =>
        if c.st = 0 ∧ gone c.seq then { c with st := st, cause := cause, reason := reason, paused := none } else c
      let s1 := (s.mapBlk b fun y => { y with cmds := cmds }).setQs { s.qs with eq := s.qs.eq.filter fun e => !(e.b == b && gone e.seq) }
      let issues := (named.map (·.issue)).dedup
      let s2 := issues.foldl (fun t i =>
        if (cmds.any fun c => c.issue == i && c.st == 0) || s.issueOpen b i then t
        else match named.find? (·.issue == i) with
          | some c => (match c.ctr with | some w => t.bumpCtrs c.bumped w (· - 1) | none => t)
          | none => t) s1
      s2.mapBlk b fun y => { y with cmds := keepCmds y.cmds }

/-- The members of the collective that a command belongs to, their blocks with them: the pending ones of its context with its COLLID and
NRANK until it forms, and then those that formed with it (R245). -/
def State.collOf (s : State) (ctx : Nat) (c : Cmd) : List (Nat × Cmd) :=
  match c.coll with
  | none => []
  | some r =>
    s.blks.flatMap fun x => if x.ctx ≠ ctx then [] else (x.cmds.filter fun d => match d.coll with
      | some q => q.formed == r.formed &&
          (if r.formed then q.no == r.no else q.collid == r.collid && q.nrank == r.nrank && d.st == 0)
      | none => false).map fun d => (x.id, d)

/-- The other members of a formed collective end in STATE 4 (R245; DESIGN CHOICE log 28). -/
def State.abortMembers (s : State) (ctx : Nat) (c : Cmd) : State :=
  match c.coll with
  | some r => if r.formed then (s.collOf ctx c).foldl (fun t p => t.endCmds p.1 (·.seq == p.2.seq) 4 0 0) s else s
  | none => s

/-- A command ends in STATE 3 and posts its record (R233). -/
def State.faultCmd (s : State) (x : Blk) (c : Cmd) (cause : Cause) (addr info : Nat) : State :=
  let t := (s.noteError (.block x.id) cause addr 0).bump
  ((t.endCmds x.id (·.seq == c.seq) 3 cause.code 0).addRecord (t.engineRecord x c cause addr info)).abortMembers x.ctx c

/-! ## Shadow frames (R237, R238) -/

/-- A shadow frame that holds nothing more returns to the pool, its lines unmarked. -/
def State.returnFrame (ctx : Nat) (s : State) (f : Nat) : State :=
  (s.setMem { s.mem with draft := s.mem.draft.filter fun l => l / 512 != f }).mapCtx ctx fun c =>
    { c with pool := c.pool ++ [f], shadow := c.shadow.filter fun p => p.2 != f }

/-- Shadow translations to frames that went back to the pool are given up: the streams translate their pages again (R248). -/
def State.dropShadowTrans (s : State) (ctx : Nat) (frames : List Nat) : State :=
  s.setBlks (s.blks.map fun x => if x.ctx ≠ ctx then x else
    { x with cmds := x.cmds.map fun c => if c.shadow then
        { c with trans := c.trans.filter fun t => !(t.1 && frames.contains (t.2.2.1 / 65536)) } else c })

/-- Commands end early: they stop at the next unit; the shadow frames that they have written return to the pool (R248). -/
def State.cancelCmds (s : State) (b : Nat) (hit : Cmd → Bool) : State :=
  match s.blk? b with
  | none => s
  | some x =>
    let named := x.cmds.filter fun c => c.st == 0 && hit c
    let written (c : Cmd) : List Nat :=
      if c.shadow then ((s.ctx x.ctx).shadow.map (·.2)).filter fun f => c.before.any fun p => p.1 / 65536 == f else []
    let frames := (named.flatMap fun c => if (c.coll.map (·.formed)).getD false
      then (s.collOf x.ctx c).flatMap fun p => if p.2.st = 0 then written p.2 else [] else written c).dedup
    let s1 := named.foldl (fun t c =>
      if (c.coll.map (·.formed)).getD false then t.abortMembers x.ctx c else t.endCmds b (·.seq == c.seq) 2 0 0) s
    let s2 := (frames.foldl (State.returnFrame x.ctx) s1).dropShadowTrans x.ctx frames
    s2.setQs { s2.qs with eq := s2.qs.eq.filter fun e => !(e.shadow && frames.contains (e.key / 65536)) }

/-- `ecancel.all`, also for CANCEL and STATEERR (R340). -/
def State.cancelAll (s : State) (b : Nat) : State := s.cancelCmds b fun _ => true

/-- The intermediate page of a virtual address. -/
def State.pageOf (s : State) (ctx va : Nat) : Option Nat := (s.stage1 ctx va).map fun p => p.2 / 65536

/-- Takes a frame of the pool for each page without a shadow frame, on the page's home die; none where one is lacking. -/
def State.takeShadow (s : State) (ctx : Nat) : List Nat → Option State
  | [] => some s
  | va :: r =>
    match s.pageOf ctx va with
    | none => s.takeShadow ctx r
    | some pg =>
      let c := s.ctx ctx
      if c.shadow.any (·.1 == pg) then s.takeShadow ctx r
      else match c.pool.find? fun f => homeDie (f * 65536) == homeDie (pg * 65536) with
        | none => none
        | some f => (s.mapCtx ctx fun y => { y with pool := y.pool.erase f, shadow := y.shadow ++ [(pg, f)] }).takeShadow ctx r

/-! ## Requests and the bytes they touch (R229, R230) -/

/-- A command to be created. -/
structure Req where
  lane : LaneId
  segs : List Seg
  coll : Option CollRec
  shadow : Bool
  bad : Bool            -- an invalid operand or descriptor: STATE 5, REASON 1
  deriving DecidableEq, Repr

/-- The command of a request before it is issued. -/
def Req.cmd (r : Req) (h : Here) (seq issue : Nat) (tag : Option Nat) (bumped : List (Nat × Nat)) : Cmd :=
  { seq := seq, issue := issue, unit := h.u, st := 0, reason := 0, cause := 0, ctr := tag, bumped := bumped, segs := r.segs,
    shadow := r.shadow, coll := r.coll, read := [], buf := [], trans := [], before := [], paused := none, refused := none, marks := [],
    word := h.c.words.getD h.c.pos 0, pc := h.pc }

/-- A piece of a 64 KiB page that a request touches. -/
structure Touch where
  idx : Nat
  lane : LaneId
  dst : Bool
  shadow : Bool
  addr : Nat
  len : Nat
  deriving DecidableEq, Repr

def Req.touches (h : Here) (i : Nat) (r : Req) : List Touch :=
  let c := r.cmd h 0 0 none []
  let f (dst : Bool) : List Touch := ((c.ranges dst).flatMap fun g => pagePieces g.1 g.2).map fun p =>
    { idx := i, lane := r.lane, dst := dst, shadow := r.shadow && dst, addr := p.1, len := p.2 }
  if r.bad then [] else f true ++ f false

/-- The regions that a command reaches (R229). -/
def engineRegion (a : Nat) : Bool := match regionOf a with | .global | .dieSpad | .block | .tiller => true | _ => false

/-- What the check of a piece finds. -/
def touchReach (h : Here) (s : State) (t : Touch) : Reach :=
  if !engineRegion t.addr || (t.shadow && regionOf t.addr != .global) then .fault .window
  else match s.reach h.cls h.u h.ctx h.desc h.b t.lane.g t.lane.l t.addr t.len (if t.dst then .w else .r) false false with
    | .ok (.inter ia) m =>
      (match t.shadow, s.route ia true with
       | true, .sys .. => .fault .window
       | _, _ => .ok (.inter ia) m)
    | r => r

/-- Inserts a range by its first byte. -/
def insertRun (p : Nat × Nat) : List (Nat × Nat) → List (Nat × Nat)
  | [] => [p]
  | q :: r => if p.1 ≤ q.1 then p :: q :: r else q :: insertRun p r

/-- Ranges in rising order, those that meet joined. -/
def joinRuns : List (Nat × Nat) → List (Nat × Nat)
  | [] => []
  | p :: r => match joinRuns r with
    | [] => [p]
    | q :: t => if q.1 ≤ p.1 + p.2 then (p.1, max p.2 (q.1 + q.2 - p.1)) :: t else p :: q :: t

/-- The first byte of a shadow destination that does not consist of whole pages (R238). -/
def Req.misaligned (h : Here) (r : Req) : Option Nat :=
  if !r.shadow || r.bad then none
  else ((joinRuns (((r.cmd h 0 0 none []).ranges true).foldr insertRun [])).find? fun p => p.1 % 65536 != 0 || p.2 % 65536 != 0).map (·.1)

/-- The order in which one of the faults is raised: cause, destination before source, command, address (R230). -/
def touchKey (t : Touch) (c : Cause) : List Nat := [faultRank c, if t.dst then 0 else 1, t.idx, t.addr]

def keyLt : List Nat → List Nat → Bool
  | a :: r, b :: t => a < b || (a == b && keyLt r t)
  | _, _ => false

/-- The checks at issue: the one fault that is raised, or what each piece reached; arriving slots make the issue wait. -/
def checkTouches (h : Here) (s : State) (rs : List Req) : Except Stop (List (Touch × Reach)) :=
  let ts := (rs.zipIdx.flatMap fun p => Req.touches h p.2 p.1).map fun t => (t, touchReach h s t)
  let align := rs.zipIdx.filterMap fun p => (Req.misaligned h p.1).map fun a =>
    (({ idx := p.2, lane := p.1.lane, dst := true, shadow := true, addr := a, len := 0 } : Touch), Cause.align)
  let bad := align ++ ts.filterMap fun p => match p.2 with | .fault c => some (p.1, c) | _ => none
  match bad with
  | b :: r =>
    let w := r.foldl (fun m p => if keyLt (touchKey p.1 p.2) (touchKey m.1 m.2) then p else m) b
    .error (.trap { cause := w.2, addr := w.1.addr, info := openInfo w.1.addr w.1.dst, after := false
                    lanes := if h.isSlice then laneMask ((bad.filter fun p => p.2 == w.2).map fun p => p.1.lane) else 0 })
  | [] => if ts.any fun p => p.2 == .wait then waitHere s else .ok ts

/-! ## Creation (R224, R226, R228, R234, R238) -/

/-- The translations that a command has from its issue: those of the windows (R233). -/
def windowTrans (ts : List (Touch × Reach)) (i : Nat) : List (Bool × Nat × Nat × Bool) :=
  ts.foldl (fun l p =>
    if p.1.idx ≠ i || l.any (fun t => t.1 == p.1.dst && t.2.1 == p.1.addr / 65536) then l
    else match p.2 with
      | .ok (.direct k) _ | .ok (.tiller k) _ => l ++ [(p.1.dst, p.1.addr / 65536, k - p.1.addr % 65536, false)]
      | _ => l) []

/-- The destination pages of a command. -/
def Cmd.pages (c : Cmd) (dst : Bool) : List Nat :=
  (((c.ranges dst).flatMap fun g => pagePieces g.1 g.2).map fun p => p.1 / 65536 * 65536).dedup

/-- The shadow translations of pages whose leaf is known; none where a page is mapped by a larger leaf (REASON 3). -/
def State.shadowTrans (s : State) (ctx : Nat) : List Nat → Option (List (Bool × Nat × Nat × Bool))
  | [] => some []
  | va :: r =>
    match s.shadowTrans ctx r, s.stage1 ctx va with
    | some l, some (reg, ia) =>
      (match s.stage2 ia with
       | .leaf _ _ _ lv =>
         if lv ≠ 3 then none
         else match lookup? (ia / 65536) (s.ctx ctx).shadow with
           | some f => some ((true, va / 65536, f * 65536, rightX reg) :: l)
           | none => some l
       | _ => some l)
    | r, _ => r

/-- The virtual destination pages of a request that had W and X at its check (R295). -/
def markedPages (ts : List (Touch × Reach)) (i : Nat) : List Nat :=
  (ts.filterMap fun p => match p.2 with
    | .ok _ true => if p.1.idx = i ∧ p.1.dst then some (p.1.addr / 65536) else none
    | _ => none).dedup

/-- The command of request `i`, which its unit is to create; STATE 5 with REASON 1 stands for an invalid operand or descriptor. -/
def Req.toCmd (r : Req) (h : Here) (issue : Nat) (tag : Option Nat) (bumped : List (Nat × Nat)) (ts : List (Touch × Reach)) (i : Nat) : Cmd :=
  { (r.cmd h 0 issue tag bumped) with
    trans := windowTrans ts i, marks := markedPages ts i, st := if r.bad then 5 else 0, reason := if r.bad then 1 else 0 }

/-- Adds one command to its block; STATE 5 and STATE 1 are reached at once where nothing is to be done. -/
def createOne (ctx b : Nat) (c : Cmd) (s : State) : State × Nat :=
  match s.blk? b with
  | none => (s, 0)
  | some x =>
    let seq := x.nextSeq
    let c0 := { c with seq := seq, st := 0, reason := 0 }
    let add (c : Cmd) (t : State) : State := t.mapBlk b fun y =>
      { y with cmds := keepCmds (y.cmds ++ [c]), nextSeq := if seq = 65535 then 1 else seq + 1 }
    let refuse (n : Nat) (t : State) : State := (add c0 t).endCmds b (·.seq == seq) 5 0 n
    let empty := c0.coll.isNone && (c0.ranges true).all fun g => g.2 == 0
    if c.st = 5 then (refuse c.reason s, seq)
    else if empty then ((add c0 s).endCmds b (·.seq == seq) 1 0 0, seq)
    else if !c0.shadow then (add c0 s, seq)
    else
      match s.takeShadow ctx (c0.pages true) with
      | none => (refuse 2 s, seq)
      | some t => match t.shadowTrans ctx (c0.pages true) with
        | none => (refuse 3 s, seq)
        | some l => (add { c0 with trans := c0.trans ++ l } t, seq)

/-- The fields in which the members of a collective must agree (R245). -/
def CollRec.same (a b : CollRec) : Bool :=
  a.kind == b.kind && a.op == b.op && a.ty == b.ty && a.count == b.count && a.root == b.root

/-- A collective forms once all its ranks have issued (R245). -/
def formColl (ctx b seq : Nat) (s : State) : State :=
  match (s.blk? b).bind fun x => x.cmds.find? fun c => c.seq == seq && c.st == 0 with
  | none => s
  | some c => match c.coll with
    | none => s
    | some r =>
      let ms := s.collOf ctx c
      let rs := ms.filterMap fun p => p.2.coll
      if ms.length ≠ r.nrank then s
      else if !(rs.all r.same && ms.all (fun p => p.2.shadow == c.shadow) && rs.all fun q => (rs.filter (·.rank == q.rank)).length == 1) then
        ms.foldl (fun t p => t.endCmds p.1 (·.seq == p.2.seq) 4 0 0) s
      else
        let form (d : Cmd) : Cmd := { d with coll := d.coll.map fun q => { q with formed := true, no := s.env.fresh } }
        let s1 := ms.foldl (fun t p => t.mapBlk p.1 fun y =>
          { y with cmds := y.cmds.map fun d => if d.seq = p.2.seq ∧ d.st = 0 then form d else d }) s.bump
        if r.count = 0 then ms.foldl (fun t p => t.endCmds p.1 (·.seq == p.2.seq) 1 0 0) s1 else s1

/-- Whether a request needs a scoreboard entry: its destination lies in a bank of the core (R234). -/
def needsEntry (s : State) (core : Nat) (ts : List (Touch × Reach)) (i : Nat) : Bool :=
  ts.any fun p => p.1.idx == i && p.1.dst && (match p.2 with | .ok (.direct k) _ | .ok (.tiller k) _ => s.coreBank core k | _ => false)

/-- Whether a die accepts no engine command while a division change is pending (R373). -/
def State.divPending (s : State) (die : Nat) : Bool := s.chip.spPend.getD die false

/-- The checks of an issue, every byte of every command before any of them is created; then its commands, by `sv.lane`, and its tag
counted (R228, R230). It acts at the head of its program order (R275). -/
def prepCmds (h : Here) (tag : Option Nat) (rs : List Req) (s : State) : Except Stop (State × List (Nat × Cmd)) := do
  let ts ← checkTouches h s rs
  let x ← blkHere h s
  let gs := match tag with | some _ => s.ctrGroups h.u | none => []
  let need := (rs.zipIdx.filter fun p => needsEntry s x.core ts p.2).length
  if rs = [] then .ok (s, [])
  else if !s.atHead h.u || s.divPending (dieOf x.core) || !s.windowsDrained h.u then waitHere s
  else if 64 < (x.cmds.filter (·.st == 0)).length + rs.length then waitHere s
  else if need ≠ 0 && Config.scoreboardPerCore < (s.board x.core).length + need then waitHere s
  else if (match tag with | some w => s.ctrFull gs w | none => false) then waitHere s
  else
    let s1 := match tag with | some w => s.bump.bumpCtrs gs w (· + 1) | none => s.bump
    .ok (s1, rs.zipIdx.map fun p => (p.1.lane.l, p.1.toCmd h s.env.fresh tag gs ts p.2))

/-- Creates up to `n` commands in order, one per step of the reference machine (R225, R275); the unit holds the rest meanwhile. -/
def createUpTo (h : Here) : Nat → List (Nat × Cmd) → List (Nat × Nat) → State → State × List (Nat × Cmd) × List (Nat × Nat)
  | _, [], got, s => (s, [], got)
  | 0, rest, got, s => (s, rest, got)
  | n + 1, (l, c) :: r, got, s =>
    let (t, seq) := createOne h.ctx h.b c (s.mapSeq h.u fun q => { q with park := .cmds r got })
    createUpTo h n r (got ++ [(l, seq)]) (formColl h.ctx h.b seq t)

/-- The commands of an issue are created, and their tickets written once all of them exist. -/
def createCmds (o : Out) (h : Here) (n : Nat) (rest : List (Nat × Cmd)) (got : List (Nat × Nat)) (s : State) : Body :=
  let (t, r, g) := createUpTo h n rest got s
  if r = [] then .ok (writeResults h o (g.map fun p => (⟨h.b, h.g, p.1⟩, p.2)) t)
  else .error (.stay (t.mapSeq h.u fun q => { q with park := .cmds r g }))

/-- Commands that one step of a unit creates: at least one. -/
def cmdBudget (s : State) : Nat := max 1 s.env.budget

/-! ## `cpy` (R242) -/

def cpyReq (sh : Bool) (p : LaneId × List Nat) : Req :=
  { lane := p.1, segs := [{ dst := p.2.headD 0, src := (p.2.drop 1).headD 0, len := (p.2.drop 2).headD 0 }], coll := none,
    shadow := sh, bad := false }

def cpyBody (o : Out) (dst src size : Src) (tag : Option Nat) (sh : Bool) (h : Here) (s : State) : Body :=
  match h.q.park with
  | .cmds rest got => createCmds o h (cmdBudget s) rest got s
  | _ => do
    let xs ← laneAddrs h s 7 [(dst, .addr), (src, .addr), (size, .w32)]
    readyResult h s o
    memBars h s false false
    let (t, cs) ← prepCmds h tag (xs.map (cpyReq sh)) s
    createCmds o h (cmdBudget s) cs [] t

def execCpy (o : Out) (dst src size : Src) (tag : Option Nat) (sh : Bool) (s : State) : Host.Outcome State Fault Refusal :=
  runInstr (cpyBody o dst src size tag sh) s

/-! ## Descriptors (R243, R245) -/

/-- Reads the descriptors of the executing lanes as an ordinary load, and waits for them (R189). -/
def readDescs (o : Out) (h : Here) (s : State) (desc : Src) : Except Stop (State × List (LaneId × List Byte)) := do
  let id ← (match h.q.park with
    | .access id => .ok (s, id)
    | _ => do
      let xs ← laneAddrs h s 7 [(desc, .addr)]
      readyResult h s o
      memBars h s false false
      let ls ← checkLanes h s .load true (fun a => openInfo a false)
        (xs.map fun p => { laneAcc p.1.g p.1.l 0 64 (.known (p.2.headD 0)) (.known 0) [] with size := 64 })
      .ok (sendAccess h .load 64 0 none none ls s, s.env.fresh))
  let (t, a) ← awaited h id.1 id.2
  .ok (t.mapSeq h.u fun q => { q with park := .access id.2 },
    match a with
    | some a => a.lanes.map fun y => (⟨h.b, y.g, y.l⟩, y.got)
    | none => [])

/-- The descriptor's access is over. -/
def dropDescs (h : Here) (s : State) : State :=
  match s.seq? h.u with
  | none => s
  | some q => match q.park with
    | .access id => (match s.access? id with | some a => s.dropAcc a | none => s)
    | _ => s

def field (bs : List Byte) (off n : Nat) : Nat := leNat ((bs.drop off).take n)

/-- The rows that a `cpyd` descriptor names, ascending plane, then row. -/
def cpydReq (sh : Bool) (p : LaneId × List Byte) : Req :=
  let f := field p.2
  let len := f 16 4
  let segs := if len = 0 ∨ f 20 4 = 0 ∨ f 40 4 = 0 then [Seg.mk (f 0 8) (f 8 8) 0] else (List.range (f 40 4)).flatMap fun pl => (List.range (f 20 4)).map fun r =>
    Seg.mk ((f 0 8 + pl * f 56 8 + r * f 32 8) % 2 ^ 64) ((f 8 8 + pl * f 48 8 + r * f 24 8) % 2 ^ 64) len
  { lane := p.1, segs := segs, coll := none, shadow := sh, bad := f 44 4 != 0 }

/-- A `coll` descriptor. -/
def collReq (sh : Bool) (p : LaneId × List Byte) : Req :=
  let f := field p.2
  let w := f 20 4
  let r : CollRec :=
    { src := f 0 8, dst := f 8 8, count := f 16 4, kind := bitsOf w 0 4, op := bitsOf w 4 4, ty := bitsOf w 8 4,
      nrank := f 24 4, rank := f 28 4, collid := f 32 4, peers := f 40 8, root := f 48 4, formed := false }
  let bad := 3 < r.kind || 2 < r.op || !([0, 1, 4, 6, 7].contains r.ty) || w / 2 ^ 12 != 0 || r.nrank < 2 || 4096 < r.nrank ||
    r.nrank ≤ r.rank || f 36 4 != 0 || r.nrank ≤ r.root || f 52 12 != 0
  { lane := p.1, segs := [{ dst := r.dst, src := r.src, len := r.dstLen }], coll := some r, shadow := sh, bad := bad }

def descBody (o : Out) (desc : Src) (tag : Option Nat) (mk : LaneId × List Byte → Req) (h : Here) (s : State) : Body :=
  match h.q.park with
  | .cmds rest got => createCmds o h (cmdBudget s) rest got s
  | _ => do
    let (t, xs) ← readDescs o h s desc
    let (t2, cs) ← prepCmds h tag (xs.map mk) t
    createCmds o h (cmdBudget s) cs [] (dropDescs h t2)

def execCpyd (o : Out) (desc : Src) (tag : Option Nat) (sh : Bool) (s : State) : Host.Outcome State Fault Refusal :=
  runInstr (descBody o desc tag (cpydReq sh)) s

def execColl (o : Out) (desc : Src) (tag : Option Nat) (sh : Bool) (s : State) : Host.Outcome State Fault Refusal :=
  runInstr (descBody o desc tag (collReq sh)) s

/-! ## `gat`, `sct` (R244) -/

/-- The one command of the executing lanes; `mk` gives an element's stream from the lane's address, the base, the size and
`sv.lane`. -/
def spreadBody (o : Out) (base addr size : Src) (tag : Option Nat) (mk : Nat → Nat → Nat → Nat → Seg) (h : Here) (s : State) :
    Body := do
  let xs ← laneAddrs h s 7 [(base, .addr), (addr, .addr), (size, .w32)]
  readyResult h s o
  match xs with
  | [] => .ok (writeResults h o [] s)
  | x :: r =>
    let b := x.2.headD 0
    let n := (x.2.drop 2).headD 0
    let diff := r.filter fun p => p.2.headD 0 != b || (p.2.drop 2).headD 0 != n
    if diff ≠ [] then .error (trapL .nonuniform (diff.map (·.1)))
    else do
      memBars h s false false
      let lane (p : LaneId × List Nat) : Nat := if h.isSlice then p.1.l else 0
      let req : Req := { lane := x.1, segs := xs.map fun p => mk ((p.2.drop 1).headD 0) b n (lane p), coll := none, shadow := false,
                         bad := n == 0 || 65536 < n }
      let (t, cs) ← prepCmds h tag [req] s
      let (t, _, got) := createUpTo h 1 cs [] t
      .ok (writeResults h o (xs.map fun p => (p.1, ((got.head?.map (·.2)).getD 0))) t)

def execGat (o : Out) (base addr size : Src) (tag : Option Nat) (s : State) : Host.Outcome State Fault Refusal :=
  runInstr (spreadBody o base addr size tag fun a b n l => { dst := (b + l * n) % 2 ^ 64, src := a, len := n }) s

def execSct (o : Out) (addr base size : Src) (tag : Option Nat) (s : State) : Host.Outcome State Fault Refusal :=
  runInstr (spreadBody o base addr size tag fun a b n l => { dst := a, src := (b + l * n) % 2 ^ 64, len := n }) s

/-! ## `ewait`, `epoll`, `ecancel` (R226, R246, R248) -/

def epollBody (o : Out) (ticket : Src) (h : Here) (s : State) : Body := do
  let xs ← laneAddrs h s 7 [(ticket, .w32)]
  readyResult h s o
  let x ← blkHere h s
  if !s.atHead h.u then waitHere s else
  .ok (writeResults h o (xs.map fun p => (p.1, x.ticketWord (p.2.headD 0))) s)

def execEpoll (o : Out) (ticket : Src) (s : State) : Host.Outcome State Fault Refusal := runInstr (epollBody o ticket) s

/-- `ewait` of a slice or group clause: the destination is late with a new symbol. -/
def ewaitLate (o : Out) (xs : List (LaneId × List Nat)) (h : Here) (s : State) : Body :=
  if xs = [] then .ok (writeResults h o [] s)
  else
    let q := s.quarter h.b h.g
    match s.freeSym q with
    | none => waitHere s
    | some n =>
      let t := newSym q n h.b h.g (.tickets h.b (xs.map fun p => (p.1.l, p.2.headD 0 % 65536))) s
      let cs := freshCells q n 4
      .ok (if h.isSlice then loadSliceDst h o 4 (xs.map (·.1)) cs t else loadUpperDst h o 4 cs t)

/-- `ewait`; where no lane executes it takes no symbol (DESIGN CHOICE log 128). -/
def ewaitBody (o : Out) (ticket : Src) (h : Here) (s : State) : Body := do
  let xs ← laneAddrs h s 7 [(ticket, .w32)]
  readyResult h s o
  if h.u.rank ≤ 2 then ewaitLate o xs h s
  else do
    let x ← blkHere h s
    if s.atHead h.u then .ok () else waitHere s
    let q := ((xs.head?.map fun p => p.2.headD 0)).getD 0
    if x.ticketFinal q then .ok (writeResults h o (xs.map fun p => (p.1, x.ticketWord q)) s) else parkHere h .waiting s

def execEwait (o : Out) (ticket : Src) (s : State) : Host.Outcome State Fault Refusal := runInstr (ewaitBody o ticket) s

def ecancelBody (ticket : Option Src) (h : Here) (s : State) : Body := do
  match ticket with
  | none => do
    if h.isSlice then .ok () else gate h s
    if !s.atHead h.u then waitHere s
    else .ok (if h.isSlice && h.active s = [] then s else s.cancelAll h.b)
  | some t => do
    let xs ← laneAddrs h s 7 [(t, .w32)]
    if !s.atHead h.u then waitHere s
    else .ok (xs.foldl (fun r p => r.cancelCmds h.b fun c => c.seq == p.2.headD 0 % 65536) s)

def execEcancel (ticket : Option Src) (s : State) : Host.Outcome State Fault Refusal := runInstr (ecancelBody ticket) s

/-! ## `pub` (R247) -/

/-- Zeroes a 64 KiB frame of package memory and clears its draft marks. -/
def State.zeroFrame (s : State) (f : Nat) : State :=
  s.setMem { s.mem with bytes := s.mem.bytes.filter fun p => p.1 / 65536 != f
                        draft := s.mem.draft.filter fun l => l / 512 != f
                        holes := s.mem.holes.filter fun h => h.1 / 65536 != f }

/-- The monitors of a page follow it to its new frame and are re-evaluated there (R260, R292). -/
def State.moveMonitors (s : State) (old new : Nat) : State :=
  let move (m : Monitor) : Monitor := if m.key / 65536 = old then { m with key := new * 65536 + m.key % 65536 } else m
  let mons := s.qs.mons.map move
  let hit (m : Monitor) : Bool := m.key / 65536 == new && m.holds s
  (mons.filter hit).foldl (wakeMonitor 0) (s.setQs { s.qs with mons := mons.filter fun m => !hit m })

/-- Carried translations to a frame are given up: the streams translate the page again. -/
def State.forgetFrame (s : State) (ctx f : Nat) : State :=
  s.setBlks (s.blks.map fun x => if x.ctx ≠ ctx then x else
    { x with cmds := x.cmds.map fun c => if c.shadow then { c with trans := c.trans.filter fun t => t.1 || t.2.2.1 / 65536 != f }
                                         else { c with trans := c.trans.filter fun t => t.2.2.1 / 65536 != f } })

/-- Normal engine writes that stand in a queue for a frame follow the page to its new frame (R235, R247). -/
def State.moveWrites (s : State) (old new : Nat) : State :=
  s.setQs { s.qs with eq := s.qs.eq.map fun e => if !e.shadow && e.key / 65536 = old then { e with key := new * 65536 + e.key % 65536 } else e }

/-- One page of `pub`: the shadow frame becomes the current one, for the translation caches too, and the old one goes to the pool,
zeroed. -/
def swapPage (ctx page f : Nat) (s : State) : State :=
  match s.walkNow (page * 65536) with
  | .leaf pa _ at_ 3 =>
    let e := s.readNat (s.keyOf at_) 8
    let new := e - bitsOf e 16 41 * 65536 + (physKey s.chip.chipId.toNat (f * 65536) / 65536) % 2 ^ 41 * 65536
    let old := localOf pa / 65536
    let own := s.ownChip pa && isPackage (localOf pa)
    let s1 := ((s.pokeRaw (s.keyOf at_) (leBytes 8 new)).dropStale fun k => k == s.keyOf at_).setFrame f (mkFrameWord fsMapped false 0 ctx)
    let s2 := s1.mapCtx ctx fun c => { c with shadow := c.shadow.filter fun p => p.1 != page }
    if own then
      ((((s2.moveMonitors old f).moveWrites old f).zeroFrame old).setFrame old (mkFrameWord fsShadow false 0 ctx)).mapCtx ctx (fun c => { c with pool := c.pool ++ [old] }) |>.forgetFrame ctx old
    else s2
  | _ => s

/-- Whether a shadow-mode write to one of the pages is in flight in the context (R247, R275). -/
def State.shadowBusy (s : State) (ctx : Nat) (pages : List Nat) : Bool :=
  s.blks.any fun x => x.ctx == ctx && x.cmds.any fun c => c.st == 0 && c.shadow &&
    (c.pages true).any fun va => (match s.pageOf ctx va with | some p => pages.contains p | none => false)

def pubBody (o : Out) (base size : Src) (drop : Bool) (h : Here) (s : State) : Body := do
  let ns ← upNums h s [(base, .addr), (size, .w32)]
  readyResult h s o
  let b := ns.headD 0
  let n := (ns.drop 1).headD 0
  if b % 65536 ≠ 0 ∨ n % 65536 ≠ 0 then .error (.trap { cause := .align, addr := b, info := openInfo b true, lanes := 0, after := false })
  else do
    let req : Req := { lane := ⟨h.b, h.g, 0⟩, segs := [{ dst := b, src := b, len := n }], coll := none, shadow := false, bad := false }
    let ts := (Req.touches h 0 req).filter (·.dst) |>.map fun t => (t, touchReach h s t)
    let bad := ts.filterMap fun p => match p.2 with | .fault c => some (p.1, c) | _ => none
    match bad with
    | b :: r =>
      let w := r.foldl (fun m p => if keyLt (touchKey p.1 p.2) (touchKey m.1 m.2) then p else m) b
      .error (.trap { cause := w.2, addr := w.1.addr, info := openInfo w.1.addr true, lanes := 0, after := false })
    | [] => do
      let pages := (ts.filterMap fun p => if regionOf p.1.addr == .global then s.pageOf h.ctx p.1.addr else none).dedup
      let held := pages.filterMap fun p => (lookup? p (s.ctx h.ctx).shadow).map fun f => (p, f)
      match (if drop then none else held.find? fun p => (match s.stage2 (p.1 * 65536) with | .leaf .. => false | _ => true)) with
      | some p =>
        let at_ := ((ts.find? fun t => s.pageOf h.ctx t.1.addr == some p.1).map fun t => t.1.addr).getD b
        pageStop h s (p.1 * 65536) 3 { cause := .page, addr := at_, info := openInfo at_ true, lanes := 0, after := false }
      | none =>
        if s.shadowBusy h.ctx pages then waitHere s
        else
          let t := held.foldl (fun t p =>
            if drop then t.returnFrame h.ctx p.2 else swapPage h.ctx p.1 p.2 t) s
          .ok (writeOne h o held.length t)

def execPub (o : Out) (base size : Src) (drop : Bool) (s : State) : Host.Outcome State Fault Refusal :=
  runInstr (pubBody o base size drop) s

/-! ## Units (R232, R276) -/

/-- A run of bytes of a command: its offset in the command, its addresses, and its length. -/
structure Piece where
  off : Nat
  src : Nat
  dst : Nat
  len : Nat
  deriving DecidableEq, Repr

/-- The aligned 32-byte units of a stream, by its destination or its source. -/
def Seg.pieces (byDst : Bool) (base : Nat) (g : Seg) : List Piece :=
  let a := if byDst then g.dst else g.src
  if g.len = 0 then []
  else (List.range ((a % 32 + g.len + 31) / 32)).map fun i =>
    let lo := if i = 0 then 0 else 32 * i - a % 32
    let hi := min g.len (32 * (i + 1) - a % 32)
    { off := base + lo, src := (g.src + lo) % 2 ^ 64, dst := (g.dst + lo) % 2 ^ 64, len := hi - lo }

def piecesOf (byDst : Bool) : Nat → List Seg → List Piece
  | _, [] => []
  | base, g :: r => Seg.pieces byDst base g ++ piecesOf byDst (base + g.len) r

/-- The units that a command reads: source units, or for a collective the units of its result. -/
def Cmd.units (c : Cmd) : List Piece := piecesOf c.coll.isSome 0 c.segs
/-- The writes of a command, in its own order. -/
def Cmd.writes (c : Cmd) : List Piece := piecesOf true 0 c.segs

/-- A write has drained: its bytes were read, and they stand neither in the buffer nor in the engine queue. -/
def State.drained (s : State) (b : Nat) (c : Cmd) (w : Piece) (idx : Nat) : Bool :=
  let got := c.units.zipIdx.filter fun u => c.read.contains u.2
  ((List.range w.len).all fun o => got.any fun u => u.1.off ≤ w.off + o && w.off + o < u.1.off + u.1.len) &&
    !(c.buf.any fun p => w.off ≤ p.1 && p.1 < w.off + w.len) &&
    !(s.qs.eq.any fun e => e.b == b && e.seq == c.seq && e.idx == idx)

/-- The accesses that precede a command in the orders of its issuer; in each order, up to its first poisoned store record, behind which
nothing performs (R189, R231). -/
def State.beforeCmd (s : State) (c : Cmd) : List Access :=
  let mine := s.qs.accs.filter fun a => a.id < c.issue && (match c.unit with
    | .block b => a.unit.block? == some b
    | u => orderOf a.unit == orderOf u)
  mine.filter fun a => !(s.qs.accs.any fun b => b.id ≤ a.id && b.poison.isSome && s.inOrder a.unit b.unit)

/-- Every earlier memory access of the issuer has performed. -/
def State.cmdMayRead (s : State) (c : Cmd) : Bool :=
  let prior := s.beforeCmd c
  !prior.any Access.open && prior.all fun a =>
    !(s.qs.tq.any (·.acc == a.id)) && !(s.qs.mq.any (·.acc == a.id)) && !(s.qs.sq.any (·.acc == a.id))

/-- A byte of M as a command reads it: as it stood before the command wrote anything (R232). -/
def Cmd.sees (c : Cmd) (s : State) (key : Nat) : Byte := (lookup? key c.before).getD (readByte s.mem.bytes key)

/-- Whether a byte of M may be read or written by an engine now: no late-data store holds it back, and no flip holds its page. -/
def State.keyFree (s : State) (key : Nat) : Bool := !s.holed key 1 && !s.heldPage key

/-- The path to a byte of M stands: the host link is up, or a route to the peer is usable, where the byte lies beyond one (R233,
R375, R382). -/
def State.pathUp (s : State) (key : Nat) : Bool :=
  if 2 ^ 57 ≤ key ∧ key < 2 ^ 60 then s.routeUp (chipOf (key - 2 ^ 57))
  else if key < 2 ^ 57 ∧ (Config.hostWindow ≤ key ∨ s.hostBias key) then s.chip.hostUp
  else true

/-- An engine line of a context pays its token where a unit of the global region begins a line (R193). -/
def State.payEngine (s : State) (ctx va : Nat) (first : Bool) : Option State :=
  if regionOf va = .global ∧ (va % 128 = 0 ∨ first) then
    match s.stage1 ctx va with
    | some (_, ia) => s.payOne (homeSlice ia) ctx
    | none => some s
  else some s

/-- The keys of a run of bytes; none where a page is not translated. -/
def Cmd.keys (c : Cmd) (dst : Bool) (va len : Nat) : Option (List Nat) :=
  let ks := (List.range len).map fun o => c.key? dst ((va + o) % 2 ^ 64)
  if ks.all Option.isSome then some (ks.filterMap id) else none

/-! ## Collectives (R245) -/

/-- One step of OP. -/
def collOp (r : CollRec) (a b : Nat) : Nat :=
  let f : FFmt := FFmt.of (if r.ty = 4 then .f32 else if r.ty = 6 then .f16 else .bf16)
  if r.ty ≤ 1 then
    (match r.op with
     | 0 => (a + b) % 2 ^ 32
     | 1 => if r.ty = 1 then min a b else (if signedOf 32 a ≤ signedOf 32 b then a else b)
     | _ => if r.ty = 1 then max a b else (if signedOf 32 a ≤ signedOf 32 b then b else a))
  else
    (match r.op with
     | 0 => (fltAdd f ⟨.rne, false, false⟩ (f.read a) (f.read b)).1
     | 1 => (fltMinMax f false a b).1
     | _ => (fltMinMax f true a b).1)

/-- Combines the contributions pairwise, in an order that nothing fixes. -/
def collFold (r : CollRec) (issue elem : Nat) : Nat → List Nat → Nat
  | 0, xs => xs.headD 0
  | n + 1, xs =>
    match xs with
    | [] => 0
    | [x] => x
    | _ =>
      let i := Config.collOrder issue elem (2 * n) % xs.length
      let x := xs.getD i 0
      let rest := xs.eraseIdx i
      let j := Config.collOrder issue elem (2 * n + 1) % rest.length
      collFold r issue elem n (collOp r x (rest.getD j 0) :: rest.eraseIdx j)

/-- An element of a member's source, as it stood before that member wrote anything. -/
def srcElem (s : State) (m : Cmd) (i : Nat) : Option Nat :=
  m.coll.bind fun r => (m.keys false ((r.src + i * r.elem) % 2 ^ 64) r.elem).bind fun ks =>
    if ks.all s.keyFree then some (leNat (ks.map (m.sees s))) else none

/-- Element i of a rank's result; none while a source is not translated. -/
def collElem (s : State) (ms : List Cmd) (c : Cmd) (r : CollRec) (i : Nat) : Option Nat :=
  let rank (q : Nat) : Option Cmd := ms.find? fun m => (m.coll.map (·.rank)) == some q
  match r.kind with
  | 2 => (rank (i / r.count)).bind fun m => srcElem s m (i % r.count)
  | 3 => (rank r.root).bind fun m => srcElem s m i
  | k =>
    let at_ := if k = 1 then r.rank * r.count + i else i
    let vs := (List.range r.nrank).map fun q => (rank q).bind fun m => srcElem s m at_
    if vs.all Option.isSome then some (collFold r c.issue i r.nrank (vs.filterMap id)) else none

/-- The bytes that a unit reads: none where the step is not enabled. -/
def unitBytes (s : State) (x : Blk) (c : Cmd) (p : Piece) : Option (List Byte) :=
  match c.coll with
  | none =>
    (c.keys false p.src p.len).bind fun ks => if ks.all s.keyFree then some (ks.map (c.sees s)) else none
  | some r =>
    if !r.formed then none
    else
      let ms := (s.collOf x.ctx c).map (·.2)
      if !ms.all s.cmdMayRead then none
      else
        let es := r.elem
        let bs := (List.range p.len).map fun o => (collElem s ms c r ((p.off + o) / es)).map fun v => (leBytes es v).getD ((p.off + o) % es) 0
        if bs.all Option.isSome then some (bs.filterMap id) else none

/-! ## ENGINE_READ, DRAIN_ENGINE_WRITE (R276) -/

def State.mapCmd (s : State) (b seq : Nat) (f : Cmd → Cmd) : State :=
  s.mapBlk b fun x => { x with cmds := x.cmds.map fun c => if c.seq = seq ∧ c.st = 0 then f c else c }

/-- A pending command of a block. -/
def Blk.pending? (x : Blk) (seq : Nat) : Option Cmd := x.cmds.find? fun c => c.seq == seq && c.st == 0

/-- The path of a byte outside the part's own order, touched by the engine (R376, R377). -/
def State.engTouch (s : State) (key : Nat) (write : Bool) : State :=
  if key < 2 ^ 57 ∧ (Config.hostWindow ≤ key ∨ s.hostBias key) then s.hccTouch key write else s

/-- The writes whose bytes are all in the buffer. -/
def fullWrites (c : Cmd) (p : Piece) (buf : List (Nat × Byte)) : List (Piece × Nat) :=
  c.writes.zipIdx.filter fun w => w.1.off < p.off + p.len && p.off < w.1.off + w.1.len &&
    (List.range w.1.len).all fun o => (lookup? (w.1.off + o) buf).isSome

/-- The bytes of a unit reach the command: writes that are whole join the engine queue. -/
def takeUnit (x : Blk) (c : Cmd) (n : Nat) (p : Piece) (bs : List Byte) (s : State) : State :=
  let buf := c.buf ++ bs.zipIdx.map fun q => (p.off + q.2, q.1)
  let full := fullWrites c p buf
  let es := full.filterMap fun w => (c.key? true w.1.dst).map fun k =>
    ({ b := x.id, seq := c.seq, idx := w.2, vaddr := w.1.dst, key := k
       data := (List.range w.1.len).map fun o => (lookup? (w.1.off + o) buf).getD 0
       shadow := c.shadow
       mark := (c.trans.find? fun t => t.1 && t.2.1 == w.1.dst / 65536).any fun t => t.2.2.2 } : EEntry)
  let left := buf.filter fun q => !(full.any fun w => w.1.off ≤ q.1 && q.1 < w.1.off + w.1.len)
  let s1 := s.mapCmd x.id c.seq fun d => { d with read := d.read ++ [n], buf := left }
  s1.setQs { s1.qs with eq := s1.qs.eq ++ es }

/-- Every destination page that a unit's writes reach is translated; a shadow command has all of them (R238). -/
def Cmd.dstReady (c : Cmd) (p : Piece) : Bool :=
  if c.shadow then (c.pages true).all fun va => (c.key? true va).isSome
  else c.writes.all fun w => !(w.off < p.off + p.len && p.off < w.off + w.len) || (c.key? true w.dst).isSome

/-- The channel freezes before a refused unit, and its record is posted (R233, R342). -/
def refuseCmd (x : Blk) (c : Cmd) (cause : Cause) (va : Nat) (s : State) : State :=
  ((s.bump.mapBlk x.id fun y => { y with frozen := true }).mapCmd x.id c.seq fun d => { d with refused := some cause }).addRecord
    (s.engineRecord x c cause va 0)

/-- The members that read for a unit of a command, with their blocks: the command itself, or its formed collective's. -/
def State.readers (s : State) (x : Blk) (c : Cmd) : List (Nat × Cmd) := if c.coll.isNone then [(x.id, c)] else s.collOf x.ctx c

/-- The command whose source lies behind a path that does not stand, or that the far chip refuses, with the byte's address. -/
def State.refusedRead (s : State) (x : Blk) (c : Cmd) (p : Piece) : Option (Blk × Cmd × Nat) :=
  let down (d : Cmd) (va len : Nat) : Bool := ((d.keys false va len).getD []).any fun k =>
    !s.pathUp k || (s.env.refused && 2 ^ 57 ≤ k && k < 2 ^ 60)
  if c.coll.isNone then (if down c p.src p.len then some (x, c, p.src) else none)
  else (s.readers x c).findSome? fun m =>
    (((m.2.ranges false).flatMap fun g => pagePieces g.1 g.2).find? fun g => down m.2 g.1 1).bind fun g =>
      (s.blk? m.1).map fun y => (y, m.2, g.1)

/-- ENGINE_READ: a pending command reads one unit; `dataErr` says that its source data has an uncorrectable error; a source behind a
route or host link that is down, or that the far chip refuses, freezes its channel (R233, R382). -/
def execEngineRead (b seq unit : Nat) (dataErr : Bool) (s : State) : Host.Outcome State Fault Refusal :=
  match s.blk? b with
  | none => .next s
  | some x =>
    match x.pending? seq, x.frozen with
    | some c, false =>
      (match c.units[unit]? with
       | none => .next s
       | some p =>
         if c.read.contains unit || !s.cmdMayRead c || !c.dstReady p then .next s
         else match s.refusedRead x c p with
         | some (y, d, va) => .next (refuseCmd y d .isolation va s)
         | none => match unitBytes s x c p, s.payEngine x.ctx p.src (p.off == 0) with
           | some bs, some s0 =>
             if dataErr then .next (s.faultCmd x c .dataerr p.src 5)
             else
               let s1 := match c.coll, c.keys false p.src p.len with
                 | none, some (k :: _) => s0.engTouch k false
                 | _, _ => s0
               .next (takeUnit x c unit p bs s1)
           | _, _ => .next s)
    | _, _ => .next s

/-- Whether a command has read every unit and drained every write. -/
def State.cmdDrained (s : State) (b : Nat) (c : Cmd) : Bool :=
  (List.range c.units.length).all c.read.contains && c.buf.isEmpty && !(s.qs.eq.any fun e => e.b == b && e.seq == c.seq)

/-- A command whose units have been read and whose writes have drained reaches STATE 1; the members of a collective reach it
together (R235, R276). -/
def State.finishCmd (s : State) (b seq : Nat) : State :=
  match (s.blk? b).bind fun x => (x.pending? seq).map fun c => (x, c) with
  | none => s
  | some (x, c) =>
    if !s.cmdDrained b c then s
    else if c.coll.isNone then s.endCmds b (·.seq == seq) 1 0 0
    else
      let ms := s.collOf x.ctx c
      if ms.all fun p => s.cmdDrained p.1 p.2 then ms.foldl (fun t p => t.endCmds p.1 (·.seq == p.2.seq) 1 0 0) s else s

/-- Whether two runs of bytes meet. -/
def meets (a n b m : Nat) : Bool := a < b + m && b < a + n

/-- The byte of M that a write of a command would reach now: by its translation, else by the page's shadow frame or leaf. -/
def State.writeKey (s : State) (ctx : Nat) (c : Cmd) (va : Nat) : Option Nat :=
  (c.key? true va).or ((s.stage1 ctx va).bind fun p =>
    if c.shadow then (lookup? (p.2 / 65536) (s.ctx ctx).shadow).map fun f => f * 65536 + va % 65536
    else match s.route p.2 true with | .pkg k | .sys _ k => some k | _ => none)

/-- A write of a command reaches bytes of another one of its block: bytes of M, or in the same mode the same virtual or intermediate
addresses (R232, R235). -/
def State.reaches (s : State) (ctx : Nat) (c : Cmd) (w : Piece) (e : EEntry) : Bool :=
  let ia (va : Nat) : Option Nat := (s.stage1 ctx va).map (·.2)
  let meet (p q : Option Nat) : Bool := match p, q with | some a, some b => meets a w.len b e.data.length | _, _ => false
  (c.shadow == e.shadow && (meets w.dst w.len e.vaddr e.data.length || meet (ia w.dst) (ia e.vaddr))) ||
    meet (s.writeKey ctx c w.dst) (some e.key)

/-- The two conditions of R276 under which an entry drains. -/
def State.mayDrain (s : State) (x : Blk) (e : EEntry) : Bool :=
  match x.pending? e.seq with
  | none => false
  | some c =>
    let ok (d : Cmd) (w : Piece × Nat) : Bool := !s.reaches x.ctx d w.1 e || s.drained x.id d w.1 w.2
    (c.writes.zipIdx.all fun w => e.idx ≤ w.2 || ok c w) &&
      (x.cmds.all fun d => d.st != 0 || c.issue < d.issue || (c.issue == d.issue && c.seq ≤ d.seq) || d.writes.zipIdx.all (ok d)) &&
      (List.range e.data.length).all (fun o => !s.heldPage (e.key + o)) && !x.frozen

/-- DRAIN_ENGINE_WRITE: an entry of the block's engine queue is written; a path that is down, or a refusal of the far chip, freezes the
channel (R233, R382). -/
def execDrainEngineWrite (b idx : Nat) (s : State) : Host.Outcome State Fault Refusal :=
  match s.blk? b, (s.qs.eq.filter (·.b == b))[idx]? with
  | some x, some e =>
    if !s.mayDrain x e then .next s
    else if !s.pathUp e.key || (s.env.refused && 2 ^ 57 ≤ e.key && e.key < 2 ^ 60) then
      (match x.pending? e.seq with
       | some c => .next (refuseCmd x c .isolation e.vaddr s)
       | none => .next s)
    else match s.payEngine x.ctx e.vaddr (e.idx == 0) with
    | none => .next s
    | some s0 =>
      let n := e.data.length
      let olds := (List.range n).map fun o => (e.key + o, readByte s.mem.bytes (e.key + o))
      let keep (d : Cmd) : Cmd := { d with before := d.before ++ olds.filter fun p => (lookup? p.1 d.before).isNone }
      let s1 := (s0.engTouch e.key true).setQs { (s0.engTouch e.key true).qs with eq := s.qs.eq.erase e }
      let s2 := ((s1.poke e.key e.data).markDraft e.mark e.key n).mapCmd b e.seq keep
      .next (s2.finishCmd b e.seq)
  | _, _ => .next s

/-! ## PAGE_BOUNDARY_REVALIDATION (R233) -/

/-- The next global page that a command's streams have not translated: whether a destination, and its first byte there. -/
def Cmd.nextPage (c : Cmd) : Option (Bool × Nat) :=
  let of (dst : Bool) : List (Nat × Bool × Nat) := ((c.ranges dst).flatMap fun g =>
    (pagePieces g.1 g.2).map fun p => ((p.1 + 2 ^ 64 - g.1) % 2 ^ 64, dst, p.1)).filter fun p => (c.key? dst p.2.2).isNone
  ((of false ++ of true).foldl (fun m p => match m with
    | some (q : Nat × Bool × Nat) => if p.1 < q.1 then some p else some q
    | none => some p) none).map (·.2)

def execPageBoundaryRevalidation (b seq : Nat) (s : State) : Host.Outcome State Fault Refusal :=
  match s.blk? b with
  | none => .next s
  | some x =>
    match x.pending? seq, x.frozen with
    | some c, false =>
      if c.paused.isSome then .next s
      else (match c.nextPage with
       | none => .next s
       | some (dst, va) =>
         let carry (s : State) (k : Nat) (m : Bool) : State := s.mapCmd b seq fun d => { d with trans := d.trans ++ [(dst, va / 65536, k - va % 65536, m)] }
         match s.stage1 x.ctx va with
         | none => .next (refuseCmd x c .range va s)
         | some (r, ia) =>
           if !(if dst then rightW r else rightR r) then .next (refuseCmd x c .prot va s)
           else if s.heldIa ia then .next s
           else match s.route ia dst with
             | .refused => .next (refuseCmd x c .isolation va s)
             | .prot => .next (refuseCmd x c .prot va s)
             | .miss _ =>
               let (t, tag) := s.pageMiss ia 3
               .next (t.mapCmd b seq fun d => { d with paused := some tag })
             | .pkg k =>
               if s.heldPage k then .next s
               else
                 let mark := dst && c.marks.contains (va / 65536)
                 if !(c.shadow && dst) then .next (carry s k mark)
                 else (match s.stage2 ia with
                   | .leaf _ _ _ 3 =>
                     (match (s.takeShadow x.ctx [va]).map fun t => (t, lookup? (ia / 65536) (t.ctx x.ctx).shadow) with
                      | some (t, some f) => .next (carry t (f * 65536 + va % 65536) mark)
                      | _ => .next (s.endCmds b (·.seq == seq) 5 0 2))
                   | _ => .next (s.endCmds b (·.seq == seq) 5 0 3))
             | .sys _ k =>
               if s.heldPage k then .next s
               else if c.shadow && dst then .next (s.endCmds b (·.seq == seq) 5 0 3)
               else .next (carry s k false))
    | _, _ => .next s

/-! ## `thaw` of a channel, and the driver's answers (R233, R357) -/

/-- Resumes a channel at the refused unit. -/
def State.thawChannel (s : State) (b : Nat) : State :=
  s.mapBlk b fun x => { x with frozen := false, cmds := x.cmds.map fun c => { c with refused := none } }

/-- Kills a channel: its commands end in STATE 3 with the violation's cause (DEDUCED log 29). -/
def State.killChannel (s : State) (b : Nat) : State :=
  match s.blk? b with
  | none => s
  | some x =>
    let cause := (x.cmds.findSome? (·.refused)).getD .range
    let s1 := (x.cmds.filter fun c => c.st == 0).foldl (fun t c =>
      let t1 := t.endCmds b (·.seq == c.seq) 3 cause.code 0
      (if c.refused.isSome then t1 else t1.addRecord (t.engineRecord x c cause 0 0)).abortMembers x.ctx c) s
    s1.mapBlk b fun y => { y with frozen := false }

/-- The driver has answered a page request: streams go on, or end in STATE 3 (R233, R366). -/
def State.answerCmds (s : State) (tag : Nat) (ok : Bool) : State :=
  s.blks.foldl (fun t x => (x.cmds.filter fun c => c.st == 0 && c.paused == some tag).foldl (fun t c =>
    if ok then t.mapCmd x.id c.seq fun d => { d with paused := none }
    else match c.nextPage with
      | some (dst, va) => t.faultCmd x c .page va (if dst then 13 else 5)
      | none => t) t) s

end Sys2Proof.Machine
end

