-- ==== Sys2Proof/Machine/Sync.lean ====
section
/-! DEFINITION. Atomics, condition monitors and barriers (12_sync R249 to R271). -/

namespace Sys2Proof.Machine

/-! ## Atomics (R249 to R258) -/

/-- Bytes of an atomic of width w. -/
def atomBytes (wide : Bool) : Nat := if wide then 8 else 4

/-- A 32-bit result splits no pair of a late value in the lanes that write (R93). -/
def splitLate (s : State) (o : Option Out) (wide : Bool) (run : List LaneId) : List (Nat × Nat) :=
  match o with
  | some o => if wide then [] else run.flatMap (s.splitSyms o false)
  | none => []

/-- The registers an atomic names. -/
def atomRegs (o : Option Out) (wide : Bool) (srcs : List (Src × As)) : List (Nat × Nat) :=
  srcRegs srcs ++ (match o with | some o => outRegs o (if wide then 2 else 1) | none => [])

/-- The data of an atomic's lane: its operands in order. -/
def atomData (wide : Bool) (vs : List Val) : List Cell := vs.flatMap fun v => v.cells wide

/-- Sends an atomic of a slice or group clause: with a result, under a new symbol (R252). -/
def sendAtomic (k : AccKind) (o : Option Out) (wide : Bool) (run : List LaneId) (ls : List LaneAcc) (h : Here) (s : State) : Body :=
  let w := atomBytes wide
  let id := s.env.fresh
  match o with
  | none => .ok (performUpTo id s.env.budget (sendAccess h k w 0 none none ls s))
  | some d =>
    let q := s.quarter h.b h.g
    match s.freeSym q with
    | none => waitHere s
    | some n =>
      let t := sendAccess h k w 0 (some (q, n)) (some d) ls (newSym q n h.b h.g (.access id) s)
      let cs := freshCells q n w
      .ok (performUpTo id s.env.budget (if h.isSlice then loadSliceDst h d w run cs t else loadUpperDst h d w cs t))

def atomSlice (op : AtOp) (o : Option Out) (wide : Bool) (srcs : List (Src × As)) (h : Here) (s : State) : Body := do
  let w := atomBytes wide
  let k := AccKind.atomic op wide
  if h.boundsOk (atomRegs o wide srcs) then .ok () else .error (trapC .regbound)
  let run := h.execLanes s 7
  let ins ← readLanes s h run srcs
  memBars h s true false
  if run = [] then .ok (match o with | some d => s.latchOld h d wide | none => s)
  else do
    let late := ins.flatMap (fun r => r.2.flatMap Val.syms) ++ splitLate s o wide run
    if late ≠ [] then waitSyms s h.u late else .ok ()
    let ls ← checkLanes h s k true (fun _ => accInfo w true)
      (ins.map fun r => laneAcc r.1.g r.1.l 0 w (r.2.headD (.known 0)) (.known 0) (atomData wide (r.2.drop 1)))
    sendAtomic k o wide run ls h s

def atomUpper (op : AtOp) (o : Option Out) (wide : Bool) (srcs : List (Src × As)) (h : Here) (s : State) : Body :=
  let w := atomBytes wide
  let k := AccKind.atomic op wide
  match h.q.park, o with
  | .access id, some d => loadWait d w h s id
  | .access id, none => storePlaced h s id
  | _, _ => do
    gate h s
    let vs ← allOk (srcs.map fun q => s.readUpper h q.2 q.1)
    if h.boundsOk (atomRegs o wide srcs) then .ok () else .error (trapC .regbound)
    match o with | some d => readyUpper h s d wide | none => .ok ()
    memBars h s true false
    let late := vs.flatMap Val.syms
    if late ≠ [] then waitSyms s h.u late else .ok ()
    let ls ← checkLanes h s k true (fun _ => accInfo w true)
      [laneAcc h.g 0 0 w (vs.headD (.known 0)) (.known 0) (atomData wide (vs.drop 1))]
    if h.u.rank = 2 then sendAtomic k o wide [] ls h s
    else match o with
      | some d => loadWait d w h (sendAccess h k w 0 none (some d) ls s) s.env.fresh
      | none => storePlaced h (sendAccess h k w 0 none none ls s) s.env.fresh

/-- EVERY ATOMIC: the address, then the operands at width w. -/
def atomBody (op : AtOp) (o : Option Out) (wide : Bool) (srcs : List (Src × As)) (h : Here) (s : State) : Body :=
  if h.isSlice then atomSlice op o wide srcs h s else atomUpper op o wide srcs h s

/-- An integer operand of width w (R255). -/
def atomInt (wide uns : Bool) : As := .int (if uns then (if wide then .z64 else .z32) else (if wide then .s64 else .s32))

def execAadd (o : Option Out) (wide : Bool) (addr b : Src) (s : State) : Host.Outcome State Fault Refusal :=
  runInstr (atomBody .add o wide [(addr, .addr), (b, atomInt wide false)]) s
def execAmin (o : Option Out) (wide uns : Bool) (addr b : Src) (s : State) : Host.Outcome State Fault Refusal :=
  runInstr (atomBody (.min uns) o wide [(addr, .addr), (b, atomInt wide uns)]) s
def execAmax (o : Option Out) (wide uns : Bool) (addr b : Src) (s : State) : Host.Outcome State Fault Refusal :=
  runInstr (atomBody (.max uns) o wide [(addr, .addr), (b, atomInt wide uns)]) s
def execAand (o : Option Out) (wide : Bool) (addr b : Src) (s : State) : Host.Outcome State Fault Refusal :=
  runInstr (atomBody .and o wide [(addr, .addr), (b, atomInt wide false)]) s
def execAor (o : Option Out) (wide : Bool) (addr b : Src) (s : State) : Host.Outcome State Fault Refusal :=
  runInstr (atomBody .or o wide [(addr, .addr), (b, atomInt wide false)]) s
def execAxor (o : Option Out) (wide : Bool) (addr b : Src) (s : State) : Host.Outcome State Fault Refusal :=
  runInstr (atomBody .xor o wide [(addr, .addr), (b, atomInt wide false)]) s
def execAxchg (o : Option Out) (wide : Bool) (addr b : Src) (s : State) : Host.Outcome State Fault Refusal :=
  runInstr (atomBody .xchg o wide [(addr, .addr), (b, atomInt wide false)]) s
def execAcas (o : Option Out) (wide : Bool) (addr cmp new : Src) (s : State) : Host.Outcome State Fault Refusal :=
  runInstr (atomBody .cas o wide [(addr, .addr), (cmp, atomInt wide false), (new, atomInt wide false)]) s
def execAfadd (o : Option Out) (wide : Bool) (addr b : Src) (s : State) : Host.Outcome State Fault Refusal :=
  runInstr (atomBody .fadd o wide [(addr, .addr), (b, .flt (if wide then .f64 else .f32))]) s
def execAinc (o : Option Out) (wide : Bool) (addr bound : Src) (s : State) : Host.Outcome State Fault Refusal :=
  runInstr (atomBody .inc o wide [(addr, .addr), (bound, atomInt wide false)]) s

/-! ## `wcmp` (R259 to R261) -/

/-- What the address check of a `wcmp` lane finds: an intermediate address, or a stop. -/
inductive Watch
  | at (ia : Nat)
  | bad (c : Cause)
  deriving DecidableEq, Repr

/-- Address check as a load of a width, with the regions of R259. -/
def watchAddr (h : Here) (s : State) (x : LaneId) (a n : Nat) : Watch :=
  if a % n ≠ 0 then .bad .align
  else match regionOfSpan a n with
    | .global | .lane =>
      (match s.reach h.cls h.u h.ctx h.desc h.b x.g (if h.isSlice then x.l else 0) a n .r false false with
       | .ok (.inter ia) _ | .page _ ia => .at ia
       | .fault c => .bad c
       | _ => .bad .window)
    | _ => .bad .window

/-- Checks every lane's address; the first cause in the order of R189 is raised, with every lane that meets it. -/
def watchAll (h : Here) (s : State) (n : Nat) (xs : List (LaneId × List Nat)) : Except Stop (List (LaneId × Nat × List Nat)) :=
  let ws := xs.map fun p => (p.1, watchAddr h s p.1 (p.2.headD 0) n, p.2)
  match ws.filterMap fun p => match p.2.1 with | .bad c => some (p.1, c, p.2.2.headD 0) | .at _ => none with
  | b :: r =>
    let c := r.foldl (fun c p => if faultRank p.2.1 < faultRank c then p.2.1 else c) b.2.1
    let those := (b :: r).filter fun p => p.2.1 == c
    let at_ := ((those.head?).map fun p => p.2.2).getD 0
    .error (.trap { cause := c, addr := at_, after := false
                    info := accInfo n false
                    lanes := if h.isSlice then laneMask (those.map (·.1)) else 0 })
  | [] => .ok (ws.filterMap fun p => match p.2.1 with | .at ia => some (p.1, ia, p.2.2) | .bad _ => none)

/-- The monitors of a unit go, and it stands before its instruction, which has had no effect (R189). -/
def State.dropMonitors (s : State) (u : UnitRef) : State :=
  (s.setQs { s.qs with mons := s.qs.mons.filter fun m => m.unit != u }).mapSeq u fun q => { q with park := .none }

/-- A fault of a lane's read, precise at the instruction (R189). -/
def watchTrap (h : Here) (c : Cause) (n : Nat) (p : LaneId × Nat × List Nat) : Trap :=
  { cause := c, addr := p.2.2.headD 0, info := accInfo n false, after := false, lanes := if h.isSlice then laneMask [p.1] else 0 }

/-- The faults of the lanes that still have to read: PAGE where a page has no mapping, and DATAERR where the data read now has an
uncorrectable error (R189). -/
def watchPage (h : Here) (s : State) (n : Nat) (xs : List (LaneId × Nat × List Nat)) : Except Stop Unit :=
  match xs.find? fun p => match s.route p.2.1 false with | .miss _ => true | _ => false with
  | some p => pageStop h (s.dropMonitors h.u) p.2.1 0 (watchTrap h .page n p)
  | none =>
    match (if s.env.dataErr && s.env.budget != 0 then
        xs.find? fun p => match s.route p.2.1 false with | .pkg k => !(s.heldIa p.2.1 || s.heldPage k || s.holed k n) | _ => false
      else none) with
    | some p => .error (.stay (takeFault h.u h.pc (watchTrap h .dataerr n p) (s.dropMonitors h.u)))
    | none => .ok ()

/-- Whether a lane of a unit waits at a monitor. -/
def State.monitored (s : State) (u : UnitRef) (l : Nat) : Bool := s.qs.mons.any fun m => m.unit == u && m.lanes.contains l

/-- Adds a waiter: to an entry of the same issue, or to a free entry of the home slice; NOMONITOR where there is none. -/
def State.addMonitor (s : State) (m : Monitor) : Option State :=
  let same (x : Monitor) : Bool := x.unit == m.unit && x.vaddr == m.vaddr && x.key == m.key && x.rel == m.rel && x.uns == m.uns &&
    x.operand == m.operand && x.width == m.width && !x.callt
  if s.qs.mons.any same then
    some (s.setQs { s.qs with mons := s.qs.mons.map fun x => if same x then { x with lanes := x.lanes ++ m.lanes } else x })
  else if Config.monitorsPerSlice ≤ (s.qs.mons.filter fun x => x.slice == m.slice).length then none
  else some (s.setQs { s.qs with mons := s.qs.mons ++ [m] })

/-- One lane: its status, or a monitor; none where its read is not enabled. -/
def watchLane (h : Here) (rel : Nat) (uns : Bool) (n ia va v l : Nat) (s : State) : Option (State × Option Nat) :=
  if s.heldIa ia then none
  else match s.route ia false with
    | .pkg key =>
      if s.heldPage key || s.holed key n then none
      else if relHolds rel uns (8 * n) (s.readNat key n) v then some (s, some 0)
      else
        let m : Monitor := { slice := homeSlice ia, ctx := h.ctx, vaddr := va, key := key, width := n, rel := rel, uns := uns,
                             operand := v, unit := h.u, lanes := [l], callt := false }
        (match s.addMonitor m with
         | some t => some (t, none)
         | none => some (s, some 1))
    | _ => some (s, some 3)

/-- Reads up to `k` more lanes, in ascending order. -/
def watchLanes (h : Here) (rel : Nat) (uns : Bool) (n : Nat) : Nat → List (LaneId × Nat × List Nat) → List (Nat × Option Nat) →
    State → State × List (Nat × Option Nat)
  | _, [], xs, s => (s, xs)
  | k, p :: r, xs, s =>
    if ((lookup? p.1.l xs).bind id).isSome || s.monitored h.u p.1.l then watchLanes h rel uns n k r xs s
    else match k with
      | 0 => (s, xs)
      | k + 1 => match watchLane h rel uns n p.2.1 (p.2.2.headD 0) ((p.2.2.drop 1).headD 0) p.1.l s with
        | none => (s, xs)
        | some (t, st) => watchLanes h rel uns n k r (assign p.1.l st xs) t

def wcmpBody (o : Out) (rel : Nat) (wide uns : Bool) (addr v : Src) (h : Here) (s : State) : Body := do
  let n := atomBytes wide
  let xs ← laneAddrs h s 7 [(addr, .addr), (v, atomInt wide uns)]
  readyResult h s o
  if xs = [] then .ok (writeResults h o [] s)
  else do
    let old := match h.q.park with | .monitors l => some l | _ => none
    if old.isNone then memBars h s false false else .ok ()
    let ws ← watchAll h s n xs
    if !s.atHead h.u then waitHere s
    else do
      let sts := old.getD (xs.map fun p => (p.1.l, none))
      watchPage h s n (ws.filter fun p => ((lookup? p.1.l sts).bind id).isNone && !s.monitored h.u p.1.l)
      let (t, sts) := watchLanes h rel uns n s.env.budget ws sts s
      if sts.all fun p => p.2.isSome then
        .ok (writeResults h o (xs.map fun p => (p.1, ((lookup? p.1.l sts).bind id).getD 0)) t)
      else parkHere h (.monitors sts) t

def execWcmpEq (o : Out) (wide uns : Bool) (addr v : Src) (s : State) : Host.Outcome State Fault Refusal :=
  runInstr (wcmpBody o 0 wide uns addr v) s
def execWcmpNe (o : Out) (wide uns : Bool) (addr v : Src) (s : State) : Host.Outcome State Fault Refusal :=
  runInstr (wcmpBody o 1 wide uns addr v) s
def execWcmpLt (o : Out) (wide uns : Bool) (addr v : Src) (s : State) : Host.Outcome State Fault Refusal :=
  runInstr (wcmpBody o 2 wide uns addr v) s
def execWcmpLe (o : Out) (wide uns : Bool) (addr v : Src) (s : State) : Host.Outcome State Fault Refusal :=
  runInstr (wcmpBody o 3 wide uns addr v) s
def execWcmpGt (o : Out) (wide uns : Bool) (addr v : Src) (s : State) : Host.Outcome State Fault Refusal :=
  runInstr (wcmpBody o 4 wide uns addr v) s
def execWcmpGe (o : Out) (wide uns : Bool) (addr v : Src) (s : State) : Host.Outcome State Fault Refusal :=
  runInstr (wcmpBody o 5 wide uns addr v) s
def execWcmpAny (o : Out) (wide uns : Bool) (addr v : Src) (s : State) : Host.Outcome State Fault Refusal :=
  runInstr (wcmpBody o 6 wide uns addr v) s

/-! ## `wcancel` (R263) -/

/-- Releases the monitors of a context on one line: the count of entries. -/
def releaseLine (ctx key : Nat) (s : State) : State × Nat :=
  let hit (m : Monitor) : Bool := m.ctx == ctx && lineOf m.key == lineOf key
  let out := s.qs.mons.filter hit
  (out.foldl (wakeMonitor 2) (s.setQs { s.qs with mons := s.qs.mons.filter fun m => !hit m }), out.length)

/-- Lanes in ascending order, at most `k` of them now: `f` gives a lane's new state and result. -/
def stepLanes {α : Type} (f : LaneId × α → State → State × Nat) : Nat → List (LaneId × α) → List (Nat × Option Nat) → State →
    State × List (Nat × Option Nat)
  | _, [], xs, s => (s, xs)
  | k, p :: r, xs, s =>
    match (lookup? p.1.l xs).bind id, k with
    | some _, k => stepLanes f k r xs s
    | none, 0 => (s, xs)
    | none, k + 1 => stepLanes f k r (assign p.1.l (some (f p s).2) xs) (f p s).1

/-- Performs lane by lane, one step each, and then writes the results; the unit stands until the last lane (R275). -/
def byLanes {α : Type} (h : Here) (o : Out) (f : LaneId × α → State → State × Nat) (ws : List (LaneId × α)) (s : State) : Body :=
  let old := match h.q.park with | .flips l => l | _ => ws.map fun p => (p.1.l, none)
  let (t, sts) := stepLanes f s.env.budget ws old s
  if sts.all fun p => p.2.isSome then .ok (writeResults h o (ws.map fun p => (p.1, ((lookup? p.1.l sts).bind id).getD 0)) t)
  else parkHere h (.flips sts) t

/-- The address check of a `wcancel` lane: its line, or none behind a path that the context may not take, where nothing is released
(R263). -/
def cancelAddr (h : Here) (s : State) (x : LaneId) (a : Nat) : Except Cause (Option Nat) :=
  match regionOf a with
  | .global | .lane =>
    (match s.reach h.cls h.u h.ctx h.desc h.b x.g (if h.isSlice then x.l else 0) a 1 .r false false with
     | .ok (.inter ia) _ | .page _ ia => .ok (some ia)
     | .fault .isolation => .ok none
     | .fault c => .error c
     | _ => .error .window)
  | _ => .error .window

/-- Every lane's check; the first cause in the order of R189 is raised, with every lane that meets it. -/
def cancelAddrs (h : Here) (s : State) (xs : List (LaneId × Nat)) : Except Stop (List (LaneId × Option Nat)) :=
  let ws := xs.map fun p => (p, cancelAddr h s p.1 p.2)
  match ws.filterMap fun p => match p.2 with | .error c => some (p.1, c) | .ok _ => none with
  | b :: r =>
    let c := r.foldl (fun c p => if faultRank p.2 < faultRank c then p.2 else c) b.2
    let those := (b :: r).filter fun p => p.2 == c
    let at_ := ((those.head?).map fun p => p.1.2).getD 0
    .error (.trap { cause := c, addr := at_, after := false, info := openInfo at_ false
                    lanes := if h.isSlice then laneMask (those.map fun p => p.1.1) else 0 })
  | [] => .ok (ws.filterMap fun p => match p.2 with | .ok v => some (p.1.1, v) | .error _ => none)

/-- One lane of `wcancel`; a system-scope address, or one without a mapping, has no monitor to release. -/
def cancelLane (ctx : Nat) (p : LaneId × Option Nat) (s : State) : State × Nat :=
  match p.2.map fun ia => s.route ia false with
  | some (.pkg key) => releaseLine ctx key s
  | _ => (s, 0)

def wcancelBody (o : Out) (addr : Src) (h : Here) (s : State) : Body := do
  let xs ← laneAddrs h s 7 [(addr, .addr)]
  readyResult h s o
  memBars h s false false
  let ws ← cancelAddrs h s (xs.map fun p => (p.1, p.2.headD 0))
  if !s.allPerformed h.u || ws.any fun p => p.2.any s.heldIa then waitHere s
  else byLanes h o (cancelLane h.ctx) ws s

def execWcancel (o : Out) (addr : Src) (s : State) : Host.Outcome State Fault Refusal := runInstr (wcancelBody o addr) s

/-! ## Barriers (R264 to R267, R271) -/

def Bar.zero : Bar := { target := 0, arrived := 0, phase := 0 }

/-- One arrival with a count: the barrier afterwards and the token; none where the targets differ (R264). -/
def Bar.arrive (c : Nat) (x : Bar) : Option (Bar × Nat) :=
  let t := (c % 1024 + 1023) % 1024 + 1
  if x.target ≠ 0 ∧ x.target ≠ t then none
  else if x.arrived + 1 = t then some ({ target := 0, arrived := 0, phase := (x.phase + 1) % 256 }, x.phase)
  else some ({ target := t, arrived := x.arrived + 1, phase := x.phase }, x.phase)

/-- Barrier n of the issuing block or of its gang. -/
def barOf (h : Here) (gang : Bool) (n : Nat) (s : State) : Bar :=
  if gang then ((s.gangOf h.b).bind fun g => g.bars[n]?).getD Bar.zero
  else ((s.blk? h.b).bind fun x => x.bars[n]?).getD Bar.zero

def setBar (h : Here) (gang : Bool) (n : Nat) (v : Bar) (s : State) : State :=
  let put (l : List Bar) : List Bar := l.mapIdx fun i y => if i = n then v else y
  if gang then
    (match s.gangOf h.b with
     | some g => s.mapGang g.launch g.no fun y => { y with bars := put y.bars }
     | none => s)
  else s.mapBlk h.b fun y => { y with bars := put y.bars }

/-- The one value that a barrier instruction reads: in a slice clause from every active lane of the group, none with no
active lane (R265). -/
def barValue (h : Here) (s : State) (a : Src) : Except Stop (Option Nat) :=
  if h.isSlice then do
    if h.boundsOk (srcRegs [(a, .w32)]) then .ok () else .error (trapC .regbound)
    let ins ← readLanes s h (h.active s) [(a, .w32)]
    let late := ins.flatMap fun r => r.2.flatMap Val.syms
    if late ≠ [] then waitSyms s h.u late
    else
      let vs := ins.map fun r => (r.1, (r.2.headD (.known 0)).num)
      match vs with
      | [] => .ok none
      | x :: r =>
        let diff := r.filter fun p => p.2 != x.2
        if diff ≠ [] then .error (trapL .nonuniform (diff.map (·.1))) else .ok (some x.2)
  else (upNums h s [(a, .w32)]).map fun ns => some (ns.headD 0)

/-- An arrival is sent once every earlier access of the unit has taken its place and performed; a store that failed gives its fault
(R266, R275, DEDUCED log 25). -/
def arrivalReady (h : Here) (s : State) : Except Stop Unit :=
  match s.recordsAt h.u with
  | some t => .error (.trap t)
  | none => if (s.ordered h.u).any Access.open then waitHere s else .ok ()

/-- Whose arrivals a phase of a gang barrier has: one more of the block's, or none once the phase is over. -/
def noteArrival (h : Here) (gang : Bool) (n : Nat) (v : Bar) (s : State) : State :=
  if !gang then s
  else match s.gangOf h.b with
    | none => s
    | some g => s.mapGang g.launch g.no fun y => { y with came := if v.target = 0 then y.came.filter (·.1 != n) else y.came ++ [(n, h.b)] }

/-- Arrives: the token, or NONUNIFORM (R264). -/
def arriveBar (h : Here) (gang : Bool) (n c : Nat) (s : State) : Except Stop (State × Nat) := do
  arrivalReady h s
  match (barOf h gang n s).arrive c with
  | none => .error (trapC .nonuniform)
  | some (b, tok) => .ok (noteArrival h gang n b (setBar h gang n b s), tok)

/-- The token with which the unit, or a slice that stands with it, already waits (R267). -/
def heldToken (h : Here) (s : State) : Option Nat :=
  (h.u :: (if h.isSlice then h.units else [])).findSome? fun u => (s.seq? u).bind fun q => match q.park with
    | .barrier t => some t
    | _ => none

/-- Waits until the phase leaves the token; every slice that stands at the instruction waits with it. -/
def waitPhase (h : Here) (gang : Bool) (n tok : Nat) (s : State) : Body :=
  if (barOf h gang n s).phase ≠ tok then .ok s
  else
    let wait (q : Seq) : Seq :=
      if q.clause.isSome then
        { q with park := .barrier tok, parkAt := if q.park.stands then q.parkAt else s.env.cycle }
      else q
    .error (.stay ((if h.isSlice then h.units else [h.u]).foldl (fun t u => t.mapSeq u wait) s))

/-- A barrier instruction of a slice clause follows the meeting rule (R265); `p` is how its slices wait for the others. -/
def atBarrier (p : Park) (body : Here → State → Body) (h : Here) (s : State) : Body := if h.isSlice then meetIn p body h s else body h s

def bararrBody (o : Out) (gang : Bool) (n : Nat) (count : Src) (h : Here) (s : State) : Body := do
  let v ← barValue h s count
  readyResult h s o
  match v with
  | none => .ok (writeResults h o [] s)
  | some c => do
    let (t, tok) ← arriveBar h gang n c s
    .ok (writeOne h o tok t)

def barwaitBody (gang : Bool) (n : Nat) (token : Src) (h : Here) (s : State) : Body :=
  match heldToken h s with
  | some t => waitPhase h gang n t s
  | none => do
    match ← barValue h s token with
    | none => .ok s
    | some v => waitPhase h gang n (v % 256) s

def barsyncBody (gang : Bool) (n : Nat) (count : Src) (h : Here) (s : State) : Body :=
  match heldToken h s with
  | some t => waitPhase h gang n t s
  | none => do
    match ← barValue h s count with
    | none => .ok s
    | some c => do
      let (t, tok) ← arriveBar h gang n c s
      waitPhase h gang n tok t

def execBararr (o : Out) (gang : Bool) (n : Nat) (count : Src) (s : State) : Host.Outcome State Fault Refusal :=
  runInstr (atBarrier .meeting (bararrBody o gang n count)) s
def execBarwait (gang : Bool) (n : Nat) (token : Src) (s : State) : Host.Outcome State Fault Refusal :=
  runInstr (atBarrier .gather (barwaitBody gang n token)) s
def execBarsync (gang : Bool) (n : Nat) (count : Src) (s : State) : Host.Outcome State Fault Refusal :=
  runInstr (atBarrier .gather (barsyncBody gang n count)) s

end Sys2Proof.Machine
end

