-- ==== Sys2Proof/Machine/Order.lean ====
section
/-! DEFINITION. Fences, `swf`, and the steps that drain the queues and capture lines (13_ordering R273 to R284). -/

namespace Sys2Proof.Machine

/-! ## `fence` (R282, R283) -/

/-- The blocks of an instance. -/
def State.blocksOf (s : State) (u : UnitRef) : List Nat :=
  match u with
  | .gang .. => (s.children u).filterMap UnitRef.block?
  | .grid _ => (s.children u).flatMap fun k => (s.children k).filterMap UnitRef.block?
  | v => v.block?.toList

/-- The units whose entries a fence covers. -/
def coveredBy (h : Here) (s : State) (u : UnitRef) : Bool :=
  if h.u.rank ≤ 2 then orderOf u == orderOf h.u
  else match u.block? with
    | some b => (s.blocksOf h.u).contains b
    | none => u == h.u

/-- The tillers of the gangs that the issuing blocks belong to. -/
def gangTillers (s : State) (bs : List Nat) : List Nat :=
  bs.flatMap fun b => match s.gangOf b with
    | some g => g.members.filterMap fun m => (s.blk? m).map fun x => tillerOf x.core
    | none => []

/-- A byte of M lies in the destination set of a scope. -/
def inScope (s : State) (sc : FScope) (bs : List Nat) (key : Nat) : Bool :=
  match sc with
  | .block => bs.any fun b => match s.blk? b with
      | some x => x.slots.any fun sl => sl.st != 0 && inBank (tillerOf x.core) sl.bank key
      | none => false
  | .gang => (gangTillers s bs).any fun t => bankKey t 0 0 ≤ key && key < bankKey (t + 1) 0 0
  | .package => 2 ^ 60 ≤ key || isPackage key
  | .system => true

/-- A mirrored delivery goes to a member's mirror slot. -/
def mirrorInScope (sc : FScope) (bs : List Nat) (d : Nat) : Bool :=
  match sc with | .block => bs.contains d | _ => true

/-- A command's destination lies partly in the set; a page that it has not translated is looked up. -/
def cmdInScope (s : State) (sc : FScope) (bs : List Nat) (ctx : Nat) (c : Cmd) : Bool :=
  (c.pages true).any fun va => match c.key? true va with
    | some k => inScope s sc bs k
    | none => match sc with
      | .system => true
      | .package => (match s.stage1 ctx va with
        | some (_, ia) => (match s.route ia true with | .sys .. => false | _ => true)
        | none => true)
      | _ => false

def mirClear (h : Here) (s : State) (sc : FScope) : Bool :=
  let bs := s.blocksOf h.u
  !(s.qs.tq.any fun e => coveredBy h s e.unit && inScope s sc bs e.key) &&
  !(s.qs.mq.any fun e => coveredBy h s e.unit && mirrorInScope sc bs e.dst)

def engClear (h : Here) (s : State) (sc : FScope) : Bool :=
  let bs := s.blocksOf h.u
  bs.all fun b => match s.blk? b with
    | none => true
    | some x =>
      let mine := x.cmds.filter fun c => coveredBy h s c.unit
      !(mine.any fun c => c.st == 0 && cmdInScope s sc bs x.ctx c) &&
      !(s.qs.eq.any fun e => e.b == b && inScope s sc bs e.key && mine.any fun c => c.seq == e.seq)

def sysClear (h : Here) (s : State) : Bool := !(s.qs.sq.any fun e => coveredBy h s e.unit)

/-- Whether the fence's step is enabled. -/
def fenceReady (sc : FScope) (k : FKind) (h : Here) (s : State) : Bool :=
  match k with
  | .mir => mirClear h s sc
  | .eng => engClear h s sc
  | .sysAcq => true
  | .sysRel | .sys => sysClear h s
  | .all => mirClear h s sc && engClear h s sc && (sc != .system || sysClear h s)

/-- Symbols of the addresses that earlier accesses of the order still wait for (R188). -/
def State.lateAddrs (s : State) (u : UnitRef) : List (Nat × Nat) :=
  (s.ordered u).flatMap fun a => if a.lanes.any (fun y => y.addr.isNone && y.st == .todo) then a.needs else []

/-- What a fence waits for before its step: late addresses, and the places of the earlier accesses, up to a poisoned store record,
behind which nothing performs until it is taken (R188, R189, DEDUCED log 25). -/
def State.fenceClear (s : State) (u : UnitRef) : Bool :=
  (s.lateAddrs u).isEmpty && s.atHead u

/-- A fence raises no fault: it stands, also behind a record for which its block already stops (R283). -/
def fenceWait (h : Here) (s : State) : Body :=
  if (s.recordsAt h.u).isSome && ((h.u.block?.bind s.blk?).bind Blk.stop).isSome then .error (.stay (standRefault h.u s)) else waitHere s

def fenceBody (sc : FScope) (k : FKind) (h : Here) (s : State) : Body := do
  if h.isSlice then .ok () else gate h s
  if !s.fenceClear h.u || !fenceReady sc k h s then fenceWait h s
  else match k with
    | .sysAcq | .sys => .ok (s.emptyY h.ctx)
    | .all => .ok (if sc = .system then s.emptyY h.ctx else s)
    | _ => .ok s

def execFence (sc : FScope) (k : FKind) (s : State) : Host.Outcome State Fault Refusal := runInstr (fenceBody sc k) s

/-! ## `swf` (R284) -/

def swfBody (h : Here) (s : State) : Body := do
  gate h s
  enqueue h .swf s

def execSwf (s : State) : Host.Outcome State Fault Refusal := runInstr swfBody s

/-! ## Drains (R276) -/

/-- A queued access performs on M and its lane is done. -/
def performEntry (e : QEntry) (s : State) : State :=
  let n := e.width
  match e.kind with
  | .load | .loadSys => s.mapLane e.acc e.lane fun y => { y with st := .done, got := readBytes s.mem.bytes e.key n }
  | .store | .storeSys => (s.poke e.key e.data).mapLane e.acc e.lane fun y => { y with st := .done }
  | .atomic op wide =>
    let old := readBytes s.mem.bytes e.key n
    match applyKind (.atomic op wide) n old e.data with
    | some bs => (s.poke e.key bs).mapLane e.acc e.lane fun y => { y with st := .done, got := old }
    | none => s

/-- DRAIN_TILLER_QUEUE: the head of Tq(s) performs against the bank. -/
def execDrainTillerQueue (b : Nat) (s : State) : Host.Outcome State Fault Refusal :=
  match s.qs.tq.find? fun e => e.unit.block? == some b with
  | none => .next s
  | some e =>
    if !(e.kind == .store || e.kind == .storeSys) && s.holed e.key e.width then .next s
    else .next (performEntry e (s.setQs { s.qs with tq := s.qs.tq.erase e }))

/-- DRAIN_MIRROR_QUEUE: the head of Mq(src, dst) lands in the receiver's mirror slot, or is dropped with MDROP (R209). -/
def execDrainMirrorQueue (src dst : Nat) (s : State) : Host.Outcome State Fault Refusal :=
  match s.qs.mq.find? fun e => e.src == src && e.dst == dst with
  | none => .next s
  | some e =>
    let s1 := s.setQs { s.qs with mq := s.qs.mq.erase e }
    match s.blk? dst with
    | none => .next s1
    | some x => match x.mirrorSlot with
      | some p => .next (s1.poke (bankOf x p.2.bank e.offset) e.data)
      | none => .next ((s1.mapBlk dst fun y => { y with mdrop := true }).syncFrame dst)

/-- Y of a context takes a write to a line that it holds. -/
def State.updateY (s : State) (ctx key : Nat) (bs : List Byte) : State :=
  s.setQs { s.qs with ycap := s.qs.ycap.map fun e =>
    if e.1 = ctx then (e.1, e.2.1, e.2.2.mapIdx fun i b =>
      let k := e.2.1 * 128 + i
      if key ≤ k ∧ k < key + bs.length then bs.getD (k - key) 0 else b) else e }

/-- DRAIN_SYSTEM_QUEUE: the head of Qs(g, p) performs at its destination; or the target refuses it, which freezes its master
and keeps the access (R276, R382). -/
def execDrainSystemQueue (u : UnitRef) (path : SysPath) (refused : Bool) (s : State) : Host.Outcome State Fault Refusal :=
  match s.qs.sq.find? fun e => orderOf e.unit == u && e.path == some path with
  | none => .next s
  | some e =>
    match s.access? e.acc with
    | none => .next (performEntry e (s.setQs { s.qs with sq := s.qs.sq.erase e }))
    | some a =>
      if a.poison.isSome || s.heldPage e.key then .next s
      else if refused || (match path with | .peer c => !s.routeUp c | .host => !s.chip.hostUp) then
        let at_ := (a.lanes[e.lane]?.bind (·.addr)).getD 0
        .next (takeFault a.unit a.pc { cause := .isolation, addr := at_, info := 0, lanes := (if a.unit.rank = 1 then
            (match a.lanes[e.lane]? with | some y => 2 ^ y.l | none => 0) else 0), after := false }
          (s.mapAcc a.id fun x => { x with poison := some .isolation }))
      else
        let s1 := performEntry e ((s.sysTouch path e.key true).setQs { (s.sysTouch path e.key true).qs with sq := s.qs.sq.erase e })
        .next (s1.updateY e.ctx e.key (readBytes s1.mem.bytes e.key e.width))

/-- A line of system scope: host memory, another chip's memory, or a host-bias page (R194). -/
def State.sysLine (s : State) (line : Nat) : Bool :=
  let k := line * 128
  (Config.hostWindow ≤ k && k < 2 ^ 45) || (2 ^ 57 ≤ k && k < 2 ^ 60) || (isPackage k && s.hostBias k)

/-- A host snoop that invalidates a line of the host-coherence cache: data of an M line is returned (R377). -/
def State.snoopInv (s : State) (line : Nat) : State :=
  match lookup? line s.mem.hcc with
  | none => s
  | some st =>
    let t := s.setMem { s.mem with hcc := erase line s.mem.hcc }
    if st = .m then t.cxlSend .data line else t

/-- The host's write to its own memory or to a host-bias page follows its snoops of the host-coherence cache (R376, R377). -/
def State.snoopRun (s : State) (key n : Nat) : State :=
  if s.sysLine (lineOf key) && s.chip.mode == .cxl then
    (List.range ((key + (n - 1)) / 64 + 1 - key / 64)).foldl (fun t i => t.snoopInv (key / 64 + i)) s
  else s

/-- DRAIN_INBOUND_QUEUE: the head of I(r) is written; draft marks stay (R276, R295). A head whose page has no translation yet holds
its place (R374, R378). -/
def execDrainInboundQueue (r : Nat) (s : State) : Host.Outcome State Fault Refusal :=
  match s.qs.inb.find? fun e => e.requester == r with
  | none => .next s
  | some e =>
    if e.wait.isSome || s.heldPage e.key then .next s
    else .next (((s.setQs { s.qs with inb := s.qs.inb.erase e }).snoopRun e.key e.data.length).poke e.key e.data)

/-! ## Captures (R276, R293, R296) -/

/-- CAPTURE_SYSTEM_LINE. -/
def execCaptureSystemLine (ctx line : Nat) (s : State) : Host.Outcome State Fault Refusal :=
  if s.sysLine line then
    .next (s.setQs { s.qs with ycap :=
      (s.qs.ycap.filter fun e => !(e.1 == ctx && e.2.1 == line)) ++ [(ctx, line, readBytes s.mem.bytes (line * 128) 128)] })
  else .next s

/-- The buffers that a core's F takes in: its own, its tiller's gang buffer and its die's grid buffer (R293, DESIGN CHOICE log 19). -/
def buffersOf (core : Nat) : List Nat :=
  if core < 768 then [core, 768 + tillerOf core, 864 + dieOf core] else [core]

/-- CAPTURE_CODE_LINE: a line of M is captured into a buffer, or a core's F loses it. -/
def execCaptureCodeLine (core line : Nat) (drop : Bool) (s : State) : Host.Outcome State Fault Refusal :=
  if drop then
    .next (s.setQs { s.qs with fcap := s.qs.fcap.filter fun e => !((buffersOf core).contains e.1 && e.2.1 == line) })
  else if core < 868 && isPackage (line * 128) && !s.mem.draft.contains line && !s.sysLine line && !s.holed (line * 128) 128 then
    .next (s.setQs { s.qs with fcap :=
      (s.qs.fcap.filter fun e => !(e.1 == core && e.2.1 == line)) ++ [(core, line, readBytes s.mem.bytes (line * 128) 128)] })
  else .next s

end Sys2Proof.Machine
end

