-- ==== Sys2Proof/Machine/Code.lean ====
section
/-! DEFINITION. Publishing code, calls through the link table, and binding (14_code R293 to R303). -/

namespace Sys2Proof.Machine

/-! ## `cpub` (R297, R298) -/

/-- The pages that the lines of a range lie in, each with its first byte and length of the range's lines. -/
def linePieces (base size : Nat) : List (Nat × Nat) :=
  if size = 0 then []
  else
    let lo := base / 128 * 128
    pagePieces lo ((base + size + 127) / 128 * 128 - lo)

/-- What the check of a page finds: stage 1 alone. -/
def cpubCheck (s : State) (ctx va n : Nat) : Option Cause :=
  if regionOfSpan va n ≠ .global then some .window
  else match s.stage1 ctx va with
    | none => some .range
    | some (r, _) => if rightX r then none else some .prot

/-- The byte of M behind the start of a page that lies in package memory. -/
def cpubKey (s : State) (ctx va : Nat) : Option Nat :=
  (s.stage1 ctx va).bind fun p => match s.route p.2 false with | .pkg k => some k | _ => none

/-- The byte of M behind the start of a page that has a leaf, whatever its path: F holds lines of M, so a page without a leaf has none
there (R298, DEDUCED log 140). -/
def codeKey (s : State) (ctx va : Nat) : Option Nat :=
  (s.stage1 ctx va).bind fun p => match s.stage2 p.2 with | .leaf pa .. => some (s.keyOf pa) | _ => none

/-- Whether two ranges within pages of a context share a byte: the same virtual or intermediate addresses, or bytes of M; `k` is the
byte of M of the first where it has been translated. -/
def samePlace (s : State) (ctx : Nat) (p : Nat × Nat) (k : Option Nat) (q : Nat × Nat) : Bool :=
  let ia (va : Nat) : Option Nat := (s.stage1 ctx va).map (·.2)
  let meet (a b : Option Nat) : Bool := match a, b with | some a, some b => meets a p.2 b q.2 | _, _ => false
  meets p.1 p.2 q.1 q.2 || meet (ia p.1) (ia q.1) || meet (k.or (codeKey s ctx p.1)) (codeKey s ctx q.1)

/-- A pending command or an entry of the engine queue of the block writes a byte of the range; a shadow write reaches it only by
`pub`. -/
def cpubBusy (s : State) (x : Blk) (ps : List (Nat × Nat)) : Bool :=
  ps.any fun p =>
    (x.cmds.any fun c => c.st == 0 && !c.shadow && ((c.ranges true).flatMap fun g => pagePieces g.1 g.2).any fun d =>
      samePlace s x.ctx d (c.key? true d.1) p) ||
    s.qs.eq.any fun e => e.b == x.id && !e.shadow && samePlace s x.ctx (e.vaddr, e.data.length) (some e.key) p

/-- The buffers that a scope refreshes (R293, R298, DESIGN CHOICE log 19). -/
def cpubBuffer (s : State) (sc : FScope) (x : Blk) (buf : Nat) : Bool :=
  let ts := match sc with
    | .block => [tillerOf x.core]
    | _ => tillerOf x.core :: gangTillers s [x.id]
  match sc with
  | .package | .system => true
  | _ =>
    if buf < 768 then ts.contains (tillerOf buf)
    else if buf < 864 then ts.contains (buf - 768)
    else ts.any fun t => dieOfTiller t == buf - 864

/-- A store of the unit's own order that stands before the instruction still waits for its data, in the range (R187). -/
def cpubHole (s : State) (u : UnitRef) (ctx : Nat) (ps : List (Nat × Nat)) : Bool :=
  s.mem.holes.any fun hl =>
    (match s.access? hl.2.1 with | some a => orderOf a.unit == orderOf u | none => false) &&
      ps.any fun p => match codeKey s ctx p.1 with | some k => k ≤ hl.1 && hl.1 < k + p.2 | none => false

/-- Whether a line of M lies in one of some runs of bytes. -/
def hitLine (keys : List (Nat × Nat)) (line : Nat) : Bool := keys.any fun k => lineOf k.1 ≤ line && line ≤ lineOf (k.1 + (k.2 - 1))

/-- The one step of `cpub`: marks of package memory cleared, and every line of the range removed from F; the count of marks. -/
def cpubStep (s : State) (sc : FScope) (x : Blk) (ps : List (Nat × Nat)) : State × Nat :=
  let marks := ps.filterMap fun p => (cpubKey s x.ctx p.1).map fun k => (k, p.2)
  let lines := ps.filterMap fun p => (codeKey s x.ctx p.1).map fun k => (k, p.2)
  let s1 := s.setMem { s.mem with draft := s.mem.draft.filter fun l => !hitLine marks l }
  (s1.setQs { s1.qs with fcap := s1.qs.fcap.filter fun e => !(hitLine lines e.2.1 && cpubBuffer s sc x e.1) },
   (s.mem.draft.filter (hitLine marks)).length)

/-- Base and size: one value each in every executing lane, NONUNIFORM before the bounds of an operand (R57, R297); none with no
executing lane. -/
def cpubRange (base size : Src) (h : Here) (s : State) : Except Stop (Option (Nat × Nat)) := do
  let run := h.execLanes s 7
  if h.isSlice && run.isEmpty then
    if h.boundsOk (srcRegs [(base, .addr), (size, .w32)]) then .ok none else .error (trapC .regbound)
  else do
    let rd (a : As) (x : Src) : Except Stop Val :=
      if h.isSlice then agree s h.u (laneParts run fun l => s.readLane h l a x) else s.readUpper h a x
    let vs ← allOk [rd .addr base, rd .w32 size]
    if h.boundsOk (srcRegs [(base, .addr), (size, .w32)]) then .ok () else .error (trapC .regbound)
    let late := vs.flatMap Val.syms
    if late ≠ [] then waitSyms s h.u late else .ok (some ((vs.headD (.known 0)).num, ((vs.drop 1).headD (.known 0)).num))

def cpubBody (o : Out) (base size : Src) (sc : FScope) (h : Here) (s : State) : Body := do
  if h.isSlice then .ok () else gate h s
  let r ← cpubRange base size h s
  readyResult h s o
  match r with
  | none => .ok (writeResults h o [] s)
  | some (at_, n) => do
    memBars h s false false
    let x ← blkHere h s
    let ps := linePieces at_ n
    let bad := ps.filterMap fun p => (cpubCheck s h.ctx p.1 p.2).map fun c => (max p.1 at_, c)
    match bad with
    | b :: l =>
      let w := l.foldl (fun m p => if faultRank p.2 < faultRank m.2 then p else m) b
      .error (.trap { cause := w.2, addr := w.1, info := openInfo w.1 true, after := false
                      lanes := if h.isSlice then laneMask (h.execLanes s 7) else 0 })
    | [] =>
      if !s.atHead h.u || cpubBusy s x ps || cpubHole s h.u h.ctx ps then waitHere s
      else
        let (t, n) := cpubStep s sc x ps
        .ok (writeOne h o n t)

def execCpub (o : Out) (base size : Src) (sc : FScope) (s : State) : Host.Outcome State Fault Refusal :=
  runInstr (cpubBody o base size sc) s

/-! ## `callt` (R299 to R302) -/

/-- A link-table entry is malformed (R299). -/
def linkBad (v : Nat) : Bool := bitsOf v 62 2 == 3 || bitsOf v 57 5 != 0 || (bitsOf v 62 2 == 2 && v % 8 != 0)

/-- The index, checked over the slices that issue together (R300). -/
def calltIndex (h : Here) (s : State) (x : Src) : Except Stop Nat := do
  let v ← if h.isSlice then agree s h.u (laneParts (h.lanes s) fun l => s.readLane h l .w32 x) else do
    gate h s
    s.readUpper h .w32 x
  if h.boundsOk (srcRegs [(x, .w32)]) then .ok () else .error (trapC .regbound)
  if v.isLate then waitSyms s h.u v.syms else .ok v.num

/-- The fault of an entry: its address is the link-table entry (R337, R403). -/
def linkTrap (h : Here) (c : Cause) (e : Nat) : Trap :=
  { cause := c, addr := e, after := false
    info := (match c with | .bind | .link => 0 | _ => accInfo 8 false)
    lanes := (match c with | .bind => (if h.isSlice then laneMask (h.units.flatMap lanesOfSlice) else 0) | _ => 0) }

/-- Parks the unit on a resolving entry, with a monitor where its slice has a free one (R302). -/
def parkCallt (h : Here) (e ia key : Nat) (s : State) : Body :=
  let m : Monitor := { slice := homeSlice ia, ctx := h.ctx, vaddr := e, key := key, width := 8, rel := 0, uns := true,
                       operand := 0, unit := h.u, lanes := [], callt := true }
  let t := if (s.qs.mons.filter fun x => x.slice == m.slice).length < Config.monitorsPerSlice then
    s.setQs { s.qs with mons := s.qs.mons ++ [m] } else s
  parkHere h (.callt e false) t

/-- The atomic step at the entry. -/
def calltStep (h : Here) (e ia key : Nat) (r : BitVec 128) (s : State) : Body :=
  let v := s.readNat key 8
  if linkBad v then .error (.trap (linkTrap h .link e))
  else match bitsOf v 62 2 with
    | 0 =>
      if !rightW r || s.route ia true == .prot then .error (.trap (linkTrap h .prot e))
      else
        let t := (s.poke key (leBytes 8 (v + 2 ^ 62))).markDraft (rightX r) key 8
        .error (.stay (takeFault h.u h.pc (linkTrap h .bind e) t))
    | 1 => parkCallt h e ia key s
    | _ => pushCalls h (h.units.map fun u => (u, bitsOf v 0 57)) s

def calltBody (index : Src) (h : Here) (s : State) : Body :=
  match h.q.park with
  | .callt _ false => .error (.stay s)
  | _ => do
    let i ← calltIndex h s index
    memBars h s true false
    let e := (h.desc.ltp + 8 * i) % 2 ^ 64
    if h.desc.ltp = 0 then .error (.trap (linkTrap h .link e))
    else if e % 8 ≠ 0 then .error (.trap (linkTrap h .align e))
    else if regionOf e ≠ .global then .error (.trap (linkTrap h .window e))
    else match s.stage1 h.ctx e with
      | none => .error (.trap (linkTrap h .range e))
      | some (r, ia) =>
        match s.route ia false with
        | .sys .. | .refused => .error (.trap (linkTrap h .window e))
        | .prot => .error (.trap (linkTrap h .prot e))
        | .miss _ => if rightR r then pageStop h s ia 0 (linkTrap h .page e) else .error (.trap (linkTrap h .prot e))
        | .pkg key =>
          if !rightR r then .error (.trap (linkTrap h .prot e))
          else if !s.atHead h.u || s.heldIa ia || s.heldPage key || s.holed key 8 then waitHere s
          else if s.env.dataErr then .error (.trap (linkTrap h .dataerr e))
          else calltStep h e ia key r s

def execCallt (_sc : Scope) (index : Src) (s : State) : Host.Outcome State Fault Refusal := runInstr (calltBody index) s

/-- CALLT_REPOLL: a unit parked without a monitor reads its entry again (R302). -/
def execCalltRepoll (u : UnitRef) (s : State) : Host.Outcome State Fault Refusal :=
  if s.qs.mons.any fun m => m.unit == u && m.callt then .next s
  else .next (s.mapSeq u fun q => match q.park with | .callt e _ => { q with park := .callt e true } | _ => q)

/-! ## `bind` (R303) -/

/-- Whether the line of a target is draft: stage 2 gives package memory, and the line's mark is set. -/
def targetDraft (s : State) (ctx t : Nat) : Bool :=
  match cpubKey s ctx t with
  | some k => s.mem.draft.contains (lineOf k)
  | none => false

/-- Status 2 of `bind`. -/
def targetBad (s : State) (ctx t : Nat) : Bool :=
  t % 8 != 0 || 2 ^ 57 ≤ t || (match s.stage1 ctx t with | some (r, _) => !rightX r | none => true)

/-- The entry is written as a store of the unit to its target: at once in package memory and the unit's own banks, by the queue of its
path elsewhere (R209, R275, DEDUCED log 141). -/
def bindPut (h : Here) (y : LaneAcc) (bs : List Byte) (s : State) : State :=
  let e (key : Nat) (p : Option SysPath) : QEntry :=
    { acc := s.env.fresh, unit := h.u, lane := 0, key := key, kind := .store, width := 8, data := bs, ctx := h.ctx,
      seq := s.env.fresh, path := p }
  match y.tgt with
  | .none => s
  | .direct k => s.poke k bs
  | .tiller k => s.bump.addTq (e k none)
  | .mirror off => s.bump.addMq ((((s.gangOf h.b).map (·.members)).getD []).map fun d =>
      { src := h.b, dst := d, offset := off, data := bs, unit := h.u, acc := s.env.fresh, seq := s.env.fresh })
  | .inter ia =>
    (match s.route ia true with
     | .pkg k => (s.poke k bs).markDraft y.mark k 8
     | .sys p k => s.bump.addSq (e k (some p))
     | _ => s)

/-- One lane of `bind`: the entry's place, and the target. -/
def bindLane (h : Here) (p : LaneId × LaneAcc × Nat) (s : State) : State × Nat :=
  if targetBad s h.ctx p.2.2 then (s, 2)
  else if targetDraft s h.ctx p.2.2 then (s, 1)
  else (bindPut h p.2.1 (leBytes 8 (2 ^ 63 + p.2.2)) s, 0)

/-- The intermediate address of an entry whose page has no mapping. -/
def bindMiss (s : State) (y : LaneAcc) : Option Nat :=
  match y.tgt with
  | .inter ia => (match s.route ia true with | .miss _ => some ia | _ => none)
  | _ => none

/-- A page that holds an entry's access back. -/
def bindHeld (s : State) (y : LaneAcc) : Bool :=
  match y.tgt with
  | .inter ia => s.heldIa ia || (match s.route ia true with | .pkg k | .sys _ k => s.heldPage k | _ => false)
  | _ => false

/-- PAGE, or DATAERR while no lane has acted, of the entries that the instruction accesses: those with a target that may be bound
(R189, R303, DEDUCED log 141). -/
def bindFaults (h : Here) (s : State) (ls : List (LaneAcc × Nat)) : Except Stop Unit :=
  let tr (c : Cause) (y : LaneAcc) : Trap :=
    { cause := c, addr := y.addr.getD 0, info := openInfo (y.addr.getD 0) true, after := false
      lanes := if h.isSlice then 2 ^ y.l else 0 }
  let act := ls.filter fun p => !targetBad s h.ctx p.2
  match act.find? fun p => (bindMiss s p.1).isSome with
  | some p => pageStop h s ((bindMiss s p.1).getD 0) 1 (tr .page p.1)
  | none =>
    match act with
    | p :: _ => if s.env.dataErr && (match h.q.park with | .flips _ => false | _ => true) then .error (.trap (tr .dataerr p.1)) else .ok ()
    | [] => .ok ()

def bindBody (o : Out) (entry target : Src) (h : Here) (s : State) : Body := do
  let xs ← laneAddrs h s 7 [(entry, .addr), (target, .addr)]
  readyResult h s o
  memBars h s true false
  let ls ← checkLanes h s .store true (fun a => openInfo a true)
    (xs.map fun p => laneAcc p.1.g p.1.l 0 8 (.known (p.2.headD 0)) (.known 0) [])
  let ps := (xs.zip ls).map fun p => (p.1.1, p.2, (p.1.2.drop 1).headD 0)
  if !s.atHead h.u || ls.any (bindHeld s) then waitHere s
  else do
    bindFaults h s (ps.map (·.2))
    byLanes h o (bindLane h) ps s

def execBind (o : Out) (entry target : Src) (s : State) : Host.Outcome State Fault Refusal := runInstr (bindBody o entry target) s

end Sys2Proof.Machine
end

