-- ==== Sys2Proof/Machine/Create.lean ====
section
/-! DEFINITION. How launches, gangs, blocks and their sequencers come into being (01_machine R17, 15_launch R308 to R311,
04_control R411). -/

namespace Sys2Proof.Machine

/-- A block as it is reserved (R310, R322): its banks and tiles come with its start. -/
def Blk.fresh (id launch index member gangNo ctx : Nat) (desc : Desc) (core lslot : Nat) : Blk :=
  { id := id, launch := launch, index := index, member := member, gangNo := gangNo, ctx := ctx, desc := desc, core := core,
    lslot := lslot, chan := 0, phase := .reserved, stop := none, cancelled := false, kill := false, hold := none, haltReq := false,
    bars := [], slots := [], mdrop := false, mslot := 0, tiles := [], handles := [], gen := 0, ps := 0x3F800000, merrSticky := false,
    merrOvf := false, mlog := [], mq := [], cmds := [], nextSeq := 1, frozen := false }

/-- A gang with an empty share table (R208). -/
def Gang.fresh (launch no tiller : Nat) (members : List Nat) : Gang :=
  { launch := launch, no := no, members := members, share := [], bars := [], came := [], tiller := tiller, retired := false }

/-- The arguments in a grid's registers or in a level's views of them (R311, R411). -/
def argCells (u : UnitRef) (args : List Word) : List (RegKey × Cell) :=
  args.zipIdx.map fun p => (match u with | .grid l => .dr l p.2 | _ => .view u .d p.2, .known p.1)

/-- A sequencer begins its walk at ENTRY (R61, R311). -/
def State.startSeq (s : State) (entry : Nat) (args : List Word) (u : UnitRef) : State :=
  (s.setSeq u { Seq.start entry with parkAt := s.env.cycle }).setCells (argCells u args)

/-- The groups and slices of a block begin their walk. -/
def State.startGroups (s : State) (x : Blk) (args : List Word) : State :=
  (groupsOf x ++ (List.range x.desc.groups).flatMap (slicesOf x)).foldl (fun t u => t.startSeq x.desc.entry args u) s

/-- The data of a launch as it is created (R308 to R310). -/
def LaunchData.fresh (desc : Desc) (nb prio : Nat) (deps : List Nat) (args : List Word) : LaunchData :=
  { desc := desc, nb := nb, prio := prio, deps := deps, args := args, gridSeq := false, nextStripe := 0, stripes := [],
    given := 0, gangsDone := [], readyAt := 0 }

/-- A launch entry. -/
def Entry.ofLaunch (idx ctx parent : Nat) (st : EState) (d : LaunchData) : Entry :=
  { idx := idx, ctx := ctx, kind := .launch, parent := parent, pending := 0, st := st, isOpen := false, creator := idx,
    hard := false, drained := false, launch := some d, job := none }

end Sys2Proof.Machine
end

