-- ==== Sys2Proof/Machine/Launch.lean ====
section
/-! DEFINITION. The work table, launches, jobs, the dispatcher, cancelling, and the retirement of blocks (15_launch R307 to
R332). -/

namespace Sys2Proof.Machine

/-! ## Entries and handles (R313 to R315) -/

def EState.code : EState → Nat
  | .held => 1 | .ready => 2 | .active => 3 | .opened => 4 | .closed => 5 | .done => 6 | .cancelled => 7 | .draining => 8

def kindCode : CKind → Nat | .job => 1 | .phase => 2 | .graph => 3 | .launch => 4

def Entry.final (e : Entry) : Bool := e.st == .done || e.st == .cancelled

/-- The status word (R315). -/
def Entry.word (e : Entry) : Nat := e.st.code * 2 ^ 28 + kindCode e.kind * 2 ^ 25 + e.pending % 2 ^ 24

/-- The entry that a handle matches, of any context (R313). -/
def State.matchHandle (s : State) (v : Nat) : Option Entry :=
  let i := v % 4096
  let g := v / 4096 % 16
  if g = 0 ∨ s.genOf i ≠ g then none else s.entry? i

/-- The entry that a handle names for a context. -/
def State.named (s : State) (ctx v : Nat) : Option Entry := (s.matchHandle v).bind fun e => if e.ctx = ctx then some e else none

/-- Free entries of a launch unit, and the one at the head of its list (R313). -/
def State.usedOf (s : State) (die : Nat) : Nat := lookupD 0 die s.work.used
def State.freeEntries (s : State) (die : Nat) : Nat :=
  Config.entriesPerDie - s.usedOf die + (s.work.freed.filter fun i => i / Config.entriesPerDie == die).length

/-- Allocates an entry of a launch unit: its index; its GEN advances. -/
def State.allocEntry (s : State) (die : Nat) (mk : Nat → Entry) : Option (State × Nat) :=
  let u := s.usedOf die
  let pick : Option (Nat × Work) :=
    if u < Config.entriesPerDie then
      some (die * Config.entriesPerDie + u, { s.work with used := assign die (u + 1) s.work.used })
    else match s.work.freed.find? fun i => i / Config.entriesPerDie == die with
      | some i => some (i, { s.work with freed := s.work.freed.erase i })
      | none => none
  pick.map fun p =>
    let g := s.genOf p.1
    (s.setWork { p.2 with entries := p.2.entries ++ [mk p.1], gens := assign p.1 (if g = 15 then 1 else g + 1) p.2.gens }, p.1)

/-- The launch unit with the most free entries, the lowest die on a tie (R318). -/
def State.mostFree (s : State) : Nat :=
  (List.range Config.dies).foldl (fun b d => if s.freeEntries b < s.freeEntries d then d else b) 0

/-- The issuing die if it has a free entry, else the lowest one that has (R329, DESIGN CHOICE log 30). -/
def State.allocDie (s : State) (die : Nat) : Option Nat :=
  if 0 < s.freeEntries die then some die else (List.range Config.dies).find? fun d => 0 < s.freeEntries d

/-- Frees an entry: it joins the tail of the free list, and its round of weights is forgotten (R313, R321). -/
def State.freeEntry (s : State) (i : Nat) : State :=
  s.setWork { s.work with entries := s.work.entries.filter (·.idx != i), freed := s.work.freed ++ [i]
                          served := s.work.served.filter fun p => p.1.2 != i }

/-! ## Tickets and places (R320, R322) -/

def LaunchData.tickets (d : LaunchData) : Nat := d.nb / d.desc.gang

/-- Blocks of a launch that hold a place or stand in a frame. -/
def State.liveBlocks (s : State) (l : Nat) : List Blk := s.blks.filter fun x => x.launch == l && x.phase != .retired

/-- Groups of a block on quarter q, and the register bytes of a group (R16, R157). -/
def Desc.onQuarter (d : Desc) (q : Nat) : Nat := (d.groups + 3 - q) / 4
def Desc.groupBytes (d : Desc) : Nat := d.lanes * d.nregs * 4

/-- Blocks of a shape that fit on an empty core, and in an empty tiller. -/
def Desc.perCore (d : Desc) : Nat :=
  min Config.blocksPerCore (min (Config.groupsPerQuarter / d.onQuarter 0) (Config.regFileBytes / (d.onQuarter 0 * d.groupBytes)))
def Desc.perTiller (d : Desc) : Nat :=
  let n := min (Config.coresPerTiller * d.perCore) 128
  if d.banks = 0 then n else min n (Config.banksPerTiller / d.banks)

/-- The shape and the gang could fit an empty part (R329). -/
def Desc.couldFit (d : Desc) : Bool :=
  d.gang ≤ (match d.lclass with | 0 => 1 | 1 => Config.tillersPerDie | _ => Config.tillers) * d.perTiller

/-- Blocks that hold a place on a core. -/
def State.placedOn (s : State) (core : Nat) : List Blk :=
  s.blks.filter fun x => x.core == core && (x.phase == .reserved || x.phase == .resident)

/-- Free banks of a tiller that no reservation holds. -/
def State.unreservedBanks (s : State) (t : Nat) : Nat :=
  (s.freeBanks t).length - ((s.blks.filter fun x => x.phase == .reserved && tillerOf x.core == t).map fun x => x.desc.banks).sum

/-- The state of a core's service domain (R386, R391). -/
def State.domainState (s : State) (kind i : Nat) : Nat :=
  match s.svc.health.find? fun h => h.1 == kind && h.2.1 == i with | some h => h.2.2.dstate | none => 0

def State.coreInService (s : State) (core : Nat) : Bool := s.domainState 0 core == 0 || s.domainState 0 core == 5

/-- Room on a core for the groups of a block (R15, R16, R322). -/
def State.coreRoom (s : State) (d : Desc) (core : Nat) : Bool :=
  core < 768 && s.coreInService core && (s.placedOn core).length < Config.blocksPerCore &&
    (List.range 4).all fun q =>
      ((s.placedOn core).map fun x => x.desc.onQuarter q).sum + d.onQuarter q ≤ Config.groupsPerQuarter &&
      ((s.placedOn core).map fun x => x.desc.onQuarter q * x.desc.groupBytes).sum + d.onQuarter q * d.groupBytes ≤ Config.regFileBytes

/-- Whether a new block fits at a place: core and lane-private slot. -/
def State.fits (s : State) (d : Desc) (p : Nat × Nat) : Bool :=
  s.coreRoom d p.1 && d.banks ≤ s.unreservedBanks (tillerOf p.1) && p.2 < 128 &&
    !(s.blks.any fun x => x.phase != .retired && tillerOf x.core == tillerOf p.1 && x.lslot == p.2)

/-! ## The end of a launch -/

/-- What a launch leaves behind when it completes: its blocks, gangs, sequencers, frames and banks go (R316, R82). -/
def State.dropLaunch (s : State) (l : Nat) : State :=
  let mine (b : Nat) : Bool := s.blks.any fun x => x.id == b && x.launch == l
  let own (u : UnitRef) : Bool := match u.block? with | some b => mine b | none => s.launchOf u == l
  let banks := (s.blks.filter (·.launch == l)).flatMap fun x => (x.slots.filter (·.st != 0)).map fun sl => (tillerOf x.core, sl.bank)
  let s1 := banks.foldl (fun t p => t.zeroBank p.1 p.2) s
  let s2 := (s1.setBlks (s.blks.filter (·.launch != l))).setGangs (s.gangs.filter (·.launch != l))
  let s3 := s2.setSeqs (s.seqs.filter fun p => !own p.1)
  let s4 := s3.setRegs (s.regs.filter fun p => match p.1 with
    | .vec b .. | .pred b .. | .ixv b .. | .ixb b .. | .ixl b .. | .fsr b .. | .gr b .. | .br b .. => !mine b
    | .nr k .. | .dr k .. => k != l
    | .view u .. | .latch u .. => !own u)
  let s5 := s4.setFlt { s.flt with
    frames := s.flt.frames.filter fun f => match f.block, f.upper with | some b, _ => !mine b | _, some u => !own u | _, _ => true
    uppers := s.flt.uppers.filter fun p => !own p.1 }
  s5.setQs { s.qs with accs := s.qs.accs.filter fun a => !own a.unit, mons := s.qs.mons.filter fun m => !own m.unit }

/-! ## The part's own accesses as a context (R318, R319, R336) -/

/-- What a page of the part's own access meets; it is held while a flip or a stage-2 command holds the page back. -/
inductive PartAccess | ok | held | miss (ia : Nat) | refused
  deriving DecidableEq, Repr

/-- One page, through the context's range registers. -/
def State.partPage (s : State) (ctx va : Nat) (write : Bool) : PartAccess :=
  match s.stage1 ctx va with
  | none => .refused
  | some (r, ia) =>
    if (write && !rightW r) || (!write && !rightR r) then .refused
    else if s.heldIa ia then .held
    else match s.route ia write with
      | .pkg k | .sys _ k => if s.heldPage k then .held else .ok
      | .miss _ => .miss ia
      | _ => .refused

/-- The first page that does not let the access pass. -/
def State.partAccess (s : State) (ctx va n : Nat) (write : Bool) : PartAccess :=
  ((pagePieces va n).findSome? fun p => match s.partPage ctx p.1 write with | .ok => none | r => some r).getD .ok

/-- Writes bytes page by page. -/
def pokePages (ctx : Nat) : List (Nat × Nat) → List Byte → State → State
  | [], _, s => s
  | p :: r, bs, s => pokePages ctx r (bs.drop p.2) (s.pokeVa ctx p.1 (bs.take p.2))

/-- Reads page by page. -/
def State.readPages (s : State) (ctx : Nat) (ps : List (Nat × Nat)) : List Byte :=
  ps.flatMap fun p => match s.vaKey ctx p.1 false with
    | some k => readBytes s.mem.bytes k p.2
    | none => List.replicate p.2 0

/-- A STATUS word waits, and is tried again when the driver answers, or when what holds its page is over. -/
def State.keepPost (s : State) (p : Post) : State := s.setWork { s.work with posts := s.work.posts ++ [p] }

/-- The interrupt that follows a STATUS word (R319, R371). -/
def State.signal (s : State) (p : Post) : State := s.setEnv { s.env with irqs := s.env.irqs ++ [p.irq] }

/-- Writes a STATUS word and then signals its interrupt; it waits for a missing page. A word that the context may no longer write is
not written (R319, R379, DESIGN CHOICE log 80). -/
def State.tryPost (s : State) (p : Post) : State :=
  match s.partAccess p.ctx p.va p.bytes.length true with
  | .ok => (s.pokeVa p.ctx p.va p.bytes).signal p
  | .held => s.keepPost p
  | .miss ia => (s.pageMiss ia 1).1.keepPost p
  | .refused => s.signal p

/-- Every waiting word is tried again. -/
def State.flushPosts (s : State) : State := s.work.posts.foldl State.tryPost (s.setWork { s.work with posts := [] })

/-- The driver cannot map a page: the words that wait for it are not written (DESIGN CHOICE log 80). -/
def State.refusePosts (s : State) (page : Nat) : State :=
  let mine (p : Post) : Bool := match s.partAccess p.ctx p.va p.bytes.length true with | .miss ia => ia / 65536 == page | _ => false
  (s.work.posts.filter mine).foldl State.signal (s.setWork { s.work with posts := s.work.posts.filter fun p => !mine p })

/-! ## Completion (R314, R319) -/

/-- Whether an entry completes now. -/
def Entry.completes (e : Entry) : Bool :=
  !e.final && e.pending == 0 && (match e.kind with
    | .launch => (match e.launch with | some d => d.tickets ≤ d.given | none => true)
    | .job => (match e.job with | some j => j.root | none => true)
    | _ => !e.isOpen)

/-- Closes an open entry. -/
def Entry.close (e : Entry) : Entry :=
  if e.isOpen then { e with isOpen := false, pending := e.pending - 1, st := if e.st == .opened then .closed else e.st } else e

/-- A launch ends without dispensing anything more: only its running blocks are still counted (R324). -/
def State.stopDispensing (s : State) (e : Entry) : Entry :=
  match e.launch with
  | none => e
  | some d => { e with launch := some { d with given := max d.given d.tickets }, pending := (s.liveBlocks e.idx).length }

/-- What follows the completion of a job: STATUS, then the interrupt (R319, R371). -/
def jobDone (e : Entry) (w : Nat) (s : State) : State :=
  match e.job with
  | none => s
  | some j =>
    (s.setSvc { s.svc with completed := (s.svc.completed + 1) % 2 ^ 32 }).tryPost
      { ctx := e.ctx, va := j.record + 68, bytes := leBytes 4 w, irq := (j.fn, e.ctx) }

/-- What the end of an entry with handle `v` does to a launch of its context that is held on it: it is cancelled, or has one
dependence less (R315, R324). -/
def depEnds (s : State) (ctx v : Nat) (cancelled : Bool) (e : Entry) : Entry :=
  match e.launch, e.st with
  | some d, .held =>
    if e.ctx ≠ ctx ∨ !d.deps.contains v then e
    else if cancelled then { (s.stopDispensing e) with hard := true }
    else { e with launch := some { d with deps := d.deps.filter (· != v) } }
  | _, _ => e

/-- The entries that a launch closes when it completes (R314). -/
def closeOf (l : Nat) (x : Entry) : Entry := if x.creator = l ∧ x.kind ≠ .launch ∧ x.kind ≠ .job then x.close else x

/-- One entry completes: its parent's PENDING falls; its final children are freed, and so is itself under a parent that is final
already; a launch closes what it opened (R314, DEDUCED log 142). -/
def State.complete (s : State) (e : Entry) : State :=
  let st := if e.hard || e.drained then EState.cancelled else .done
  let v := s.handleOf e.idx
  let kids := (s.work.entries.filter fun x => x.parent == e.idx && x.idx != e.idx && x.final).map (·.idx)
  let s1 := kids.foldl State.freeEntry s
  let s2 := s1.mapEntry e.idx fun x => { x with st := st }
  let s3 := if e.kind == .job then s2 else s2.mapEntry e.parent fun p => { p with pending := p.pending - 1 }
  let s4 := if e.kind == .launch then
      (s3.dropLaunch e.idx).setWork { s3.work with entries := s3.work.entries.map (closeOf e.idx) }
    else s3
  let s5 := s4.setWork { s4.work with entries := s4.work.entries.map (depEnds s4 e.ctx v (st == .cancelled)) }
  let s6 := if e.kind != .job && ((s.entry? e.parent).map Entry.final).getD true then s5.freeEntry e.idx else s5
  jobDone e ({ e with st := st } : Entry).word s6

/-- Every entry that completes does so, one after another. -/
def State.settle : Nat → State → State
  | 0, s => s
  | n + 1, s => match s.work.entries.find? Entry.completes with
    | some e => (s.complete e).settle n
    | none => s

def State.settleAll (s : State) : State := s.settle (2 * s.work.entries.length + 2)

/-! ## Cancelling (R324, R332) -/

/-- An entry lies at or below another one. -/
def State.below (s : State) (top : Nat) : Nat → Nat → Bool
  | 0, _ => false
  | n + 1, i => i == top || (match s.entry? i with | some e => e.parent != i && s.below top n e.parent | none => false)

/-- Cancels an entry and every entry below it, in one step. -/
def State.cancelEntry (s : State) (hard : Bool) (top : Nat) : State :=
  let hit (e : Entry) : Bool := !e.final && s.below top 5 e.idx
  let mark (e : Entry) : Entry :=
    if hit e then
      let e1 := s.stopDispensing e.close
      { e1 with hard := e.hard || hard, drained := e.drained || !hard, st := .draining
                job := e1.job.map fun j => { j with root := true } }
    else e
  let dead := (s.work.entries.filter hit).map (·.idx)
  let s1 := s.setWork { s.work with entries := s.work.entries.map mark }
  let s2 := if hard then s1.setBlks (s1.blks.map fun x =>
      if dead.contains x.launch && x.phase != .retired then { x with cancelled := true } else x) else s1
  s2.settleAll

/-- Hard-cancels the job that a launch belongs to (R336). -/
def State.cancelJobOf (s : State) (l : Nat) : State :=
  match s.entry? l with | some _ => s.cancelEntry true (s.jobOf l) | none => s

/-! ## Operands of launch instructions (R328) -/

/-- The sources of a launch-class instruction: equal in every executing lane of a slice clause; none with no such lane. -/
def oneOf (h : Here) (s : State) (srcs : List (Src × As)) : Except Stop (Option (List LaneId × List Nat)) := do
  let xs ← laneAddrs h s 7 srcs
  match xs with
  | [] => .ok none
  | x :: r =>
    let diff := r.filter fun p => p.2 != x.2
    if diff ≠ [] then .error (trapL .nonuniform (diff.map (·.1))) else .ok (some (xs.map (·.1), x.2))

/-- Writes one result to every executing lane, or once. -/
def oneResult (h : Here) (o : Out) (ls : List LaneId) (v : Nat) (s : State) : State := writeResults h o (ls.map fun x => (x, v)) s

/-! ## `launch` (R308 to R310, R329) -/

/-- A kernel descriptor from its bytes; none where it breaks R308. -/
def readDesc (bs : List Byte) : Option Desc :=
  let f := field bs
  let d : Desc := { entry := f 0 8, ltp := f 8 8, width := f 16 1, regs := f 17 1, groups := f 18 1, banks := f 19 1, gang := f 20 1,
                    lclass := f 21 1, compat := f 22 1 % 2 == 1 }
  if d.entry % 8 != 0 || 2 ^ 57 ≤ d.entry || d.ltp % 8 != 0 || 3 < d.width || d.regs == 0 || 20 < d.regs || d.groups == 0 ||
     32 < d.groups || 16 < d.banks || d.gang == 0 || 64 < d.gang || 2 < d.lclass || 1 < f 22 1 || f 23 41 != 0 ||
     (d.compat && d.width != 1) then none
  else some d

/-- A launch record (R309). -/
structure LRec where
  descAt : Nat
  nb : Nat
  parent : Nat
  prio : Nat
  deps : List Nat
  args : List Word
  ok : Bool
  deriving DecidableEq, Repr

def readLRec (bs : List Byte) : LRec :=
  let f := field bs
  { descAt := f 0 8, nb := f 8 4 * f 12 2 * f 14 2, parent := f 16 2, prio := f 18 1
    deps := ((List.range 4).map fun i => f (20 + 2 * i) 2).filter (· != 0)
    args := (List.range 8).map fun i => BitVec.ofNat 32 (f (32 + 4 * i) 4)
    ok := f 0 8 % 8 == 0 && f 18 1 ≤ 7 && f 19 1 == 0 && f 28 4 == 0 && f 8 4 != 0 && f 12 2 != 0 && f 14 2 != 0 }

/-- The descriptor and the record make a legal launch (R308 to R310). -/
def legalLaunch (r : LRec) (d : Desc) : Bool := r.ok && r.nb ≤ 16777215 && r.nb % d.gang == 0

/-- The dependences that hold a launch: a stale one, and one that is final, holds it no longer (R313, R315, R329). -/
def State.liveDeps (s : State) (ctx : Nat) (deps : List Nat) : List Nat :=
  deps.filter fun v => match s.named ctx v with | some e => !e.final | none => false

/-- A dependence has ended cancelled (R324). -/
def State.deadDep (s : State) (ctx : Nat) (deps : List Nat) : Bool :=
  deps.any fun v => match s.named ctx v with | some e => e.st == .cancelled | none => false

/-- MAXPRIO of the job that an entry belongs to (R309, R317). -/
def State.maxPrio (s : State) (i : Nat) : Nat := (((s.entry? (s.jobOf i)).bind (·.job)).map (·.maxprio)).getD 7

/-- A launch entry: held, or cancelled under a cancelled or final parent or on a dependence that ended cancelled (R324, R329). -/
def newLaunch (s : State) (ctx parent : Nat) (dead : Bool) (r : LRec) (d : Desc) (maxprio i : Nat) : Entry :=
  let e := { Entry.ofLaunch i ctx parent .held (LaunchData.fresh d r.nb (min r.prio maxprio) (s.liveDeps ctx r.deps) r.args) with
             pending := r.nb }
  if dead || s.deadDep ctx r.deps then
    { e with hard := true, pending := 0, launch := e.launch.map fun x => { x with given := x.tickets } }
  else e

/-- The last step of `launch`: the refusals in their order, or the new entry. -/
def launchStep (h : Here) (die : Nat) (r : LRec) (d : Option Desc) (s : State) : State × Nat :=
  match d with
  | none => (s, 0x80000002)
  | some d =>
    if !legalLaunch r d then (s, 0x80000002)
    else if !d.couldFit then (s, 0x80000004)
    else
      let p? : Option Entry := if r.parent = 0 then (s.entry? h.launch).bind fun e => s.entry? e.parent else s.named h.ctx r.parent
      match p?.bind fun p => if p.kind == .launch then none else some p with
      | none => (s, 0x80000003)
      | some p =>
        let mk := newLaunch s h.ctx p.idx (p.final || p.hard || p.drained) r d (s.maxPrio p.idx)
        match (s.allocDie die).bind fun d0 => s.allocEntry d0 mk with
        | none => (s, 0x80000001)
        | some (t, i) =>
          let v := t.handleOf i
          ((t.mapEntry p.idx fun x => { x with pending := x.pending + 1 }).settleAll, v)

/-- Reads the bytes of a record or a descriptor as ordinary loads, and waits for them. -/
def fetchRec (h : Here) (a n size : Nat) (s : State) : Except Stop (State × Access) := do
  let ls ← checkLanes h s .load true (fun x => openInfo x false)
    ((List.range n).map fun i => laneAcc h.g 0 (size * i) size (.known a) (.known 0) [])
  let id := s.env.fresh
  let (t, x) ← awaited h (sendAccess h .load size 0 none none ls s) id
  match x with
  | some x => .ok (t, x)
  | none => .error (.stay t)

def Access.bytes (a : Access) : List Byte := a.lanes.flatMap (·.got)

/-- The record is known: the descriptor's test and read, then the step. -/
def launchDesc (o : Out) (h : Here) (rec : Access) (s : State) : Body :=
  let r := readLRec rec.bytes
  let finish (d : Option Desc) (t : State) : Body :=
    let (t1, v) := launchStep h (s.dieOf h.u) r d t
    .ok (writeOne h o v t1)
  if r.descAt % 8 ≠ 0 then finish none (s.dropAcc rec)
  else do
    let (t, x) ← fetchRec h r.descAt 8 8 s
    finish (readDesc x.bytes) ((t.dropAcc x).dropAcc rec)

def launchBody (o : Out) (record : Src) (h : Here) (s : State) : Body :=
  match h.q.park with
  | .access id => do
    readyUpper h s o false
    let (t, x) ← awaited h s id
    match x with
    | none => .error (.stay (t.mapSeq h.u fun q => { q with park := .none }))
    | some x =>
      if x.width = 64 then launchDesc o h x t
      else match (t.ordered h.u).find? fun a => a.width == 64 && a.pc == h.pc && a.kind == .load with
        | none => .error (.stay (t.mapSeq h.u fun q => { q with park := .none }))
        | some rec =>
          let r := readLRec rec.bytes
          let (t1, v) := launchStep h (s.dieOf h.u) r (readDesc x.bytes) ((t.dropAcc x).dropAcc rec)
          .ok (writeOne h o v t1)
  | _ => do
    let ns ← upNums h s [(record, .addr)]
    readyResult h s o
    memBars h s false false
    let (t, x) ← fetchRec h (ns.headD 0) 1 64 s
    launchDesc o h x t

def execLaunch (o : Out) (record : Src) (s : State) : Host.Outcome State Fault Refusal := runInstr (launchBody o record) s

/-! ## `cnt` (R330) -/

/-- The operand of a `cnt`, once its unit is at the head of its program order (R275, R328). -/
def cntOperand (h : Here) (o : Out) (a : Src) (s : State) : Except Stop (Option (List LaneId × List Nat)) := do
  let x ← oneOf h s [(a, .w32)]
  readyResult h s o
  if !s.atHead h.u then waitHere s else .ok x

def cntRdBody (o : Out) (hd : Src) (h : Here) (s : State) : Body := do
  match ← cntOperand h o hd s with
  | none => .ok (writeResults h o [] s)
  | some (ls, ns) => .ok (oneResult h o ls (((s.named h.ctx (ns.headD 0)).map Entry.word).getD 0) s)

def execCntRd (o : Out) (hd : Src) (s : State) : Host.Outcome State Fault Refusal := runInstr (cntRdBody o hd) s

/-- The nearest entry of a kind at or above one; the job where there is none. -/
def State.ownOf (s : State) (k : CKind) : Nat → Nat → Nat
  | 0, i => i
  | n + 1, i => match s.entry? i with
    | some e => if e.kind == k || e.kind == .job then i else s.ownOf k n e.parent
    | none => i

def cntSelfBody (o : Out) (k : CKind) (h : Here) (s : State) : Body := do
  if h.isSlice then .ok () else gate h s
  readyResult h s o
  .ok (writeOne h o (s.handleOf (s.ownOf k 5 h.launch)) s)

def execCntSelf (o : Out) (k : CKind) (s : State) : Host.Outcome State Fault Refusal := runInstr (cntSelfBody o k) s

/-- Legal parents (R314). -/
def mayHold (parent k : CKind) : Bool :=
  match k, parent with
  | .phase, .job | .graph, .job | .graph, .phase => true
  | _, _ => false

def cntNewStep (h : Here) (die : Nat) (k : CKind) (v : Nat) (s : State) : State × Nat :=
  match (s.named h.ctx v).bind fun p => if mayHold p.kind k && !p.final then some p else none with
  | none => (s, 0x80000003)
  | some p =>
    let mk (i : Nat) : Entry :=
      { idx := i, ctx := h.ctx, kind := k, parent := p.idx, pending := 1, st := .opened, isOpen := true, creator := h.launch,
        hard := false, drained := false, launch := none, job := none }
    match (s.allocDie die).bind fun d => s.allocEntry d mk with
    | none => (s, 0x80000001)
    | some (t, i) => (t.mapEntry p.idx fun x => { x with pending := x.pending + 1 }, t.handleOf i)

def cntNewBody (o : Out) (k : CKind) (parent : Src) (h : Here) (s : State) : Body := do
  match ← cntOperand h o parent s with
  | none => .ok (writeResults h o [] s)
  | some (ls, ns) =>
    let (t, v) := cntNewStep h (s.dieOf h.u) k (ns.headD 0) s
    .ok (oneResult h o ls v t)

def execCntNew (o : Out) (k : CKind) (parent : Src) (s : State) : Host.Outcome State Fault Refusal :=
  runInstr (cntNewBody o k parent) s

def cntCloseStep (ctx v : Nat) (s : State) : State × Nat :=
  match s.named ctx v with
  | none => (s, 3)
  | some e =>
    if e.kind == .launch || e.kind == .job then (s, 3)
    else if e.final || !e.isOpen then (s, 1)
    else ((s.mapEntry e.idx Entry.close).settleAll, 0)

def cntCloseBody (o : Out) (hd : Src) (h : Here) (s : State) : Body := do
  match ← cntOperand h o hd s with
  | none => .ok (writeResults h o [] s)
  | some (ls, ns) =>
    let (t, v) := cntCloseStep h.ctx (ns.headD 0) s
    .ok (oneResult h o ls v t)

def execCntClose (o : Out) (hd : Src) (s : State) : Host.Outcome State Fault Refusal := runInstr (cntCloseBody o hd) s

/-! ## `cwait`, `cancel` (R325, R331, R332) -/

def cwaitBody (o : Out) (hd : Src) (h : Here) (s : State) : Body := do
  let ns ← upNums h s [(hd, .w32)]
  readyResult h s o
  if !s.atHead h.u then waitHere s
  else match s.named h.ctx (ns.headD 0) with
    | none => .ok (writeOne h o 0 (s.emptyY h.ctx))
    | some e => if e.final then .ok (writeOne h o e.word (s.emptyY h.ctx)) else parkHere h .waiting s

def execCwait (o : Out) (hd : Src) (s : State) : Host.Outcome State Fault Refusal := runInstr (cwaitBody o hd) s

def cancelStep (ctx v : Nat) (hard : Bool) (s : State) : State × Nat :=
  match s.matchHandle v with
  | none => (s, 1)
  | some e =>
    if e.ctx ≠ ctx then (s, 2)
    else if e.final || e.hard || (!hard && e.drained) then (s, 1)
    else (s.cancelEntry hard e.idx, 0)

def cancelBody (o : Out) (hd : Src) (hard : Bool) (h : Here) (s : State) : Body := do
  let ns ← upNums h s [(hd, .w32)]
  readyResult h s o
  let (_, v) := cancelStep h.ctx (ns.headD 0) hard s
  if !s.atHead h.u then waitHere s else .ok (cancelStep h.ctx (ns.headD 0) hard (writeOne h o v s)).1

def execCancel (o : Out) (hd : Src) (s : State) : Host.Outcome State Fault Refusal := runInstr (cancelBody o hd true) s
def execCancelDrain (o : Out) (hd : Src) (s : State) : Host.Outcome State Fault Refusal := runInstr (cancelBody o hd false) s

/-! ## The end of a block -/

/-- The units of a block. -/
def unitsOf (x : Blk) : List UnitRef :=
  .block x.id :: groupsOf x ++ (List.range x.desc.groups).flatMap (slicesOf x)

/-- A gang's barriers without the arrivals of a block (R324). -/
def Gang.withoutArrivals (b : Nat) (g : Gang) : Gang :=
  { g with came := g.came.filter (·.2 != b)
           bars := g.bars.mapIdx fun n x =>
             let left := x.arrived - g.came.count (n, b)
             if g.came.contains (n, b) then { x with arrived := left, target := if left = 0 then 0 else x.target } else x }

def State.releaseArrivals (s : State) (b : Nat) : State :=
  match s.gangOf b with | some g => s.mapGang g.launch g.no (Gang.withoutArrivals b) | none => s

/-- A block ends without a frame: it issues nothing more; its engine commands, monitors, arrivals and refused accesses go; it then
retires as R316 allows (R324, R340). -/
def State.killBlock (s : State) (b : Nat) : State :=
  match s.blk? b with
  | none => s
  | some x =>
    let s1 := ((s.cancelAll b).releaseArrivals b).mapBlk b fun y => { y with cancelled := true, stop := none, kill := true, frozen := false }
    let s2 := (unitsOf x).foldl (fun t u => t.mapSeq u fun q =>
      { q with retired := true, clause := none, park := .none, queue := [] }) s1
    let refused (id : Nat) : Bool := match s2.access? id with | some a => a.poison.isSome | none => false
    let s3 := s2.setQs { s2.qs with
      mons := s2.qs.mons.filter fun m => m.unit.block? != some b
      sq := s2.qs.sq.filter fun e => !(e.unit.block? == some b && refused e.acc) }
    s3.setFlt { s3.flt with frames := s3.flt.frames.filter fun f => f.block != some b }

/-- Nothing of a block is on its way any more (R316). -/
def State.blockClear (s : State) (x : Blk) : Bool :=
  let mine (u : UnitRef) : Bool := u.block? == some x.id
  x.mq.isEmpty && x.cmds.all (·.st != 0) && !(s.qs.tq.any fun e => mine e.unit) && !(s.qs.mq.any fun e => mine e.unit) &&
    !(s.qs.eq.any (·.b == x.id)) && !(s.qs.sq.any fun e => mine e.unit) &&
    !(((s.qs.accs.filter fun a => mine a.unit).takeWhile fun a => a.poison.isNone).any Access.open)

/-- A slot of a block that retires: its bank drains, an arriving one is awaited (R207). -/
def Slot.retire (sl : Slot) : Slot :=
  if sl.st = 1 then { sl with st := 2, mirror := false, shared := false, target := none } else { sl with mirror := false }

/-- A gang whose blocks have all retired retires (R82). -/
def State.retireGang (s : State) (l k : Nat) : State :=
  match s.gang? l k with
  | none => s
  | some g =>
    if g.retired || !g.members.all (fun b => match s.blk? b with | some x => x.phase == .retired | none => true) then s
    else
      let s1 := (s.mapGang l k fun y => { y with retired := true }).mapSeq (.gang l k) fun q => { q with retired := true }
      (s1.mapEntry l fun e => { e with launch := e.launch.map fun d => { d with gangsDone := d.gangsDone ++ [k] } }).trim (.grid l)

/-- A block leaves the part: what it held is released in one step, and its launch's PENDING falls (R316). -/
def State.retireBlock (s : State) (x : Blk) : State :=
  let b := x.id
  let mine (u : UnitRef) : Bool := u.block? == some b
  let s1 := s.mapBlk b fun y => { y with phase := .retired, slots := y.slots.map Slot.retire, tiles := [], handles := [], bars := [],
                                          stop := none, mq := [], merrSticky := false, mlog := [] }
  let s2 := match s1.gangOf b with
    | some g => s1.mapGang g.launch g.no fun y => { y with share := y.share.filter fun e =>
        !(e.2.1 == tillerOf x.core && x.slots.any fun sl => sl.st != 0 && sl.shared && sl.bank == e.2.2.1) }
    | none => s1
  let s3 := s2.setRegs (s2.regs.filter fun p => match p.1 with
    | .vec c .. | .pred c .. | .ixv c .. | .ixb c .. | .ixl c .. | .fsr c .. | .gr c .. | .br c .. => c != b
    | .view u .. | .latch u .. => !mine u
    | _ => true)
  let s4 := (s3.setSeqs (s3.seqs.map fun p => if mine p.1 then (p.1, { p.2 with retired := true, clause := none, queue := [] }) else p)).setQs
    { s3.qs with accs := s3.qs.accs.filter fun a => !mine a.unit }
  let s5 := s4.setSyms (s4.syms.filter fun y => y.b != b)
  let s6 := s5.setFlt { s5.flt with frames := s5.flt.frames.filter fun f => f.block != some b }
  let s7 := (s6.trimParent (.block b)).retireGang x.launch x.gangNo
  (s7.mapEntry x.launch fun e => { e with pending := e.pending - 1 }).settleAll

/-- BLOCK_RETIREMENT. A member that was reserved and never started goes when it is cancelled. -/
def execBlockRetirement (b : Nat) (s : State) : Host.Outcome State Fault Refusal :=
  match s.blk? b with
  | none => .next s
  | some x =>
    let ended := (unitsOf x).all s.retired
    if x.phase == .retired || x.stop.isSome then .next s
    else if x.phase == .reserved then .next (if x.cancelled then s.retireBlock x else s)
    else if ended && s.blockClear x then .next (s.retireBlock x)
    else .next s

/-- Room for a swapped-out block on a core of its tiller, which a cancel restores in order to end it (R324). -/
def State.roomAgain (s : State) (x : Blk) : Bool :=
  let tiller := ((s.flt.frames.find? fun f => f.block == some x.id).map (·.tiller)).getD (tillerOf x.core)
  (List.range Config.coresPerTiller).any fun i => s.coreRoom x.desc (Config.coresPerTiller * tiller + i)

/-- A unit whose clause has ended cannot leave it: a queue below is full, or another slice has not come to a meeting point yet. -/
def State.cannotLeave (s : State) (u : UnitRef) : Bool :=
  match s.seq? u with
  | none => false
  | some q => match q.clause with
    | some c => c.ended && (((leaveClause u q c s).seq? u).bind (·.clause)).isSome
    | none => false

/-- A unit of a stopping block stands still: where the stop takes it, where it cannot go on, or before an access whose page the
driver has not mapped yet. -/
def unitStands (s : State) (f : Option UnitRef) (v : UnitRef) : Bool :=
  s.takenAt f v || s.cannotLeave v || (match (s.seq? v).map Seq.park with
    | some (.access id) => ((s.access? id).map Access.paged).getD true
    | _ => false)

/-- Where a cancel finds a block: running, its units between clauses or at their waiting instructions; swapped out, where it has room
to be restored; or in a frame that waits for software, where it ends (R324, R340, DEDUCED log 143). -/
def State.cancelReaches (s : State) (x : Blk) : Bool :=
  match x.phase with
  | .resident => (unitsOf x).all (unitStands s x.faulting)
  | .framed => (s.flt.frames.any fun f => f.block == some x.id && (f.faulted || f.held || f.frozen || f.halted || f.pageTag.isSome)) ||
      s.roomAgain x
  | _ => false

/-- CANCEL_DELIVERY. -/
def execCancelDelivery (b : Nat) (s : State) : Host.Outcome State Fault Refusal :=
  match s.blk? b with
  | none => .next s
  | some x => if x.cancelled && !x.kill && s.cancelReaches x then .next (s.killBlock b) else .next s

/-! ## The dispatcher (R315, R320, R322) -/

/-- LAUNCH_READY: every dependence is final (R315). -/
def execLaunchReady (h : Nat) (s : State) : Host.Outcome State Fault Refusal :=
  match s.entry? h with
  | none => .next s
  | some e =>
    match e.launch, e.st with
    | some d, .held =>
      if e.hard || e.drained || !d.deps.isEmpty then .next s
      else .next (s.mapEntry h fun x => { x with st := .ready, launch := some { d with readyAt := s.env.cycle } })
    | _, _ => .next s

/-- GRID_SEQUENCER_TAKE: a ready launch takes a grid sequencer of its launch unit (R320, R411). -/
def execGridSequencerTake (die h : Nat) (s : State) : Host.Outcome State Fault Refusal :=
  match s.entry? h with
  | none => .next s
  | some e =>
    match e.launch, e.st with
    | some d, .ready =>
      let held := (s.work.entries.filter fun x => x.idx / Config.entriesPerDie == die && (match x.launch with
        | some y => y.gridSeq && !x.final | none => false)).length
      if d.gridSeq || h / Config.entriesPerDie ≠ die || Config.gridSeqsPerDie ≤ held then .next s
      else .next ((s.mapEntry h fun x => { x with launch := some { d with gridSeq := true } }).startSeq d.desc.entry d.args (.grid h))
    | _, _ => .next s

/-- The ticket that a die dispenses next: its stripe's lowest, a new stripe's first, or the highest of another die's stripe;
with the stripes afterwards (R320). -/
def LaunchData.take (d : LaunchData) (die : Nat) (steal : Bool) : Option (Nat × LaunchData) :=
  match d.stripes.find? fun p => p.1 == die && p.2.1 < p.2.2 with
  | some p => some (p.2.1, { d with stripes := d.stripes.map fun q => if q.1 = die then (die, q.2.1 + 1, q.2.2) else q })
  | none =>
    if 64 * d.nextStripe < d.tickets then
      let lo := 64 * d.nextStripe
      some (lo, { d with nextStripe := d.nextStripe + 1
                         stripes := assign die (lo + 1, min (lo + 64) d.tickets) d.stripes })
    else if !steal then none
    else match d.stripes.find? fun p => p.1 != die && p.2.1 < p.2.2 with
      | some p => some (p.2.2 - 1, { d with stripes := d.stripes.map fun q => if q.1 = p.1 then (q.1, q.2.1, q.2.2 - 1) else q })
      | none => none

/-- The places of a gang lie in the region of its latency class (R322). -/
def placesOk (d : Desc) (die : Nat) (ps : List (Nat × Nat)) : Bool :=
  match ps with
  | [] => false
  | p :: _ =>
    ps.length == d.gang && dieOf p.1 == die && (match d.lclass with
      | 0 => ps.all fun q => tillerOf q.1 == tillerOf p.1
      | 1 => ps.all fun q => dieOf q.1 == die
      | _ => true)

/-- Reserves the places of a gang's members, in order; none where one does not fit. -/
def reserve (e : Entry) (d : LaunchData) (t : Nat) : Nat → List (Nat × Nat) → State → Option (State × List Nat)
  | _, [], s => some (s, [])
  | m, p :: r, s =>
    if !s.fits d.desc p then none
    else
      let id := s.env.fresh
      let x := Blk.fresh id e.idx (t * d.desc.gang + m) m t e.ctx d.desc p.1 p.2
      match reserve e d t (m + 1) r ((s.bump.setBlks (s.blks ++ [x])).startSeq d.desc.entry d.args (.block id)) with
      | none => none
      | some (s2, l) => some (s2, id :: l)

/-! ### The order of service (R321, R322) -/

/-- How many more blocks of a shape a core has room for. -/
def State.coreCapacity (s : State) (d : Desc) (core : Nat) : Nat :=
  let on := s.placedOn core
  let fit (n : Nat) : Bool := on.length + n ≤ Config.blocksPerCore && (List.range 4).all fun q =>
    (on.map fun x => x.desc.onQuarter q).sum + n * d.onQuarter q ≤ Config.groupsPerQuarter &&
    (on.map fun x => x.desc.onQuarter q * x.desc.groupBytes).sum + n * (d.onQuarter q * d.groupBytes) ≤ Config.regFileBytes
  if core < 768 && s.coreInService core then (List.range Config.blocksPerCore).countP fun n => fit (n + 1) else 0

/-- How many more blocks of a shape a tiller has room for. -/
def State.tillerCapacity (s : State) (d : Desc) (t : Nat) : Nat :=
  let cores := ((List.range Config.coresPerTiller).map fun i => s.coreCapacity d (Config.coresPerTiller * t + i)).sum
  let slots := 128 - (s.blks.filter fun x => x.phase != .retired && tillerOf x.core == t).length
  let n := min cores slots
  if d.banks = 0 then n else min n (s.unreservedBanks t / d.banks)

/-- A die has room for a gang of a shape. -/
def State.roomIn (s : State) (die : Nat) (d : Desc) : Bool :=
  let per := Config.tillersPerDie
  let caps := (List.range per).map fun t => s.tillerCapacity d (per * die + t)
  match d.lclass with
  | 0 => caps.any fun c => d.gang ≤ c
  | 1 => d.gang ≤ caps.sum
  | _ => 0 < caps.sum && d.gang ≤ ((List.range Config.tillers).map (s.tillerCapacity d)).sum

/-- A launch that a die can serve: it has a grid sequencer and a ticket, and the die has room for its gang. -/
def State.contends (s : State) (die : Nat) (e : Entry) : Option LaunchData :=
  e.launch.bind fun d =>
    if d.gridSeq && (e.st == .ready || e.st == .active) && !(s.ctx e.ctx).halted && (d.take die true).isSome && s.roomIn die d.desc then some d
    else none

/-- The launches that a die serves first: those of the highest PRIO, with their jobs (R321). -/
def State.firstServed (s : State) (die : Nat) : List (Entry × LaunchData × Nat) :=
  let cs := s.work.entries.filterMap fun e => (s.contends die e).map fun d => (e, d, s.jobOf e.idx)
  let top := cs.foldl (fun n c => max n c.2.1.prio) 0
  cs.filter fun c => c.2.1.prio == top

/-- WEIGHT of a job. -/
def State.weightOf (s : State) (j : Nat) : Nat := (((s.entry? j).bind (·.job)).map (·.weight)).getD 1

/-- Gangs that a die has dispensed of a job in the round of weights in progress. -/
def State.servedOf (s : State) (die j : Nat) : Nat := lookupD 0 (die, j) s.work.served

/-- A round of weights is over: every job that contends has had its WEIGHT (R321, DESIGN CHOICE log 39). -/
def State.roundOver (s : State) (die : Nat) (cs : List (Entry × LaunchData × Nat)) : Bool :=
  cs.all fun c => s.weightOf c.2.2 ≤ s.servedOf die c.2.2

/-- Whether a die may serve a launch now: of the highest PRIO, of a job with a share left in the round, and the earliest ready of
its job (R321). -/
def State.mayServe (s : State) (die h : Nat) : Bool :=
  let cs := s.firstServed die
  match cs.find? fun c => c.1.idx == h with
  | none => false
  | some c =>
    (s.roundOver die cs || s.servedOf die c.2.2 < s.weightOf c.2.2) &&
      cs.all fun x => x.2.2 != c.2.2 || c.2.1.readyAt ≤ x.2.1.readyAt

/-- Counts a gang of a launch against its job's share; a round that is over begins anew. -/
def State.countServed (s : State) (die h : Nat) : State :=
  let j := s.jobOf h
  let base := if s.roundOver die (s.firstServed die) then s.work.served.filter fun p => p.1.1 != die else s.work.served
  s.setWork { s.work with served := assign (die, j) (lookupD 0 (die, j) base + 1) base }

/-- TICKET_DISPENSE: a die admits the gang of the next ticket of the launch that it serves, whole. -/
def execTicketDispense (die h : Nat) (steal : Bool) (places : List (Nat × Nat)) (s : State) : Host.Outcome State Fault Refusal :=
  match s.entry? h with
  | none => .next s
  | some e =>
    match e.launch with
    | none => .next s
    | some d =>
      if s.divPending die || !s.mayServe die h || !placesOk d.desc die places then .next s
      else match d.take die steal with
        | none => .next s
        | some (t, d1) =>
          match reserve e d1 t 0 places (s.countServed die h) with
          | none => .next s
          | some (s1, ids) =>
            let tiller := (places.map fun p => tillerOf p.1).foldl min 95
            let g := { Gang.fresh h t tiller ids with bars := List.replicate 16 Bar.zero }
            let s2 := (s1.setGangs (s1.gangs ++ [g])).startSeq d.desc.entry d.args (.gang h t)
            .next (s2.mapEntry h fun x => { x with st := .active, launch := some { d1 with given := d1.given + 1 } })

/-- The lowest free channel of a core's engine (R224, DESIGN CHOICE log 26). -/
def State.freeChan (s : State) (core : Nat) : Nat :=
  ((List.range 16).find? fun c => !(s.blks.any fun x => x.phase == .resident && x.core == core && x.chan == c)).getD 0

/-- BLOCK_START: a reserved member starts, with its banks, barriers and groups (R85, R207, R311). -/
def execBlockStart (b : Nat) (s : State) : Host.Outcome State Fault Refusal :=
  match s.blk? b with
  | none => .next s
  | some x =>
    let t := tillerOf x.core
    let free := s.freeBanks t
    if x.phase != .reserved || x.cancelled || s.divPending (dieOf x.core) || (s.ctx x.ctx).halted || free.length < x.desc.banks then
      .next s
    else
      let slots := (List.range 16).map fun n => if n < x.desc.banks then Slot.attach (free.getD n 0) false Slot.empty else Slot.empty
      let y := { x with phase := .resident, slots := slots, bars := List.replicate 16 Bar.zero, chan := s.freeChan x.core }
      let args := (((s.entry? x.launch).bind (·.launch)).map (·.args)).getD []
      .next ((s.mapBlk b fun _ => y).startGroups y args)

/-- GROUP_PROMOTION: a group that has been ready for more than 256 cycles without issuing (R323). -/
def execGroupPromotion (b g : Nat) (s : State) : Host.Outcome State Fault Refusal :=
  .next (s.mapSeq (.group b g) fun q => if !q.retired && q.readyAt.any fun t => t + 256 < s.env.cycle then { q with promoted := true } else q)

/-! ## Jobs (R317 to R319) -/

/-- The bytes of a virtual range that the context may read (or also write), or why they cannot be read now. -/
def State.ctxBytes (s : State) (ctx va n : Nat) (write : Bool) : Except PartAccess (List Byte) :=
  if regionOfSpan va n ≠ .global then .error .refused
  else match s.partAccess ctx va n false, (if write then s.partAccess ctx va n true else .ok) with
    | .ok, .ok =>
      if (pagePieces va n).any fun p => match s.vaKey ctx p.1 false with | some k => s.holed k p.2 | none => true then .error .held
      else .ok (s.readPages ctx (pagePieces va n))
    | .refused, _ | _, .refused => .error .refused
    | .ok, e => .error e
    | e, _ => .error e

/-- A record goes to the context's last-fault slot (R336, R385). -/
def State.setLastFault (s : State) (ctx : Nat) (bs : List Byte) : State := s.mapCtx ctx fun c => { c with lastFault := bs }

/-- A violation of a host function: it freezes, and its request is completed with completer abort (R342). -/
def State.freezeFn (s : State) (fn : Nat) : State :=
  let s1 := s.setFlt { s.flt with frozenFns := if s.flt.frozenFns.contains fn then s.flt.frozenFns else s.flt.frozenFns ++ [fn] }
  s1.setEnv { s1.env with aborted := true }

/-- A doorbell that admits nothing and writes nothing (R318). -/
def refuseDoorbell (fn ctx record : Nat) (s : State) : State :=
  (s.setLastFault ctx (s.masterRecord ctx .range record (masterWord 2 fn)).bytes).freezeFn fn

/-- The job's STATUS where it is not admitted (R319). -/
def jobRefused (ctx record reason : Nat) (s : State) : State := s.pokeVa ctx (record + 68) (leBytes 4 (0x80000000 + reason))

/-- Admits a job: its entry, its root launch's, and HANDLE. -/
def admitJob (fn ctx record : Nat) (j : JobData) (r : LRec) (d : Desc) (s : State) : State :=
  let mkJob (i : Nat) : Entry :=
    { idx := i, ctx := ctx, kind := .job, parent := i, pending := 1, st := .closed, isOpen := false, creator := i, hard := false,
      drained := false, launch := none, job := some { j with fn := fn } }
  let die := s.mostFree
  match s.allocEntry die mkJob with
  | none => s
  | some (s1, i) =>
    match s1.allocEntry (if 0 < s1.freeEntries die then die else s1.mostFree) (newLaunch s ctx i false r d j.maxprio) with
    | none => s
    | some (s2, _) =>
      let s3 := s2.pokeVa ctx (record + 72) (leBytes 4 (s2.handleOf i))
      (s3.setSvc { s3.svc with admitted := (s3.svc.admitted + 1) % 2 ^ 32 }).settleAll

/-- What a doorbell finds in a job record: a REASON, a page to wait for, or the job. -/
def readJob (s : State) (ctx record : Nat) (bs : List Byte) : Except PartAccess (Nat ⊕ (JobData × LRec × Desc)) :=
  let f := field bs
  let r := readLRec (bs.take 64)
  let j : JobData := { record := record, weight := f 64 2, maxprio := f 66 1, root := true, fn := 0 }
  if !r.ok || r.parent != 0 || j.weight == 0 || 7 < j.maxprio || f 67 1 != 0 || f 76 52 != 0 then .ok (.inl 2)
  else match s.ctxBytes ctx r.descAt 64 false with
    | .error .refused => .ok (.inl 2)
    | .error e => .error e
    | .ok db => match readDesc db with
      | none => .ok (.inl 2)
      | some d =>
        if !legalLaunch r d then .ok (.inl 2)
        else if !d.couldFit then .ok (.inl 4)
        else .ok (.inr (j, r, d))

/-- JOBDB: the host rings a context's doorbell (R318, R319, R389). The record is read once every earlier write of the
requester has drained, and where its pages are mapped. -/
def execJobdb (fn ctx requester : Nat) (record : BitVec 64) (s : State) : Host.Outcome State Fault Refusal :=
  let c := s.ctx ctx
  let at_ := record.toNat
  let s := s.setEnv { s.env with aborted := false }
  if s.flt.frozenFns.contains fn then .next (s.setEnv { s.env with aborted := true })
  else if !c.valid || c.fn ≠ fn || s.qs.inb.any (·.requester == requester) then .next s
  else if at_ % 128 ≠ 0 then .next (refuseDoorbell fn ctx at_ s)
  else match s.ctxBytes ctx at_ 128 true with
    | .error .refused => .next (refuseDoorbell fn ctx at_ s)
    | .error (.miss ia) => .next (s.pageMiss ia 1).1
    | .error _ => .next s
    | .ok bs =>
      if s.svc.dev != .active then .next (jobRefused ctx at_ 5 s)
      else match readJob s ctx at_ bs with
        | .error (.miss ia) => .next (s.pageMiss ia 0).1
        | .error _ => .next s
        | .ok (.inl n) => .next (jobRefused ctx at_ n s)
        | .ok (.inr (j, r, d)) =>
          if ((List.range Config.dies).map s.freeEntries).sum < 2 then .next (jobRefused ctx at_ 1 s)
          else .next (admitJob fn ctx at_ j r d s)

/-- The job entries held (R387, R389). -/
def State.jobs (s : State) : Nat := (s.work.entries.filter fun e => e.kind == .job).length

/-- While DRAINING, JOBS reaches 0 and the part is DRAINED (R389). -/
def State.settleDrain (s : State) : State :=
  if s.svc.dev == .draining && s.jobs == 0 then s.setSvc { s.svc with dev := .drained } else s

/-- JOBACK: the host acknowledges a final job, and its entry is freed (R319). -/
def execJoback (fn ctx : Nat) (v : BitVec 64) (s : State) : Host.Outcome State Fault Refusal :=
  let c := s.ctx ctx
  let s := s.setEnv { s.env with aborted := false }
  if s.flt.frozenFns.contains fn then .next (s.setEnv { s.env with aborted := true })
  else if c.fn ≠ fn then .next s
  else match s.named ctx (v.toNat % 65536) with
    | none => .next s
    | some e => .next (if e.kind == .job && e.final then (s.freeEntry e.idx).settleDrain else s)

end Sys2Proof.Machine
end

