-- ==== Sys2Proof/Machine/Frame.lean ====
section
/-! DEFINITION. Context frames: their bytes, when they are acceptable, and what is read back from them (16_system R335, R339,
R344 to R348, R399, R406; the layouts that the spec leaves open are those of DESIGN CHOICE log 12). -/

namespace Sys2Proof.Machine

/-! ## Bytes -/

def padTo (n : Nat) (bs : List Byte) : List Byte := (bs ++ List.replicate (n - bs.length) 0).take n
def pad64 (bs : List Byte) : List Byte := padTo ((bs.length + 63) / 64 * 64) bs

/-- `n` pieces of `k` bytes. -/
def chunks (k : Nat) : Nat → List Byte → List (List Byte)
  | 0, _ => []
  | n + 1, bs => bs.take k :: chunks k n (bs.drop k)

/-- An address word; bit 63 means none. -/
def addrWord (a : Option Nat) : Nat := a.getD (2 ^ 63)
def wordAddr (w : Nat) : Option Nat := if 2 ^ 63 ≤ w then none else some w

/-- Bits of a packed word from low to high: (width, value). -/
def packBits : List (Nat × Nat) → Nat
  | [] => 0
  | (n, v) :: r => v % 2 ^ n + 2 ^ n * packBits r

/-! ## Symbols of a framed block

A frame holds no symbol of a quarter: the block's symbols stand under a quarter number of their own until they are assigned
afresh (R96). -/

/-- Quarter q of a framed block. -/
def framedQuarter (b q : Nat) : Nat := 2 ^ 20 + 4 * b + q

def Cell.rename (f : Nat × Nat → Nat × Nat) : Cell → Cell
  | .known w => .known w
  | .form x hi => .form { x with q := (f (x.q, x.sym)).1, sym := (f (x.q, x.sym)).2 } hi
  | .chain x hi => .chain { x with q := (f (x.q, x.sym)).1, sym := (f (x.q, x.sym)).2 } hi

/-- Renames symbols everywhere. -/
def State.renameSyms (f : Nat × Nat → Nat × Nat) (s : State) : State :=
  let c := Cell.rename f
  let s1 := s.setRegs (s.regs.map fun p => (p.1, c p.2))
  let s2 := s1.setSeqs (s1.seqs.map fun p => (p.1, p.2.mapCells fun _ => c))
  let s3 := s2.setQs { s2.qs with accs := s2.qs.accs.map fun a =>
    { a with sym := a.sym.map f, lanes := a.lanes.map fun y => { y with parts := y.parts.map c, data := y.data.map c } } }
  s3.setSyms (s3.syms.map fun x => { x with q := (f (x.q, x.sym)).1, sym := (f (x.q, x.sym)).2 })

/-- Moves a block's symbols off the quarters of its core. -/
def State.unplaceSyms (s : State) (x : Blk) : State :=
  s.renameSyms fun p => if (s.syms.any fun y => y.b == x.id && y.q == p.1 && y.sym == p.2)
    then (framedQuarter x.id (p.1 % 4), p.2) else p

/-- Assigns a block's symbols afresh on a core: old and new names, or none where a quarter's pool is short (R96). -/
def State.placeSyms (s : State) (x : Blk) (core : Nat) : Option (List ((Nat × Nat) × (Nat × Nat))) :=
  (List.range 4).foldl (fun r q => r.bind fun l =>
    let mine := (s.syms.filter fun y => y.q == framedQuarter x.id q).map fun y => (y.q, y.sym)
    let free := (List.range Config.symbolsPerQuarter).filter fun n => (s.sym? (4 * core + q) n).isNone
    if free.length < mine.length then none else some (l ++ mine.zip (free.map fun n => (4 * core + q, n)))) (some [])

/-! ## Units -/

/-- The clause a unit stands in: its own, or that of the slice that leads it. -/
def State.clauseOf (s : State) (u : UnitRef) : Option ClauseRun :=
  match (s.seq? u).bind (·.clause), u with
  | some c, _ => some c
  | none, .slice b g k => (s.children (.group b g)).findSome? fun v =>
      ((s.seq? v).bind (·.clause)).bind fun c => if v != u && c.team.contains k then some c else none
  | none, _ => none

/-- Where a unit stands (R399). -/
def standPc (q : Seq) (c : Option ClauseRun) : Nat :=
  match c with
  | none => q.pc
  | some c => if c.ended then c.next.getD c.after else if c.pos = 0 then c.addr else c.pcAt

/-- Whether a unit stands mid-clause. -/
def midClause (c : Option ClauseRun) : Bool := match c with | some c => !c.ended && 0 < c.pos | none => false

/-! ## Level records (R346) -/

def Loop.bytes (e : Loop) : List Byte :=
  leBytes 4 e.remaining ++ leBytes 4 e.index ++ leBytes 8 e.top ++ leBytes 8 e.stop ++ leBytes 4 e.frame ++ leBytes 4 0

def CallRec.bytes (e : CallRec) : List Byte := leBytes 8 e.ret ++ leBytes 8 (addrWord e.re) ++ leBytes 4 e.depth ++ leBytes 4 0

def Loop.ofBytes (bs : List Byte) : Loop :=
  { remaining := field bs 0 4, index := field bs 4 4, top := field bs 8 8, stop := field bs 16 8, frame := field bs 24 4 }

def CallRec.ofBytes (bs : List Byte) : CallRec :=
  { ret := field bs 0 8, re := wordAddr (field bs 8 8), depth := field bs 16 4 }

/-- One entry of an incoming queue. -/
def Decision.bytes (d : Decision) : List Byte :=
  let w (kind exit late reg sym ext part value : Nat) (a1 a2 : Nat) : List Byte :=
    leBytes 4 (packBits [(2, kind), (1, exit), (3, d.rank), (1, late), (1, 0), (8, reg), (6, sym), (2, ext), (3, part)]) ++
      leBytes 4 value ++ leBytes 8 a1 ++ leBytes 8 a2
  match d.kind with
  | .value _ n (.known v) => w 0 0 0 n 0 0 0 v.toNat 0 0
  | .value _ n (.form f _) => w 0 0 1 n f.sym f.ext.code f.part (f.offset.toNat % 2 ^ 32) f.scale.toNat 0
  | .value _ n (.chain c _) => w 0 0 1 n c.sym 0 0 0 0 0
  | .loopEntry top stop => w 1 0 0 0 0 0 0 0 top stop
  | .loopStep back => w 2 (!back).toNat 0 0 0 0 0 0 0 0
  | .clauseEnd next retire depth => w 3 retire.toNat 0 (depth % 16) 0 0 0 0 next 0

/-- An entry read back: one whose bytes stand as written keeps its decision. -/
def Decision.ofBytes (old : Decision) (q : Nat) (bs : List Byte) : Decision :=
  if bs = old.bytes then old
  else
    let w := field bs 0 4
    let n := bitsOf w 8 8
    let rank := bitsOf w 3 3
    let k : ScopeKind := match rank with | 2 => .g | 3 => .b | 4 => .n | _ => .d
    let cell : Cell :=
      if bitsOf w 6 1 = 1 then
        .form { q := q, sym := bitsOf w 16 6, scale := BitVec.ofNat 64 (field bs 8 8), offset := BitVec.ofNat 64 (field bs 4 4),
                wide := false, ty := .z32, ext := (match bitsOf w 22 2 with | 1 => .sign | 2 => .zero | _ => .none), part := bitsOf w 24 3 } false
      else .known (BitVec.ofNat 32 (field bs 4 4))
    { old with rank := rank, kind := match bitsOf w 0 2 with
        | 0 => .value k n cell
        | 1 => .loopEntry (field bs 8 8) (field bs 16 8)
        | 2 => .loopStep (bitsOf w 2 1 == 0)
        | _ => .clauseEnd (field bs 8 8) (bitsOf w 2 1 == 1) (bitsOf w 8 4) }

/-- The number of a scope register. -/
def RegKey.number : RegKey → Nat
  | .gr _ _ n | .br _ n | .nr _ _ n | .dr _ n => n
  | _ => 0

/-- One replay record; `loops` and `calls` are the stacks after its decision. -/
def ReplayRec.bytes (r : ReplayRec) (loops : List Loop) (calls : List CallRec) : List Byte :=
  let slot (old new : Nat) : Nat := if old < new then old else old - 1
  let chg : Nat × Nat × List Byte :=
    if r.loops ≠ loops then
      let i := slot r.loops.length loops.length
      (1, i, ((r.loops.reverse[i]?).map Loop.bytes).getD [])
    else if r.calls ≠ calls then
      let i := slot r.calls.length calls.length
      (2, i, ((r.calls.reverse[i]?).map CallRec.bytes).getD [])
    else (0, 0, [])
  leBytes 4 r.seq ++
    leBytes 4 (packBits [(2, chg.1), (4, chg.2.1), (2, 0), (8, (r.key.map RegKey.number).getD 0), (1, r.key.isSome.toNat)]) ++
    leBytes 8 (match r.clause with | some c => standPc { Seq.start 0 with pc := r.pc } (some c) | none => r.pc) ++
    leBytes 8 (addrWord r.re) ++ leBytes 4 (r.loops.length + 16 * r.calls.length) ++ leBytes 4 ((r.prev.word?).getD 0).toNat ++
    padTo 32 chg.2.2

/-- The ring, each record with the stacks of the one that follows it. -/
def ringBytes (loops : List Loop) (calls : List CallRec) : List ReplayRec → List Byte
  | [] => []
  | [r] => r.bytes loops calls
  | r :: n :: t => r.bytes n.loops n.calls ++ ringBytes loops calls (n :: t)

/-- The words that a level record holds of enclosing scopes, in their order (R346). -/
def viewKeys (u : UnitRef) : List (Option RegKey) :=
  let ks (k : ScopeKind) (n : Nat) : List (Option RegKey) :=
    (List.range n).map fun i => if u.rank < k.rank then some (.view u k i) else none
  ks .g 64 ++ ks .b 64 ++ ks .n 32 ++ ks .d 32

/-- The word of a register; a late value stands as zero beside its form entry. -/
def State.wordBytes (s : State) (k : RegKey) : List Byte := leBytes 4 (s.word k).toNat

/-- A level record. -/
def State.levelRecord (s : State) (u : UnitRef) : List Byte :=
  match s.seq? u with
  | none => List.replicate 4096 0
  | some q =>
    let inq := s.waiting u q
    let lane := u.rank == 1
    let watch (r : Nat) : List Byte :=
      padTo 128 ((q.watches.filter fun w => w.1 == r).reverse.flatMap fun w => leBytes 8 w.2.1 ++ leBytes 8 w.2.2)
    leBytes 8 (standPc q (s.clauseOf u)) ++ leBytes 8 (addrWord q.re) ++
      leBytes 4 (packBits [(4, q.loops.length), (6, q.calls.length), (5, inq.length), (5, q.ring.length), (1, q.parted.toNat),
                           (1, q.retired.toNat), (1, q.park.stands.toNat)]) ++
      leBytes 4 (packBits (q.waits.map fun w => (1, w.isSome.toNat))) ++ leBytes 8 (q.pjoin.getD 0) ++
      (if lane then q.waits.flatMap fun w => leBytes 8 (addrWord w) else List.replicate 32 0) ++
      padTo 256 (q.loops.reverse.flatMap Loop.bytes) ++ padTo 768 (q.calls.reverse.flatMap CallRec.bytes) ++
      watch 5 ++ watch 4 ++ watch 3 ++ watch 2 ++ padTo 384 (inq.flatMap Decision.bytes) ++ List.replicate 64 0 ++
      (viewKeys u).flatMap (fun k => match k with | some k => s.wordBytes k | none => leBytes 4 0) ++
      padTo 1024 (ringBytes q.loops q.calls q.ring) ++ List.replicate 256 0

/-! ## Registers (R345) -/

/-- Lanes of a block in lane order. -/
def blockLanes (x : Blk) : List LaneId :=
  (List.range x.desc.groups).flatMap fun g => (List.range x.desc.lanes).map fun l => LaneId.mk x.id g l

/-- The registers of item 4, in their order. -/
def vecKeys (x : Blk) : List RegKey :=
  (List.range x.desc.groups).flatMap fun g => (List.range x.desc.nregs).flatMap fun n =>
    (List.range x.desc.lanes).map fun l => .vec x.id g l n

/-- The scope registers of item 7, in their order. -/
def scopeKeys (x : Blk) : List RegKey :=
  ((List.range 64).map fun n => RegKey.br x.id n) ++
    (List.range x.desc.groups).flatMap fun g => (List.range 64).map fun n => RegKey.gr x.id g n

/-- Those of an upper frame. -/
def upperKeys : UnitRef → List RegKey
  | .gang l k => (List.range 32).map fun n => .nr l k n
  | .grid l => (List.range 32).map fun n => .dr l n
  | _ => []

def State.item3 (s : State) (x : Blk) : List Byte :=
  (List.range x.desc.groups).flatMap fun g => (slicesOf x g).flatMap fun u =>
    match s.seq? u with
    | some q => padTo 32 (leBytes 1 q.mask.toNat ++ leBytes 1 q.mstack.length ++ q.mstack.reverse.map fun m => BitVec.ofNat 8 m.toNat)
    | none => List.replicate 32 0

/-- An index register (R87). -/
def State.indexWord (s : State) (x : LaneId) (i : Nat) : Nat :=
  packBits [(16, (s.word (.ixv x.b x.g x.l i)).toNat), (10, (s.word (.ixb x.b x.g x.l i)).toNat),
            (16, (s.word (.ixl x.b x.g x.l i)).toNat)]

def State.predWord (s : State) (x : LaneId) : Nat :=
  packBits ((List.range 7).map fun p => (1, (s.word (.pred x.b x.g x.l p)).toNat))

def State.item5 (s : State) (x : Blk) : List Byte :=
  (blockLanes x).flatMap fun y => ((List.range 8).flatMap fun i => leBytes 8 (s.indexWord y i)) ++ leBytes 4 (s.predWord y) ++ leBytes 4 0

def State.item6 (s : State) (x : Blk) : List Byte := (blockLanes x).flatMap fun y => s.wordBytes (.fsr y.b y.g y.l)

/-! ## Item 8 (R347, R406) -/

/-- A lane of an access that a frame records: one not yet performed, one that holds its place for late data, or one refused. -/
def LaneAcc.recorded (a : Access) (y : LaneAcc) : Bool :=
  match y.st with
  | .todo | .page _ | .failed _ | .void | .hole => true
  | .queued => a.poison.isSome
  | _ => false

/-- The accesses that a frame records, in program order. -/
def State.framedAccs (s : State) (own : UnitRef → Bool) : List Access :=
  s.qs.accs.filter fun a => own a.unit && a.lanes.any (LaneAcc.recorded a)

def AtOp.code : AtOp → Nat
  | .add => 0 | .min false => 1 | .min true => 2 | .max false => 3 | .max true => 4 | .and => 5 | .or => 6 | .xor => 7 | .xchg => 8
  | .cas => 9 | .fadd => 10 | .inc => 11

def AtOp.ofCode : Nat → AtOp
  | 0 => .add | 1 => .min false | 2 => .min true | 3 => .max false | 4 => .max true | 5 => .and | 6 => .or | 7 => .xor | 8 => .xchg
  | 9 => .cas | 10 => .fadd | _ => .inc

def AccKind.code : AccKind → Nat
  | .load => 0 | .store => 1 | .loadSys => 2 | .storeSys => 3
  | .atomic op wide => 4 + 16 * wide.toNat + 32 * AtOp.code op

def AccKind.ofCode (n : Nat) : AccKind :=
  match n % 16 with
  | 0 => .load | 1 => .store | 2 => .loadSys | 3 => .storeSys
  | _ => .atomic (AtOp.ofCode (n / 32)) (bitsOf n 4 1 == 1)

/-- Bits of a lane mask. -/
def accMask (ys : List LaneAcc) : Nat := ys.foldl (fun n y => n ||| 2 ^ y.l) 0

/-- The bytes of cells, a late one as zero. -/
def cellBytes (cs : List Cell) : List Byte := cs.flatMap fun c => leBytes 4 ((c.word?).getD 0).toNat

/-- The forms in a lane's address: its base's, and its index's (R186). -/
def LaneAcc.baseForm (y : LaneAcc) : Option IForm :=
  match y.addr, y.parts with | none, [.form f _, _, _] => some f | _, _ => none
def LaneAcc.indexForm (y : LaneAcc) : Option IForm :=
  match y.addr, y.parts with | none, [_, _, .form f _] => some f | _, _ => none

/-- The address word of a lane: its address, or what is known of it: the OFFSET of its base's form, or its base, with a known index
and the displacement added (R406, DESIGN CHOICE log 12). -/
def LaneAcc.addrWord (y : LaneAcc) : Nat :=
  match y.addr, y.parts with
  | some a, _ => a
  | none, [lo, hi, ix] =>
    let base := match y.baseForm with | some f => f.offset.toNat | none => ((lo.word?).getD 0).toNat + 2 ^ 32 * ((hi.word?).getD 0).toNat
    let index := match ix with | .known d => (d.signExtend 64).toNat | _ => 0
    (base + index + y.disp) % 2 ^ 64
  | none, _ => 0

def Access.frameHead (a : Access) : List Byte :=
  let ys := a.lanes.filter (LaneAcc.recorded a)
  padTo 32 (leBytes 2 a.kind.code ++ leBytes 1 a.width ++ leBytes 1 a.ctr ++ leBytes 1 a.unit.groupNo ++ leBytes 3 0 ++ leBytes 8 (accMask ys))

def LaneAcc.frameBytes (y : LaneAcc) : List Byte := leBytes 8 y.addrWord ++ padTo 32 (cellBytes y.data)

def Access.frameBytes (a : Access) : List Byte :=
  a.frameHead ++ (a.lanes.filter (LaneAcc.recorded a)).flatMap LaneAcc.frameBytes

/-- A form entry: group, lane, register field, SYM, KIND with EXT and PART, TYPE, DEPTH, SCALE, OFFSET. -/
structure FormEntry where
  g : Nat
  l : Nat
  reg : Nat
  sym : Nat
  kind : Nat
  ty : Nat
  depth : Nat
  scale : Nat
  offset : Nat
  deriving DecidableEq, Repr

def FormEntry.bytes (e : FormEntry) : List Byte :=
  leBytes 1 e.g ++ leBytes 1 e.l ++ leBytes 2 e.reg ++ leBytes 1 e.sym ++ leBytes 1 e.kind ++ leBytes 1 e.ty ++ leBytes 1 e.depth ++
    leBytes 8 e.scale ++ leBytes 8 e.offset

def FormEntry.ofBytes (bs : List Byte) : FormEntry :=
  { g := field bs 0 1, l := field bs 1 1, reg := field bs 2 2, sym := field bs 4 1, kind := field bs 5 1, ty := field bs 6 1,
    depth := field bs 7 1, scale := field bs 8 8, offset := field bs 16 8 }

/-- The entry of a late cell; the upper half of a value has none of its own. -/
def formEntry (g l reg : Nat) : Cell → Option FormEntry
  | .form f false => some { g := g, l := l, reg := reg, sym := f.sym, kind := packBits [(2, 1), (2, f.ext.code), (3, f.part)],
                            ty := f.ty.code + 16 * f.wide.toNat, depth := 0, scale := f.scale.toNat, offset := f.offset.toNat }
  | .chain c false => some { g := g, l := l, reg := reg, sym := c.sym, kind := 2, ty := c.ty.code, depth := c.depth, scale := 0,
                             offset := c.idx }
  | _ => none

/-- An entry of an access record: for the record's address (place 0 its base, 1 its index), or for word `place` of its data; these two
stand in bit 7 of its KIND byte and in bits [7:5] of its TYPE byte (DESIGN CHOICE log 12). -/
def FormEntry.place (data : Bool) (place : Nat) (e : FormEntry) : FormEntry :=
  { e with kind := e.kind + 128 * data.toNat, ty := e.ty + 32 * place }

def FormEntry.isAt (data : Bool) (place : Nat) (e : FormEntry) : Bool := bitsOf e.kind 7 1 == data.toNat && e.ty / 32 == place

/-- The cells that an entry stands for, in a block's quarter q: one, or the two halves. -/
def FormEntry.cells (q : Nat) (e : FormEntry) : List Cell :=
  if bitsOf e.kind 0 2 = 2 then
    chainCells { q := q, sym := e.sym, ty := (match e.ty % 16 with | 5 => .f64 | 6 => .f16 | 7 => .bf16 | _ => .f32), depth := e.depth,
                 idx := e.offset }
  else
    formCells { q := q, sym := e.sym, scale := BitVec.ofNat 64 e.scale, offset := BitVec.ofNat 64 e.offset, wide := bitsOf e.ty 4 1 == 1,
                ty := (match e.ty % 16 with | 0 => .s32 | 1 => .z32 | 2 => .s64 | _ => .z64),
                ext := (match bitsOf e.kind 2 2 with | 1 => .sign | 2 => .zero | _ => .none), part := bitsOf e.kind 4 3 }

/-- The form entries of access record `i`: of its lanes' addresses and of their late data (R96, R406). -/
def recordForms (i : Nat) (a : Access) : List FormEntry :=
  (a.lanes.filter (LaneAcc.recorded a)).flatMap fun y =>
    let entry (c : Cell) : Option FormEntry := formEntry a.unit.groupNo y.l (2048 + i) c
    ((y.baseForm.bind fun f => entry (.form { f with offset := 0 } false)).map (FormEntry.place false 0)).toList ++
      ((y.indexForm.bind fun f => entry (.form f false)).map (FormEntry.place false 1)).toList ++
      y.data.zipIdx.filterMap fun p => (entry p.1).map (FormEntry.place true p.2)

/-- The form entries of a block's registers, latches, access records and views. -/
def State.formEntries (s : State) (x : Blk) : List FormEntry :=
  let regs := s.regs.filterMap fun p => match p.1 with
    | .vec b g l n => if b = x.id then formEntry g l n p.2 else none
    | .gr b g n => if b = x.id then formEntry g 0 (640 + n) p.2 else none
    | .latch u n _ g l false => if u.block? = some x.id then formEntry g l (1024 + n) p.2 else none
    | .view (.slice b g k) .g n => if b = x.id then formEntry g 0 (4096 + 64 * k + n) p.2 else none
    | _ => none
  regs ++ ((s.framedAccs fun u => u.block? == some x.id).zipIdx).flatMap fun p => recordForms p.2 p.1

/-- A deferred-instruction record of symbol `y`; `order` is its place in the symbol's chain. -/
def deferredBytes (y : Sym) (order : Nat) (d : Deferred) : List Byte :=
  padTo 32 (leBytes 8 d.word ++ leBytes 8 (d.lanes.foldl (fun n z => n ||| 2 ^ z.l) 0) ++ leBytes 1 y.g ++ leBytes 1 y.sym ++ leBytes 2 order) ++
    (List.range 64).flatMap fun l => match d.lanes.find? fun z => z.l == l with
      | some z => leBytes 8 z.x.toNat ++ leBytes 8 z.y.toNat
      | none => List.replicate 16 0

def State.blockSyms (s : State) (b : Nat) : List Sym := s.syms.filter fun y => y.b == b

/-- One symbol entry. -/
def symBytes32 (accs : List Access) : Option Sym → List Byte
  | none => List.replicate 32 0
  | some y =>
    padTo 32 (leBytes 1 (if y.poison.isSome then 2 else 1) ++ leBytes 1 ((y.poison.map Cause.code).getD 0) ++
      leBytes 1 (match y.feed with | .access _ => 0 | .tickets .. => 1) ++ leBytes 1 0 ++
      leBytes 4 (match y.accessId? with
        | some id => (accs.findIdx? fun a => a.id == id).getD (2 ^ 32 - 1)
        | none => 2 ^ 32 - 1))

/-- The four parts of item 8, each without its count word: (count, bytes). -/
def State.item8Parts (s : State) (x : Blk) : List (Nat × List Byte) :=
  let accs := s.framedAccs fun u => u.block? == some x.id
  let forms := s.formEntries x
  let defs := (s.blockSyms x.id).flatMap fun y => y.deferred.zipIdx.map fun p => deferredBytes y p.2 p.1
  [(256, (List.range 4).flatMap fun q => (List.range 64).flatMap fun n =>
      symBytes32 accs ((s.blockSyms x.id).find? fun y => y.q % 4 == q && y.sym == n)),
   (forms.length, forms.flatMap FormEntry.bytes), (defs.length, defs.flatten), (accs.length, accs.flatMap Access.frameBytes)]

def countedParts (ps : List (Nat × List Byte)) : List Byte := ps.flatMap fun p => leBytes 4 p.1 ++ p.2

/-! ## Item 9 (R345) -/

/-- Latch lanes of a unit, in order. -/
def latchLanes (x : Blk) : UnitRef → List LaneId
  | .slice _ g _ | .group _ g => (List.range x.desc.lanes).map fun l => LaneId.mk x.id g l
  | .block _ => blockLanes x
  | _ => [noLane]

/-- The units that stand mid-clause. -/
def State.midUnits (s : State) (us : List UnitRef) : List UnitRef := us.filter fun u => !s.retired u && midClause (s.clauseOf u)

/-- The latch of a lane: its own, or the one value of the instance (R89). -/
def State.latchCell (s : State) (u : UnitRef) (n : Nat) (x : LaneId) (hi : Bool) : RegKey :=
  let own : RegKey := .latch u n x.b x.g x.l hi
  if s.regs.any fun p => p.1 == own then own else .latch u n noLane.b noLane.g noLane.l hi

def State.midEntry (s : State) (lanes : List LaneId) (u : UnitRef) : List Byte :=
  let pos := match s.clauseOf u with | some c => c.pos | none => 0
  let own (y : LaneId) : Bool := match u with | .slice _ _ k => y.l / 4 == k | _ => true
  leBytes 4 (unitWord u + pos % 16 * 2 ^ 9 + u.rank * 2 ^ 13) ++ leBytes 4 0 ++
    (List.range 16).flatMap fun n => lanes.flatMap fun y =>
      if own y then s.wordBytes (s.latchCell u n y false) ++ s.wordBytes (s.latchCell u n y true) else leBytes 8 0

/-! ## Item 12 (R345) -/

def Handle.bytes (h : Handle) : List Byte :=
  padTo 64 (leBytes 1 1 ++ leBytes 1 h.ty.code ++ leBytes 2 h.k ++ leBytes 4 0 ++ leBytes 8 h.base ++ leBytes 8 h.stride ++
    leBytes 4 h.scale.toNat ++ leBytes 4 h.gen.toNat)

/-- A copy's bytes: its lines, then their exponent pairs. -/
def Handle.copyBytes (h : Handle) : List Byte :=
  ((List.range 64).flatMap fun i => readBytes h.copy (2048 * i) (MTy.lineBytes h.ty h.k)) ++
    readBytes h.copy (2 ^ 20) (64 * MTy.pairBytes h.ty h.k)

def tileBytes (t : Tile) : List Byte := (List.range 4096).flatMap fun i => leBytes 4 (nget 0 i t.cells).toNat

/-- Held tiles and bound handles, ascending. -/
def Blk.tileList (x : Blk) : List Tile := (List.range 8).filterMap x.tile?
def Blk.handleList (x : Blk) : List Handle := (List.range 32).filterMap x.handle?

/-- `cr.merr` (R162). -/
def Blk.merrWord (x : Blk) : Nat := x.merrSticky.toNat * 2 ^ 31 + x.merrOvf.toNat * 2 ^ 30 + x.mlog.length % 8 * 2 ^ 27

/-- The held-tile mask and the handle records, of which the part keeps a copy (R348). -/
def Blk.tileMask (x : Blk) : List Byte := leBytes 4 (x.tileList.foldl (fun n t => n ||| 2 ^ t.n) 0)
def Blk.handleRecords (x : Blk) : List Byte := (List.range 32).flatMap fun n => match x.handle? n with
  | some h => h.bytes
  | none => List.replicate 64 0

def Blk.item12 (x : Blk) : List Byte :=
  x.tileMask ++ leBytes 4 x.ps.toNat ++ leBytes 4 x.gen.toNat ++ leBytes 4 x.merrWord ++
    ((List.range 4).flatMap fun i => leBytes 4 (x.mlog.getD i 0).toNat) ++ x.handleRecords ++
    x.tileList.flatMap tileBytes ++ x.handleList.flatMap Handle.copyBytes

/-! ## The whole frame (R344) -/

/-- Offsets and lengths of the items 2 to 12. -/
def layout : Nat → List (List Byte) → List (Nat × Nat)
  | _, [] => []
  | off, i :: r => (off, i.length) :: layout (off + (pad64 i).length) r

/-- The image number of the active firmware (0) or microcode (1) (R392). -/
def State.imageNo (s : State) (k : Nat) : Nat := lookupD 0 (k * 2 + s.svc.slots.getD k 0) s.svc.images
/-- `cr.ucver` (R349). -/
def State.ucver (s : State) : Word := Config.ucver (s.imageNo 1)

/-- FLAGS of a header (R344). -/
def frameFlags (upper mid faulted frozen held halted : Bool) : Nat :=
  packBits [(1, upper.toNat), (1, mid.toNat), (1, faulted.toNat), (1, frozen.toNat), (1, held.toNat), (1, halted.toNat)]

/-- A frame from its header words and its items. -/
def frameBytes (ucver flags ctx fid handles index gang shape core cause : Nat) (items : List (List Byte)) : List Byte :=
  let sects := (0, 512) :: layout 512 items
  let body := items.flatMap pad64
  let head := leBytes 4 0x46524D35 ++ leBytes 4 ucver ++ leBytes 4 (512 + body.length) ++ leBytes 4 flags ++ leBytes 4 (ctx % 64) ++
    leBytes 4 fid ++ leBytes 4 handles ++ leBytes 4 index ++ leBytes 4 gang ++ leBytes 4 shape ++ leBytes 4 core ++ leBytes 4 cause ++
    leBytes 8 0 ++ leBytes 8 0 ++ sects.flatMap fun p => leBytes 4 p.1 ++ leBytes 4 p.2
  padTo 512 head ++ body

def Desc.shapeWord (d : Desc) : Nat := d.width + d.regs * 2 ^ 8 + d.groups * 2 ^ 16 + d.banks * 2 ^ 24

/-- The items of a block's frame. -/
def State.blockItems (s : State) (x : Blk) : List (List Byte) :=
  let us := unitsOf x
  [us.flatMap s.levelRecord, s.item3 x, (vecKeys x).flatMap s.wordBytes, s.item5 x, s.item6 x, (scopeKeys x).flatMap s.wordBytes,
   countedParts (s.item8Parts x), (s.midUnits us).flatMap fun u => s.midEntry (latchLanes x u) u, s.item10 x, x.item11, x.item12]

/-- The items of an upper frame: one level record, the level's registers and, mid-clause, its latches. -/
def State.upperItems (s : State) (u : UnitRef) : List (List Byte) :=
  let accs := s.framedAccs fun v => v == u
  [s.levelRecord u, [], [], [], [], (upperKeys u).flatMap s.wordBytes,
   countedParts [(0, []), (0, []), (0, []), (accs.length, accs.flatMap Access.frameBytes)],
   (s.midUnits [u]).flatMap fun v => s.midEntry [noLane] v, [], [], []]

/-! ## Acceptance (R348) -/

/-- Item i of a frame's bytes, by the part's own section table. -/
def FrameInfo.item (f : FrameInfo) (i : Nat) (bs : List Byte) : List Byte := (bs.drop (f.sect i).1).take (f.sect i).2

def pcOk (a : Nat) : Bool := a % 8 == 0 && a < 2 ^ 57
def optPcOk (w : Nat) : Bool := 2 ^ 63 ≤ w || pcOk w

def zeros (bs : List Byte) : Bool := bs.all (· == 0)

/-- The tests of a loop entry and of a call entry. -/
def loopOk (e : List Byte) : Bool := pcOk (field e 16 8) && field e 24 4 ≤ Config.callDepth && field e 28 4 == 0
def callOk (e : List Byte) : Bool := pcOk (field e 0 8) && optPcOk (field e 8 8) && field e 16 4 ≤ Config.loopDepth && field e 20 4 == 0

/-- The tests of a queue entry; `sym` says whether a SYM names a pending or poisoned entry. -/
def queueEntryOk (sym : Nat → Bool) (e : List Byte) : Bool :=
  let w := field e 0 4
  bitsOf w 7 1 == 0 && w < 2 ^ 27 && (match bitsOf w 0 2 with
    | 0 => bitsOf w 6 1 == 0 || sym (bitsOf w 16 6)
    | 1 => pcOk (field e 16 8)
    | 2 => true
    | _ => pcOk (field e 8 8) && bitsOf w 8 4 ≤ Config.loopDepth)

/-- The tests of a replay record. -/
def ringOk (e : List Byte) : Bool :=
  let w := field e 4 4
  let d := field e 24 4
  bitsOf w 6 2 == 0 && w < 2 ^ 17 && pcOk (field e 8 8) && optPcOk (field e 16 8) && d % 16 ≤ Config.loopDepth && d / 16 ≤ Config.callDepth &&
    (match bitsOf w 0 2 with
     | 0 => zeros (e.drop 32)
     | 1 => loopOk (e.drop 32)
     | 2 => callOk (e.drop 32) && zeros (e.drop 56)
     | _ => false)

/-- Whether a level of a rank has the view word `k`. -/
def viewAt (rank k : Nat) : Bool := if k < 64 then rank < 2 else if k < 128 then rank < 3 else if k < 160 then rank < 4 else rank < 5

/-- The tests of a level record of a rank (R346, R348). -/
def levelOk (rank : Nat) (sym : Nat → Bool) (bs : List Byte) : Bool :=
  let w := field bs 16 4
  let nl := bitsOf w 0 4
  let nc := bitsOf w 4 6
  let nq := bitsOf w 10 5
  let nr := bitsOf w 15 5
  let lane := rank == 1
  nl ≤ Config.loopDepth && nc ≤ Config.callDepth && nq ≤ Config.queueDepth && nr ≤ Config.queueDepth && w < 2 ^ 23 &&
    pcOk (field bs 0 8) && optPcOk (field bs 8 8) &&
    (if lane then field bs 20 4 < 16 && pcOk (field bs 24 8) && (chunks 8 4 (bs.drop 32)).all (fun e => optPcOk (leNat e)) && nr == 0
     else zeros ((bs.drop 20).take 44) && bitsOf w 20 1 == 0) &&
    (chunks 32 nl (bs.drop 64)).all loopOk && (chunks 24 nc (bs.drop 320)).all callOk &&
    ((List.range 4).all fun i =>
      let row := (bs.drop (1088 + 128 * i)).take 128
      if rank < 5 - i then (chunks 16 8 row).all fun e => pcOk (field e 8 8) else zeros row) &&
    (chunks 24 nq (bs.drop 1600)).all (queueEntryOk sym) && zeros ((bs.drop 1984).take 64) &&
    ((List.range 192).all fun k => viewAt rank k || field (bs.drop 2048) (4 * k) 4 == 0) &&
    (chunks 64 nr (bs.drop 2816)).all ringOk && zeros (bs.drop 3840)

def item3Ok (e : List Byte) : Bool := field e 0 1 < 16 && field e 1 1 ≤ Config.maskDepth && (e.drop 18).all (· == 0)

def item5Ok (e : List Byte) : Bool :=
  ((chunks 8 8 e).all fun w => leNat w < 2 ^ 42) && field e 64 4 < 128 && field e 68 4 == 0

/-- `fsr`: its reserved bits are zero (R115). -/
def item6Ok (e : List Byte) : Bool := leNat e < 2 ^ 5

/-- The length of an access record that is to be read over one as written. -/
def recordLen (old : Option Access) (bs : List Byte) : Nat :=
  let m := field bs 8 8
  let rs := match old with | some a => a.lanes.filter (LaneAcc.recorded a) | none => []
  32 + 40 * (if old.isSome && m = accMask rs then rs.length else (List.range 64).countP m.testBit)

/-- Cuts access records out of bytes, over those written; none where the bytes do not hold them. -/
def cutRecords : Nat → List Access → List Byte → Option (List (List Byte))
  | 0, _, [] => some []
  | 0, _, _ :: _ => none
  | n + 1, as, bs =>
    let k := recordLen as.head? bs
    if bs.length < k then none else (cutRecords n as.tail (bs.drop k)).map fun r => bs.take k :: r

/-- The parts of an item 8: symbol entries, form entries, deferred-instruction records, access records; none where their counts do
not fit its length. -/
structure Item8 where
  syms : List (List Byte)
  forms : List FormEntry
  defs : List (List Byte)
  accs : List (List Byte)
  deriving DecidableEq, Repr

def Item8.read (nsyms : Nat) (old : List Access) (bs : List Byte) : Option Item8 :=
  let b1 := bs.drop (4 + 32 * nsyms)
  let nf := field b1 0 4
  let b2 := b1.drop (4 + 24 * nf)
  let nd := field b2 0 4
  let b3 := b2.drop (4 + 1056 * nd)
  if field bs 0 4 ≠ nsyms || bs.length < 16 + 32 * nsyms + 24 * nf + 1056 * nd then none
  else (cutRecords (field b3 0 4) old (b3.drop 4)).map fun rs =>
    { syms := chunks 32 nsyms (bs.drop 4), forms := (chunks 24 nf (b1.drop 4)).map FormEntry.ofBytes
      defs := chunks 1056 nd (b2.drop 4), accs := rs }

/-- Whether a symbol entry is pending or poisoned. -/
def Item8.live (i : Item8) (q n : Nat) : Bool := match i.syms[64 * q + n]? with | some e => 0 < field e 0 1 | none => false

/-- The tests of an item 8: reserved bytes are zero, every SYM of a form names a pending or poisoned entry, and every entry of an
access record names one that exists (R348, R406). -/
def Item8.ok (i : Item8) : Bool :=
  i.syms.all (fun e => field e 0 1 ≤ 2 && field e 3 1 == 0 && zeros (e.drop 8)) &&
    i.forms.all (fun e => i.live (e.g % 4) e.sym && (e.reg < 2048 || 4096 ≤ e.reg || e.reg - 2048 < i.accs.length)) &&
    i.defs.all (fun e => i.live (field e 16 1 % 4) (field e 17 1) && zeros ((e.drop 20).take 12)) &&
    i.accs.all fun e => zeros ((e.drop 5).take 3) && zeros ((e.drop 16).take 16)

/-- The tests of item 9: the heads' reserved bits, and the lanes outside a slice (R345). -/
def item9Ok : List (UnitRef × Nat) → List Byte → Bool
  | [], _ => true
  | (u, l) :: r, bs =>
    field bs 0 4 < 2 ^ 16 && field bs 4 4 == 0 && (match u with
      | .slice _ _ k => (List.range 16).all fun n => (List.range l).all fun y => y / 4 == k || field bs (8 + 8 * (l * n + y)) 8 == 0
      | _ => true) && item9Ok r (bs.drop (8 + 128 * l))

/-- The tests of item 12: reserved bits of `cr.merr` and of the log entries, and COUNT (R162). -/
def item12Ok (bs : List Byte) : Bool :=
  let w := field bs 12 4
  bs.isEmpty || (w % 2 ^ 27 == 0 && bitsOf w 27 3 ≤ 4 && (List.range 4).all fun i => field bs (16 + 4 * i) 4 % 256 == 0)

/-- Whether a frame's microcode version is accepted (R306, R354). -/
def State.ucverOk (s : State) (v : Nat) : Bool := v == s.ucver.toNat || Config.acceptsUcver s.ucver v

/-- Where the section that item i ends and the next begins, every byte is zero. -/
def paddingOk (f : FrameInfo) (bs : List Byte) : Bool :=
  (List.range 11).all fun k =>
    let p := f.sect (k + 2)
    ((bs.drop (p.1 + p.2)).take ((64 - p.2 % 64) % 64)).all (· == 0)

/-- The units of a frame with a level record each, and the lanes of their latches. -/
def State.frameUnits (s : State) (f : FrameInfo) : List (UnitRef × List LaneId) :=
  match f.block.bind s.blk?, f.upper with
  | some x, _ => (unitsOf x).map fun u => (u, latchLanes x u)
  | none, some u => [(u, [noLane])]
  | none, none => []

/-- The accesses that a frame records. -/
def State.frameAccs (s : State) (f : FrameInfo) : List Access :=
  s.framedAccs fun u => match f.block with | some b => u.block? == some b | none => some u == f.upper

/-- Item 8 of a frame's bytes. -/
def State.frameItem8 (s : State) (f : FrameInfo) (bs : List Byte) : Option Item8 :=
  Item8.read (if f.block.isSome then 256 else 0) (s.frameAccs f) (f.item 8 bs)

/-- A frame is acceptable. -/
def State.acceptable (s : State) (f : FrameInfo) (bs : List Byte) : Bool :=
  let it (i : Nat) := f.item i bs
  let us := s.frameUnits f
  bs.take 512 == f.header && it 10 == f.item10 && it 11 == f.item11 &&
    (it 12).take 4 ++ ((it 12).drop 32).take 2048 == f.item12 && s.ucverOk (field f.header 4 4) &&
    (match s.frameItem8 f bs with
     | none => false
     | some i => i.ok && (us.zip (chunks 4096 us.length (it 2))).all fun p => levelOk p.1.1.rank (i.live (p.1.1.groupNo % 4)) p.2) &&
    (chunks 32 ((it 3).length / 32) (it 3)).all item3Ok && (chunks 72 ((it 5).length / 72) (it 5)).all item5Ok &&
    (chunks 4 ((it 6).length / 4) (it 6)).all item6Ok &&
    item9Ok ((us.filter fun p => !s.retired p.1 && midClause (s.clauseOf p.1)).map fun p => (p.1, p.2.length)) (it 9) &&
    item12Ok (it 12) && paddingOk f bs

/-! ## Reading a frame back -/

/-- Registers whose word in the frame differs from the one written. -/
def changedWords : List RegKey → List Byte → List Byte → List (RegKey × Cell)
  | [], _, _ => []
  | k :: r, new, old =>
    let rest := changedWords r (new.drop 4) (old.drop 4)
    if new.take 4 = old.take 4 then rest else (k, .known (BitVec.ofNat 32 (leNat (new.take 4)))) :: rest

/-- The watches of a level record: entries up to the first empty one, newest first. -/
def watchesOf (bs : List Byte) : List (Nat × Nat × Nat) :=
  ([5, 4, 3, 2] : List Nat).zipIdx.flatMap fun p =>
    (((chunks 16 8 (bs.drop (1088 + 128 * p.2))).takeWhile fun e => leNat e != 0).map fun e => (p.1, field e 0 8, field e 8 8)).reverse

/-- A queue read back; entries past the old ones stand after them. -/
def queueOf (q : Nat) : List Decision → List (List Byte) → List Decision
  | _, [] => []
  | d :: r, e :: t => d.ofBytes q e :: queueOf q r t
  | [], e :: t => Decision.ofBytes ⟨0, 0, .loopStep false⟩ q e :: queueOf q [] t

/-- A stack as it was before a decision: the one after it, cut to a depth, with the changed entry put back; newest first. -/
def stackBefore {α : Type} (after : List α) (depth : Nat) (changed : Option (Nat × α)) : List α :=
  let a := after.reverse.take depth
  (match changed with
   | some (i, x) => (a.take i ++ x :: a.drop (i + 1)).take depth
   | none => a).reverse

/-- Where a replay record's clause stands, from its PC. -/
def replayClause (c : ClauseRun) (p : Nat) : Option ClauseRun :=
  let first := c.addr + 8
  if p = c.addr then some { c with pos := 0, next := none, ended := false }
  else if first ≤ p ∧ p < first + 8 * c.words.length ∧ (p - first) % 8 = 0 then some { c with pos := (p - first) / 8, next := none, ended := false }
  else none

/-- A replay record as read, over the stacks that follow it. -/
def ReplayRec.restore (u : UnitRef) (loops : List Loop) (calls : List CallRec) (e o : List Byte) (r : ReplayRec) : ReplayRec :=
  if e = o then r
  else
    let w := field e 4 4
    let d := field e 24 4
    let i := bitsOf w 2 4
    let clause := if field e 8 8 = field o 8 8 then r.clause else r.clause.bind fun c => replayClause c (field e 8 8)
    { r with
      seq := field e 0 4
      pc := (match clause with | some c => c.addr | none => field e 8 8)
      clause := clause
      re := wordAddr (field e 16 8)
      loops := stackBefore loops (d % 16) (if bitsOf w 0 2 = 1 then some (i, Loop.ofBytes (e.drop 32)) else none)
      calls := stackBefore calls (d / 16) (if bitsOf w 0 2 = 2 then some (i, CallRec.ofBytes (e.drop 32)) else none)
      key := if bitsOf w 16 1 = 1 then some (u.ownReg (bitsOf w 8 8)) else none
      prev := if field e 28 4 = field o 28 4 then r.prev else .known (BitVec.ofNat 32 (field e 28 4)) }

/-- A ring read back, with the level's stacks after it. -/
def ringOf (u : UnitRef) (loops : List Loop) (calls : List CallRec) : List ReplayRec → List (List Byte) → List (List Byte) → List ReplayRec
  | r :: t, e :: es, o :: os =>
    let rest := ringOf u loops calls t es os
    (match rest with
     | n :: _ => r.restore u n.loops n.calls e o
     | [] => r.restore u loops calls e o) :: rest
  | _, _, _ => []

/-- A sequencer as its level record gives it; where it stands in its clause is settled afterwards. -/
def restoreLevel (u : UnitRef) (q0 : Nat) (new old : List Byte) (s : State) : State :=
  match s.seq? u with
  | none => s
  | some q =>
    let w := field new 16 4
    let views := changedWords ((viewKeys u).map fun k => k.getD (.view u .g 0)) ((new.drop 2048).take 768) ((old.drop 2048).take 768)
    let loops := ((chunks 32 (bitsOf w 0 4) (new.drop 64)).map Loop.ofBytes).reverse
    let calls := ((chunks 24 (bitsOf w 4 6) (new.drop 320)).map CallRec.ofBytes).reverse
    let q1 := { q with
      re := wordAddr (field new 8 8)
      loops := loops
      calls := calls
      watches := (if (new.drop 1088).take 512 = (old.drop 1088).take 512 then q.watches else watchesOf new)
      queue := (match u with
        | .gang .. => q.queue
        | _ => queueOf q0 q.queue (chunks 24 (bitsOf w 10 5) (new.drop 1600)))
      ring := ringOf u loops calls q.ring (chunks 64 (bitsOf w 15 5) (new.drop 2816)) (chunks 64 (bitsOf w 15 5) (old.drop 2816))
      parted := bitsOf w 20 1 == 1
      retired := bitsOf w 21 1 == 1
      waits := (if u.rank = 1 then (chunks 8 4 (new.drop 32)).mapIdx fun i e =>
                if (field new 20 4).testBit i then wordAddr (leNat e) else none else q.waits)
      park := (if bitsOf w 22 1 = 0 && q.park.stands then .none else q.park)
      pjoin := if bitsOf w 20 1 = 1 then some (field new 24 8) else q.pjoin }
    (s.setSeq u q1).setCells (if u.rank = 5 then [] else views)

/-- A slice's masks (item 3). -/
def restoreMask (u : UnitRef) (e : List Byte) (s : State) : State :=
  s.mapSeq u fun q => { q with
    mask := BitVec.ofNat 4 (field e 0 1)
    mstack := (((e.drop 2).take (field e 1 1)).map fun b => BitVec.ofNat 4 b.toNat).reverse }

/-- A lane's index registers and predicates (item 5). -/
def restoreIndex (x : LaneId) (e : List Byte) (s : State) : State :=
  let ix := (List.range 8).flatMap fun i =>
    let w := field e (8 * i) 8
    [(RegKey.ixv x.b x.g x.l i, Cell.known (BitVec.ofNat 32 (bitsOf w 0 16))), (.ixb x.b x.g x.l i, .known (BitVec.ofNat 32 (bitsOf w 16 10))),
     (.ixl x.b x.g x.l i, .known (BitVec.ofNat 32 (bitsOf w 26 16)))]
  let ps := (List.range 7).map fun p => (RegKey.pred x.b x.g x.l p, Cell.known (BitVec.ofNat 32 (bitsOf (field e 64 4) p 1)))
  s.setCells (ix ++ ps)

/-- Runs over numbered pieces of two byte strings, for those that differ. -/
def forChanged {α : Type} (k : Nat) (f : α → List Byte → List Byte → State → State) : List α → List Byte → List Byte → State → State
  | [], _, _, s => s
  | a :: r, new, old, s =>
    let s1 := if new.take k = old.take k then s else f a (new.take k) (old.take k) s
    forChanged k f r (new.drop k) (old.drop k) s1

/-! ### Item 8 read back -/

/-- The registers that an entry names, in a block. -/
def formKeys (s : State) (b : Nat) (e : FormEntry) : List RegKey :=
  if e.reg < 640 then [.vec b e.g e.l e.reg, .vec b e.g e.l (e.reg + 1)]
  else if e.reg < 1024 then [.gr b e.g (e.reg - 640), .gr b e.g (e.reg - 639)]
  else if e.reg < 2048 then
    (match s.regs.findSome? fun p => match p.1 with
      | .latch u n lb lg ll false =>
        if u.block? = some b ∧ n = e.reg - 1024 ∧ lg = e.g ∧ ll = e.l then some (RegKey.latch u n lb lg ll false, RegKey.latch u n lb lg ll true) else none
      | _ => none with
     | some p => [p.1, p.2]
     | none => [])
  else if e.reg < 4096 then []
  else [.view (.slice b e.g ((e.reg - 4096) / 64)) .g ((e.reg - 4096) % 64), .view (.slice b e.g ((e.reg - 4096) / 64)) .g ((e.reg - 4096) % 64 + 1)]

/-- Form entries that a handler added or changed take effect; a register whose entry is gone holds its word. -/
def restoreForms (b : Nat) (new old : List FormEntry) (s : State) : State :=
  let gone := (old.filter fun e => !new.contains e).flatMap fun e => (formKeys s b e).take (if bitsOf e.ty 4 1 = 1 then 2 else 1)
  let s1 := s.setCells ((gone.filter fun k => (s.cell k).word?.isNone).map fun k => (k, .known 0))
  (new.filter fun e => !old.contains e).foldl (fun t e =>
    t.setCells ((formKeys t b e).zip (e.cells (framedQuarter b (e.g % 4))))) s1

/-- The operation of a deferred instruction's word. -/
def deferredOp (w : Nat) : Option (DefOp × FTy × FMod) :=
  match decode w with
  | .ok (.fadd _ _ t m _ _) => some (.add, t, m)
  | .ok (.fsub _ _ t m _ _) => some (.sub, t, m)
  | .ok (.fmul _ _ t m _ _) => some (.mul, t, m)
  | .ok (.ffma _ _ t m _ _ _) => some (.fma, t, m)
  | _ => none

/-- A deferred-instruction record as read: its word, its lanes and their operands. -/
def Deferred.restore (e : List Byte) (b g : Nat) (d : Deferred) : Deferred :=
  let w := field e 0 8
  let o := (deferredOp w).getD (d.op, d.ty, d.fm)
  { d with word := w, op := o.1, ty := o.2.1, fm := o.2.2
           lanes := ((List.range 64).filter fun l => (field e 8 8).testBit l).map fun l =>
             let z : DefLane := (d.lanes.find? fun z => z.l == l).getD
               ((d.lanes.head?).getD { b := b, g := g, l := l, pos := 0, src := none, part := 0, x := 0, y := 0 })
             { z with b := b, g := g, l := l, x := BitVec.ofNat 64 (field e (32 + 16 * l) 8), y := BitVec.ofNat 64 (field e (40 + 16 * l) 8) } }

/-- Puts an item before those of a higher or equal order. -/
def insertOrder {α : Type} (n : Nat) (v : α) : List (Nat × α) → List (Nat × α)
  | [] => [(n, v)]
  | p :: r => if n ≤ p.1 then (n, v) :: p :: r else p :: insertOrder n v r

/-- The deferred instructions of a block's symbols from their records; one whose record stands as written is kept (R347). -/
def restoreDeferred (x : Blk) (new old : List (List Byte)) (s : State) : State :=
  if new = old then s
  else
    let was := (s.blockSyms x.id).flatMap fun y => y.deferred
    let blank : Deferred := { op := .add, ty := .f32, fm := { rm := .rne, fs := false, sat := false }, word := 0, lanes := [] }
    let ds := (new.zipIdx).map fun p =>
      let g := field p.1 16 1
      ((framedQuarter x.id (g % 4), field p.1 17 1), field p.1 18 2,
       if old[p.2]? = some p.1 then was.getD p.2 blank else (was.getD p.2 blank).restore p.1 x.id g)
    s.setSyms (s.syms.map fun y => if y.b ≠ x.id then y else
      { y with deferred := ((ds.filter fun d => d.1 == (y.q, y.sym)).foldr (fun d l => insertOrder d.2.1 d.2.2 l) []).map (·.2) })

/-- Data cells read back: an entry's cells, a late word as it was written, or the known word. -/
def restoreData (q : Nat) (es : List FormEntry) (bs : List Byte) (n : Nat) : List Cell :=
  (List.range n).map fun k =>
    let known : Cell := .known (BitVec.ofNat 32 (field bs (4 * k) 4))
    match es.find? (FormEntry.isAt true k), (if k = 0 then none else es.find? (FormEntry.isAt true (k - 1))) with
    | some e, _ => (e.cells q).headD known
    | none, some e => (e.cells q).getD 1 known
    | none, none => known

/-- A lane of an access record as read, with the form entries of its lane: its address, or the forms in it, and its data (R406). -/
def LaneAcc.read (q : Nat) (es : List FormEntry) (bs : List Byte) (y : LaneAcc) : LaneAcc :=
  let w := field bs 0 8
  let y1 := { y with data := restoreData q es (bs.drop 8) y.data.length }
  match es.find? (FormEntry.isAt false 0), es.find? (FormEntry.isAt false 1) with
  | none, none => { y1 with addr := some w, parts := [], st := if y.st = .hole ∧ y.addr ≠ some w then .todo else y.st }
  | b, i =>
    let zero : Cell := .known 0
    let base : List Cell := match b with
      | some e => let cs := ({ e with offset := w } : FormEntry).cells q; [cs.headD zero, cs.getD 1 zero]
      | none => [.known (BitVec.ofNat 32 (w % 2 ^ 32)), .known (BitVec.ofNat 32 (w / 2 ^ 32))]
    let index : Cell := (i.map fun e => (e.cells q).headD zero).getD zero
    { y1 with addr := none, parts := base ++ [index], disp := 0, st := .todo }

/-- One lane: as it was where neither its bytes nor its entries have changed. -/
def LaneAcc.restore (q : Nat) (es old : List FormEntry) (bs : List Byte) (y : LaneAcc) : LaneAcc :=
  let mine (l : List FormEntry) := l.filter fun e => e.l == y.l
  if bs = y.frameBytes ∧ mine es = mine old then y else y.read q (mine es) bs

def restoreLanes (q : Nat) (es old : List FormEntry) (a : Access) : List LaneAcc → List Byte → List LaneAcc
  | [], _ => []
  | y :: r, bs =>
    if LaneAcc.recorded a y then y.restore q es old (bs.take 40) :: restoreLanes q es old a r (bs.drop 40)
    else y :: restoreLanes q es old a r bs

/-- The lanes of a record whose lane mask has changed: a lane that it no longer names makes no access, a new one makes its own. -/
def maskLanes (q : Nat) (es old : List FormEntry) (m width : Nat) (a : Access) (bs : List Byte) : List LaneAcc :=
  let ls := (List.range 64).filter m.testBit
  let piece (l : Nat) : List Byte := (bs.drop (40 * (ls.findIdx (· == l)))).take 40
  let was := a.lanes.filter (LaneAcc.recorded a)
  let blank (l : Nat) : LaneAcc :=
    { g := a.unit.groupNo, l := l, addr := none, parts := [], disp := 0, size := width, tgt := .none, mark := false
      data := if a.kind.isWrite then List.replicate ((width + 3) / 4) (.known 0) else [], got := [], st := .todo }
  a.lanes.map (fun y =>
    if !LaneAcc.recorded a y then y
    else if m.testBit y.l then y.restore q es old (piece y.l)
    else { y with st := .done, got := List.replicate y.size 0 }) ++
  (ls.filter fun l => !was.any fun y => y.l == l).map fun l => (blank l).read q (es.filter fun e => e.l == l) (piece l)

/-- An access record as read (R347). -/
def Access.restore (q : Nat) (es old : List FormEntry) (bs : List Byte) (a : Access) : Access :=
  if bs = a.frameBytes ∧ es = old then a
  else
    let m := field bs 8 8
    let w := field bs 2 1
    let b := { a with kind := AccKind.ofCode (field bs 0 2), width := w, ctr := field bs 3 1 }
    let ls := if m = accMask (a.lanes.filter (LaneAcc.recorded a)) then restoreLanes q es old a a.lanes (bs.drop 32)
              else maskLanes q es old m w b (bs.drop 32)
    { b with
      lanes := if w = a.width then ls else ls.map fun y => { y with size := w }
      unit := match a.unit with
        | .slice x _ k => .slice x (field bs 4 1) k
        | .group x _ => .group x (field bs 4 1)
        | u => u }

/-- The access records as read, in their order; a lane that gives its place up no longer holds it. -/
def restoreAccs (block : Nat) (olds : List Access) (new old : List FormEntry) (rs : List (List Byte)) (s : State) : State :=
  let ofRec (i : Nat) (l : List FormEntry) := l.filter fun e => e.reg == 2048 + i
  let s1 := ((olds.zip rs).zipIdx).foldl (fun t p =>
    t.mapAcc p.1.1.id fun a => a.restore (framedQuarter block (a.unit.groupNo % 4)) (ofRec p.2 new) (ofRec p.2 old) p.1.2) s
  let holds (h : Nat × Nat × Nat × Nat) : Bool := match (s1.access? h.2.1).bind fun a => a.lanes[h.2.2.1]? with
    | some y => y.st == .hole
    | none => false
  s1.setMem { s1.mem with holes := s1.mem.holes.filter holds }

/-- The causes that a symbol entry may hold. -/
def causesAll : List Cause :=
  [.align, .window, .detached, .page, .dataerr, .bank, .range, .prot, .exec, .isolation, .link]

/-- One symbol entry as read: a free one is no symbol, and its access goes; another one is fed by the access it names (R347). -/
def restoreSym (x : Blk) (ids : List Nat) (k : Nat) (e : List Byte) (s : State) : State :=
  let q := framedQuarter x.id (k / 64)
  let n := k % 64
  let cause := causesAll.find? fun c => c.code == field e 1 1
  let poison := if field e 0 1 = 2 then some (cause.getD .dataerr) else none
  if field e 0 1 = 0 then
    let s1 := (s.qs.accs.filter fun a => a.sym == some (q, n)).foldl State.dropAcc s
    s1.setSyms (s1.syms.filter fun y => !(y.q == q && y.sym == n))
  else match field e 2 1, ids[field e 4 4]? with
    | 0, some id =>
      let s1 := s.mapAcc id fun a => { a with sym := some (q, n) }
      if (s1.sym? q n).isSome then s1.mapSym q n fun y => { y with feed := .access id, poison := poison }
      else s1.setSyms (s1.syms ++ [{ q := q, sym := n, b := x.id, g := ((s1.access? id).map (·.unit.groupNo)).getD 0, feed := .access id
                                     poison := poison, deferred := [] }])
    | _, _ => s.mapSym q n fun y => { y with poison := poison }

/-- Item 8. -/
def restoreItem8 (x : Blk) (new old : List Byte) (s : State) : State :=
  let accs := s.framedAccs fun u => u.block? == some x.id
  match Item8.read 256 accs new, Item8.read 256 accs old with
  | some n, some o =>
    if n = o then s
    else
      let s1 := ((n.syms.zip o.syms).zipIdx).foldl (fun t p =>
        if p.1.1 = p.1.2 then t else restoreSym x (accs.map (·.id)) p.2 p.1.1 t) s
      restoreAccs x.id accs n.forms o.forms n.accs (restoreDeferred x n.defs o.defs (restoreForms x.id n.forms o.forms s1))
  | _, _ => s

/-! ### Item 9 and item 12 read back -/

/-- A mid-clause unit's latches. -/
def restoreLatches (lanes : List LaneId) (u : UnitRef) (new old : List Byte) (s : State) : State :=
  let keys := (List.range 16).flatMap fun n => lanes.flatMap fun y => [s.latchCell u n y false, s.latchCell u n y true]
  s.setCells ((changedWords keys (new.drop 8) (old.drop 8)).filter fun p => s.regs.any fun r => r.1 == p.1)

def restoreTile (x : Blk) (t : Tile) (new _old : List Byte) (s : State) : State :=
  let ws := chunks 4 4096 new
  s.mapBlk x.id (Blk.setTile t.n (((ws.zipIdx).map fun p => (p.2, BitVec.ofNat 32 (leNat p.1))).filter fun p => p.2 ≠ 0))

/-- A bound copy from its bytes. -/
def Handle.withCopy (bs : List Byte) (h : Handle) : Handle :=
  let n := MTy.lineBytes h.ty h.k
  let lines := (chunks n 64 bs).zipIdx.flatMap fun p => p.1.zipIdx.map fun b => (2048 * p.2 + b.2, b.1)
  let pairs := (bs.drop (64 * n)).zipIdx.map fun b => (2 ^ 20 + b.2, b.1)
  { h with copy := (lines ++ pairs).filter fun p => p.2 ≠ unlisted }

def restoreCopies (b : Nat) : List Handle → List Byte → State → State
  | [], _, s => s
  | h :: r, bs, s =>
    let n := MTy.copyBytes h.ty h.k
    restoreCopies b r (bs.drop n) (s.mapBlk b fun x => { x with
      handles := x.handles.map fun k => if k.n = h.n then Handle.withCopy (bs.take n) k else k })

def restoreItem12 (x : Blk) (new old : List Byte) (s : State) : State :=
  if new = old then s
  else
    let w := field new 12 4
    let s1 := s.mapBlk x.id fun y => { y with
      ps := BitVec.ofNat 32 (field new 4 4), gen := BitVec.ofNat 32 (field new 8 4)
      merrSticky := bitsOf w 31 1 == 1, merrOvf := bitsOf w 30 1 == 1
      mlog := (List.range (min 4 (bitsOf w 27 3))).map fun i => BitVec.ofNat 32 (field new (16 + 4 * i) 4) }
    let at_ := 32 + 2048
    let s2 := forChanged 16384 (restoreTile x) x.tileList (new.drop at_) (old.drop at_) s1
    restoreCopies x.id x.handleList (new.drop (at_ + 16384 * x.tileList.length)) s2

end Sys2Proof.Machine
end

