-- ==== Sys2Proof/Machine/System.lean ====
section
/-! DEFINITION. The system class: faults and pre-emption, the building and restoring of frames, fault records, traps, control
registers, and the control of masters (04_control R71, R72, 16_system R333 to R358). -/

namespace Sys2Proof.Machine

/-! ## Restoring the sequencers above a fault (R62, R69, R71) -/

/-- A sequencer returns to its state immediately before the oldest decision that no child has consumed; later decisions leave
the children's queues, and what it consumed after that point returns to the head of its own. -/
def unwind (s : State) (p : UnitRef) : State :=
  match s.seq? p with
  | none => s
  | some q =>
    let live := (s.children p).filter fun v => !s.retired v
    let m := live.foldl (fun n v => max n (s.behind p q.dseq v)) 0
    match q.ring.find? (·.seq == m), live with
    | some r, v0 :: _ =>
      let kept (d : Decision) : Bool := !(d.rank == p.rank && m ≤ d.seq)
      let back := match s.seq? v0 with
        | some x => (x.queue.dropWhile kept).filter fun d => p.rank < d.rank
        | none => []
      let s1 := ((q.ring.filter fun r => m ≤ r.seq).reverse).foldl (fun t r =>
        match r.key with | some k => t.setCell k r.prev | none => t) s
      let s2 := live.foldl (fun t v => t.mapSeq v fun x => { x with queue := x.queue.takeWhile kept }) s1
      let s3 := s2.setRegs ((s2.regs.filter fun e => !e.1.ownOf p) ++ r.latches)
      s3.setSeq p { q with
        pc := r.pc, re := r.re, loops := r.loops, calls := r.calls, watches := r.watches, clause := r.clause
        ring := q.ring.filter (fun r => r.seq < m), dseq := m, queue := back ++ q.queue
        kept := q.kept.filter (fun d => d.2 ≤ m), retired := false, done := false, park := .none }
    | _, _ => s

/-- The sequencers above a unit in its block, lowest first. -/
def aboveInBlock : UnitRef → List UnitRef
  | .slice b g _ => [.group b g, .block b]
  | .group b _ => [.block b]
  | _ => []

/-- A stop that builds a FAULTED frame with a record: every fault but a PAGE that the driver may still answer (R341). -/
def FaultInfo.faulted (i : FaultInfo) : Bool := !i.preempt && (i.cause != .page || i.final)

/-! ## When a block's frame may be built (R71, R96, R163, R213, R239, R343) -/

/-- A row of `mstore` that has not performed. -/
def Access.ofMstore (a : Access) : Bool := match decode a.word with | .ok (.mstore ..) => true | _ => false

/-- The drains before a frame are over. -/
def State.mayFrame (s : State) (x : Blk) (i : FaultInfo) : Bool :=
  let mine := s.qs.accs.filter fun a => a.unit.block? == some x.id
  x.phase == .resident && !x.cancelled && !x.kill && (unitsOf x).all (unitStands s (if i.preempt then none else some i.unit)) && x.mq.isEmpty && !x.frozen &&
    x.cmds.all (fun c => c.st != 0) && !(x.slots.any fun sl => sl.st == 2) &&
    !(mine.any fun a => Access.ofMstore a && a.poison.isNone && a.open) &&
    (x.hold.isNone || mine.all fun a => a.sym.isNone || a.lanes.all fun y => match y.st with | .done | .failed _ | .void => true | _ => false)

/-- The block as its frame holds it: the faulting unit before its instruction, whose reads and monitors go; the sequencers
above it restored; its symbols off the core. -/
def State.standFor (s : State) (x : Blk) (i : FaultInfo) : State :=
  let s1 :=
    if i.preempt then s
    else
      let part := s.qs.accs.filter fun a => a.unit == i.unit && a.pc == i.pc && a.sym.isNone && !a.kind.isWrite
      let t := part.foldl State.dropAcc s
      let t1 := t.setQs { t.qs with mons := t.qs.mons.filter fun m => m.unit != i.unit }
      (aboveInBlock i.unit).foldl unwind (t1.mapSeq i.unit fun q => { q with park := .none })
  s1.unplaceSyms x

/-- The lowest run of free granules of a context's pool (R335). -/
def State.freeRun (s : State) (ctx n : Nat) : Option Nat :=
  let gran := (s.cr ctx 0x45).toNat % 2 ^ 16
  let used := s.flt.frames.filter fun f => f.ctx == ctx
  if gran < n then none
  else (List.range (gran - n + 1)).find? fun k => !(used.any fun f => k < f.fid + f.granules && f.fid < k + n)

/-! ## FAULT_DELIVERY -/

/-- A frame that cannot be written: the job is hard-cancelled, the record goes to the last-fault slot (R336). -/
def State.discardFrame (s : State) (l ctx : Nat) (rec : Option FaultRec) : State :=
  let s1 := match rec with | some r => s.setLastFault ctx r.bytes | none => s
  s1.cancelJobOf l

/-- What a frame of the block would hold, at a FID. -/
def State.blockFrame (s : State) (x : Blk) (i : FaultInfo) (fid : Nat) : List Byte :=
  let faulted := i.faulted
  frameBytes s.ucver.toNat
    (frameFlags false (!(s.midUnits (unitsOf x)).isEmpty) faulted (faulted && i.cause.violation) x.hold.isSome x.haltReq)
    x.ctx fid (s.handlesWord x.launch) x.index (x.gangNo % 2 ^ 24 + x.member * 2 ^ 24) x.desc.shapeWord x.core
    (if faulted then whatWord i.cause (s.infoGrade i) i.unit.rank false else 0) (s.blockItems x)

def State.upperFrame (s : State) (u : UnitRef) (i : FaultInfo) (fid : Nat) : List Byte :=
  let faulted := i.faulted
  let l := s.launchOf u
  frameBytes s.ucver.toNat
    (frameFlags true (!(s.midUnits [u]).isEmpty) faulted (faulted && i.cause.violation) false false)
    (s.ctxOf u) fid (s.handlesWord l) 0 (match u with | .gang _ k => k % 2 ^ 24 | _ => 0) (s.descOf u).shapeWord 0
    (if faulted then whatWord i.cause (s.infoGrade i) u.rank true else 0) (s.upperItems u)

/-- The open page request that a PAGE fault waits for. -/
def State.pageTagOf (s : State) (ctx va : Nat) : Option Nat :=
  (s.stage1 ctx va).bind fun p => (s.qs.pages.find? fun r => r.page == p.2 / 65536).map (·.tag)

/-- The part's own copy of what it keeps of a frame (R348). -/
def FrameInfo.ofBytes (ctx fid va : Nat) (block : Option Nat) (upper : Option UnitRef) (i : FaultInfo) (tiller queued : Nat)
    (held halted : Bool) (tag : Option Nat) (bs : List Byte) : FrameInfo :=
  let faulted := i.faulted
  let f : FrameInfo :=
    { fid := fid, ctx := ctx, granules := (bs.length + 65535) / 65536, addr := va, block := block, upper := upper, size := bs.length
      header := bs.take 512, item10 := [], item11 := [], item12 := [], faulted := faulted, frozen := faulted && i.cause.violation
      held := held, halted := halted, pageTag := tag, ready := (i.preempt && i.info == 1) || (!faulted && !i.preempt && tag.isNone)
      core := none, tiller := tiller, queued := queued, why := i, built := bs, image := none }
  { f with item10 := f.item 10 bs, item11 := f.item 11 bs, item12 := ((f.item 12 bs).take 4 ++ ((f.item 12 bs).drop 32).take 2048) }

/-- Writes a frame where its run of granules can be written, then goes on with `done`. -/
def writeFrame (ctx : Nat) (mk : Nat → List Byte) (refused : State) (done : Nat → Nat → List Byte → State → State) (s t : State) : State :=
  let n := (mk 0).length
  match s.freeRun ctx ((n + 65535) / 65536) with
  | none => s
  | some fid =>
    let va := s.poolBase ctx + fid * 65536
    match s.partAccess ctx va n true with
    | .miss ia => (s.pageMiss ia 1).1
    | .held => s
    | .refused => refused
    | .ok => done fid va (mk fid) (pokePages ctx (pagePieces va n) (mk fid) t)

/-- A PAGE whose page the driver has already called unmappable (R341, R366). -/
def State.settleWhy (s : State) (i : FaultInfo) : FaultInfo :=
  let dead := s.qs.accs.any fun a => a.lanes.any fun y => y.st == .failed .page && y.addr == some i.addr
  { i with final := i.final || (i.cause == .page && dead) }

/-- The fault queue of a context is in use (R336). -/
def State.queueUsable (s : State) (ctx : Nat) : Bool :=
  let w := (s.cr ctx 0x42).toNat
  bitsOf w 31 1 == 1 && 4 ≤ w % 16 && w % 16 ≤ 12

/-- An error that a fault's record reports is counted (R390). -/
def State.noteFault (s : State) (i : FaultInfo) : State := if i.faulted then s.noteError i.unit i.cause i.addr i.lanes else s

/-- A block that has stopped is framed, and its record joins those to be posted; without a fault queue its job is
hard-cancelled instead (R336). -/
def deliverBlock (x : Blk) (i : FaultInfo) (s : State) : State :=
  if !s.mayFrame x i then s
  else
    let c := s.noteFault i
    let t := c.standFor x i
    let faulted := i.faulted
    let gone := (c.discardFrame x.launch x.ctx (if faulted then some (c.blockRecord x i none) else none)).killBlock x.id
    if faulted && !s.queueUsable x.ctx then gone
    else writeFrame x.ctx (t.blockFrame x i) gone (fun fid va bs w =>
      let queued := ((w.seq? (.block x.id)).map (·.queue.length)).getD 0
      let f := FrameInfo.ofBytes x.ctx fid va (some x.id) none i (tillerOf x.core) queued x.hold.isSome x.haltReq
        (if !faulted && !i.preempt then s.pageTagOf x.ctx i.addr else none) bs
      let w1 := (w.setFlt { w.flt with frames := w.flt.frames ++ [f] }).mapBlk x.id fun y =>
        { y with phase := .framed, stop := none, frozen := x.haltReq }
      if faulted then w1.addRecord (c.blockRecord x i (some fid)) else w1) s t

/-- A gang or grid sequencer that has stopped gets its upper frame (R335). The frame holds it as it stands immediately before its
instruction (R71, item 1): nothing is unwound, since the decisions that it has produced stay queued and would otherwise be produced
twice (DESIGN CHOICE log 125). -/
def deliverUpper (u : UnitRef) (i : FaultInfo) (s : State) : State :=
  if s.flt.frames.any fun f => f.upper == some u then s
  else
    let ctx := s.ctxOf u
    let faulted := i.faulted
    let c := s.noteFault i
    let gone := c.discardFrame (s.launchOf u) ctx (if faulted then some (c.upperRecord u i none) else none)
    let t := (s.qs.accs.filter fun a => a.unit == u && a.pc == i.pc && a.sym.isNone && !a.kind.isWrite).foldl State.dropAcc c
    if faulted && !s.queueUsable ctx then gone
    else writeFrame ctx (t.upperFrame u i) gone (fun fid va bs w =>
      let f := FrameInfo.ofBytes ctx fid va none (some u) i 0 0 false false
        (if !faulted then s.pageTagOf ctx i.addr else none) bs
      let w1 := (w.setFlt { w.flt with frames := w.flt.frames ++ [f] }).mapSeq u fun q => { q with park := .none }
      if faulted then w1.addRecord (c.upperRecord u i (some fid)) else w1) s t

/-- FAULT_DELIVERY: a block, named by one of its units, or an upper sequencer (R335). -/
def execFaultDelivery (u : UnitRef) (s : State) : Host.Outcome State Fault Refusal :=
  match u.block? with
  | some b =>
    (match s.blk? b with
     | none => .next s
     | some x => match x.stop with | some i => .next (deliverBlock x (s.settleWhy i) s) | none => .next s)
  | none =>
    match lookup? u s.flt.uppers with
    | some i => .next (deliverUpper u (s.settleWhy i) s)
    | none => .next s

/-- The driver answers that a page cannot be mapped: the frames that would stand in it are discarded (R336). -/
def State.refuseFrames (s : State) (page : Nat) : State :=
  let inPage (ctx va n : Nat) : Bool := match s.partAccess ctx va n true with | .miss ia => ia / 65536 == page | _ => false
  let blocked (ctx n : Nat) : Bool := match s.freeRun ctx ((n + 65535) / 65536) with
    | some fid => inPage ctx (s.poolBase ctx + fid * 65536) n
    | none => false
  let s1 := s.blks.foldl (fun t x => match x.stop with
    | some i =>
      if s.mayFrame x i && blocked x.ctx ((s.standFor x i).blockFrame x i 0).length then
        (t.discardFrame x.launch x.ctx (if i.faulted then some (s.blockRecord x i none) else none)).killBlock x.id
      else t
    | none => t) s
  s.flt.uppers.foldl (fun t p =>
    if !(s.flt.frames.any fun f => f.upper == some p.1) && blocked (s.ctxOf p.1) (s.upperFrame p.1 p.2 0).length then
      t.discardFrame (s.launchOf p.1) (s.ctxOf p.1) (if p.2.faulted then some (s.upperRecord p.1 p.2 none) else none)
    else t) s1

/-! ## FAULT_RECORD_POST (R336) -/

/-- A record that is not posted: its job is hard-cancelled, and it goes to the last-fault slot. -/
def unposted (r : FaultRec) (bs : List Byte) (s : State) : State :=
  let s1 := (s.setFlt { s.flt with records := s.flt.records.erase r }).setLastFault r.ctx bs
  match r.handle with | some l => s1.cancelJobOf l | none => s1

def execFaultRecordPost (ctx : Nat) (s : State) : Host.Outcome State Fault Refusal :=
  match s.flt.records.find? fun r => r.ctx == ctx with
  | none => .next s
  | some r =>
    let log := (s.cr ctx 0x42).toNat % 16
    let base := s.queueBase ctx
    if !s.queueUsable ctx then .next (unposted r r.bytes s)
    else match s.partAccess ctx base 8 true, s.vaKey ctx base true with
      | .miss ia, _ => .next (s.pageMiss ia 1).1
      | .held, _ => .next s
      | .refused, _ | .ok, none => .next (unposted r (splice 8 (leBytes 8 0) r.bytes) s)
      | .ok, some k =>
        let tail := s.readNat k 4
        let head := s.readNat (k + 4) 4
        let at_ := base + 64 + 64 * (tail % 2 ^ log)
        if 2 ^ log ≤ (tail + 2 ^ 32 - head) % 2 ^ 32 then .next s
        else match s.partAccess ctx at_ 64 true with
          | .miss ia => .next (s.pageMiss ia 1).1
          | .held => .next s
          | .refused => .next (unposted r (splice 8 (leBytes 8 0) r.bytes) s)
          | .ok =>
            let s1 := s.pokeVa ctx at_ (splice 4 (leBytes 4 tail) r.bytes)
            let s2 := s1.pokeVa ctx base (leBytes 4 ((tail + 1) % 2 ^ 32))
            .next (s2.setFlt { s2.flt with records := s2.flt.records.erase r })

/-- The stage-2 page that the posting of a context's oldest record waits for. -/
def State.recordWaits (s : State) (ctx : Nat) : Option Nat :=
  let base := s.queueBase ctx
  match s.partAccess ctx base 8 true, s.vaKey ctx base true with
  | .miss ia, _ => some (ia / 65536)
  | _, some k =>
    (match s.partAccess ctx (base + 64 + 64 * (s.readNat k 4 % 2 ^ ((s.cr ctx 0x42).toNat % 16))) 64 true with
     | .miss ia => some (ia / 65536)
     | _ => none)
  | _, none => none

/-- The driver answers that a page of a fault queue cannot be mapped: the record that waits for it is not posted (R336). -/
def State.refuseRecords (s : State) (page : Nat) : State :=
  ((s.flt.records.map (·.ctx)).dedup).foldl (fun t ctx =>
    match t.flt.records.find? fun r => r.ctx == ctx with
    | some r =>
      if t.queueUsable ctx && t.recordWaits ctx == some page then unposted r (splice 8 (leBytes 8 0) r.bytes) t else t
    | none => t) s

/-! ## STATEERR (R340, R390) -/

/-- STATEERR: an uncorrectable error in state held for a resident block. -/
def execStateerr (b : Nat) (s : State) : Host.Outcome State Fault Refusal :=
  match s.blk? b with
  | none => .next s
  | some x =>
    if x.phase != .resident || x.kill then .next s
    else
      let s1 := s.countError 0 x.core
      let pc := ((s.seq? (.block b)).map fun q => standPc q q.clause).getD 0
      let i : FaultInfo := { unit := .block b, cause := .stateerr, pc := pc, addr := 0, info := 0, lanes := 0, preempt := false, final := false,
                             since := s.env.cycle, no := s.env.fresh }
      .next (((s1.bump.addRecord (s1.blockRecord x i none)).killBlock b).cancelEntry true x.launch)

/-! ## Restoring (R71, R96, R341, R347, R354) -/

/-- A sequencer and the slices that stand with it go on where their level records say (R399). -/
def placeTeam (ms : List (UnitRef × Nat)) (c : ClauseRun) (lead : UnitRef) (oldPc : Nat) (stands : Bool) (s : State) : State :=
  ((ms.map (·.2)).dedup).foldl (fun t p =>
    let us := (ms.filter fun m => m.2 == p).map (·.1)
    let first := c.addr + 8
    let run : Option ClauseRun :=
      if p = oldPc then (if c.pos = 0 && !c.ended && !stands then none else some c)
      else if first ≤ p ∧ p < first + 8 * c.words.length ∧ (p - first) % 8 = 0 then
        some { c with pos := (p - first) / 8, next := none, ended := false, retire := false }
      else none
    match run, us with
    | some r, v :: _ =>
      us.foldl (fun t w => t.mapSeq w fun q =>
        { q with pc := c.addr, clause := (if w = v then some { r with team := us.map UnitRef.sliceNo } else none)
                 park := if w = v ∧ v = lead ∧ p = oldPc then q.park else .none }) t
    | _, _ => us.foldl (fun t w => t.mapSeq w fun q => { q with pc := p, clause := none, park := .none }) t) s

/-- Where each unit stands, from the PCs of the level records. -/
def placeUnits (pcs : List (UnitRef × Nat)) (s : State) : State :=
  pcs.foldl (fun t p =>
    match s.seq? p.1 with
    | none => t
    | some q =>
      match q.clause with
      | some c =>
        let ms := match p.1 with
          | .slice b g _ => c.team.map fun k => (UnitRef.slice b g k, lookupD p.2 (UnitRef.slice b g k) pcs)
          | u => [(u, p.2)]
        placeTeam ms c p.1 (standPc q (some c)) q.park.stands t
      | none => if (s.clauseOf p.1).isSome then t else t.mapSeq p.1 fun x => { x with pc := p.2 }) s

/-- The words of a clause fetched again, for a unit that goes on inside it (R399, R402). -/
def State.refetch (s : State) (u : UnitRef) (c : ClauseRun) : Except FetchErr ClauseRun := do
  let w ← s.fetchWord u c.addr
  match decodeHeader w with
  | none => .error (.cause .clause)
  | some h =>
    let ws ← s.fetchWords u (c.addr + 8) (h.count + 1)
    .ok { c with hdr := h, words := ws }

/-- Whether some unit's clause cannot be fetched yet: a page to ask for, or a wait. -/
def State.refetchMiss (s : State) (us : List UnitRef) : Option FetchErr :=
  us.findSome? fun u => match (s.seq? u).bind (·.clause) with
    | some c => if c.ended then none else (match s.refetch u c with | .error (.cause _) | .ok _ => none | .error e => some e)
    | none => none

/-- Fetches again; a unit whose fetch faults takes its fault. -/
def refetchAll (us : List UnitRef) (s : State) : State :=
  us.foldl (fun t u => match (t.seq? u).bind (·.clause) with
    | some c =>
      if c.ended then t
      else (match t.refetch u c with
        | .ok r => t.mapSeq u fun q => { q with clause := some r }
        | .error (.cause k) => takeFault u c.pcAt { cause := k, addr := t.fetchBadAt u c.addr (c.words.length + 1), info := 0, lanes := 0, after := false } t
        | .error _ => t)
    | none => t) s

/-- The access records are issued again, in order, with their addresses checked again (R95, R189, R347). -/
def reissue (own : UnitRef → Bool) (s : State) : State :=
  let ids := (s.qs.accs.filter fun a => own a.unit).map (·.id)
  let again (y : LaneAcc) : LaneAcc := match y.st with | .failed _ | .page _ | .void => { y with st := .todo } | _ => y
  let renew (a : Access) : Access := if ids.contains a.id then { a with poison := none, lanes := a.lanes.map again } else a
  let s1 := s.setQs { s.qs with accs := s.qs.accs.map renew }
  let s2 := s1.setSyms (s1.syms.map fun y => match y.accessId? with
    | some id => if ids.contains id then { y with poison := none } else y
    | none => y)
  ids.foldl (fun t id => match t.access? id with
    | none => t
    | some a => a.lanes.zipIdx.foldl (fun t p =>
        match p.1.st, p.1.addr with
        | .todo, some va =>
          (match t.reach a.unit.cls a.unit (t.ctxOf a.unit) (t.descOf a.unit) ((a.unit.block?).getD 0) p.1.g
              (if a.unit.rank = 1 then p.1.l else 0) va p.1.size a.kind.need a.kind.isAtomic true with
           | .ok tg m => t.mapLane id p.2 fun y => { y with tgt := tg, mark := m }
           | .wait => t
           | .fault c => t.failLane a p.2 c
           | .page _ ia => t.mapLane id p.2 fun y => { y with tgt := .inter ia })
        | _, _ => t) t) s2

/-- A block's state from a frame's bytes, on a core; none while a symbol or a fetch is wanting. -/
def State.restoreFrom (s : State) (f : FrameInfo) (x : Blk) (core : Nat) (bs : List Byte) : Option State :=
  let us := unitsOf x
  let new (i : Nat) := f.item i bs
  let old (i : Nat) := f.item i f.built
  let quarter (u : UnitRef) : Nat := framedQuarter x.id (u.groupNo % 4)
  let blockQ := s.seq? (.block x.id)
  let later := (blockQ.map fun q => q.queue.drop f.queued).getD []
  let s0 := s.mapSeq (.block x.id) fun q => { q with queue := q.queue.take f.queued }
  let pcs := us.zip ((chunks 4096 us.length (new 2)).map fun r => field r 0 8)
  let s1 := (us.zip ((chunks 4096 us.length (new 2)).zip (chunks 4096 us.length (old 2)))).foldl
    (fun t p => restoreLevel p.1 (quarter p.1) p.2.1 p.2.2 t) s0
  let s2 := s1.mapSeq (.block x.id) fun q => { q with queue := q.queue ++ later }
  let slices := (List.range x.desc.groups).flatMap (slicesOf x)
  let s3 := (slices.zip (chunks 32 slices.length (new 3))).foldl (fun t p => restoreMask p.1 p.2 t) s2
  let s4 := s3.setCells (changedWords (vecKeys x) (new 4) (old 4))
  let s5 := forChanged 72 (fun y e _ t => restoreIndex y e t) (blockLanes x) (new 5) (old 5) s4
  let s6 := s5.setCells (changedWords ((blockLanes x).map fun y => RegKey.fsr y.b y.g y.l) (new 6) (old 6) ++
    changedWords (scopeKeys x) (new 7) (old 7))
  let s7 := restoreItem8 x (new 8) (old 8) s6
  let mids := s.midUnits us
  let s8 := mids.foldl (fun (p : State × Nat) u =>
    let n := 8 + 128 * (latchLanes x u).length
    (restoreLatches (latchLanes x u) u (((new 9).drop p.2).take n) (((old 9).drop p.2).take n) p.1, p.2 + n)) (s7, 0) |>.1
  let s9 := placeUnits pcs (restoreItem12 x (new 12) (old 12) s8)
  let chan := s.freeChan core
  let s10 := (s9.mapBlk x.id fun y => { y with phase := .resident, core := core, chan := chan, stop := none, hold := none,
                                               haltReq := false, frozen := false }).setFlt
    { s9.flt with frames := s9.flt.frames.filter fun g => !(g.fid == f.fid && g.ctx == f.ctx) }
  match s.placeSyms x core, s10.refetchMiss us with
  | some names, none =>
    let s11 := s10.renameSyms fun p => (lookup? p names).getD p
    some (refetchAll us (reissue (fun u => u.block? == some x.id) s11))
  | _, _ => none

/-- An upper sequencer goes on in place, from a frame's bytes (R341, R354). -/
def State.restoreUpper (s : State) (f : FrameInfo) (u : UnitRef) (bs : List Byte) : State :=
  let s1 := restoreLevel u 0 (f.item 2 bs) (f.item 2 f.built) s
  let s2 := s1.setCells (changedWords (upperKeys u) (f.item 7 bs) (f.item 7 f.built))
  let s3 := (s.midUnits [u]).foldl (fun t v => restoreLatches [noLane] v (f.item 9 bs) (f.item 9 f.built) t) s2
  let accs := s3.framedAccs fun v => v == u
  let s4 := match Item8.read 0 accs (f.item 8 bs) with
    | some i => if f.item 8 bs = f.item 8 f.built then s3 else restoreAccs 0 accs i.forms [] i.accs s3
    | none => s3
  let s5 := placeUnits [(u, field (f.item 2 bs) 0 8)] s4
  let s6 := s5.setFlt { s5.flt with
    frames := s5.flt.frames.filter fun g => !(g.fid == f.fid && g.ctx == f.ctx)
    uppers := s5.flt.uppers.filter fun p => p.1 != u }
  refetchAll [u] (reissue (fun v => v == u) s6)

/-- Whether a unit of a swapped-out block need not wait any longer: what it waits for has come, or it waits for accesses of its own,
which go on once its block is resident again (R261, R268). -/
def unitWoken (s : State) (x : Blk) (u : UnitRef) : Bool :=
  match s.seq? u with
  | none => false
  | some q =>
    !q.retired && !s.isFollower u && (match q.clause, q.park with
      | some _, .monitors ls => ls.all fun p => p.2.isSome
      | some _, .callt _ polled => polled
      | some c, .barrier tok =>
        let bar (gang : Bool) (n : Nat) : Bool :=
          let bars := if gang then ((s.gang? x.launch x.gangNo).map (·.bars)).getD [] else x.bars
          (bars.getD n Bar.zero).phase != tok
        (match (c.words[c.pos]?).map decode with
         | some (.ok (.barwait gang n _)) | some (.ok (.barsync gang n _)) => bar gang n
         | _ => true)
      | some _, .meeting | some _, .gather => false
      | none, _ => (match atHeader u q.arrive s with
        | .go _ => s.canWalk u
        | _ => true)
      | _, _ => true)

/-- A swapped-out block that is ready to be restored: its frame says so, or one of its units is woken. -/
def State.restorable (s : State) (x : Blk) (f : FrameInfo) : Bool :=
  f.ready || (f.why.preempt && (unitsOf x).any (unitWoken s x))

/-- BLOCK_RESTORE: a ready frame, once its core has room. -/
def execBlockRestore (ctx fid core : Nat) (s : State) : Host.Outcome State Fault Refusal :=
  match s.flt.frames.find? fun f => f.ctx == ctx && f.fid == fid with
  | none => .next s
  | some f =>
    match f.block.bind s.blk? with
    | none => .next s
    | some x =>
      let copies := (x.handles.map fun h => MTy.copyBytes h.ty h.k).foldl (· + ·) 0
      if x.phase != .framed || x.kill || x.cancelled || !s.restorable x f || f.held || f.frozen || f.halted || f.pageTag.isSome ||
         tillerOf core ≠ f.tiller || (f.core.isSome && f.core != some core) || !s.coreRoom x.desc core ||
         Config.tilesPerCore < s.tilesOn core + x.tiles.length || Config.operandCacheBytes < s.cacheOn core + copies then .next s
      else
        let bs : Option (List Byte) := f.image.or (match s.partAccess ctx f.addr f.size false with
          | .ok => some (s.readPages ctx (pagePieces f.addr f.size))
          | _ => none)
        match bs with
        | none => (match s.partAccess ctx f.addr f.size false with
            | .miss ia => .next (s.pageMiss ia 0).1
            | _ => .next s)
        | some bs =>
          if f.image.isNone && !s.acceptable f bs then .next s
          else match s.restoreFrom f x core bs with
            | some t => .next t
            | none => .next s

/-! ## SWAP_OUT (R152, R239, R261) -/

/-- A pre-emption; INFO 1 marks one whose frame may be restored as soon as there is room. -/
def preemption (b : Nat) (again : Bool) : FaultInfo :=
  { unit := .block b, cause := .cancel, pc := 0, addr := 0, info := again.toNat, lanes := 0, preempt := true, final := false }

/-- Pre-empts a resident block that is not already stopping (R343). -/
def State.preempt (s : State) (b : Nat) (again : Bool) : State :=
  s.mapBlk b fun x => if x.phase == .resident then { x with stop := x.stop.or (some (preemption b again)) } else x

/-- Parks that count for a swap-out (R217, R261, R268, R302). -/
def Park.parked : Park → Bool | .monitors _ | .barrier _ | .callt .. | .gather | .waiting => true | _ => false

/-- The header of a unit's own class whose WAIT counters are too high (R43, R268). -/
def State.waitsCounter (s : State) (u : UnitRef) (q : Seq) : Bool :=
  match (s.fetchWord u q.pc).toOption.bind decodeHeader with
  | none => false
  | some h => h.cls.rank == u.rank && !(s.nextDecision u q).any (fun d => d.kind matches .loopStep _) &&
      (s.groupsUnder u).any fun p => (List.range 4).any fun n => h.wait n < 3 && h.wait n < s.ctrOf p.1 p.2.1 n

/-- A sequencer that stands at a vote of a gang or grid clause (R84). -/
def atVote (u : UnitRef) (c : ClauseRun) : Bool :=
  3 < u.rank && (match (c.words[c.pos]?).map decode with
    | some (.ok (.vany ..)) | some (.ok (.vall ..)) | some (.ok (.vfirst ..)) | some (.ok (.vcount ..)) | some (.ok (.vsum ..))
    | some (.ok (.vmax ..)) => true
    | _ => false)

/-- Whether a unit between clauses waits at its header: for counters, or for a decision that a sequencer above it does not produce while
it is parked, stopped, at a vote, or at its own header in the same way (R84, R217, R261, R268, R335, DEDUCED log 146). -/
def State.headerWaits (s : State) : Nat → UnitRef → Bool
  | 0, _ => false
  | n + 1, u => match s.seq? u with
    | none => false
    | some q => q.clause.isNone && (s.waitsCounter u q ||
      (!s.canWalk u && (s.nextDecision u q).isNone && (match s.parent? u with
        | none => false
        | some p => s.flt.uppers.any (·.1 == p) || (match s.seq? p with
          | none => false
          | some r => !r.retired && (match r.clause with
            | some c => !c.ended && (r.park.parked || (r.park == .stalled && atVote p c))
            | none => s.headerWaits n p)))))

/-- The cycle since which a unit has been parked, where it is; a retired one does not count. -/
def State.unitParked (s : State) (u : UnitRef) : Option Nat :=
  match s.seq? u with
  | none => some 0
  | some q =>
    if q.retired || s.isFollower u then some 0
    else if (q.clause.any fun c => !c.ended && q.park.parked) || s.headerWaits 4 u then some q.parkAt
    else none

/-- The latest of several times, where all are given. -/
def latest (l : List (Option Nat)) : Option Nat := l.foldl (fun r o => match r, o with | some a, some c => some (max a c) | _, _ => none) (some 0)

/-- A group is parked: it waits itself, or each of its slices that has not retired does; with the cycle since which it has been. -/
def State.groupParked (s : State) (b g : Nat) : Option Nat :=
  match s.seq? (.group b g) with
  | some q => if !q.retired && q.clause.isSome && q.park.parked then some q.parkAt else latest ((s.children (.group b g)).map s.unitParked)
  | none => some 0

/-- The cycle since which all groups of a block have been parked. -/
def State.groupsParked (s : State) (x : Blk) : Option Nat := latest ((List.range x.desc.groups).map (s.groupParked x.id))

/-- The cycle since which a block has been parked, where it is: its groups, and its sequencer, which is done or waits (R261). -/
def State.blockParked (s : State) (x : Blk) : Option Nat :=
  match s.seq? (.block x.id) with
  | some q => latest [s.groupsParked x, if q.done then some 0 else s.unitParked (.block x.id)]
  | none => none

/-- A matrix write that waits for a tile, since when (R152). -/
def State.tileWaits (s : State) (x : Blk) : Option Nat :=
  (s.seq? (.block x.id)).bind fun q => if q.park == .tiles then some q.parkAt else none

/-- A waiting holder of tiles: since when (R152). -/
def State.waitingHolder (s : State) (x : Blk) : Option Nat := if x.tiles.isEmpty then none else (s.tileWaits x).or (s.groupsParked x)

/-- Whether some block waits for room: tickets not dispensed, a swapped-out block that is ready again, or one that a cancel restores
(R261, R324). -/
def State.someWaits (s : State) (tiller : Nat) : Bool :=
  (s.work.entries.any fun e => !e.final && (e.st == .ready || e.st == .active) && s.undispensed e.idx) ||
    s.flt.frames.any fun f => f.tiller == tiller && (match f.block.bind s.blk? with
      | some x => x.cancelled || s.restorable x f
      | none => false)

def execSwapOut (b : Nat) (s : State) : Host.Outcome State Fault Refusal :=
  match s.blk? b with
  | none => .next s
  | some x =>
    let late (t : Nat) : Bool := t + 16 * (s.cr x.ctx 0x20).toNat < s.env.cycle || (s.cr x.ctx 0x20).toNat == 0
    let holders := (s.onCore x.core).filter fun y => !y.tiles.isEmpty
    let parked := (match s.blockParked x with | some t => late t | none => false) && s.someWaits (tillerOf x.core)
    let tile := holders.all (fun y => (s.waitingHolder y).isSome) &&
      holders.any (fun y => match s.waitingHolder y with | some t => t + 16 * (s.cr y.ctx 0x20).toNat < s.env.cycle | none => false) &&
      !x.tiles.isEmpty && holders.all fun y => y.index ≤ x.index
    if x.phase == .resident && x.stop.isNone && !x.cancelled && !x.frozen && (parked || tile) then .next (s.preempt b tile) else .next s

/-! ## `trap`, `brk` (R353) -/

def trapBody (c : Cause) (imm : BitVec 22) (h : Here) (s : State) : Body :=
  if h.isSlice then
    let act := h.active s
    if act = [] then .ok s
    else .error (.trap { cause := c, addr := 0, info := imm.toNat, lanes := laneMask act, after := true })
  else .error (.trap { cause := c, addr := 0, info := imm.toNat, lanes := 0, after := true })

def execTrap (imm : BitVec 22) (s : State) : Host.Outcome State Fault Refusal := runInstr (trapBody .syscall imm) s
def execBrk (imm : BitVec 22) (s : State) : Host.Outcome State Fault Refusal := runInstr (trapBody .brk imm) s

/-! ## `eret` (R354) -/

/-- The destination of an S-format instruction: it is always written (R352). -/
def sOut (d : Dst) : Out := ⟨d, false⟩

/-- A frame as ordinary loads of the issuing unit read it. -/
def loadFrame (h : Here) (va n : Nat) (s : State) : Except Stop (List Byte) :=
  let ps := pagePieces va n
  let bad := ps.findSome? fun p => match s.reach h.cls h.u h.ctx h.desc h.b 0 0 p.1 p.2 .r false false with
    | .ok .. => none
    | .wait => some (Stop.stay s)
    | .fault c => some (.trap { cause := c, addr := p.1, info := openInfo p.1 false, lanes := 0, after := false })
    | .page _ ia => some (.stay (takeFault h.u h.pc { cause := .page, addr := p.1, info := openInfo p.1 false, lanes := 0, after := false }
        (s.pageMiss ia 0).1))
  match bad with
  | some e => .error e
  | none =>
    if ps.any fun p => match s.vaKey h.ctx p.1 false with | some k => s.holed k p.2 || s.heldPage k | none => true then waitHere s
    else .ok (s.readPages h.ctx ps)

/-- Changes a word of a frame's header, in the part's copy too. -/
def State.patchHeader (s : State) (f : FrameInfo) (off : Nat) (w : Nat) : State :=
  let put (x : FrameInfo) : FrameInfo := if x.fid = f.fid ∧ x.ctx = f.ctx then { x with header := splice off (leBytes 4 w) x.header } else x
  (s.setFlt { s.flt with frames := s.flt.frames.map put }).pokeVa f.ctx (f.addr + off) (leBytes 4 w)

/-- A frame's mark changes, in its header too and in the part's copy of it (R344, R348). -/
def State.markFrame (s : State) (f : FrameInfo) (g : FrameInfo → FrameInfo) : State :=
  let f1 := g f
  let flags := frameFlags f.upper.isSome (bitsOf (field f.header 12 4) 1 1 == 1) f1.faulted f1.frozen f1.held f1.halted
  let put (x : FrameInfo) : FrameInfo := if x.fid = f.fid ∧ x.ctx = f.ctx then f1 else x
  let s1 := s.setFlt { s.flt with frames := s.flt.frames.map put }
  if field f.header 12 4 = flags then s1 else s1.patchHeader f 12 flags

/-- The launch that a frame belongs to. -/
def State.frameLaunch (s : State) (f : FrameInfo) : Option Nat :=
  match f.block, f.upper with
  | some b, _ => (s.blk? b).map (·.launch)
  | none, some u => some (s.launchOf u)
  | none, none => none

/-- Kills a frame: its block retires as for CANCEL, an upper sequencer ends where it stands, and its launch is hard-cancelled (R354). -/
def State.killFrame (s : State) (f : FrameInfo) : State :=
  let l := s.frameLaunch f
  let s1 := match f.block, f.upper with
    | some b, _ => s.killBlock b
    | none, some u => (s.setFlt { s.flt with uppers := s.flt.uppers.filter fun p => p.1 != u }).mapSeq u fun q =>
        { q with retired := true, clause := none, park := .none }
    | none, none => s
  let s2 := s1.setFlt { s1.flt with frames := s1.flt.frames.filter fun g => !(g.fid == f.fid && g.ctx == f.ctx) }
  match l with | some l => s2.cancelEntry true l | none => s2

/-- A frame becomes ready with the bytes that were read; an upper sequencer goes on in place. -/
def State.resumeFrame (s : State) (f : FrameInfo) (bs : List Byte) : State :=
  match f.upper with
  | some u => s.restoreUpper f u bs
  | none =>
    let mark (x : FrameInfo) : FrameInfo :=
      if x.fid = f.fid ∧ x.ctx = f.ctx then { x with ready := true, image := some bs, pageTag := none } else x
    s.setFlt { s.flt with frames := s.flt.frames.map mark }

/-- A frame that waits to be restored as it was read: later writes to it have no effect (R354, DEDUCED log 148). -/
def FrameInfo.accepted (f : FrameInfo) : Bool := f.ready && f.image.isSome

def eretBody (d : Dst) (frame : Src) (kill : Bool) (h : Here) (s : State) : Body := do
  let ns ← upNums h s [(frame, .addr)]
  readyResult h s (sOut d)
  memBars h s false false
  if !s.atHead h.u then waitHere s
  else
    let va := ns.headD 0
    let answer (v : Nat) : State := writeOne h (sOut d) v s
    match s.flt.frames.find? fun f => f.ctx == h.ctx && f.addr == va with
    | none => .ok (answer 1)
    | some f =>
      if f.frozen || f.halted || f.held then .ok (answer 4)
      else if f.accepted then .ok (if kill then (answer 0).killFrame f else answer 0)
      else do
        let bs ← loadFrame h va f.size s
        if !s.acceptable f bs then .ok (answer 2)
        else if kill then .ok ((answer 0).killFrame f)
        else .ok ((answer 0).resumeFrame f bs)

def execEret (d : Dst) (frame : Src) (s : State) : Host.Outcome State Fault Refusal := runInstr (eretBody d frame false) s
def execEretKill (d : Dst) (frame : Src) (s : State) : Host.Outcome State Fault Refusal := runInstr (eretBody d frame true) s

/-! ## `mfcr`, `mtcr` (R60, R349, R350, R355) -/

/-- `cr.seqst` of a unit (R60). -/
def State.seqst (s : State) (u : UnitRef) : Nat :=
  match s.seq? u with
  | none => 0
  | some q =>
    let slice := u.rank == 1
    packBits [(1, q.re.isSome.toNat), (5, (s.waiting u q).length), (4, q.loops.length), (6, q.calls.length), (5, if slice then 0 else q.ring.length),
              (5, if slice then q.mstack.length else 0), (1, (slice && q.parted).toNat)]

/-- The context whose register an access reaches (R350). -/
def State.crCtx (s : State) (ctx n : Nat) : Nat :=
  let sel := (s.cr ctx 0x3).toNat
  if n = 0x1 ∨ n = 0x3 then ctx else if bitsOf sel 31 1 = 1 then sel % 64 else ctx

/-- The value of a register other than `cr.seqst`. -/
def State.crRead (s : State) (h : Here) (n : Nat) : Nat :=
  let c := s.crCtx h.ctx n
  match n with
  | 0x001 => (s.ctx c).sys.toNat * 2 ^ 31 + c % 64
  | 0x002 => s.ucver.toNat
  | 0x004 => s.env.cycle % 2 ^ 32
  | 0x005 => s.env.cycle / 2 ^ 32 % 2 ^ 32
  | 0x010 => (match s.blk? h.b with | some x => if h.u.rank ≤ 3 then x.merrWord else s.nextFree % 2 ^ 32 | none => s.nextFree % 2 ^ 32)
  | 0x011 => (match s.blk? h.b with | some x => if h.u.rank ≤ 3 then x.eng else s.nextFree % 2 ^ 32 | none => s.nextFree % 2 ^ 32)
  | 0x012 => (s.ctx c).pool.length % 2 ^ 16 * 2 ^ 16 + (s.ctx c).shadow.length % 2 ^ 16
  | _ => (s.cr c n).toNat

/-- Whether a read gives an open value: a block's register, read where there is no block (DESIGN CHOICE log 20). -/
def crOpen (h : Here) (n : Nat) : Bool := (n == 0x010 || n == 0x011) && 3 < h.u.rank

def mfcrBody (d : Dst) (n : Nat) (h : Here) (s : State) : Body := do
  readyResult h s (sOut d)
  let v := s.crRead h n
  if h.isSlice then
    let act := h.active s
    .ok (s.writeLanes h (sOut d) false (h.lanes s) fun x => if act.contains x then
      some (knownCells false (if n = 0 then s.seqst (.slice x.b x.g (x.l / 4)) else v)) else none)
  else
    let t := writeOne h (sOut d) (if n = 0 then s.seqst h.u else v) s
    .ok (if crOpen h n then t.spendFree else t)

def execMfcr (d : Dst) (n : Nat) (s : State) : Host.Outcome State Fault Refusal := runInstr (mfcrBody d n) s

/-- The bits of a register that a write sets (R6, R183, R184, R192, R193, R262, R280, R349, R350). -/
def crMask (n : Nat) : Nat :=
  match n with
  | 0x003 => 0x8000003F
  | 0x020 => 0x000FFFFF
  | 0x021 => 0x0001FFFF
  | 0x030 => 0x0FFF0FFF
  | 0x031 => 0x8000FFFF
  | 0x032 => 0x0000FFFF
  | 0x033 => 0xFFFFFFFF
  | 0x040 => 0xFFFFF000
  | 0x041 | 0x044 => 0x01FFFFFF
  | 0x042 => 0x8000000F
  | 0x043 => 0xFFFF0000
  | 0x045 => 0x0000FFFF
  | _ => 0

/-- Registers that only a system context may write (R349). -/
def crSystem (n : Nat) : Bool := n == 0x003 || n == 0x020 || (0x030 ≤ n && n ≤ 0x033) || (0x040 ≤ n && n ≤ 0x045)

def State.crWrite (s : State) (ctx n v : Nat) : State :=
  if crMask n = 0 then s
  else s.mapCtx (s.crCtx ctx n) fun c => { c with crs := assign n (BitVec.ofNat 32 (v &&& crMask n)) c.crs }

/-- The value that `mtcr` writes; none where no lane of a slice clause executes. -/
def mtcrValue (h : Here) (s : State) (a : Src) : Except Stop (Option Nat) :=
  if h.isSlice then do
    if h.boundsOk (srcRegs [(a, .w32)]) then .ok () else .error (trapC .regbound)
    let xs ← laneAddrs h s 7 [(a, .w32)]
    match xs with
    | [] => .ok none
    | x :: r =>
      let diff := r.filter fun p => p.2 != x.2
      if diff ≠ [] then .error (trapL .nonuniform (diff.map (·.1))) else .ok (x.2.head?)
  else do
    let ns ← upNums h s [(a, .w32)]
    .ok ns.head?

def mtcrBody (n : Nat) (a : Src) (h : Here) (s : State) : Body := do
  match ← mtcrValue h s a with
  | none => .ok s
  | some v =>
    if crSystem n && !(s.ctx h.ctx).sys then .error (trapC .priv)
    else if !s.allPerformed h.u then waitHere s
    else .ok (s.crWrite h.ctx n v)

def execMtcr (n : Nat) (a : Src) (s : State) : Host.Outcome State Fault Refusal := runInstr (mtcrBody n a) s

/-! ## `csave`, `crest` (R356) -/

def needSys (h : Here) (s : State) : Except Stop Unit := if (s.ctx h.ctx).sys then .ok () else .error (trapC .priv)

/-- The block that a launch handle and an index name in a context. -/
def State.blockNamed (s : State) (ctx handle index : Nat) : Option Blk :=
  (s.named ctx (handle % 65536)).bind fun e => s.blks.find? fun x => x.launch == e.idx && x.index == index && x.phase != .retired && !x.kill

def csaveBody (d : Dst) (blk : Src) (h : Here) (s : State) : Body := do
  let ns ← upNums h s [(blk, .addr)]
  readyResult h s (sOut d)
  needSys h s
  let v := ns.headD 0
  match s.blockNamed h.ctx (v % 2 ^ 32) (v / 2 ^ 32) with
  | none => .ok (writeOne h (sOut d) 0xFFFFFFFF s)
  | some x =>
    match x.phase, s.frameOf x.id with
    | .framed, some f => .ok (writeOne h (sOut d) f.fid (s.markFrame f fun g => { g with held := true, ready := false }))
    | .resident, _ =>
      parkHere h .waiting ((s.preempt x.id false).mapBlk x.id fun y => { y with hold := some h.b })
    | _, _ => waitHere s

def execCsave (d : Dst) (blk : Src) (s : State) : Host.Outcome State Fault Refusal := runInstr (csaveBody d blk) s

/-- What the part reads of a frame for `crest` and `thaw`: its bytes, or why they cannot be read (R356, R357, R366). -/
def State.partFrame (s : State) (f : FrameInfo) : Except PartAccess (List Byte) :=
  match s.partAccess f.ctx f.addr f.size false with
  | .ok => if (pagePieces f.addr f.size).any fun p => (s.vaKey f.ctx p.1 false).any fun k => s.holed k p.2 then .error .held
           else .ok (s.readPages f.ctx (pagePieces f.addr f.size))
  | e => .error e

/-- The bytes of a frame, once they can be read: its instruction waits for a missing page or for what holds it back; none where the
context may not read them. -/
def readFrame (f : FrameInfo) (s : State) : Except Stop (Option (List Byte)) :=
  match s.partFrame f with
  | .ok bs => .ok (some bs)
  | .error (.miss ia) => .error (.stay (s.pageMiss ia 0).1)
  | .error .refused => .ok none
  | .error _ => waitHere s

def crestBody (d : Dst) (fid : Src) (core : Nat) (any : Bool) (h : Here) (s : State) : Body := do
  let ns ← upNums h s [(fid, .w32)]
  readyResult h s (sOut d)
  needSys h s
  let answer (v : Nat) (t : State) : State := writeOne h (sOut d) v t
  match s.flt.frames.find? fun f => f.ctx == h.ctx && f.fid == ns.headD 0 && f.held with
  | none => .ok (answer 1 s)
  | some f => do
    match ← readFrame f s with
    | none => .ok (answer 2 s)
    | some bs =>
      if !s.acceptable f bs then .ok (answer 2 s)
      else if !any && 7 < core then .ok (answer 3 s)
      else .ok (answer 0 (s.markFrame f fun g =>
        { g with held := false, ready := true, image := some bs, core := if any then none else some (f.tiller * 8 + core) }))

def execCrest (d : Dst) (fid : Src) (core : Nat) (any : Bool) (s : State) : Host.Outcome State Fault Refusal :=
  runInstr (crestBody d fid core any) s

/-! ## `freeze`, `thaw`, `halt` (R342, R357) -/

/-- Fields of a master word. -/
def masterKill (w : Nat) : Bool := bitsOf w 31 1 == 1
def masterKind (w : Nat) : Nat := bitsOf w 24 7
def masterIndex (w : Nat) : Nat := bitsOf w 0 24

/-- The resident block whose channel an index names. -/
def State.chanBlock (s : State) (i : Nat) : Option Blk :=
  s.blks.find? fun x => x.phase == .resident && x.core == i / 16 && x.chan == i % 16

/-- Every job of the named contexts is hard-cancelled (R324). -/
def State.cancelJobs (s : State) (hit : Nat → Bool) : State :=
  ((s.work.entries.filter fun e => e.kind == .job && !e.final && hit e.ctx).map (·.idx)).foldl (fun t i => t.cancelEntry true i) s

/-- A function-level reset (R371). -/
def State.resetFn (s : State) (fn : Nat) : State :=
  let s1 := s.cancelJobs fun c => (s.ctx c).fn == fn
  let s2 := s1.setCtxs (s1.ctxs.map fun c => if c.fn = fn then { c with ranges := [], staged := [] } else c)
  s2.setFlt { s2.flt with frozenFns := s2.flt.frozenFns.erase fn }

/-- `freeze`: status and state. -/
def freezeStep (ctx w : Nat) (s : State) : State × Nat :=
  let i := masterIndex w
  if masterKill w then (s, 1)
  else match masterKind w with
  | 0 => (match s.flt.frames.find? fun f => f.ctx == ctx && f.fid == i && f.held with
      | none => (s, 1)
      | some f => if f.frozen then (s, 2) else (s.markFrame f fun g => { g with frozen := true }, 0))
  | 1 => (match s.chanBlock i with
      | none => (s, 1)
      | some x => if x.frozen then (s, 2) else (s.mapBlk x.id fun y => { y with frozen := true }, 0))
  | 2 =>
    if 32 < i then (s, 1)
    else if s.flt.frozenFns.contains i then (s, 2) else (s.setFlt { s.flt with frozenFns := s.flt.frozenFns ++ [i] }, 0)
  | 3 =>
    if 24 ≤ i then (s, 1)
    else if s.flt.frozenLinks.contains i then (s, 2) else (s.setFlt { s.flt with frozenLinks := s.flt.frozenLinks ++ [i] }, 0)
  | 4 => if i ≠ 0 then (s, 1) else if s.flt.frozenMgmt then (s, 2) else (s.setFlt { s.flt with frozenMgmt := true }, 0)
  | _ => (s, 1)

/-- A thawed frame: it resumes from the bytes that stand in memory. -/
def State.thawFrame (s : State) (f : FrameInfo) : State :=
  let s1 := s.markFrame f fun g => { g with frozen := false }
  match s1.flt.frames.find? fun g => g.fid == f.fid && g.ctx == f.ctx with
  | none => s1
  | some g => match s1.partFrame g with
    | .ok bs => if s1.acceptable g bs && !g.held && !g.halted then s1.resumeFrame g bs else s1
    | .error _ => s1

/-- A context's halt is over: its frames lose HALTED, and those that only halting had stopped are ready (R357). -/
def State.unhalt (s : State) (ctx : Nat) : State :=
  let s1 := s.mapCtx ctx fun c => { c with halted := false }
  let s2 := s1.setBlks (s1.blks.map fun x =>
    if x.ctx = ctx ∧ x.haltReq then
      { x with haltReq := false, frozen := (if x.phase == .framed then false else x.frozen)
               stop := if (match x.stop with | some i => i.preempt | none => false) then none else x.stop }
    else x)
  let s3 := (s2.flt.frames.filter fun f => f.ctx == ctx && f.halted).foldl (fun t f =>
    t.markFrame f fun g => { g with halted := false, ready := g.ready || !g.faulted }) s2
  (s3.flt.frames.filter fun f => f.ctx == ctx && f.upper.isSome && !f.faulted && f.pageTag.isNone).foldl (fun t f =>
    match t.partFrame f with
    | .ok bs => if t.acceptable f bs then t.resumeFrame f bs else t
    | .error _ => t) s3

/-- The management controller restarts from its current image: the operation in progress is given up, and the service block's
registers stand as after reset (R357, DESIGN CHOICE log 145). -/
def State.restartMgmt (s : State) : State :=
  let s1 := match s.svc.busy with
    | some (k, i, back) =>
      let t := s.setHealth k i { s.healthOf k i with dstate := if k = 0 then 0 else back }
      if k = 3 then t.setChip { t.chip with linksUp := t.chip.linksUp ||| BitVec.ofNat 24 (2 ^ i) } else t
    | none => s
  (s1.setSvc { s1.svc with busy := none, arg := 0, status := 0 }).setFlt { s1.flt with frozenMgmt := false }

/-- `thaw`: status and state. -/
def thawStep (ctx w : Nat) (s : State) : State × Nat :=
  let i := masterIndex w
  let kill := masterKill w
  match masterKind w with
  | 0 => (match s.flt.frames.find? fun f => f.ctx == ctx && f.fid == i with
      | none => (s, 1)
      | some f => if !f.frozen then (s, 2) else (if kill then s.killFrame f else s.thawFrame f, 0))
  | 1 => (match s.chanBlock i with
      | none => (s, 1)
      | some x => if !x.frozen then (s, 2) else (if kill then s.killChannel x.id else s.thawChannel x.id, 0))
  | 2 =>
    if 32 < i then (s, 1)
    else if !s.flt.frozenFns.contains i then (s, 2)
    else (if kill then s.resetFn i else s.setFlt { s.flt with frozenFns := s.flt.frozenFns.erase i }, 0)
  | 3 =>
    if 24 ≤ i then (s, 1)
    else if !s.flt.frozenLinks.contains i then (s, 2)
    else
      let s1 := s.setFlt { s.flt with frozenLinks := s.flt.frozenLinks.erase i }
      (if kill then s1.setChip { s1.chip with linksUp := s1.chip.linksUp ||| BitVec.ofNat 24 (2 ^ i) } else s1, 0)
  | 4 => if i ≠ 0 then (s, 1) else if !s.flt.frozenMgmt then (s, 2)
    else (if kill then s.restartMgmt else s.setFlt { s.flt with frozenMgmt := false }, 0)
  | 5 =>
    if 64 ≤ i ∨ !(s.ctx i).valid then (s, 1)
    else if !(s.ctx i).halted then (s, 2)
    else (if kill then (s.unhalt i).cancelJobs (· == i) else s.unhalt i, 0)
  | _ => (s, 1)

/-- Stops a context: nothing is dispensed, and its blocks other than the issuing one are pre-empted with HALTED (R357). -/
def State.haltCtx (s : State) (ctx b : Nat) : State :=
  let s1 := s.mapCtx ctx fun c => { c with halted := true }
  let s2 := s1.setBlks (s1.blks.map fun x =>
    if x.ctx = ctx ∧ x.phase == .resident ∧ x.id ≠ b then { x with haltReq := true, stop := x.stop.or (some (preemption x.id false)) } else x)
  (s2.flt.frames.filter fun f => f.ctx == ctx).foldl (fun t f => t.markFrame f fun g => { g with halted := true, pageTag := none }) s2

/-- Every other block's frame has been built; a block with a frozen channel is not waited for. -/
def State.haltDone (s : State) (ctx b : Nat) : Bool :=
  s.blks.all fun x => x.ctx != ctx || x.id == b || x.phase != .resident || x.frozen

/-- `thaw` of a frame waits until the frame can be read. -/
def thawCheck (ctx w : Nat) (s : State) : Except Stop Unit :=
  if masterKind w ≠ 0 ∨ masterKill w then .ok ()
  else match s.flt.frames.find? fun f => f.ctx == ctx && f.fid == masterIndex w with
    | some f => if f.frozen then (readFrame f s).map fun _ => () else .ok ()
    | none => .ok ()

/-- `freeze` and `thaw` of one master. -/
def masterBody (d : Dst) (m : Src) (check : Nat → Nat → State → Except Stop Unit) (f : Nat → Nat → State → State × Nat) (h : Here) (s : State) :
    Body := do
  let ns ← upNums h s [(m, .w32)]
  readyResult h s (sOut d)
  needSys h s
  check h.ctx (ns.headD 0) s
  let v := (f h.ctx (ns.headD 0) s).2
  .ok (f h.ctx (ns.headD 0) (writeOne h (sOut d) v s)).1

def execFreeze (d : Dst) (m : Src) (s : State) : Host.Outcome State Fault Refusal := runInstr (masterBody d m (fun _ _ _ => .ok ()) freezeStep) s
def execThaw (d : Dst) (m : Src) (s : State) : Host.Outcome State Fault Refusal := runInstr (masterBody d m thawCheck thawStep) s

def haltBody (d : Dst) (m : Src) (h : Here) (s : State) : Body := do
  let ns ← upNums h s [(m, .w32)]
  readyResult h s (sOut d)
  needSys h s
  let w := ns.headD 0
  let i := masterIndex w
  let finishHalt (t : State) : State :=
    let t1 := writeOne h (sOut d) 0 t
    if i = h.ctx then t1.mapBlk h.b fun x => { x with haltReq := true, stop := x.stop.or (some (preemption h.b false)) } else t1
  if masterKill w || masterKind w ≠ 5 || 64 ≤ i || !(s.ctx i).valid then .ok (writeOne h (sOut d) 1 s)
  else if (s.ctx i).halted then
    if h.q.park == .waiting then (if s.haltDone i h.b then .ok (finishHalt s) else waitHere s)
    else .ok (writeOne h (sOut d) 2 s)
  else
    let t := s.haltCtx i h.b
    if t.haltDone i h.b then .ok (finishHalt t) else parkHere h .waiting t

def execHalt (d : Dst) (m : Src) (s : State) : Host.Outcome State Fault Refusal := runInstr (haltBody d m) s

end Sys2Proof.Machine
end

