-- ==== Sys2Proof/Machine/Xlat.lean ====
section
/-! DEFINITION. Translation, host and peers: the driver's commands, range registers and the context table, the SRAM division,
the host's apertures and its coherent link, and the links to other chips (17_translation_outside R359 to R383). -/

namespace Sys2Proof.Machine

/-- A request of the physical function; while it is frozen, its requests are completed with completer abort (R342). -/
def pfRequest (s : State) (f : State → State) : Host.Outcome State Fault Refusal :=
  if s.flt.frozenFns.contains 0 then .next (s.setEnv { s.env with aborted := true })
  else .next (f (s.setEnv { s.env with aborted := false }))

/-- A request of a host function; while it is frozen, its requests are completed with completer abort (R342). -/
def fnRequest (fn : Nat) (s : State) (f : State → State) : Host.Outcome State Fault Refusal :=
  if s.flt.frozenFns.contains fn then .next (s.setEnv { s.env with aborted := true })
  else .next (f (s.setEnv { s.env with aborted := false }))

/-! ## What a page of an aperture access finds (R361, R374) -/

/-- A byte of M, a page that is held back, a missing mapping, or a violation. -/
inductive ApPage | key (k : Nat) | wait (ia : Nat) | miss (ia : Nat) | bad (c : Cause)
  deriving DecidableEq, Repr

/-- The translation of an aperture access that has passed its range check. -/
def State.apLeaf (s : State) (ia : Nat) (write : Bool) : ApPage :=
  if s.heldIa ia then .wait ia
  else match s.stage2 ia with
    | .missing | .malformed => .miss ia
    | .leaf pa wp _ _ =>
      if write && wp then .bad .prot
      else if !s.ownChip pa || Config.hostWindow ≤ localOf pa then .bad .isolation
      else .key (localOf pa)

def State.apPage (s : State) (ctx va : Nat) (write : Bool) : ApPage :=
  if dieBase ≤ va then .bad .range
  else match s.stage1 ctx va with
  | none => .bad .range
  | some (r, ia) => if (write && !rightW r) || (!write && !rightR r) then .bad .prot else s.apLeaf ia write

/-- A violation of a host function: the record, the freeze and the completer abort (R342). -/
def apViolation (fn ctx va : Nat) (c : Cause) (s : State) : State :=
  (s.bump.addRecord (s.masterRecord ctx c va (masterWord 2 fn))).freezeFn fn

/-- An aperture access waits for the driver. -/
def apMiss (fn va ia : Nat) (write : Bool) (s : State) : State :=
  let (s1, tag) := s.pageMiss ia write.toNat
  let note (p : PageReq) : PageReq := if p.tag = tag ∧ !p.fns.contains (fn, va) then { p with fns := p.fns ++ [(fn, va)] } else p
  s1.setQs { s1.qs with pages := s1.qs.pages.map note }

def State.pushIn (s : State) (e : InEntry) : State := s.setQs { s.qs with inb := s.qs.inb ++ [e] }

/-- Tries a waiting entry of I(r) again: its range check stands, and its translation is made now (R361, R374). -/
def retryEntry (s : State) (e : InEntry) : State :=
  match e.wait with
  | none => s.pushIn e
  | some (fn, va) => match s.apLeaf e.key true with
    | .key k => s.pushIn { e with key := k, wait := none }
    | .wait _ => s.pushIn e
    | .miss ia => (apMiss fn va ia true s).pushIn e
    | .bad c => apViolation fn (e.ctx.getD 0) va c s

/-- Whatever waited for a page or for what held one back is tried again: posted writes in their places, and STATUS words. -/
def State.retryWaiting (s : State) : State :=
  (s.qs.inb.foldl retryEntry (s.setQs { s.qs with inb := [] })).flushPosts

/-- BIAS_FLIP: the unit's flip takes place in one step. -/
def execBiasFlip (u : UnitRef) (s : State) : Host.Outcome State Fault Refusal :=
  match s.qs.flips.find? fun f => f.unit == u with
  | none => .next s
  | some f =>
    let s1 := (s.setBias f.page f.toDev).setQs { (s.setBias f.page f.toDev).qs with flips := s.qs.flips.filter (· != f) }
    .next ((s1.mapSeq u fun q => match q.park with
      | .flips l => { q with park := .flips (assign f.lane (some 0) l) }
      | _ => q).retryWaiting)

/-! ## RESOLVE (R341, R366) -/

/-- Lanes that wait for a page try again, or fail with PAGE. -/
def answerLanes (tag : Nat) (ok : Bool) (s : State) : State :=
  s.qs.accs.foldl (fun t a => a.lanes.zipIdx.foldl (fun t p =>
    if p.1.st = .page tag then
      (if ok then t.mapLane a.id p.2 fun y => { y with st := .todo } else t.failLane a p.2 .page)
    else t) t) s

/-- A frame that waits for a page: ready, or given its PAGE record. -/
def answerFrame (ok : Bool) (s : State) (f : FrameInfo) : State :=
  if ok then
    match f.upper with
    | some u => s.restoreUpper f u f.built
    | none => s.markFrame f fun g => { g with pageTag := none, ready := true }
  else
    let i := { f.why with final := true }
    let s1 := s.markFrame f fun g => { g with pageTag := none, faulted := true, ready := false, why := i }
    let what := match f.upper, f.block.bind s.blk? with
      | some u, _ => whatWord .page (s.infoGrade i) u.rank true
      | none, some _ => whatWord .page (s.infoGrade i) i.unit.rank false
      | none, none => 0
    let s2 := match s1.flt.frames.find? fun g => g.fid == f.fid && g.ctx == f.ctx with
      | some g => s1.patchHeader g 44 what
      | none => s1
    match f.upper, f.block.bind s.blk? with
    | some u, _ => s2.addRecord (s2.upperRecord u i (some f.fid))
    | none, some x => s2.addRecord (s2.blockRecord x i (some f.fid))
    | none, none => s2

/-- The aperture accesses that wait for an unmappable page freeze their functions (R374). -/
def refuseFns (p : PageReq) (s : State) : State :=
  p.fns.foldl (fun t q => (t.bump.addRecord (t.masterRecord p.ctx .page q.2 (masterWord 2 q.1))).freezeFn q.1) s

/-- The driver's answer to a page request. -/
def answerPage (p : PageReq) (ok : Bool) (s : State) : State :=
  let s1 := s.setQs { s.qs with pages := s.qs.pages.filter fun q => q.tag != p.tag }
  let s2 := (answerLanes p.tag ok s1).answerCmds p.tag ok
  let s3 := (s2.flt.frames.filter fun f => f.pageTag == some p.tag).foldl (answerFrame ok) s2
  if ok then s3.retryWaiting
  else
    let stopping (x : Blk) (i : FaultInfo) : Bool := i.cause == .page && s.pageTagOf x.ctx i.addr == some p.tag
    let s4 := s3.setBlks (s3.blks.map fun x => { x with stop := x.stop.map fun i => if stopping x i then { i with final := true } else i })
    let s5 := s4.setQs { s4.qs with inb := s4.qs.inb.filter fun e => !(e.wait.isSome && e.key / 65536 == p.page) }
    (((refuseFns p s5).refuseFrames p.page).refuseRecords p.page).refusePosts p.page

/-- RESOLVE: TAG in bits [31:1], bit 0 the answer. -/
def execResolve (v : BitVec 32) (s : State) : Host.Outcome State Fault Refusal :=
  pfRequest s fun s => match s.qs.pages.find? fun p => p.tag == v.toNat / 2 && p.written with
    | none => s
    | some p =>
      let ok := v.toNat % 2 == 0
      if ok && p.malformed then s else answerPage p ok s

/-! ## Stage-2 commands (R368, R369) -/

/-- Bits [31:8] of CMD: CTX, LEVEL, WP, and bits that must be zero. -/
def cmdCtx (c : BitVec 24) : Nat := bitsOf c.toNat 0 6
def cmdLevel (c : BitVec 24) : Nat := bitsOf c.toNat 6 2
def cmdWp (c : BitVec 24) : Bool := c.getLsbD 8
def cmdBad (c : BitVec 24) : Bool := bitsOf c.toNat 9 15 != 0 || cmdLevel c == 0

/-- A command ends with a status. -/
def State.s2Done (s : State) (n : Nat) : State := s.setChip { s.chip with s2busy := none, s2status := n }

/-- Runs a command unless one is executing. -/
def stage2 (cmd : BitVec 24) (s : State) (f : State → State) : Host.Outcome State Fault Refusal :=
  pfRequest s fun s => if s.chip.s2busy.isSome then s else if cmdBad cmd then s.s2Done 7 else f s

/-- What stands in the entry of a level: where, and its bits; or a leaf on the way, or no table. -/
inductive EntryAt | at_ (pa e : Nat) | leafAbove | noTable
  deriving DecidableEq, Repr

def State.isTable (s : State) (pa : Nat) : Bool :=
  s.ownChip pa && isPackage (localOf pa) && frameState (s.frameWord (localOf pa / 65536)) == fsTable

def State.entryFrom (s : State) (ia level : Nat) : Nat → Nat → Nat → EntryAt
  | 0, _, _ => .noTable
  | fuel + 1, lv, tbl =>
    if !s.isTable tbl then .noTable
    else
      let p := tbl + 8 * levelIndex ia lv
      let e := s.readNat (s.keyOf p) 8
      if lv = level then .at_ p e
      else if bitsOf e 63 1 = 0 then .noTable
      else if bitsOf e 62 1 = 1 then .leafAbove
      else if !entryOk e lv then .noTable
      else s.entryFrom ia level fuel (lv + 1) (bitsOf e 16 41 * 65536 + bitsOf e 13 3 * 8192)

def State.entryAt (s : State) (ctx ia level : Nat) : EntryAt := s.entryFrom ia level 3 1 ((s.ctx ctx).root * 65536)

def validLeaf (e : Nat) : Bool := bitsOf e 63 1 == 1 && bitsOf e 62 1 == 1

/-- A physical address that MAP may name at all (R368, R380). -/
def mappable (pa : Nat) : Bool :=
  pa < 2 ^ 57 && (localOf pa < Config.packageBytes || Config.hostWindow ≤ localOf pa)

/-- Frames of a run of bytes of package memory. -/
def framesOf (loc n : Nat) : List Nat := (List.range (n / 65536)).map fun i => loc / 65536 + i

/-- MAP. -/
def mapStep (cmd : BitVec 24) (s : State) : State :=
  let ctx := cmdCtx cmd
  let lv := cmdLevel cmd
  let n := levelBytes lv
  let ia := s.chip.arg0.toNat
  let pa := s.chip.arg1.toNat
  let own := s.ownChip pa
  let host := Config.hostWindow ≤ localOf pa
  let frames := if own && !host then framesOf (localOf pa) n else []
  let full := ctx * 2 ^ 46 + ia % 2 ^ 46
  if !mappable pa || (!own && host) then s.s2Done 7
  else if ia % n ≠ 0 ∨ pa % n ≠ 0 then s.s2Done 2
  else if own && !host && Config.packageBytes < localOf pa + n then s.s2Done 7
  else if (own && host && !(s.ctx ctx).host) || (!own && !(s.ctx ctx).peer) then s.s2Done 5
  else match s.entryAt ctx full lv with
    | .noTable => s.s2Done 6
    | .leafAbove => s.s2Done 4
    | .at_ p e =>
      if bitsOf e 63 1 = 1 then s.s2Done 4
      else if frames.any fun f => frameState (s.frameWord f) != fsClean then s.s2Done 1
      else if !frames.isEmpty && homeDie full != homeDie (localOf pa) then s.s2Done 3
      else
        let e' := 2 ^ 63 + 2 ^ 62 + (cmdWp cmd).toNat * 2 ^ 61 + pa / 65536 % 2 ^ 41 * 65536
        let s1 := frames.foldl (fun t f => t.setFrame f (mkFrameWord fsMapped false 0 ctx)) s
        ((s1.pokeRaw (s1.keyOf p) (leBytes 8 e')).dropStale (· == s1.keyOf p)).s2Done 0

def execS2Map (cmd : BitVec 24) (s : State) : Host.Outcome State Fault Refusal := stage2 cmd s (mapStep cmd)

/-- UNMAP, as far as its wait. -/
def unmapStep (cmd : BitVec 24) (s : State) : State :=
  let ctx := cmdCtx cmd
  let lv := cmdLevel cmd
  let ia := s.chip.arg0.toNat
  if ia % levelBytes lv ≠ 0 then s.s2Done 2
  else match s.entryAt ctx (ctx * 2 ^ 46 + ia % 2 ^ 46) lv with
    | .at_ _ e => if validLeaf e then s.setChip { s.chip with s2busy := some (.unmap ctx lv (ia % 2 ^ 46)) } else s.s2Done 4
    | _ => s.s2Done 4

def execS2Unmap (cmd : BitVec 24) (s : State) : Host.Outcome State Fault Refusal := stage2 cmd s (unmapStep cmd)

/-- INVAL, as far as its wait. -/
def invalStep (cmd : BitVec 24) (s : State) : State :=
  let ia := s.chip.arg0.toNat
  if ia % levelBytes (cmdLevel cmd) ≠ 0 then s.s2Done 2
  else s.setChip { s.chip with s2busy := some (.inval (cmdCtx cmd) (cmdLevel cmd) (ia % 2 ^ 46)) }

def execS2Inval (cmd : BitVec 24) (s : State) : Host.Outcome State Fault Refusal := stage2 cmd s (invalStep cmd)

/-- The frame that ARG0 names, or a status. -/
def State.argFrame (s : State) (n : Nat) : Except Nat Nat :=
  let pa := s.chip.arg0.toNat
  if pa % 65536 ≠ 0 then .error 2
  else if 2 ^ 57 ≤ pa ∨ !s.ownChip pa ∨ Config.packageBytes < localOf pa + n * 65536 then .error 7
  else .ok (localOf pa / 65536)

/-- A frame command: its effect where the frame's state allows it, else status 1. -/
def frameStep (s : State) (ok : Nat → Nat → Bool) (f : Nat → State → State) : State :=
  match s.argFrame 1 with
  | .error n => s.s2Done n
  | .ok k => if ok k (frameState (s.frameWord k)) then (f k s).s2Done 0 else s.s2Done 1

def scrubOne (f : Nat) (s : State) : State :=
  if frameState (s.frameWord f) = fsDirty then (s.zeroFrame f).setFrame f (mkFrameWord fsClean false 0 0) else s

/-- SCRUB: every DIRTY frame of a run becomes CLEAN. -/
def scrubStep (s : State) : State :=
  let n := s.chip.arg1.toNat
  match s.argFrame n with
  | .error k => s.s2Done k
  | .ok f => (((List.range n).foldl (fun t i => scrubOne (f + i) t) s)).s2Done 0

def execS2Scrub (cmd : BitVec 24) (s : State) : Host.Outcome State Fault Refusal := stage2 cmd s scrubStep

def execS2Table (cmd : BitVec 24) (s : State) : Host.Outcome State Fault Refusal :=
  stage2 cmd s fun t => frameStep t (fun _ st => st == fsClean) fun f t =>
    (t.zeroFrame f).setFrame f (mkFrameWord fsTable false 0 (cmdCtx cmd))

/-- UNTABLE, as far as its wait. -/
def untableStep (s : State) : State :=
  match s.argFrame 1 with
  | .error n => s.s2Done n
  | .ok f =>
    if frameState (s.frameWord f) = fsTable then s.setChip { s.chip with s2busy := some (.untable f) } else s.s2Done 1

def execS2Untable (cmd : BitVec 24) (s : State) : Host.Outcome State Fault Refusal := stage2 cmd s untableStep

def execS2Shadd (cmd : BitVec 24) (s : State) : Host.Outcome State Fault Refusal :=
  stage2 cmd s fun t => frameStep t (fun _ st => st == fsClean) fun f t =>
    (t.setFrame f (mkFrameWord fsShadow false 0 (cmdCtx cmd))).mapCtx (cmdCtx cmd) fun c => { c with pool := c.pool ++ [f] }

/-- Whether a frame stands free in some context's pool. -/
def State.pooled (s : State) (f : Nat) : Bool := s.ctxs.any fun c => c.pool.contains f

def execS2Shdel (cmd : BitVec 24) (s : State) : Host.Outcome State Fault Refusal :=
  stage2 cmd s fun t => frameStep t (fun f st => st == fsShadow && t.pooled f) fun f t =>
    (t.setFrame f (mkFrameWord fsDirty false 0 (frameOwner (t.frameWord f)))).setCtxs (t.ctxs.map fun c => { c with pool := c.pool.erase f })

def execS2Expose (cmd : BitVec 24) (s : State) : Host.Outcome State Fault Refusal :=
  stage2 cmd s fun t => frameStep t (fun _ st => st == fsMapped) fun f t =>
    let g := t.chip.arg1.toNat % 4096
    t.setFrame f (mkFrameWord fsMapped (g != 0) g (frameOwner (t.frameWord f)))

def execS2Retire (cmd : BitVec 24) (s : State) : Host.Outcome State Fault Refusal :=
  stage2 cmd s fun t => frameStep t (fun _ st => st != fsMapped && st != fsTable && st != fsShadow) fun f t =>
    t.setFrame f (mkFrameWord fsRetired false 0 0)

/-! ### The wait and the step (R369) -/

def inRun (base n key : Nat) : Bool := base ≤ key && key < base + n

/-- A stream of a command stands inside a page: some of its units there are done, and some are not. -/
def State.streamInside (s : State) (b : Nat) (c : Cmd) (dst : Bool) (page : Nat) : Bool :=
  if dst then
    let ws := c.writes.zipIdx.filter fun w => w.1.dst / 65536 == page
    let begun (w : Piece × Nat) : Bool := c.units.zipIdx.any fun u => c.read.contains u.2 && meets u.1.off u.1.len w.1.off w.1.len
    ws.any begun && !(ws.all fun w => s.drained b c w.1 w.2)
  else
    let us := c.units.zipIdx.filter fun u => u.1.src / 65536 == page
    us.any (fun u => c.read.contains u.2) && !(us.all fun u => c.read.contains u.2)

/-- A stream of a command has done with a page. -/
def State.streamPast (s : State) (b : Nat) (c : Cmd) (dst : Bool) (page : Nat) : Bool :=
  if dst then (c.writes.zipIdx.filter fun w => w.1.dst / 65536 == page).all fun w => s.drained b c w.1 w.2
  else c.coll.isNone && (c.units.zipIdx.filter fun u => u.1.src / 65536 == page).all fun u => c.read.contains u.2

/-- A pending command of a context has a stream inside a page whose carried translation `hit` names; `shadows` says whether the
destinations of shadow commands count. -/
def State.streamsIn (s : State) (ctx : Nat) (shadows : Bool) (hit : Nat → Bool) : Bool :=
  s.blks.any fun x => x.ctx == ctx && x.cmds.any fun c => c.st == 0 &&
    c.trans.any fun t => hit t.2.2.1 && (shadows || !(c.shadow && t.1)) && s.streamInside x.id c t.1 t.2.1

/-- Accesses translated to a run of M that have not performed. -/
def State.runBusy (s : State) (base n : Nat) : Bool :=
  s.qs.sq.any (fun e => inRun base n e.key) || s.qs.inb.any (fun e => inRun base n e.key) ||
    s.qs.eq.any (fun e => inRun base n e.key) || s.mem.holes.any fun h => inRun base n h.1

/-- The carried translations of global pages that `hit` names are given up where a stream has still to come to the page: it translates
the page again there (R233, R361, R369). -/
def State.dropTrans (s : State) (ctx : Nat) (shadows : Bool) (hit : Nat → Bool) : State :=
  let gone (b : Nat) (c : Cmd) (t : Bool × Nat × Nat × Bool) : Bool :=
    hit t.2.2.1 && (shadows || !(c.shadow && t.1)) && regionOf (t.2.1 * 65536) == .global && !s.streamPast b c t.1 t.2.1
  let drop (b : Nat) (c : Cmd) : Cmd := if c.st = 0 then { c with trans := c.trans.filter fun t => !gone b c t } else c
  s.setBlks (s.blks.map fun x => if x.ctx = ctx then { x with cmds := x.cmds.map (drop x.id) } else x)

/-- Accesses of a context that have been translated and have not performed (R368, R369). -/
def State.ctxInFlight (s : State) (ctx : Nat) : Bool :=
  (s.qs.sq.any fun e => e.ctx == ctx) || (s.qs.inb.any fun e => e.ctx == some ctx && e.wait.isNone) ||
    (s.qs.eq.any fun e => (s.blk? e.b).any fun x => x.ctx == ctx) ||
    s.mem.holes.any fun h => (s.access? h.2.1).any fun a => s.ctxOf a.unit == ctx

/-- Tables that a pointer entry names, now or as a translation cache may still have it: where they begin. -/
def State.tablesUnder (s : State) (key : Nat) : List Nat :=
  ((s.entryNow key :: (s.mem.stale.filter (·.1 == key)).map (·.2)).filter fun e => bitsOf e 63 1 == 1 && bitsOf e 62 1 == 0).map fun e =>
    s.keyOf (bitsOf e 16 41 * 65536 + bitsOf e 13 3 * 8192)

/-- A byte of M lies at or below a table entry of a level. -/
def State.underEntry (s : State) (key : Nat) : Nat → Nat → Bool
  | 0, k => k == key
  | n + 1, k => k == key || (s.tablesUnder key).any fun t => (t ≤ k && k < t + 8192) ||
      (0 < n && (List.range 1024).any fun i => s.underEntry (t + 8 * i) n k)

/-- INVAL drops what translation caches hold under the entry of a level (R368). -/
def State.invalidate (s : State) (ctx ia level : Nat) : State :=
  if s.mem.stale.isEmpty then s
  else match s.entryAt ctx (ctx * 2 ^ 46 + ia) level with
    | .at_ p _ => s.dropStale (s.underEntry (s.keyOf p) (3 - level))
    | _ => s

/-- The step of UNMAP: the leaf is invalid, locks go, and the frames are DIRTY. -/
def unmapDone (ctx lv ia p e : Nat) (s : State) : State :=
  let n := levelBytes lv
  let pa := bitsOf e 16 41 * 65536
  let base := s.keyOf pa
  let lo := ctx * 2 ^ 46 + ia
  let s1 := ((s.pokeRaw (s.keyOf p) (leBytes 8 (e - 2 ^ 63))).dropStale (· == s.keyOf p)).dropTrans ctx false (inRun base n)
  let s2 := s1.setMem { s1.mem with locks := s1.mem.locks.filter fun l => !(inRun (lo / 128) (n / 128) l.2.1) }
  let s3 := s2.setQs { s2.qs with ycap := s2.qs.ycap.filter fun y => !(inRun (base / 128) (n / 128) y.2.1) }
  let frames := if s.ownChip pa && isPackage (localOf pa) then framesOf (localOf pa) n else []
  (frames.foldl (fun t f => t.setFrame f (mkFrameWord fsDirty false 0 (frameOwner (t.frameWord f)))) s3).s2Done 0

/-- STAGE2_WAIT_COMPLETE. -/
def execStage2WaitComplete (s : State) : Host.Outcome State Fault Refusal :=
  match s.chip.s2busy with
  | none => .next s
  | some (.unmap ctx lv ia) =>
    (match s.entryAt ctx (ctx * 2 ^ 46 + ia) lv with
     | .at_ p e =>
       if !validLeaf e then .next (s.s2Done 4).retryWaiting
       else
         let base := s.keyOf (bitsOf e 16 41 * 65536)
         if s.runBusy base (levelBytes lv) || s.streamsIn ctx false (inRun base (levelBytes lv)) then .next s
         else .next (unmapDone ctx lv ia p e s).retryWaiting
     | _ => .next (s.s2Done 4).retryWaiting)
  | some (.inval ctx lv ia) =>
    if s.ctxInFlight ctx || s.streamsIn ctx false (fun _ => true) then .next s
    else .next (((s.invalidate ctx ia lv).dropTrans ctx false fun _ => true).s2Done 0).retryWaiting
  | some (.untable f) =>
    let ctx := frameOwner (s.frameWord f)
    if s.ctxInFlight ctx || s.streamsIn ctx false (fun _ => true) then .next s
    else
      let s1 := (s.dropStale fun k => frameOwner (s.frameWord (k / 65536)) == ctx).dropTrans ctx false fun _ => true
      .next ((s1.setFrame f (mkFrameWord fsDirty false 0 ctx)).s2Done 0).retryWaiting

/-! ## Range registers and the context table (R359 to R362) -/

/-- A function may use a register of a context that it owns, while it is not frozen (R342, R372). -/
def State.fnOwns (s : State) (fn ctx : Nat) : Bool := (s.ctx ctx).fn == fn && ctx < Config.contexts && !s.flt.frozenFns.contains fn

/-- The upper word of a range register is staged. -/
def execRangeRegisterStage (fn ctx i : Nat) (v : BitVec 64) (s : State) : Host.Outcome State Fault Refusal :=
  fnRequest fn s fun s => if s.fnOwns fn ctx && i < 16 then s.mapCtx ctx fun c => { c with staged := assign i v c.staged } else s

/-- The lower word commits both, reserved bits zero (R359, R361). -/
def execRangeRegisterCommit (fn ctx i : Nat) (v : BitVec 64) (s : State) : Host.Outcome State Fault Refusal :=
  fnRequest fn s fun s =>
    if s.fnOwns fn ctx && i < 16 then
      s.mapCtx ctx fun c =>
        let old : BitVec 64 := ((lookupD (0 : BitVec 128) i c.ranges) >>> 64).setWidth 64
        let hi := (lookupD old i c.staged) &&& 0x3FFFFFFF3FFFFFFF
        let lo := v &&& 0xF80001FFFFFFFFFF
        { c with ranges := assign i (hi ++ lo) c.ranges }
    else s

/-- Accesses of a function's contexts that have passed their range checks and have not performed (R361). -/
def State.rangesInUse (s : State) (fn : Nat) : Bool :=
  let own (ctx : Nat) : Bool := (s.ctx ctx).fn == fn
  (s.qs.accs.any fun a => own (s.ctxOf a.unit) && a.open && a.poison.isNone) || (s.qs.sq.any fun e => own e.ctx) ||
    (s.qs.tq.any fun e => own e.ctx) || (s.blks.any fun x => own x.ctx && s.streamsIn x.ctx true fun _ => true) ||
    (s.qs.eq.any fun e => (s.blk? e.b).any fun x => own x.ctx) || s.qs.inb.any fun e => e.ctx.any own

/-- RRSYNC: a read of it returns 0 once the accesses and the engine units of the function's contexts have performed, and the
requester's posted writes before it (R361, R378). No stream carries a translation past it. -/
def execRrsync (r : RegRead) (s : State) : Host.Outcome State Fault Refusal :=
  if s.flt.frozenFns.contains r.fn then .next (s.setEnv { s.env with aborted := true })
  else if s.rangesInUse r.fn || s.qs.inb.any (·.requester == r.requester) then .next s
  else
    let t := ((s.ctxs.filter fun c => c.fn == r.fn).map (·.n)).foldl (fun t c => t.dropTrans c true fun _ => true) s
    .next (t.setEnv { t.env with reply := leBytes 4 0, aborted := false })

/-- The bits of a context-table entry (R362). -/
def ctxEntryMask : BitVec 128 := BitVec.ofNat 128 ((2 ^ 41 - 1) * 2 ^ 64 + 0xFFFF003F00000000)

/-- A context holds a job, a resident block or a frame. -/
def State.ctxBusy (s : State) (ctx : Nat) : Bool :=
  (s.work.entries.any fun e => e.ctx == ctx && e.kind == .job) || (s.blks.any fun x => x.ctx == ctx && x.phase == .resident) ||
    s.flt.frames.any fun f => f.ctx == ctx

/-- A write of a context-table entry, by the physical function. -/
def execContextTableWrite (ctx : Nat) (v : BitVec 128) (s : State) : Host.Outcome State Fault Refusal :=
  pfRequest s fun s =>
    if Config.contexts ≤ ctx then s
    else
      let old := s.ctx ctx
      let new := { old with entry := v &&& ctxEntryMask }
      let heavy := new.root != old.root || new.fn != old.fn || (old.valid && !new.valid)
      if heavy && s.ctxBusy ctx then s
      else
        let s1 := s.mapCtx ctx fun c => { c with entry := v &&& ctxEntryMask }
        if old.valid && !new.valid then s1.setMem { s1.mem with locks := s1.mem.locks.filter fun l => l.1 != ctx } else s1

/-! ## The SRAM division (R373) -/

/-- SRAM of a die in service, in units of 256 MiB (R373, R391). -/
def State.sramUnits (s : State) (die : Nat) : Nat := 12 - 3 * (s.svc.halvesOut.filter fun h => h / 4 == die).length

/-- A write of SPDIVd. -/
def execSpdiv (die : Nat) (v : BitVec 32) (s : State) : Host.Outcome State Fault Refusal :=
  pfRequest s fun s =>
    let req := v.toNat % 16
    if Config.dies ≤ die ∨ s.sramUnits die < req then s
    else
      let pend := s.divPending die || req != s.chip.spCur.getD die 0
      s.setChip { s.chip with spReq := s.chip.spReq.set die req, spPend := s.chip.spPend.set die pend }

/-- SPDIV_CHANGE: with no resident block and no engine command in flight on the die, the division changes; bytes that the
portion loses are gone. -/
def execSpdivChange (die : Nat) (s : State) : Host.Outcome State Fault Refusal :=
  let here (x : Blk) : Bool := dieOf x.core == die
  if !s.divPending die || s.blks.any (fun x => here x && (x.phase == .resident || x.cmds.any fun c => c.st == 0 && x.phase != .framed)) then .next s
  else
    let new := s.chip.spReq.getD die 0
    let lo := spadKey die (new * 2 ^ 28)
    let s1 := s.setMem { s.mem with bytes := s.mem.bytes.filter fun p => !(lo ≤ p.1 && p.1 < spadKey (die + 1) 0) }
    .next (s1.setChip { s1.chip with spCur := s1.chip.spCur.set die new, spPend := s1.chip.spPend.set die false })

/-! ## Apertures (R374) -/

/-- A write of APCTL: naming a context that the function does not own closes the aperture. -/
def execApctl (fn : Nat) (v : BitVec 64) (s : State) : Host.Outcome State Fault Refusal :=
  fnRequest fn s fun s =>
    if 32 < fn then s
    else
      let w := v &&& 0x81FFFFFFFFFF003F
      let w1 := if (s.ctx (w.toNat % 64)).fn = fn then w else w &&& 0x7FFFFFFFFFFFFFFF
      s.setChip { s.chip with apctl := assign fn w1 s.chip.apctl }

/-- An open aperture of a function: its context and first virtual address. -/
def State.aperture (s : State) (fn : Nat) : Option (Nat × Nat) :=
  let w := (lookupD (0 : BitVec 64) fn s.chip.apctl).toNat
  if bitsOf w 63 1 = 1 then some (w % 64, bitsOf w 16 41 * 65536) else none

def apertureBytes (fn : Nat) : Nat := if fn = 0 then 2 ^ 36 else 2 ^ 34

/-- The pages of a read, with what each finds; the first that is no byte of M to be read now decides. -/
def State.apAccess (s : State) (ctx va n : Nat) : Except ApPage (List (Nat × Nat)) :=
  (pagePieces va n).mapM fun p => match s.apPage ctx p.1 false with
    | .key k => if s.heldPage k then .error (.wait 0) else .ok (k, p.2)
    | r => .error r

/-- A violation among the pages of a posted write, with its address. -/
def State.apBad (s : State) (ctx va n : Nat) : Option (Nat × Cause) :=
  (pagePieces va n).findSome? fun p => match s.apPage ctx p.1 true with | .bad c => some (p.1, c) | _ => none

/-- A read at an aperture offset; `reply` is what it returns. -/
def execApertureRead (fn requester off width : Nat) (s : State) : Host.Outcome State Fault Refusal :=
  let s := s.setEnv { s.env with aborted := false, reply := [] }
  if s.flt.frozenFns.contains fn then .next (s.setEnv { s.env with aborted := true })
  else if 32 < fn ∨ apertureBytes fn < off + width then .next s
  else match s.aperture fn with
    | none => .next (s.setEnv { s.env with reply := List.replicate width 0xFF })
    | some (ctx, base) =>
      if s.qs.inb.any fun e => e.requester == requester then .next s
      else match s.apAccess ctx (base + off) width with
        | .error (.bad c) => .next (apViolation fn ctx (base + off) c s)
        | .error (.miss ia) => .next (apMiss fn (base + off) ia false s)
        | .error _ => .next s
        | .ok ks =>
          if ks.any fun k => s.holed k.1 k.2 then .next s
          else .next (s.setEnv { s.env with reply := ks.flatMap fun k => readBytes s.mem.bytes k.1 k.2 })

/-- The entries of a posted write, page by page; a page without a translation has its entry wait in its place (R374, R378). -/
def postEntries (fn requester ctx : Nat) : List (Nat × Nat) → List Byte → State → State
  | [], _, s => s
  | p :: r, bs, s =>
    let e : InEntry := { requester := requester, key := 0, data := bs.take p.2, ctx := some ctx }
    postEntries fn requester ctx r (bs.drop p.2) (match s.apPage ctx p.1 true with
      | .key k => s.pushIn { e with key := k }
      | .wait ia => s.pushIn { e with key := ia, wait := some (fn, p.1) }
      | .miss ia => (apMiss fn p.1 ia true s).pushIn { e with key := ia, wait := some (fn, p.1) }
      | .bad _ => s)

/-- A posted write at an aperture offset. -/
def execApertureWrite (fn requester off : Nat) (bytes : List Byte) (s : State) : Host.Outcome State Fault Refusal :=
  fnRequest fn s fun s =>
    if 32 < fn ∨ apertureBytes fn < off + bytes.length then s
    else match s.aperture fn with
      | none => s
      | some (ctx, base) => match s.apBad ctx (base + off) bytes.length with
        | some (va, c) => apViolation fn ctx va c s
        | none => postEntries fn requester ctx (pagePieces (base + off) bytes.length) bytes s

/-! ## The host's own memory (R276) -/

/-- A host store to host memory, at a host physical address, joins I(r). -/
def execHostStore (requester addr : Nat) (bytes : List Byte) (s : State) : Host.Outcome State Fault Refusal :=
  .next (if addr + bytes.length ≤ 2 ^ 44 then s.pushIn { requester := requester, key := Config.hostWindow + addr, data := bytes } else s)

/-- A byte of M as a requester reads it: from the newest entry of its own I(r) that covers it, else from M. -/
def State.hostByte (s : State) (requester key : Nat) : Byte :=
  match (s.qs.inb.filter fun e => e.requester == requester && e.wait.isNone && e.key ≤ key && key < e.key + e.data.length).getLast? with
  | some e => e.data.getD (key - e.key) 0
  | none => readByte s.mem.bytes key

/-- A host load of host memory. -/
def execHostLoad (requester addr n : Nat) (s : State) : Host.Outcome State Fault Refusal :=
  .next (if addr + n ≤ 2 ^ 44 then
    s.setEnv { s.env with reply := (List.range n).map fun o => s.hostByte requester (Config.hostWindow + addr + o), aborted := false }
  else s)

/-! ## Host-managed device memory (R375 to R378, R408) -/

/-- A leaf maps a frame of a range. -/
def State.rangeMapped (s : State) (base n : Nat) : Bool :=
  s.mem.frames.any fun f => base / 65536 ≤ f.1 && f.1 < (base + n + 65535) / 65536 && frameState f.2 == fsMapped

/-- A write of HDMBASE or HDMSIZE, 64 KiB aligned, while no leaf maps a frame of the old range or of the new one. -/
def execHdmbaseWrite (isSize : Bool) (v : BitVec 64) (s : State) : Host.Outcome State Fault Refusal :=
  pfRequest s fun s =>
    let w := v &&& 0xFFFFFFFFFFFF0000
    let c := if isSize then { s.chip with hdmSize := w } else { s.chip with hdmBase := w }
    if s.rangeMapped s.chip.hdmBase.toNat s.chip.hdmSize.toNat || s.rangeMapped c.hdmBase.toNat c.hdmSize.toNat then s
    else s.setChip c

/-- A host access lies in the HDM range of a CXL link that is up. -/
def State.inHdm (s : State) (addr n : Nat) : Bool :=
  s.chip.mode == .cxl && s.chip.hostUp && 0 < n && isPackage (addr + (n - 1)) && s.chip.hdmBase.toNat ≤ addr &&
    addr + n ≤ s.chip.hdmBase.toNat + s.chip.hdmSize.toNat

/-- The requester that the host as a whole is for CXL.mem: no PCIe requester ID, which has 16 bits (R378). -/
def hostRequester : Nat := 65536

/-- CXL_MEM_READ: after the host's posted writes, and not during a flip of the page. -/
def execCxlMemRead (addr width : Nat) (s : State) : Host.Outcome State Fault Refusal :=
  if !s.inHdm addr width || s.heldPage addr || s.qs.inb.any (·.requester == hostRequester) || s.holed addr width then .next s
  else .next (s.setEnv { s.env with reply := readBytes s.mem.bytes addr width, aborted := false })

/-- CXL_MEM_WRITE, of bytes of a 64-byte line from an offset: an entry of the host's I(r), which waits through a flip of the page; on a host-bias page it performs after the host
has snooped the host-coherence cache (R376, R378). -/
def execCxlMemWrite (line off : Nat) (bytes : List Byte) (s : State) : Host.Outcome State Fault Refusal :=
  let addr := 64 * line + off
  .next (if s.inHdm addr bytes.length then s.pushIn { requester := hostRequester, key := addr, data := bytes } else s)

/-! ## The host-coherence cache (R377) -/

/-- The 64 bytes of a line, as a snoop that hits an M line returns them. -/
def State.snoopReply (s : State) (line : Nat) : State :=
  s.setEnv { s.env with reply := if lookup? line s.mem.hcc = some .m then readBytes s.mem.bytes (64 * line) 64 else [], aborted := false }

/-- SNP_DATA: the data of an M line is returned. -/
def execSnpData (line : Nat) (s : State) : Host.Outcome State Fault Refusal :=
  let t := s.snoopReply line
  let shared := t.setMem { t.mem with hcc := assign line .s t.mem.hcc }
  match lookup? line s.mem.hcc with
  | some .m => .next (shared.cxlSend .data line)
  | some .e => .next shared
  | _ => .next t

/-- SNP_INV: the data of an M line is returned. -/
def execSnpInv (line : Nat) (s : State) : Host.Outcome State Fault Refusal := .next ((s.snoopReply line).snoopInv line)

/-- HCC_EVICTION: DirtyEvict or CleanEvict. -/
def execHccEviction (line : Nat) (s : State) : Host.Outcome State Fault Refusal := .next (s.hccEvict line)

/-- HOST_LINK_TRAINING: the link goes down, or it trains in a mode. The first training after a reset fixes the mode; a link that cannot
retrain in it stays down until the next reset (R375). -/
def execHostLinkTraining (cxl up : Bool) (s : State) : Host.Outcome State Fault Refusal :=
  let m : LinkMode := if cxl then .cxl else .pcie
  if !up then .next (s.setChip { s.chip with hostUp := false })
  else match s.chip.mode with
    | .untrained => .next (s.setChip { s.chip with mode := m, hostUp := true })
    | k => .next (s.setChip { s.chip with hostUp := k == m && !s.chip.hostFailed, hostFailed := s.chip.hostFailed || k != m })

/-- FUNCTION_LEVEL_RESET (R371). -/
def execFunctionLevelReset (fn : Nat) (s : State) : Host.Outcome State Fault Refusal := .next (s.resetFn fn)

/-! ## Peers (R375 to R383) -/

def PeerReq.size : Sys2Proof.PeerReq → Nat
  | .read n => n
  | .write bs => bs.length
  | .atomic _ wide .. => if wide then 8 else 4

/-- The target's test of a peer's request (R382). -/
def State.exported (s : State) (group loc n : Nat) : Bool :=
  Config.packageBytes ≥ loc + n && 0 < n && (framesOf (loc / 65536 * 65536) (((loc + n + 65535) / 65536 - loc / 65536) * 65536)).all fun f =>
    let w := s.frameWord f
    frameState w == fsMapped && frameExp w && frameGroup w == group

/-- A request for another chip is sent on, over the link that its inbound link selects; a ninth hop, or no route, refuses it (R381). -/
def sendOn (link hop group addr : Nat) (req : PeerReq) (s : State) : State :=
  match s.linkTo (chipOf addr) link with
  | some k => if 8 ≤ hop then s.setEnv { s.env with aborted := true }
              else s.setChip { s.chip with passed := s.chip.passed ++ [(k, hop + 1, group, addr, req)] }
  | none => s.setEnv { s.env with aborted := true }

/-- A peer's request performs at the line's home slice; a host-bias line is reached through the host-coherence cache (R249, R376, R383). -/
def performPeer (loc : Nat) (req : PeerReq) (s : State) : State :=
  let n := PeerReq.size req
  let old := readBytes s.mem.bytes loc n
  let via (write : Bool) : State := if s.hostBias loc then s.hccTouch loc write else s
  match req with
  | .read _ => (via false).setEnv { (via false).env with reply := old }
  | .write bs => (via true).poke loc bs
  | .atomic op wide b c =>
    let t := (via true).poke loc (leBytes n (atomicNew op wide (leNat old) (b.toNat % 2 ^ (8 * n)) (c.toNat % 2 ^ (8 * n))))
    t.setEnv { t.env with reply := old }

/-- PEER_INBOUND_REQUEST: a request at a physical address is sent on, performed, or refused. -/
def execPeerInboundRequest (link group addr : Nat) (msg : PeerMsg) (s : State) : Host.Outcome State Fault Refusal :=
  let n := PeerReq.size msg.req
  let loc := localOf addr
  let s := s.setEnv { s.env with aborted := false, reply := [] }
  if 24 ≤ link || s.flt.frozenLinks.contains link || !s.chip.linksUp.getLsbD link then .next s
  else if !s.ownChip addr then .next (sendOn link msg.hop group addr msg.req s)
  else if !s.exported group loc n then .next (s.setEnv { s.env with aborted := true })
  else if s.heldPage loc || s.holed loc n then .next s
  else .next (performPeer loc msg.req s)

/-- LINK_FAILURE: the link is down, and its bit is clear in every route entry (R381). -/
def State.linkDown (s : State) (link : Nat) : State :=
  let off (w : BitVec 24) : BitVec 24 := w &&& ~~~ (BitVec.ofNat 24 (2 ^ link))
  s.setChip { s.chip with
    linksUp := off s.chip.linksUp
    routes := s.chip.routes.map fun e => (e.1, (e.2 &&& 0xFF000000) ||| (off (e.2.setWidth 24)).setWidth 32) }

def execLinkFailure (link : Nat) (s : State) : Host.Outcome State Fault Refusal := if 24 ≤ link then .next s else .next (s.linkDown link)

/-! ## Bandwidth (R193) -/

/-- One microsecond's tokens of one context at a slice. -/
def refillOne (slice : Nat) (m : Mem) (c : Ctx) : Mem :=
  let w := (c.cr 0x33).toNat
  let rate := bitsOf w 0 16
  let cap := bitsOf w 16 8 * 16
  if rate = 0 then m
  else
    let have_ := ((m.buckets.find? fun b => b.1 == slice && b.2.1 == c.n).map (·.2.2)).getD 0
    let pool := ((m.spills.find? fun b => b.1 == slice).map (·.2)).getD 0
    let all := have_ + rate
    { m with
      buckets := (m.buckets.filter fun b => !(b.1 == slice && b.2.1 == c.n)) ++ [(slice, c.n, min all (max cap have_))]
      spills := (m.spills.filter fun b => b.1 != slice) ++ [(slice, min 1024 (pool + (all - min all (max cap have_))))] }

/-- BANDWIDTH_TOKEN_REFILL of a home slice. -/
def execBandwidthTokenRefill (slice : Nat) (s : State) : Host.Outcome State Fault Refusal :=
  let m := s.ctxs.foldl (refillOne slice) s.mem
  .next (s.setMem { m with borrows := m.borrows.filter fun b => b.1 != slice })

end Sys2Proof.Machine
end

