-- ==== Sys2Proof/Machine/Service.lean ====
section
/-! DEFINITION. Service, health and trust: the status window, the device states, the service domains and their operations,
images, measurements, bring-up and power (18_service R385 to R396). -/

namespace Sys2Proof.Machine

/-! ## Domains (R386, R390, R391) -/

/-- How many domains a kind has. -/
def domainCount : Nat → Nat | 0 => 768 | 1 => 24 | 2 => 16 | 3 => 24 | 4 => 2 | _ => 0

def isDomain (kind i : Nat) : Bool := i < domainCount kind

/-- RECAL and SPARE: the errors before it no longer raise the grade; three within an hour still hold the device (R390). -/
def Health.eased (h : Health) : Health := { h with grade := if h.grade = 3 then 3 else 0 }

/-- A domain in another state. -/
def State.setDomain (s : State) (kind i st : Nat) : State := s.setHealth kind i { s.healthOf kind i with dstate := st }

/-- Blocks that a core still holds. -/
def State.coreBusy (s : State) (core : Nat) : Bool := !(s.placedOn core).isEmpty

/-- A QUIESCE of a core goes on: blocks that became resident are pre-empted, and once the core holds none it is quiesced. -/
def State.settleQuiesce (s : State) : State :=
  match s.svc.busy with
  | some (0, core, st) =>
    if s.coreBusy core then (s.placedOn core).foldl (fun t x => t.preempt x.id true) s
    else
      let t := s.setDomain 0 core st
      t.setSvc { t.svc with busy := none, status := 0 }
  | _ => s

/-! ## The service block (R388) -/

def svcKind (c : BitVec 24) : Nat := bitsOf c.toNat 0 4
def svcIndex (c : BitVec 24) : Nat := bitsOf c.toNat 4 12

/-- A command ends with a status. -/
def State.svcDone (s : State) (n : Nat) : State := s.setSvc { s.svc with status := n }

/-- A write of SVCCMD by the physical function: ignored while BUSY is 1 or while the controller is frozen. -/
def svcCommand (cmd : BitVec 24) (s : State) (f : State → State) : Host.Outcome State Fault Refusal :=
  pfRequest s.settleQuiesce fun t =>
    if t.flt.frozenMgmt || t.svc.busy.isSome then t
    else if bitsOf cmd.toNat 16 8 ≠ 0 then t.svcDone 3
    else f t

/-! ## Device states (R387, R389) -/

def DevState.code : DevState → Nat | .active => 0 | .draining => 1 | .drained => 2 | .service => 3

/-- A change of the device state, allowed from the states listed. -/
def devChange (from_ : List DevState) (new : DevState) (s : State) : State :=
  if from_.contains s.svc.dev then (s.setSvc { s.svc with dev := new, status := 0 }).settleDrain else s.svcDone 1

def execDrain (cmd : BitVec 24) (s : State) : Host.Outcome State Fault Refusal := svcCommand cmd s (devChange [.active] .draining)
def execUndrain (cmd : BitVec 24) (s : State) : Host.Outcome State Fault Refusal :=
  svcCommand cmd s (devChange [.draining, .drained] .active)
def execEnterService (cmd : BitVec 24) (s : State) : Host.Outcome State Fault Refusal :=
  svcCommand cmd s (devChange [.drained] .service)
def execExitService (cmd : BitVec 24) (s : State) : Host.Outcome State Fault Refusal :=
  svcCommand cmd s (devChange [.service] .active)

/-! ## Operations on a domain (R391) -/

/-- Some frame of a channel pair is in use. -/
def State.pairInUse (s : State) (pair : Nat) : Bool :=
  s.mem.frames.any fun f => pairOfFrame f.1 == pair &&
    (frameState f.2 == fsMapped || frameState f.2 == fsTable || frameState f.2 == fsShadow)

/-- The link is the only one of a valid route entry of another chip (R380, R381). -/
def State.linkNeeded (s : State) (link : Nat) : Bool :=
  s.chip.routes.any fun e => e.1 != s.chip.chipId.toNat && e.2.getLsbD 31 && bitsOf e.2.toNat 0 24 == 2 ^ link

def State.linkUp (s : State) (link : Nat) : State :=
  s.setChip { s.chip with linksUp := s.chip.linksUp ||| BitVec.ofNat 24 (2 ^ link) }

def quiesceCore (core : Nat) (s : State) : State :=
  let t := s.setDomain 0 core 1
  (t.setSvc { t.svc with busy := some (0, core, 2) }).settleQuiesce

def quiescePair (pair : Nat) (s : State) : State :=
  if s.pairInUse pair then s.svcDone 2 else (s.setDomain 1 pair 2).svcDone 0

def quiesceHalf (half : Nat) (s : State) : State :=
  let die := half / 4
  let left := s.sramUnits die - 3
  if left < s.chip.spCur.getD die 0 ∨ left < s.chip.spReq.getD die 0 then s.svcDone 2
  else
    let t := s.setDomain 2 half 2
    (t.setSvc { t.svc with halvesOut := t.svc.halvesOut ++ [half] }).svcDone 0

def quiesceLink (link : Nat) (s : State) : State :=
  if s.linkNeeded link then s.svcDone 2 else ((s.linkDown link).setDomain 3 link 2).svcDone 0

/-- QUIESCE of a domain that is in service. -/
def quiesceStep (cmd : BitVec 24) (s : State) : State :=
  let k := svcKind cmd
  let i := svcIndex cmd
  if !isDomain k i || k == 4 then s.svcDone 3
  else if s.domainState k i ≠ 0 then s.svcDone 1
  else match k with
    | 0 => quiesceCore i s
    | 1 => quiescePair i s
    | 2 => quiesceHalf i s
    | _ => quiesceLink i s

def execQuiesce (cmd : BitVec 24) (s : State) : Host.Outcome State Fault Refusal := svcCommand cmd s (quiesceStep cmd)

/-- A recalibration begins. -/
def beginRecal (kind i : Nat) (s : State) : State :=
  let back := s.domainState kind i
  let t := s.setDomain kind i 3
  t.setSvc { t.svc with busy := some (kind, i, back) }

/-- RECAL of a channel pair or a link, in service or quiesced. -/
def recalStep (cmd : BitVec 24) (s : State) : State :=
  let k := svcKind cmd
  let i := svcIndex cmd
  if !isDomain k i || !(k == 1 || k == 3) then s.svcDone 3
  else if s.domainState k i ≠ 0 ∧ s.domainState k i ≠ 2 then s.svcDone 1
  else if k == 1 then beginRecal 1 i s
  else if s.linkNeeded i then s.svcDone 2
  else beginRecal 3 i (s.linkDown i)

def execRecal (cmd : BitVec 24) (s : State) : Host.Outcome State Fault Refusal := svcCommand cmd s (recalStep cmd)

/-- RECAL_COMPLETE: waiting accesses proceed; a link has retrained. -/
def execRecalComplete (kind index : Nat) (s : State) : Host.Outcome State Fault Refusal :=
  match s.svc.busy with
  | some (k, i, back) =>
    if k ≠ kind ∨ i ≠ index ∨ k = 0 then .next s
    else
      let t := s.setHealth k i { (s.healthOf k i).eased with dstate := back }
      let u := t.setSvc { t.svc with busy := none, status := 0 }
      .next (if k = 3 then u.linkUp i else u)
  | none => .next s

/-- SPARE: the tiller's spare takes the logical number of a quiesced core (R14). -/
def spareStep (cmd : BitVec 24) (s : State) : State :=
  let i := svcIndex cmd
  if svcKind cmd ≠ 0 ∨ !isDomain 0 i then s.svcDone 3
  else if s.domainState 0 i ≠ 2 then s.svcDone 1
  else if (s.svc.spared.any fun p => p.1 == tillerOf i) || s.svc.spareFailed.contains (tillerOf i) then s.svcDone 2
  else
    let t := s.setHealth 0 i { (s.healthOf 0 i).eased with dstate := 5 }
    (t.setSvc { t.svc with spared := t.svc.spared ++ [(tillerOf i, i % 8)] }).svcDone 0

def execSpare (cmd : BitVec 24) (s : State) : Host.Outcome State Fault Refusal := svcCommand cmd s (spareStep cmd)

/-- RESUME: the domain returns to service with grade REQUEUE. -/
def resumeStep (cmd : BitVec 24) (s : State) : State :=
  let k := svcKind cmd
  let i := svcIndex cmd
  if !isDomain k i then s.svcDone 3
  else
    let t := (s.setHealth k i { s.healthOf k i with dstate := 0, grade := 0, errs := [] }).svcDone 0
    match k with
    | 0 => t.setSvc { t.svc with spared := t.svc.spared.filter fun p => p != (tillerOf i, i % 8) }
    | 2 => t.setSvc { t.svc with halvesOut := t.svc.halvesOut.filter fun h => h != i }
    | 3 => t.linkUp i
    | _ => t

def execResume (cmd : BitVec 24) (s : State) : Host.Outcome State Fault Refusal := svcCommand cmd s (resumeStep cmd)

/-! ## Images (R392) -/

/-- The byte of M behind a host physical address, through the chip's own host link (R380). -/
def hostKey (a : Nat) : Nat := Config.hostWindow + a

/-- A command buffer lies within the host window. -/
def State.argOk (s : State) (n : Nat) : Bool := s.svc.arg.toNat + n ≤ 2 ^ 44

/-- The number that stands for an image: its bytes, closed by a 1; 0 stands for the image that bring-up finds. -/
def imageNumber (bs : List Byte) : Nat := leNat (bs ++ [1])

/-- UPDATE of an image of `len` bytes at SVCARG: it goes to the inactive slot, which becomes active if its signature verifies. -/
def updateStep (cmd : BitVec 24) (len : Nat) (s : State) : State :=
  let k := svcIndex cmd
  if svcKind cmd ≠ 4 ∨ !isDomain 4 k ∨ !s.argOk len then s.svcDone 3
  else
    let bs := readBytes s.mem.bytes (hostKey s.svc.arg.toNat) len
    let slot := 1 - s.svc.slots.getD k 0
    let t := s.setSvc { s.svc with images := assign (k * 2 + slot) (imageNumber bs) s.svc.images }
    if Config.imageVerifies k bs then (t.setSvc { t.svc with slots := t.svc.slots.set k slot }).svcDone 0 else t.svcDone 4

def execUpdate (cmd : BitVec 24) (len : Nat) (s : State) : Host.Outcome State Fault Refusal := svcCommand cmd s (updateStep cmd len)

/-- FWVER: the active slot and its version (R385). -/
def State.fwver (s : State) : Nat := s.svc.slots.getD 0 0 % 2 * 2 ^ 31 + (Config.fwver (s.imageNo 0)).toNat % 65536

/-! ## Measurements (R394, R395) -/

/-- Extends a measurement register. -/
def State.extendMeas (s : State) (n digest : Nat) : State :=
  s.setSvc { s.svc with meas := s.svc.meas.set n (measExtend (s.svc.meas.getD n 0) digest) }

def extendStep (cmd : BitVec 24) (s : State) : State :=
  let n := svcIndex cmd
  if n < 4 ∨ 7 < n ∨ !s.argOk 64 then s.svcDone 3
  else (s.extendMeas n (digestNat (readBytes s.mem.bytes (hostKey s.svc.arg.toNat) 64))).svcDone 0

def execExtend (cmd : BitVec 24) (s : State) : Host.Outcome State Fault Refusal := svcCommand cmd s (extendStep cmd)

/-- Bytes 0 to 639 of a report. -/
def State.reportHead (s : State) (nonce : List Byte) : List Byte :=
  leBytes 4 0x35545052 ++ leBytes 4 1936 ++ leBytes 16 Config.serial ++ leBytes 4 s.ucver.toNat ++ leBytes 4 s.fwver ++ nonce ++
    s.svc.meas.flatMap natDigest ++ natDigest Config.keyId

/-- A report: its head, SIGLEN, zeros, and the signature over the digest of what stands before it. -/
def State.report (s : State) (nonce : List Byte) : List Byte :=
  let head := s.reportHead nonce
  let n := min 1280 (Config.sigLen (digestNat (shake256 head)))
  let signed := head ++ leBytes 4 n ++ List.replicate 12 0
  signed ++ (leBytes 1280 (Config.sign (digestNat (shake256 signed)))).take n ++ List.replicate (1280 - n) 0

def reportStep (s : State) : State :=
  let a := s.svc.arg.toNat
  if !s.argOk 2000 then s.svcDone 3
  else (s.poke (hostKey (a + 64)) (s.report (readBytes s.mem.bytes (hostKey a) 32))).svcDone 0

def execReport (cmd : BitVec 24) (s : State) : Host.Outcome State Fault Refusal := svcCommand cmd s reportStep

/-! ## The status window (R385 to R387) -/

/-- Every domain, kind by kind. -/
def allDomains : List (Nat × Nat) := (List.range 5).flatMap fun k => (List.range (domainCount k)).map fun i => (k, i)

/-- Corrected errors and link errors since the refresh before (DESIGN CHOICE log 32). -/
def State.countErrors (s : State) : State :=
  let n := s.svc.wseq
  let more (d : Nat × Nat) : Nat × Nat × Health :=
    let h := s.healthOf d.1 d.2
    (d.1, d.2, { h with cerr := min 65535 (h.cerr + Config.newErrors n d.1 d.2) })
  let link (p : (Nat × Nat) × Nat) : Nat × Nat :=
    ((p.1.1 + Config.newErrors n 5 p.2) % 2 ^ 32, (p.1.2 + Config.newErrors n 6 p.2) % 2 ^ 32)
  s.setSvc { s.svc with health := allDomains.map more, linkErrs := s.svc.linkErrs.zipIdx.map link }

/-- A health word (R386). -/
def healthWord (h : Health) : Nat := min 65535 h.cerr * 65536 + h.dstate % 8 * 256 + h.grade % 4

/-- A tiller word (R386). -/
def State.tillerWord (s : State) (t : Nat) : Nat :=
  let spare := s.svc.spared.find? fun p => p.1 == t
  packBits ((List.range 8).map (fun i => (1, (s.domainState 0 (8 * t + i) == 0).toNat)) ++
    [(3, match spare with | some p => p.2 | none => 0), (1, 0), (1, spare.isSome.toNat), (1, (s.svc.spareFailed.contains t).toNat)])

/-- Word 0 and the counts of a LINK entry. -/
def State.linkWords (s : State) (k : Nat) : List Nat :=
  let p := Config.linkPeer k
  let c := s.svc.linkErrs.getD k (0, 0)
  [(s.chip.linksUp.getLsbD k).toNat * 2 ^ 31 + bitsOf p.toNat 16 12 * 2 ^ 16 + bitsOf p.toNat 0 5, c.1, c.2, 0]

/-- DEVSTATE (R387). -/
def State.devWord (s : State) : Nat := s.jobs % 8192 * 65536 + s.svc.throt.toNat * 8 + s.svc.dev.code

/-- Frames in a state, of the 3,145,728 of the package. -/
def State.framesIn (s : State) (st : Nat) : Nat :=
  if st = fsClean then Config.packageBytes / 65536 - (s.mem.frames.filter fun f => frameState f.2 != fsClean).length
  else (s.mem.frames.filter fun f => frameState f.2 == st).length

/-- The fields of the window, as runs of bytes at rising offsets; bytes not listed are zero. -/
def State.windowRuns (s : State) (seq power temp : Nat) : List (Nat × List Byte) :=
  let words (ws : List Nat) : List Byte := ws.flatMap (leBytes 4)
  let health (k : Nat) : List Byte := words ((List.range (domainCount k)).map fun i => healthWord (s.healthOf k i))
  [(0x0000, words [seq, s.devWord]), (0x0008, leBytes 8 s.env.cycle),
   (0x0010, words [s.chip.chipId.toNat, s.ucver.toNat, s.fwver, 0, power, temp]),
   (0x0028, words [s.svc.admitted, s.svc.completed, (s.blks.filter fun x => x.phase == .resident).length,
                   s.framesIn fsClean, s.framesIn fsDirty, s.framesIn fsRetired]),
   (0x0100, words ((List.range Config.tillers).map s.tillerWord)),
   (0x0400, words ((List.range 24).flatMap s.linkWords)),
   (0x0800, health 0), (0x1400, health 1), (0x1460, health 2), (0x14A0, health 3), (0x1500, health 4)] ++
  s.ctxs.filterMap fun c => if c.n < 64 then some (0x2000 + 64 * c.n, c.lastFault.take 64) else none

/-- STATUS_WINDOW_REFRESH: SEQ goes by two, the window is one refresh, and a power limit above 2,400 W is clamped (R393). -/
def execStatusWindowRefresh (power temp limit : BitVec 32) (s : State) : Host.Outcome State Fault Refusal :=
  if s.flt.frozenMgmt then .next s
  else
    let t := s.settleQuiesce.countErrors
    let seq := (t.svc.wseq + 2) % 2 ^ 32
    let pw := power.toNat % 65536 + min 2400 (limit.toNat % 65536) * 65536
    let win := (t.windowRuns seq pw temp.toNat).foldl (fun m r => writeBytes r.1 r.2 m) []
    .next (t.setSvc { t.svc with window := win, wseq := seq })

/-! ## Registers without behaviour of their own (R6, R372) -/

/-- A write of CMD whose OP names no command gives status 7, unless a command is executing; the commands are events of their own (R368). -/
def unknownCmd (w : BitVec 32) (s : State) : State :=
  if s.chip.s2busy.isSome || (1 ≤ w.toNat % 256 && w.toNat % 256 ≤ 10) then s else s.s2Done 7

/-- SVCCMD is the same: an OP that names no operation is invalid (R388). -/
def unknownSvc (w : BitVec 32) (s : State) : State :=
  if s.flt.frozenMgmt || s.svc.busy.isSome || (1 ≤ w.toNat % 256 && w.toNat % 256 ≤ 11) then s else s.svcDone 3

/-- REGISTER_WRITE: a write by the physical function to a register of its BAR 0; read-only registers ignore it. -/
def execRegisterWrite (off : Nat) (v : BitVec 64) (s : State) : Host.Outcome State Fault Refusal :=
  pfRequest s fun s =>
    let w : BitVec 32 := v.setWidth 32
    match off with
    | 0x1000 => s.setChip { s.chip with chipId := v.setWidth 12 }
    | 0x20000 => s.setChip { s.chip with arg0 := v }
    | 0x20008 => s.setChip { s.chip with arg1 := v }
    | 0x21000 => s.setChip { s.chip with prqBase := v }
    | 0x2100C => (s.setChip { s.chip with prqHead := w }).flushPages
    | 0x21010 => (s.setChip { s.chip with prqLog := w }).flushPages
    | 0x20010 => unknownCmd w s
    | 0x30000 => unknownSvc w s
    | 0x30008 => s.setSvc { s.svc with arg := v }
    | _ =>
      if 0x10000 ≤ off ∧ off < 0x14000 ∧ off % 4 = 0 then
        s.setChip { s.chip with routes := assign ((off - 0x10000) / 4) (w &&& 0x80FFFFFF) s.chip.routes }
      else s

/-! ## Reads of registers (R6, R7, R372) -/

/-- A half of a 128-bit entry: bits [63:0] at its offset, [127:64] at offset 8. -/
def half128 (v : BitVec 128) (off : Nat) : List Byte := leBytes 8 (bitsOf v.toNat (64 * (off / 8 % 2)) 64)

/-- What a read of a function's block returns, for a context that the function owns: the range registers as they are committed, and
APCTL; the doorbells are write-only (R359, R361, R372, R374, DEDUCED log 147). -/
def State.blockReg (s : State) (fn off : Nat) : List Byte :=
  if off = 0x2000 then leBytes 8 (lookupD (0 : BitVec 64) fn s.chip.apctl).toNat
  else if 0x10000 ≤ off ∧ off < 0x14000 then
    let ctx := (off - 0x10000) / 256
    if (s.ctx ctx).fn = fn then half128 (lookupD 0 (off / 16 % 16) (s.ctx ctx).ranges) off else leBytes 8 0
  else leBytes 8 0

/-- SPDIVd (R373). -/
def State.spdivWord (s : State) (die : Nat) : Nat :=
  (s.divPending die).toNat * 2 ^ 31 + s.chip.spCur.getD die 0 % 16 * 2 ^ 16 + s.chip.spReq.getD die 0 % 16

/-- What a read of the physical function's BAR 0 returns; write-only registers and offsets that hold none read as zero. -/
def State.pfReg (s : State) (off : Nat) : List Byte :=
  match off with
  | 0x1000 => leBytes 4 s.chip.chipId.toNat
  | 0x20000 => leBytes 8 s.chip.arg0.toNat
  | 0x20008 => leBytes 8 s.chip.arg1.toNat
  | 0x20018 => leBytes 4 (s.chip.s2busy.isSome.toNat * 2 ^ 31 + s.chip.s2status % 256)
  | 0x21000 => leBytes 8 s.chip.prqBase.toNat
  | 0x21008 => leBytes 4 s.chip.prqTail.toNat
  | 0x2100C => leBytes 4 s.chip.prqHead.toNat
  | 0x21010 => leBytes 4 s.chip.prqLog.toNat
  | 0x22000 => leBytes 8 s.chip.hdmBase.toNat
  | 0x22008 => leBytes 8 s.chip.hdmSize.toNat
  | 0x30008 => leBytes 8 s.svc.arg.toNat
  | 0x30010 => leBytes 4 (s.svc.busy.isSome.toNat * 2 ^ 31 + s.svc.status % 256)
  | _ =>
    if off < 0x400 then half128 (s.ctx (off / 16)).entry off
    else if 0x10000 ≤ off ∧ off < 0x14000 then leBytes 4 (lookupD (0 : BitVec 32) ((off - 0x10000) / 4) s.chip.routes).toNat
    else if 0x23000 ≤ off ∧ off < 0x23010 then leBytes 4 (s.spdivWord ((off - 0x23000) / 4))
    else if 0x1000000 ≤ off ∧ off < 0x1100000 then s.blockReg 0 (off - 0x1000000)
    else leBytes 8 0

/-- A read of a register returns once the requester's earlier posted writes have performed (R378); RRSYNC is a step of its own. -/
def execReadReg (fn requester off : Nat) (s : State) : Host.Outcome State Fault Refusal :=
  if s.flt.frozenFns.contains fn then .next (s.setEnv { s.env with aborted := true })
  else if s.qs.inb.any (·.requester == requester) then .next s
  else .next (s.setEnv { s.env with reply := if fn = 0 then s.pfReg off else s.blockReg fn off, aborted := false })

/-- A read of the status window, by the physical function (R385). -/
def execReadWindow (off n : Nat) (s : State) : Host.Outcome State Fault Refusal :=
  pfRequest s fun s => s.setEnv { s.env with reply := (List.range n).map fun i => (lookup? (off + i) s.svc.window).getD 0 }

/-! ## Power, bring-up and debug (R375, R385, R393, R396) -/

/-- Memory that is not the part's: the host's, and other chips'. -/
def outsideBytes (m : List (Nat × Byte)) : List (Nat × Byte) := m.filter fun p => Config.hostWindow ≤ p.1 && p.1 < 2 ^ 60

/-- The part without power: every state of it is lost; the agenda and the memory outside it are not the part's. -/
def State.lost (s : State) : State :=
  { State.reset with
    env := { Env.reset with powered := false, agenda := s.env.agenda, ctr := s.env.ctr, fresh := s.env.fresh }
    mem := { Mem.reset with bytes := outsideBytes s.mem.bytes } }

/-- A domain that fails training, or the spare of a tiller (kind 5). -/
def failDomain (s : State) (d : Nat × Nat) : State :=
  let s1 := if isDomain d.1 d.2 then s.setHealth d.1 d.2 { Health.clean with dstate := 6, grade := 3 } else s
  match d.1 with
  | 2 => if d.2 < 16 then s1.setSvc { s1.svc with halvesOut := s1.svc.halvesOut ++ [d.2] } else s1
  | 3 => s1.linkDown d.2
  | 5 => s1.setSvc { s1.svc with spareFailed := s1.svc.spareFailed ++ [d.2] }
  | _ => s1

/-- POWER_ON: bring-up, ending in SERVICE. -/
def execPowerOn (failed : List (Nat × Nat)) (s : State) : Host.Outcome State Fault Refusal :=
  if s.env.powered then .next s
  else
    let t := s.lost
    .next (failed.foldl failDomain (t.setEnv { t.env with powered := true }))

def execThrottle (on : Bool) (s : State) : Host.Outcome State Fault Refusal := .next (s.setSvc { s.svc with throt := on })

/-- THERMAL_TRIP: from 110.0 °C the hardware removes module power. -/
def execThermalTrip (tenths : Nat) (s : State) : Host.Outcome State Fault Refusal :=
  .next (if 1100 ≤ tenths then s.lost else s)

def execModulePowerLoss (s : State) : Host.Outcome State Fault Refusal := .next s.lost

/-- DEBUG_PORT_READ of one byte of M. -/
def execDebugPortRead (addr : Nat) (s : State) : Host.Outcome State Fault Refusal :=
  if s.svc.debug then .next (s.setEnv { s.env with reply := [readByte s.mem.bytes addr], aborted := false })
  else .next (s.setEnv { s.env with reply := [], aborted := true })

/-- CONVENTIONAL_RESET: the mode is open again, and every HDM page has host bias. -/
def execConventionalReset (s : State) : Host.Outcome State Fault Refusal :=
  let t := s.setChip { s.chip with mode := .untrained, hostUp := false, hostFailed := false }
  .next (t.setMem { t.mem with device := [] })

/-- MEASURED_DEBUG_ENABLE: the event is extended into MEAS3 first. -/
def execMeasuredDebugEnable (s : State) : Host.Outcome State Fault Refusal :=
  let t := s.extendMeas 3 Config.debugDigest
  .next (t.setSvc { t.svc with debug := true })

end Sys2Proof.Machine
end

