-- ==== Sys2Proof/Machine/Dispatch.lean ====
section
/-! DEFINITION. One arm for each instruction: the direct call of its meaning. -/

namespace Sys2Proof.Machine

def exec (i : Instr) (s : State) : Host.Outcome State Fault Refusal :=
  match i with
  | .br x0 x1 x2 => Sys2Proof.Machine.execBr x0 x1 x2 s
  | .bt x0 x1 x2 x3 => Sys2Proof.Machine.execBt x0 x1 x2 x3 s
  | .bf x0 x1 x2 x3 => Sys2Proof.Machine.execBf x0 x1 x2 x3 s
  | .loop x0 x1 x2 x3 => Sys2Proof.Machine.execLoop x0 x1 x2 x3 s
  | .call x0 x1 => Sys2Proof.Machine.execCall x0 x1 s
  | .callr x0 x1 => Sys2Proof.Machine.execCallr x0 x1 s
  | .ret x0 => Sys2Proof.Machine.execRet x0 s
  | .regang => Sys2Proof.Machine.execRegang s
  | .lif x0 x1 => Sys2Proof.Machine.execLif x0 x1 s
  | .lelse => Sys2Proof.Machine.execLelse s
  | .lendif => Sys2Proof.Machine.execLendif s
  | .doneScope x0 => Sys2Proof.Machine.execDoneScope x0 s
  | .nop x0 => Sys2Proof.Machine.execNop x0 s
  | .yield x0 => Sys2Proof.Machine.execYield x0 s
  | .vany x0 x1 => Sys2Proof.Machine.execVany x0 x1 s
  | .vall x0 x1 => Sys2Proof.Machine.execVall x0 x1 s
  | .vfirst x0 x1 => Sys2Proof.Machine.execVfirst x0 x1 s
  | .vcount x0 x1 => Sys2Proof.Machine.execVcount x0 x1 s
  | .vsum x0 x1 => Sys2Proof.Machine.execVsum x0 x1 s
  | .vmax x0 x1 x2 => Sys2Proof.Machine.execVmax x0 x1 x2 s
  | .add x0 x1 x2 x3 x4 x5 => Sys2Proof.Machine.execAdd x0 x1 x2 x3 x4 x5 s
  | .sub x0 x1 x2 x3 x4 x5 => Sys2Proof.Machine.execSub x0 x1 x2 x3 x4 x5 s
  | .mul x0 x1 x2 x3 x4 x5 => Sys2Proof.Machine.execMul x0 x1 x2 x3 x4 x5 s
  | .mulhi x0 x1 x2 x3 x4 => Sys2Proof.Machine.execMulhi x0 x1 x2 x3 x4 s
  | .mad x0 x1 x2 x3 x4 x5 x6 => Sys2Proof.Machine.execMad x0 x1 x2 x3 x4 x5 x6 s
  | .div x0 x1 x2 x3 x4 => Sys2Proof.Machine.execDiv x0 x1 x2 x3 x4 s
  | .rem x0 x1 x2 x3 x4 => Sys2Proof.Machine.execRem x0 x1 x2 x3 x4 s
  | .min x0 x1 x2 x3 x4 => Sys2Proof.Machine.execMin x0 x1 x2 x3 x4 s
  | .max x0 x1 x2 x3 x4 => Sys2Proof.Machine.execMax x0 x1 x2 x3 x4 s
  | .abs x0 x1 x2 x3 x4 => Sys2Proof.Machine.execAbs x0 x1 x2 x3 x4 s
  | .neg x0 x1 x2 x3 x4 => Sys2Proof.Machine.execNeg x0 x1 x2 x3 x4 s
  | .and x0 x1 x2 x3 x4 => Sys2Proof.Machine.execAnd x0 x1 x2 x3 x4 s
  | .or x0 x1 x2 x3 x4 => Sys2Proof.Machine.execOr x0 x1 x2 x3 x4 s
  | .xor x0 x1 x2 x3 x4 => Sys2Proof.Machine.execXor x0 x1 x2 x3 x4 s
  | .andn x0 x1 x2 x3 x4 => Sys2Proof.Machine.execAndn x0 x1 x2 x3 x4 s
  | .not x0 x1 x2 x3 => Sys2Proof.Machine.execNot x0 x1 x2 x3 s
  | .shl x0 x1 x2 x3 x4 x5 => Sys2Proof.Machine.execShl x0 x1 x2 x3 x4 x5 s
  | .shr x0 x1 x2 x3 x4 => Sys2Proof.Machine.execShr x0 x1 x2 x3 x4 s
  | .sar x0 x1 x2 x3 x4 => Sys2Proof.Machine.execSar x0 x1 x2 x3 x4 s
  | .rot x0 x1 x2 x3 x4 => Sys2Proof.Machine.execRot x0 x1 x2 x3 x4 s
  | .clz x0 x1 x2 x3 => Sys2Proof.Machine.execClz x0 x1 x2 x3 s
  | .popc x0 x1 x2 x3 => Sys2Proof.Machine.execPopc x0 x1 x2 x3 s
  | .brev x0 x1 x2 x3 => Sys2Proof.Machine.execBrev x0 x1 x2 x3 s
  | .bfx x0 x1 x2 x3 x4 => Sys2Proof.Machine.execBfx x0 x1 x2 x3 x4 s
  | .bfi x0 x1 x2 x3 x4 x5 => Sys2Proof.Machine.execBfi x0 x1 x2 x3 x4 x5 s
  | .ext x0 x1 x2 x3 x4 => Sys2Proof.Machine.execExt x0 x1 x2 x3 x4 s
  | .csel x0 x1 x2 x3 x4 x5 => Sys2Proof.Machine.execCsel x0 x1 x2 x3 x4 x5 s
  | .mov x0 x1 x2 x3 => Sys2Proof.Machine.execMov x0 x1 x2 x3 s
  | .lea x0 x1 x2 x3 x4 x5 => Sys2Proof.Machine.execLea x0 x1 x2 x3 x4 x5 s
  | .addc x0 x1 x2 x3 x4 x5 => Sys2Proof.Machine.execAddc x0 x1 x2 x3 x4 x5 s
  | .subb x0 x1 x2 x3 x4 x5 => Sys2Proof.Machine.execSubb x0 x1 x2 x3 x4 x5 s
  | .cmpEq x0 x1 x2 x3 x4 => Sys2Proof.Machine.execCmpEq x0 x1 x2 x3 x4 s
  | .cmpNe x0 x1 x2 x3 x4 => Sys2Proof.Machine.execCmpNe x0 x1 x2 x3 x4 s
  | .cmpLt x0 x1 x2 x3 x4 => Sys2Proof.Machine.execCmpLt x0 x1 x2 x3 x4 s
  | .cmpLe x0 x1 x2 x3 x4 => Sys2Proof.Machine.execCmpLe x0 x1 x2 x3 x4 s
  | .cmpGt x0 x1 x2 x3 x4 => Sys2Proof.Machine.execCmpGt x0 x1 x2 x3 x4 s
  | .cmpGe x0 x1 x2 x3 x4 => Sys2Proof.Machine.execCmpGe x0 x1 x2 x3 x4 s
  | .addImm x0 x1 x2 => Sys2Proof.Machine.execAddImm x0 x1 x2 s
  | .subImm x0 x1 x2 => Sys2Proof.Machine.execSubImm x0 x1 x2 s
  | .mulImm x0 x1 x2 => Sys2Proof.Machine.execMulImm x0 x1 x2 s
  | .andImm x0 x1 x2 => Sys2Proof.Machine.execAndImm x0 x1 x2 s
  | .orImm x0 x1 x2 => Sys2Proof.Machine.execOrImm x0 x1 x2 s
  | .xorImm x0 x1 x2 => Sys2Proof.Machine.execXorImm x0 x1 x2 s
  | .shlImm x0 x1 x2 => Sys2Proof.Machine.execShlImm x0 x1 x2 s
  | .shrImm x0 x1 x2 => Sys2Proof.Machine.execShrImm x0 x1 x2 s
  | .sarImm x0 x1 x2 => Sys2Proof.Machine.execSarImm x0 x1 x2 s
  | .rotImm x0 x1 x2 => Sys2Proof.Machine.execRotImm x0 x1 x2 s
  | .movi x0 x1 => Sys2Proof.Machine.execMovi x0 x1 s
  | .leaImm x0 x1 x2 => Sys2Proof.Machine.execLeaImm x0 x1 x2 s
  | .ixset x0 x1 x2 x3 x4 => Sys2Proof.Machine.execIxset x0 x1 x2 x3 x4 s
  | .ixget x0 x1 x2 => Sys2Proof.Machine.execIxget x0 x1 x2 s
  | .symq x0 x1 x2 => Sys2Proof.Machine.execSymq x0 x1 x2 s
  | .symw x0 x1 => Sys2Proof.Machine.execSymw x0 x1 s
  | .shf x0 x1 x2 x3 x4 => Sys2Proof.Machine.execShf x0 x1 x2 x3 x4 s
  | .shfx x0 x1 x2 x3 x4 => Sys2Proof.Machine.execShfx x0 x1 x2 x3 x4 s
  | .shfu x0 x1 x2 x3 x4 => Sys2Proof.Machine.execShfu x0 x1 x2 x3 x4 s
  | .shfd x0 x1 x2 x3 x4 => Sys2Proof.Machine.execShfd x0 x1 x2 x3 x4 s
  | .bcast x0 x1 x2 x3 x4 => Sys2Proof.Machine.execBcast x0 x1 x2 x3 x4 s
  | .scan x0 x1 x2 x3 x4 => Sys2Proof.Machine.execScan x0 x1 x2 x3 x4 s
  | .pand x0 x1 x2 x3 x4 => Sys2Proof.Machine.execPand x0 x1 x2 x3 x4 s
  | .por x0 x1 x2 x3 x4 => Sys2Proof.Machine.execPor x0 x1 x2 x3 x4 s
  | .pxor x0 x1 x2 x3 x4 => Sys2Proof.Machine.execPxor x0 x1 x2 x3 x4 s
  | .pnot x0 x1 x2 x3 => Sys2Proof.Machine.execPnot x0 x1 x2 x3 s
  | .fadd x0 x1 x2 x3 x4 x5 => Sys2Proof.Machine.execFadd x0 x1 x2 x3 x4 x5 s
  | .fsub x0 x1 x2 x3 x4 x5 => Sys2Proof.Machine.execFsub x0 x1 x2 x3 x4 x5 s
  | .fmul x0 x1 x2 x3 x4 x5 => Sys2Proof.Machine.execFmul x0 x1 x2 x3 x4 x5 s
  | .ffma x0 x1 x2 x3 x4 x5 x6 => Sys2Proof.Machine.execFfma x0 x1 x2 x3 x4 x5 x6 s
  | .fmin x0 x1 x2 x3 x4 x5 => Sys2Proof.Machine.execFmin x0 x1 x2 x3 x4 x5 s
  | .fmax x0 x1 x2 x3 x4 x5 => Sys2Proof.Machine.execFmax x0 x1 x2 x3 x4 x5 s
  | .fabs x0 x1 x2 x3 => Sys2Proof.Machine.execFabs x0 x1 x2 x3 s
  | .fneg x0 x1 x2 x3 => Sys2Proof.Machine.execFneg x0 x1 x2 x3 s
  | .fcmpEq x0 x1 x2 x3 x4 x5 => Sys2Proof.Machine.execFcmpEq x0 x1 x2 x3 x4 x5 s
  | .fcmpNe x0 x1 x2 x3 x4 x5 => Sys2Proof.Machine.execFcmpNe x0 x1 x2 x3 x4 x5 s
  | .fcmpLt x0 x1 x2 x3 x4 x5 => Sys2Proof.Machine.execFcmpLt x0 x1 x2 x3 x4 x5 s
  | .fcmpLe x0 x1 x2 x3 x4 x5 => Sys2Proof.Machine.execFcmpLe x0 x1 x2 x3 x4 x5 s
  | .fcmpGt x0 x1 x2 x3 x4 x5 => Sys2Proof.Machine.execFcmpGt x0 x1 x2 x3 x4 x5 s
  | .fcmpGe x0 x1 x2 x3 x4 x5 => Sys2Proof.Machine.execFcmpGe x0 x1 x2 x3 x4 x5 s
  | .fcmpUn x0 x1 x2 x3 x4 x5 => Sys2Proof.Machine.execFcmpUn x0 x1 x2 x3 x4 x5 s
  | .fcmpOr x0 x1 x2 x3 x4 x5 => Sys2Proof.Machine.execFcmpOr x0 x1 x2 x3 x4 x5 s
  | .fclass x0 x1 x2 x3 => Sys2Proof.Machine.execFclass x0 x1 x2 x3 s
  | .frcp x0 x1 x2 x3 x4 => Sys2Proof.Machine.execFrcp x0 x1 x2 x3 x4 s
  | .frsq x0 x1 x2 x3 x4 => Sys2Proof.Machine.execFrsq x0 x1 x2 x3 x4 s
  | .fsqrt x0 x1 x2 x3 x4 => Sys2Proof.Machine.execFsqrt x0 x1 x2 x3 x4 s
  | .fdiv x0 x1 x2 x3 x4 x5 => Sys2Proof.Machine.execFdiv x0 x1 x2 x3 x4 x5 s
  | .fexp2 x0 x1 x2 x3 x4 => Sys2Proof.Machine.execFexp2 x0 x1 x2 x3 x4 s
  | .flog2 x0 x1 x2 x3 x4 => Sys2Proof.Machine.execFlog2 x0 x1 x2 x3 x4 s
  | .fsin x0 x1 x2 x3 x4 => Sys2Proof.Machine.execFsin x0 x1 x2 x3 x4 s
  | .fcos x0 x1 x2 x3 x4 => Sys2Proof.Machine.execFcos x0 x1 x2 x3 x4 s
  | .fscale x0 x1 x2 x3 x4 x5 => Sys2Proof.Machine.execFscale x0 x1 x2 x3 x4 x5 s
  | .fround x0 x1 x2 x3 x4 x5 => Sys2Proof.Machine.execFround x0 x1 x2 x3 x4 x5 s
  | .fcvt x0 x1 x2 x3 x4 x5 => Sys2Proof.Machine.execFcvt x0 x1 x2 x3 x4 x5 s
  | .fcvti x0 x1 x2 x3 x4 x5 x6 => Sys2Proof.Machine.execFcvti x0 x1 x2 x3 x4 x5 x6 s
  | .ficvt x0 x1 x2 x3 x4 x5 => Sys2Proof.Machine.execFicvt x0 x1 x2 x3 x4 x5 s
  | .fdot2 x0 x1 x2 x3 x4 x5 x6 => Sys2Proof.Machine.execFdot2 x0 x1 x2 x3 x4 x5 x6 s
  | .fdot4 x0 x1 x2 x3 x4 x5 x6 => Sys2Proof.Machine.execFdot4 x0 x1 x2 x3 x4 x5 x6 s
  | .flgrd x0 => Sys2Proof.Machine.execFlgrd x0 s
  | .flgclr x0 => Sys2Proof.Machine.execFlgclr x0 s
  | .flgset x0 => Sys2Proof.Machine.execFlgset x0 s
  | .bxenc x0 x1 x2 x3 x4 => Sys2Proof.Machine.execBxenc x0 x1 x2 x3 x4 s
  | .bxdec x0 x1 x2 x3 x4 => Sys2Proof.Machine.execBxdec x0 x1 x2 x3 x4 s
  | .bxmax x0 x1 x2 => Sys2Proof.Machine.execBxmax x0 x1 x2 s
  | .pk4 x0 x1 x2 x3 x4 x5 => Sys2Proof.Machine.execPk4 x0 x1 x2 x3 x4 x5 s
  | .upk4 x0 x1 x2 x3 x4 => Sys2Proof.Machine.execUpk4 x0 x1 x2 x3 x4 s
  | .pk6 x0 x1 x2 => Sys2Proof.Machine.execPk6 x0 x1 x2 s
  | .upk6 x0 x1 x2 => Sys2Proof.Machine.execUpk6 x0 x1 x2 s
  | .f8enc x0 x1 x2 x3 x4 => Sys2Proof.Machine.execF8enc x0 x1 x2 x3 x4 s
  | .f8dec x0 x1 x2 x3 => Sys2Proof.Machine.execF8dec x0 x1 x2 x3 s
  | .scl x0 x1 x2 x3 x4 x5 x6 => Sys2Proof.Machine.execScl x0 x1 x2 x3 x4 x5 x6 s
  | .mload x0 x1 x2 x3 x4 x5 => Sys2Proof.Machine.execMload x0 x1 x2 x3 x4 x5 s
  | .mfree x0 x1 => Sys2Proof.Machine.execMfree x0 x1 s
  | .mma x0 x1 x2 x3 x4 x5 => Sys2Proof.Machine.execMma x0 x1 x2 x3 x4 x5 s
  | .mzero x0 => Sys2Proof.Machine.execMzero x0 s
  | .mstore x0 x1 x2 => Sys2Proof.Machine.execMstore x0 x1 x2 s
  | .mscale x0 x1 => Sys2Proof.Machine.execMscale x0 x1 s
  | .mget x0 x1 => Sys2Proof.Machine.execMget x0 x1 s
  | .mput x0 x1 => Sys2Proof.Machine.execMput x0 x1 s
  | .merr x0 x1 => Sys2Proof.Machine.execMerr x0 x1 s
  | .mclr => Sys2Proof.Machine.execMclr s
  | .matrixQueueExecute x0 x1 => Sys2Proof.Machine.execMatrixQueueExecute x0 x1 s
  | .ld x0 x1 x2 => Sys2Proof.Machine.execLd x0 x1 x2 s
  | .st x0 x1 x2 => Sys2Proof.Machine.execSt x0 x1 x2 s
  | .ldsys x0 x1 x2 => Sys2Proof.Machine.execLdsys x0 x1 x2 s
  | .stsys x0 x1 x2 => Sys2Proof.Machine.execStsys x0 x1 x2 s
  | .pf x0 => Sys2Proof.Machine.execPf x0 s
  | .llock x0 x1 => Sys2Proof.Machine.execLlock x0 x1 s
  | .lunlock x0 => Sys2Proof.Machine.execLunlock x0 s
  | .lquota x0 x1 => Sys2Proof.Machine.execLquota x0 x1 s
  | .biasDev x0 x1 => Sys2Proof.Machine.execBiasDev x0 x1 s
  | .biasHost x0 x1 => Sys2Proof.Machine.execBiasHost x0 x1 s
  | .biasFlip x0 => Sys2Proof.Machine.execBiasFlip x0 s
  | .accessQueueIssue x0 => Sys2Proof.Machine.execAccessQueueIssue x0 s
  | .queuedStorePerform x0 => Sys2Proof.Machine.execQueuedStorePerform x0 s
  | .symbolResolve x0 x1 => Sys2Proof.Machine.execSymbolResolve x0 x1 s
  | .memoryAccessComplete x0 x1 x2 => Sys2Proof.Machine.execMemoryAccessComplete x0 x1 x2 s
  | .homeSliceWrite x0 => Sys2Proof.Machine.execHomeSliceWrite x0 s
  | .battach x0 x1 x2 => Sys2Proof.Machine.execBattach x0 x1 x2 s
  | .bdetach x0 => Sys2Proof.Machine.execBdetach x0 s
  | .give x0 x1 x2 x3 x4 => Sys2Proof.Machine.execGive x0 x1 x2 x3 x4 s
  | .bankDrainComplete x0 x1 => Sys2Proof.Machine.execBankDrainComplete x0 x1 s
  | .bwait x0 x1 => Sys2Proof.Machine.execBwait x0 x1 s
  | .bstat x0 x1 x2 => Sys2Proof.Machine.execBstat x0 x1 x2 s
  | .bzero x0 => Sys2Proof.Machine.execBzero x0 s
  | .bmirror x0 => Sys2Proof.Machine.execBmirror x0 s
  | .bshare x0 x1 x2 x3 => Sys2Proof.Machine.execBshare x0 x1 x2 x3 s
  | .bshareOff x0 => Sys2Proof.Machine.execBshareOff x0 s
  | .cpy x0 x1 x2 x3 x4 x5 => Sys2Proof.Machine.execCpy x0 x1 x2 x3 x4 x5 s
  | .cpyd x0 x1 x2 x3 => Sys2Proof.Machine.execCpyd x0 x1 x2 x3 s
  | .gat x0 x1 x2 x3 x4 => Sys2Proof.Machine.execGat x0 x1 x2 x3 x4 s
  | .sct x0 x1 x2 x3 x4 => Sys2Proof.Machine.execSct x0 x1 x2 x3 x4 s
  | .coll x0 x1 x2 x3 => Sys2Proof.Machine.execColl x0 x1 x2 x3 s
  | .ewait x0 x1 => Sys2Proof.Machine.execEwait x0 x1 s
  | .epoll x0 x1 => Sys2Proof.Machine.execEpoll x0 x1 s
  | .pub x0 x1 x2 x3 => Sys2Proof.Machine.execPub x0 x1 x2 x3 s
  | .ecancel x0 => Sys2Proof.Machine.execEcancel x0 s
  | .engineRead x0 x1 x2 x3 => Sys2Proof.Machine.execEngineRead x0 x1 x2 x3 s
  | .drainEngineWrite x0 x1 => Sys2Proof.Machine.execDrainEngineWrite x0 x1 s
  | .pageBoundaryRevalidation x0 x1 => Sys2Proof.Machine.execPageBoundaryRevalidation x0 x1 s
  | .aadd x0 x1 x2 x3 => Sys2Proof.Machine.execAadd x0 x1 x2 x3 s
  | .amin x0 x1 x2 x3 x4 => Sys2Proof.Machine.execAmin x0 x1 x2 x3 x4 s
  | .amax x0 x1 x2 x3 x4 => Sys2Proof.Machine.execAmax x0 x1 x2 x3 x4 s
  | .aand x0 x1 x2 x3 => Sys2Proof.Machine.execAand x0 x1 x2 x3 s
  | .aor x0 x1 x2 x3 => Sys2Proof.Machine.execAor x0 x1 x2 x3 s
  | .axor x0 x1 x2 x3 => Sys2Proof.Machine.execAxor x0 x1 x2 x3 s
  | .axchg x0 x1 x2 x3 => Sys2Proof.Machine.execAxchg x0 x1 x2 x3 s
  | .acas x0 x1 x2 x3 x4 => Sys2Proof.Machine.execAcas x0 x1 x2 x3 x4 s
  | .afadd x0 x1 x2 x3 => Sys2Proof.Machine.execAfadd x0 x1 x2 x3 s
  | .ainc x0 x1 x2 x3 => Sys2Proof.Machine.execAinc x0 x1 x2 x3 s
  | .wcmpEq x0 x1 x2 x3 x4 => Sys2Proof.Machine.execWcmpEq x0 x1 x2 x3 x4 s
  | .wcmpNe x0 x1 x2 x3 x4 => Sys2Proof.Machine.execWcmpNe x0 x1 x2 x3 x4 s
  | .wcmpLt x0 x1 x2 x3 x4 => Sys2Proof.Machine.execWcmpLt x0 x1 x2 x3 x4 s
  | .wcmpLe x0 x1 x2 x3 x4 => Sys2Proof.Machine.execWcmpLe x0 x1 x2 x3 x4 s
  | .wcmpGt x0 x1 x2 x3 x4 => Sys2Proof.Machine.execWcmpGt x0 x1 x2 x3 x4 s
  | .wcmpGe x0 x1 x2 x3 x4 => Sys2Proof.Machine.execWcmpGe x0 x1 x2 x3 x4 s
  | .wcmpAny x0 x1 x2 x3 x4 => Sys2Proof.Machine.execWcmpAny x0 x1 x2 x3 x4 s
  | .wcancel x0 x1 => Sys2Proof.Machine.execWcancel x0 x1 s
  | .bararr x0 x1 x2 x3 => Sys2Proof.Machine.execBararr x0 x1 x2 x3 s
  | .barwait x0 x1 x2 => Sys2Proof.Machine.execBarwait x0 x1 x2 s
  | .barsync x0 x1 x2 => Sys2Proof.Machine.execBarsync x0 x1 x2 s
  | .swapOut x0 => Sys2Proof.Machine.execSwapOut x0 s
  | .blockRestore x0 x1 x2 => Sys2Proof.Machine.execBlockRestore x0 x1 x2 s
  | .fence x0 x1 => Sys2Proof.Machine.execFence x0 x1 s
  | .swf => Sys2Proof.Machine.execSwf s
  | .drainTillerQueue x0 => Sys2Proof.Machine.execDrainTillerQueue x0 s
  | .drainMirrorQueue x0 x1 => Sys2Proof.Machine.execDrainMirrorQueue x0 x1 s
  | .drainSystemQueue x0 x1 x2 => Sys2Proof.Machine.execDrainSystemQueue x0 x1 x2 s
  | .drainInboundQueue x0 => Sys2Proof.Machine.execDrainInboundQueue x0 s
  | .captureSystemLine x0 x1 => Sys2Proof.Machine.execCaptureSystemLine x0 x1 s
  | .captureCodeLine x0 x1 x2 => Sys2Proof.Machine.execCaptureCodeLine x0 x1 x2 s
  | .cpub x0 x1 x2 x3 => Sys2Proof.Machine.execCpub x0 x1 x2 x3 s
  | .callt x0 x1 => Sys2Proof.Machine.execCallt x0 x1 s
  | .calltRepoll x0 => Sys2Proof.Machine.execCalltRepoll x0 s
  | .bind x0 x1 x2 => Sys2Proof.Machine.execBind x0 x1 x2 s
  | .clauseHeader x0 => Sys2Proof.Machine.execClauseHeader x0 s
  | .groupPromotion x0 x1 => Sys2Proof.Machine.execGroupPromotion x0 x1 s
  | .launch x0 x1 => Sys2Proof.Machine.execLaunch x0 x1 s
  | .cntRd x0 x1 => Sys2Proof.Machine.execCntRd x0 x1 s
  | .cntSelf x0 x1 => Sys2Proof.Machine.execCntSelf x0 x1 s
  | .cntNew x0 x1 x2 => Sys2Proof.Machine.execCntNew x0 x1 x2 s
  | .cntClose x0 x1 => Sys2Proof.Machine.execCntClose x0 x1 s
  | .cwait x0 x1 => Sys2Proof.Machine.execCwait x0 x1 s
  | .cancel x0 x1 => Sys2Proof.Machine.execCancel x0 x1 s
  | .cancelDrain x0 x1 => Sys2Proof.Machine.execCancelDrain x0 x1 s
  | .cancelDelivery x0 => Sys2Proof.Machine.execCancelDelivery x0 s
  | .launchReady x0 => Sys2Proof.Machine.execLaunchReady x0 s
  | .gridSequencerTake x0 x1 => Sys2Proof.Machine.execGridSequencerTake x0 x1 s
  | .ticketDispense x0 x1 x2 x3 => Sys2Proof.Machine.execTicketDispense x0 x1 x2 x3 s
  | .blockStart x0 => Sys2Proof.Machine.execBlockStart x0 s
  | .blockRetirement x0 => Sys2Proof.Machine.execBlockRetirement x0 s
  | .jobdb x0 x1 x2 x3 => Sys2Proof.Machine.execJobdb x0 x1 x2 x3 s
  | .joback x0 x1 x2 => Sys2Proof.Machine.execJoback x0 x1 x2 s
  | .trap x0 => Sys2Proof.Machine.execTrap x0 s
  | .brk x0 => Sys2Proof.Machine.execBrk x0 s
  | .eret x0 x1 => Sys2Proof.Machine.execEret x0 x1 s
  | .eretKill x0 x1 => Sys2Proof.Machine.execEretKill x0 x1 s
  | .mfcr x0 x1 => Sys2Proof.Machine.execMfcr x0 x1 s
  | .mtcr x0 x1 => Sys2Proof.Machine.execMtcr x0 x1 s
  | .csave x0 x1 => Sys2Proof.Machine.execCsave x0 x1 s
  | .crest x0 x1 x2 x3 => Sys2Proof.Machine.execCrest x0 x1 x2 x3 s
  | .freeze x0 x1 => Sys2Proof.Machine.execFreeze x0 x1 s
  | .thaw x0 x1 => Sys2Proof.Machine.execThaw x0 x1 s
  | .halt x0 x1 => Sys2Proof.Machine.execHalt x0 x1 s
  | .faultDelivery x0 => Sys2Proof.Machine.execFaultDelivery x0 s
  | .faultRecordPost x0 => Sys2Proof.Machine.execFaultRecordPost x0 s
  | .stateerr x0 => Sys2Proof.Machine.execStateerr x0 s
  | .resolve x0 => Sys2Proof.Machine.execResolve x0 s
  | .s2Map x0 => Sys2Proof.Machine.execS2Map x0 s
  | .s2Unmap x0 => Sys2Proof.Machine.execS2Unmap x0 s
  | .s2Inval x0 => Sys2Proof.Machine.execS2Inval x0 s
  | .stage2WaitComplete => Sys2Proof.Machine.execStage2WaitComplete s
  | .s2Scrub x0 => Sys2Proof.Machine.execS2Scrub x0 s
  | .s2Table x0 => Sys2Proof.Machine.execS2Table x0 s
  | .s2Untable x0 => Sys2Proof.Machine.execS2Untable x0 s
  | .s2Shadd x0 => Sys2Proof.Machine.execS2Shadd x0 s
  | .s2Shdel x0 => Sys2Proof.Machine.execS2Shdel x0 s
  | .s2Expose x0 => Sys2Proof.Machine.execS2Expose x0 s
  | .s2Retire x0 => Sys2Proof.Machine.execS2Retire x0 s
  | .rangeRegisterStage x0 x1 x2 x3 => Sys2Proof.Machine.execRangeRegisterStage x0 x1 x2 x3 s
  | .rangeRegisterCommit x0 x1 x2 x3 => Sys2Proof.Machine.execRangeRegisterCommit x0 x1 x2 x3 s
  | .rrsync x0 => Sys2Proof.Machine.execRrsync x0 s
  | .contextTableWrite x0 x1 => Sys2Proof.Machine.execContextTableWrite x0 x1 s
  | .spdiv x0 x1 => Sys2Proof.Machine.execSpdiv x0 x1 s
  | .spdivChange x0 => Sys2Proof.Machine.execSpdivChange x0 s
  | .apctl x0 x1 => Sys2Proof.Machine.execApctl x0 x1 s
  | .apertureRead x0 x1 x2 x3 => Sys2Proof.Machine.execApertureRead x0 x1 x2 x3 s
  | .apertureWrite x0 x1 x2 x3 => Sys2Proof.Machine.execApertureWrite x0 x1 x2 x3 s
  | .hdmbaseWrite x0 x1 => Sys2Proof.Machine.execHdmbaseWrite x0 x1 s
  | .cxlMemRead x0 x1 => Sys2Proof.Machine.execCxlMemRead x0 x1 s
  | .cxlMemWrite x0 x1 x2 => Sys2Proof.Machine.execCxlMemWrite x0 x1 x2 s
  | .snpData x0 => Sys2Proof.Machine.execSnpData x0 s
  | .snpInv x0 => Sys2Proof.Machine.execSnpInv x0 s
  | .hccEviction x0 => Sys2Proof.Machine.execHccEviction x0 s
  | .hostLinkTraining x0 x1 => Sys2Proof.Machine.execHostLinkTraining x0 x1 s
  | .functionLevelReset x0 => Sys2Proof.Machine.execFunctionLevelReset x0 s
  | .peerInboundRequest x0 x1 x2 x3 => Sys2Proof.Machine.execPeerInboundRequest x0 x1 x2 x3 s
  | .linkFailure x0 => Sys2Proof.Machine.execLinkFailure x0 s
  | .bandwidthTokenRefill x0 => Sys2Proof.Machine.execBandwidthTokenRefill x0 s
  | .statusWindowRefresh x0 x1 x2 => Sys2Proof.Machine.execStatusWindowRefresh x0 x1 x2 s
  | .drain x0 => Sys2Proof.Machine.execDrain x0 s
  | .undrain x0 => Sys2Proof.Machine.execUndrain x0 s
  | .enterService x0 => Sys2Proof.Machine.execEnterService x0 s
  | .exitService x0 => Sys2Proof.Machine.execExitService x0 s
  | .quiesce x0 => Sys2Proof.Machine.execQuiesce x0 s
  | .recal x0 => Sys2Proof.Machine.execRecal x0 s
  | .recalComplete x0 x1 => Sys2Proof.Machine.execRecalComplete x0 x1 s
  | .spare x0 => Sys2Proof.Machine.execSpare x0 s
  | .update x0 x1 => Sys2Proof.Machine.execUpdate x0 x1 s
  | .resume x0 => Sys2Proof.Machine.execResume x0 s
  | .extend x0 => Sys2Proof.Machine.execExtend x0 s
  | .report x0 => Sys2Proof.Machine.execReport x0 s
  | .registerWrite x0 x1 => Sys2Proof.Machine.execRegisterWrite x0 x1 s
  | .powerOn x0 => Sys2Proof.Machine.execPowerOn x0 s
  | .throttle x0 => Sys2Proof.Machine.execThrottle x0 s
  | .thermalTrip x0 => Sys2Proof.Machine.execThermalTrip x0 s
  | .debugPortRead x0 => Sys2Proof.Machine.execDebugPortRead x0 s
  | .modulePowerLoss => Sys2Proof.Machine.execModulePowerLoss s
  | .conventionalReset => Sys2Proof.Machine.execConventionalReset s
  | .measuredDebugEnable => Sys2Proof.Machine.execMeasuredDebugEnable s

end Sys2Proof.Machine
end

