-- ==== Sys2Proof/Machine/Fetch.lean ====
section
/-! DEFINITION. Which instruction a unit issues next, with the decode faults of its clause, and how the host's word is placed
for the next step (03_encoding R52, R55 to R57, DESIGN CHOICE log 1). -/

namespace Sys2Proof.Machine

/-- What a unit does when it is asked to issue. -/
inductive Fetched
  | run (i : Instr)
  | fault (pc : Nat) (t : Trap)
  | idle
  deriving DecidableEq, Repr

/-- A decode fault: LANES names every lane of the slices that issue (R403). -/
def decodeTrap (c : Cause) (u : UnitRef) (k : ClauseRun) : Trap :=
  { cause := c, addr := 0, info := 0, after := false
    lanes := match u with
      | .slice b g _ => laneMask ((k.team.map (UnitRef.slice b g)).flatMap lanesOfSlice)
      | _ => 0 }

/-- The instructions of a clause's earlier words. -/
def ClauseRun.earlier (c : ClauseRun) : List Instr :=
  (c.words.take c.pos).map fun w => match decode w with | .ok i => i | .error _ => .nop .slice

/-- The instruction that stands at a clause's position, decoded and checked (R52, R55 to R57). -/
def ClauseRun.instr (c : ClauseRun) (k : Cls) (w : Nat) : Except Cause Instr :=
  match decode w with
  | .error _ => .error .undef
  | .ok i =>
    if !(i.legalIn k && i.placedOk c.pos) then .error .undef
    else if !i.latchOk c.pos c.earlier then .error .latch
    else .ok i

/-- The next instruction of a unit: the one its clause stands at; between clauses, CLAUSE_HEADER. -/
def State.fetchInstr (s : State) (u : UnitRef) : Fetched :=
  if !s.mayIssue u then .idle
  else match s.seq? u with
  | none => .idle
  | some q =>
    match q.clause with
    | none => .run (.clauseHeader u)
    | some c =>
      match c.ended, c.words[c.pos]? with
      | false, some w =>
        (match c.instr u.cls w with
         | .ok i => .run i
         | .error e => .fault c.pcAt (decodeTrap e u c))
      | _, _ => .run (.clauseHeader u)

/-- The state in which a unit issues. -/
def State.acting (s : State) (u : UnitRef) (budget : Nat) : State := s.setEnv { s.env with cur := u, budget := budget }

/-- A unit issues. -/
def issueUnit (u : UnitRef) (budget : Nat) (s : State) : Host.Outcome State Fault Refusal :=
  match s.fetchInstr u with
  | .run i => exec i (s.acting u budget)
  | .fault pc t => .next (takeFault u pc t s)
  | .idle => .next s

/-- The agenda's head is taken, and time passes. -/
def State.take (s : State) (c : Choice) (rest : List Choice) : State :=
  s.setEnv { s.env with cycle := s.env.cycle + c.elapsed, agenda := rest, dataErr := c.dataErr, refused := c.refused }

/-- Whether a row of the opcode table is a step of the part, which no program issues. -/
def isEvent (i : Instr) : Bool := i.classes.isEmpty

/-- What the agenda's head asks. Without module power only POWER_ON happens (R396). -/
def State.doAct (s : State) : Act → Host.Outcome State Fault Refusal
  | .issue u n => if s.env.powered then issueUnit u n s else .next s
  | .event i =>
    match i with
    | .powerOn _ => exec i s
    | _ => if s.env.powered && isEvent i then exec i s else .next s
  | .hostStore r a bs => if s.env.powered then execHostStore r a bs s else .next s
  | .hostLoad r a n => if s.env.powered then execHostLoad r a n s else .next s
  | .readReg fn r off => if s.env.powered then execReadReg fn r off s else .next s
  | .readWindow off n => if s.env.powered then execReadWindow off n s else .next s

/-! ## The host's word -/

/-- The class of clause in which a word is placed: the first in which it is legal, else slice. -/
def placeClass (w : Nat) : Cls :=
  match decode w with
  | .ok i => (clsAll.find? fun c => i.legalIn c).getD .slice
  | .error _ => .slice

/-- The one-block launch in which a word is placed: 8 lanes, one group, all 20 register units, ENTRY 0. -/
def placeDesc : Desc :=
  { entry := 0, ltp := 0, width := 0, regs := 20, groups := 1, banks := 0, gang := 1, lclass := 0, compat := false }

def placeUnit : Cls → UnitRef
  | .slice => .slice 0 0 0 | .group => .group 0 0 | .block => .block 0 | .gang => .gang 0 0 | .grid => .grid 0

/-- A clause of one word. -/
def placeClause (c : Cls) (w : Nat) : ClauseRun :=
  { addr := 0
    hdr := { cls := c, count := 0, wait0 := 3, wait1 := 3, wait2 := 3, wait3 := 3, symw := false, prio := 0, cache := 0,
             len := 0, hext := 0 }
    words := [w], pos := 0, next := none, team := if c = .slice then [0, 1] else [0], retire := false, ended := false }

/-- A running block of a launch, its sequencers between clauses at address 0, and the word in the clause of one of them; no
sequencer has stopped, and no context is halted: the load of a program that stands for the dispatch from outside (DESIGN CHOICE log 1). -/
def placeWord (s : State) (w : Nat) : State :=
  let c := placeClass w
  let u := placeUnit c
  let x := { Blk.fresh 0 0 0 0 0 0 placeDesc 0 0 with phase := .resident }
  let us : List UnitRef := [.grid 0, .gang 0 0, .block 0, .group 0 0, .slice 0 0 0, .slice 0 0 1]
  let q := Seq.start 0
  { s with
    env := { s.env with powered := true, agenda := [{ elapsed := 0, act := .issue u 64 }] }
    seqs := us.map fun v => (v, if v = u then { q with clause := some (placeClause c w) } else q)
    blks := [x]
    gangs := [Gang.fresh 0 0 0 [0]]
    ctxs := s.ctxs.map fun c => { c with halted := false }
    flt := { s.flt with uppers := [] }
    work := { s.work with entries :=
      [Entry.ofLaunch 0 0 0 .active { LaunchData.fresh placeDesc 1 0 [] [] with gridSeq := true, given := 1 }] } }

end Sys2Proof.Machine
end

