-- ==== Sys2Proof/Machine/Step.lean ====
section
/-! DEFINITION. One step of the machine: what the agenda asks next (13_ordering R274, DESIGN CHOICE log 2), and the placing of the host's
word. -/

namespace Sys2Proof.Machine

/-- One step. With an empty agenda nothing happens. -/
def step (s : State) : Host.Outcome State Fault Refusal :=
  match s.env.agenda with
  | [] => .next s
  | c :: r => (s.take c r).doAct c.act

/-- `s` with an instruction word where the next step issues it. An instruction has one word of 64 bits. -/
def State.withFetchWord (s : State) (_nbits w : Nat) : State := placeWord s (w % 2 ^ 64)

end Sys2Proof.Machine
end

