-- ==== Sys2Proof/Safety.lean ====
section
/-! DEFINITION. Safe runs: the machine itself never stops, and what every step keeps. -/

namespace Sys2Proof

/-- A step that answers a next state. A fault of the instruction set is a next state too: it is taken (16_system R335). -/
def Safe (s : Machine.State) : Prop := ∃ t, Machine.step s = .next t

/-- `k` steps from a state all answer. -/
def SafeFor : Nat → Machine.State → Prop
  | 0, _ => True
  | k + 1, s => ∃ t, Machine.step s = .next t ∧ SafeFor k t

/-- The memory of the part stands in its one form (DESIGN CHOICE log 3). -/
def MemoryWf (s : Machine.State) : Prop := Machine.Memory.wf s.mem.bytes

end Sys2Proof
end

