-- ==== Sys2Proof/Certificates/Slice0/Forms.lean ====
section
/-! DEFINITION. The tables and conditions that the statements use: what each instruction that computes lane by lane reads and
gives (05_integer R98 to R104, 06_float R121 to R130, 07_narrow R143 to R147). -/

namespace Sys2Proof.Machine

/-- An instruction that computes lane by lane: its destination and width, its predicate, its sources with how each is read, and
from the numbers read the result, the flags and the carry. -/
structure LaneForm where
  out : Out
  wide : Bool
  pred : Nat
  srcs : List (Src × As)
  value : List Nat → Nat
  flags : List Nat → Nat := fun _ => 0
  carryTo : Nat := 7
  carry : List Nat → Option Bool := fun _ => none

/-- An integer result: exact, clamped where asked, modulo 2^w (R98). -/
def LaneForm.int (o : Out) (p : Nat) (t : Sys2Proof.ITy) (sat : Bool) (srcs : List (Src × As)) (x : List Nat → Int) : LaneForm :=
  { out := o, wide := t.wide, pred := p, srcs := srcs, value := fun ns => wrapInt t.bits (satInt t sat (x ns)) }

/-- A comparison gives 1 or 0 (R98). -/
def LaneForm.cmp (o : Out) (p : Nat) (t : Sys2Proof.ITy) (a b : Src) (r : Int → Int → Bool) : LaneForm :=
  { out := o, wide := t.wide && (match o.dst with | .pred _ => false | _ => true), pred := p, srcs := [(a, .int t), (b, .int t)]
    value := fun ns => if r (ITy.val t (arg ns 0)) (ITy.val t (arg ns 1)) then 1 else 0 }

/-- The V-format integer instructions that no other lane takes part in (R98 to R102). -/
def integerForm : Instr → Option LaneForm
  | .add o p t s a b => some (.int o p t s [(a, .int t), (b, .int t)] fun ns => ITy.val t (arg ns 0) + ITy.val t (arg ns 1))
  | .sub o p t s a b => some (.int o p t s [(a, .int t), (b, .int t)] fun ns => ITy.val t (arg ns 0) - ITy.val t (arg ns 1))
  | .mul o p t s a b => some (.int o p t s [(a, .int t), (b, .int t)] fun ns => ITy.val t (arg ns 0) * ITy.val t (arg ns 1))
  | .mulhi o p t a b =>
      some (.int o p t false [(a, .int t), (b, .int t)] fun ns => ITy.val t (arg ns 0) * ITy.val t (arg ns 1) / (2 : Int) ^ t.bits)
  | .mad o p t s a b c =>
      some (.int o p t s [(a, .int t), (b, .int t), (c, .int t)] fun ns =>
        ITy.val t (arg ns 0) * ITy.val t (arg ns 1) + ITy.val t (arg ns 2))
  | .div o p t a b => some (.int o p t false [(a, .int t), (b, .int t)] fun ns =>
      if arg ns 1 = 0 then 2 ^ t.bits - 1 else (ITy.val t (arg ns 0)).tdiv (ITy.val t (arg ns 1)))
  | .rem o p t a b => some (.int o p t false [(a, .int t), (b, .int t)] fun ns =>
      if arg ns 1 = 0 then ITy.val t (arg ns 0) else (ITy.val t (arg ns 0)).tmod (ITy.val t (arg ns 1)))
  | .min o p t a b => some (.int o p t false [(a, .int t), (b, .int t)] fun ns => min (ITy.val t (arg ns 0)) (ITy.val t (arg ns 1)))
  | .max o p t a b => some (.int o p t false [(a, .int t), (b, .int t)] fun ns => max (ITy.val t (arg ns 0)) (ITy.val t (arg ns 1)))
  | .abs o p t s a => some (.int o p t s [(a, .int t)] fun ns => |ITy.val t (arg ns 0)|)
  | .neg o p t s a => some (.int o p t s [(a, .int t)] fun ns => -ITy.val t (arg ns 0))
  | .and o p t a b => some (.int o p t false [(a, .int t), (b, .int t)] fun ns => (arg ns 0 &&& arg ns 1 : Nat))
  | .or o p t a b => some (.int o p t false [(a, .int t), (b, .int t)] fun ns => (arg ns 0 ||| arg ns 1 : Nat))
  | .xor o p t a b => some (.int o p t false [(a, .int t), (b, .int t)] fun ns => (arg ns 0 ^^^ arg ns 1 : Nat))
  | .andn o p t a b => some (.int o p t false [(a, .int t), (b, .int t)] fun ns => (arg ns 0 &&& (2 ^ t.bits - 1 - arg ns 1) : Nat))
  | .not o p t a => some (.int o p t false [(a, .int t)] fun ns => (2 ^ t.bits - 1 - arg ns 0 : Nat))
  | .shl o p t s a b => some (.int o p t s [(a, .int t), (b, .w32)] fun ns => ITy.val t (arg ns 0) * (2 : Int) ^ min (arg ns 1) 128)
  | .shr o p t a b => some (.int o p t false [(a, .int t), (b, .w32)] fun ns => (arg ns 0 / 2 ^ min (arg ns 1) t.bits : Nat))
  | .sar o p t a b =>
      some (.int o p t false [(a, .int t), (b, .w32)] fun ns => signedOf t.bits (arg ns 0) / (2 : Int) ^ min (arg ns 1) (t.bits - 1))
  | .rot o p t a b => some (.int o p t false [(a, .int t), (b, .w32)] fun ns => rotLeft t.bits (arg ns 0) (arg ns 1))
  | .clz o p t a => some (.int o p t false [(a, .int t)] fun ns => leadingZeros t.bits (arg ns 0))
  | .popc o p t a => some (.int o p t false [(a, .int t)] fun ns => popCount t.bits (arg ns 0))
  | .brev o p t a => some (.int o p t false [(a, .int t)] fun ns => bitReverse t.bits (arg ns 0))
  | .bfx o p t a b => some (.int o p t false [(a, .int t), (b, .w32)] fun ns => bitExtract t (arg ns 0) (arg ns 1))
  | .bfi o p t a b c =>
      some (.int o p t false [(a, .int t), (b, .int t), (c, .w32)] fun ns => bitInsert t.bits (arg ns 0) (arg ns 1) (arg ns 2))
  | .ext o p t a b => some (.int o p t false [(a, .int t), (b, .w32)] fun ns => extendAt t (arg ns 0) (arg ns 1))
  | .csel o p t a b c =>
      some (.int o p t false [(a, .int t), (b, .int t), (.pred c, .w32)] fun ns => if arg ns 2 ≠ 0 then arg ns 0 else arg ns 1)
  | .mov o p t a => some (.int o p t false [(a, .int t)] fun ns => arg ns 0)
  | .lea o p t a b c =>
      some { out := o, wide := true, pred := p, srcs := [(a, baseAs t), (b, .int t), (c, .w32)]
             value := fun ns => wrapInt 64 ((arg ns 0 : Int) + ITy.val t (arg ns 1) * (2 : Int) ^ (arg ns 2 % 64)) }
  | .addc o p t a b q =>
      some { out := o, wide := t.wide, pred := p, srcs := [(a, .int t), (b, .int t), (.pred q, .w32)]
             value := fun ns => wrapInt t.bits ((arg ns 0 : Int) + arg ns 1 + arg ns 2)
             carryTo := q, carry := fun ns => some (decide ((2 : Int) ^ t.bits ≤ (arg ns 0 : Int) + arg ns 1 + arg ns 2)) }
  | .subb o p t a b q =>
      some { out := o, wide := t.wide, pred := p, srcs := [(a, .int t), (b, .int t), (.pred q, .w32)]
             value := fun ns => wrapInt t.bits ((arg ns 0 : Int) - arg ns 1 - arg ns 2)
             carryTo := q, carry := fun ns => some (decide ((arg ns 0 : Int) - arg ns 1 - arg ns 2 < 0)) }
  | .cmpEq o p t a b => some (.cmp o p t a b fun x y => decide (x = y))
  | .cmpNe o p t a b => some (.cmp o p t a b fun x y => decide (x ≠ y))
  | .cmpLt o p t a b => some (.cmp o p t a b fun x y => decide (x < y))
  | .cmpLe o p t a b => some (.cmp o p t a b fun x y => decide (x ≤ y))
  | .cmpGt o p t a b => some (.cmp o p t a b fun x y => decide (x > y))
  | .cmpGe o p t a b => some (.cmp o p t a b fun x y => decide (x ≥ y))
  | _ => none

/-- The immediate forms (R103) and the predicate instructions (R104). -/
def immediateForm : Instr → Option LaneForm
  | .addImm o a x => some (.int o 7 .z32 false [(a, .w32)] fun ns => (arg ns 0 : Int) + x.toNat)
  | .subImm o a x => some (.int o 7 .z32 false [(a, .w32)] fun ns => (arg ns 0 : Int) - x.toNat)
  | .mulImm o a x => some (.int o 7 .z32 false [(a, .w32)] fun ns => (arg ns 0 : Int) * x.toNat)
  | .andImm o a x => some (.int o 7 .z32 false [(a, .w32)] fun ns => (arg ns 0 &&& x.toNat : Nat))
  | .orImm o a x => some (.int o 7 .z32 false [(a, .w32)] fun ns => (arg ns 0 ||| x.toNat : Nat))
  | .xorImm o a x => some (.int o 7 .z32 false [(a, .w32)] fun ns => (arg ns 0 ^^^ x.toNat : Nat))
  | .shlImm o a x => some (.int o 7 .z32 false [(a, .w32)] fun ns => (arg ns 0 * 2 ^ x.toNat : Nat))
  | .shrImm o a x => some (.int o 7 .z32 false [(a, .w32)] fun ns => (arg ns 0 / 2 ^ x.toNat : Nat))
  | .sarImm o a x => some (.int o 7 .s32 false [(a, .w32)] fun ns => signedOf 32 (arg ns 0) / (2 : Int) ^ x.toNat)
  | .rotImm o a x => some (.int o 7 .z32 false [(a, .w32)] fun ns => rotLeft 32 (arg ns 0) x.toNat)
  | .movi o x => some { out := o, wide := false, pred := 7, srcs := [], value := fun _ => x.toNat }
  | .leaImm o a x =>
      some { out := o, wide := true, pred := 7, srcs := [(a, .addr)], value := fun ns => wrapInt 64 ((arg ns 0 : Int) + x.toInt) }
  | .pand d p a b w => some { out := ⟨.pred d, w⟩, wide := false, pred := p, srcs := [(.pred a, .w32), (.pred b, .w32)]
                              value := fun ns => arg ns 0 &&& arg ns 1 }
  | .por d p a b w => some { out := ⟨.pred d, w⟩, wide := false, pred := p, srcs := [(.pred a, .w32), (.pred b, .w32)]
                             value := fun ns => arg ns 0 ||| arg ns 1 }
  | .pxor d p a b w => some { out := ⟨.pred d, w⟩, wide := false, pred := p, srcs := [(.pred a, .w32), (.pred b, .w32)]
                              value := fun ns => arg ns 0 ^^^ arg ns 1 }
  | .pnot d p a w => some { out := ⟨.pred d, w⟩, wide := false, pred := p, srcs := [(.pred a, .w32)]
                            value := fun ns => 1 - arg ns 0 }
  | _ => none

/-- A floating-point result: the code delivered, and the flags unless FS is 1 (R116). -/
def LaneForm.flt (o : Out) (wide : Bool) (p : Nat) (fs : Bool) (srcs : List (Src × As)) (f : List Nat → Nat × Nat) : LaneForm :=
  { out := o, wide := wide, pred := p, srcs := srcs, value := fun ns => (f ns).1, flags := fun ns => if fs then 0 else (f ns).2 }

/-- A floating-point comparison gives 1 or 0 (R125). -/
def LaneForm.fcmp (o : Out) (p : Nat) (t : Sys2Proof.FTy) (fs : Bool) (a b : Src) (r : FRel) : LaneForm :=
  .flt o false p fs [(a, .flt t), (b, .flt t)] fun ns =>
    ((fltCmp r (fv t ns 0) (fv t ns 1)).1.toNat, (fltCmp r (fv t ns 0) (fv t ns 1)).2)

/-- The floating-point instructions (R121 to R129), with the delivered value of 06_float. -/
def floatForm : Instr → Option LaneForm
  | .fadd o p t m a b =>
      some (.flt o t.wide p m.fs [(a, .flt t), (b, .flt t)] fun ns => fltAdd (.of t) m (fv t ns 0) (fv t ns 1))
  | .fsub o p t m a b =>
      some (.flt o t.wide p m.fs [(a, .flt t), (b, .flt t)] fun ns => fltSub (.of t) m (fv t ns 0) (fv t ns 1))
  | .fmul o p t m a b =>
      some (.flt o t.wide p m.fs [(a, .flt t), (b, .flt t)] fun ns => fltMul (.of t) m (fv t ns 0) (fv t ns 1))
  | .ffma o p t m a b c =>
      some (.flt o t.wide p m.fs [(a, .flt t), (b, .flt t), (c, .flt t)] fun ns =>
        fltFma (.of t) m (fv t ns 0) (fv t ns 1) (fv t ns 2))
  | .fmin o p t fs a b =>
      some (.flt o t.wide p fs [(a, .flt t), (b, .flt t)] fun ns => fltMinMax (.of t) false (arg ns 0) (arg ns 1))
  | .fmax o p t fs a b =>
      some (.flt o t.wide p fs [(a, .flt t), (b, .flt t)] fun ns => fltMinMax (.of t) true (arg ns 0) (arg ns 1))
  | .fabs o p t a => some (.flt o t.wide p true [(a, .flt t)] fun ns => (fltAbs (.of t) (arg ns 0), 0))
  | .fneg o p t a => some (.flt o t.wide p true [(a, .flt t)] fun ns => (fltNeg (.of t) (arg ns 0), 0))
  | .fcmpEq o p t fs a b => some (.fcmp o p t fs a b .eq)
  | .fcmpNe o p t fs a b => some (.fcmp o p t fs a b .ne)
  | .fcmpLt o p t fs a b => some (.fcmp o p t fs a b .lt)
  | .fcmpLe o p t fs a b => some (.fcmp o p t fs a b .le)
  | .fcmpGt o p t fs a b => some (.fcmp o p t fs a b .gt)
  | .fcmpGe o p t fs a b => some (.fcmp o p t fs a b .ge)
  | .fcmpUn o p t fs a b => some (.fcmp o p t fs a b .un)
  | .fcmpOr o p t fs a b => some (.fcmp o p t fs a b .or)
  | .fclass o p t a => some (.flt o false p true [(a, .flt t)] fun ns => (fltClass (.of t) (arg ns 0), 0))
  | .frcp o p t m a => some (.flt o t.wide p m.fs [(a, .flt t)] fun ns => fltRcp (.of t) m (fv t ns 0))
  | .frsq o p t m a => some (.flt o t.wide p m.fs [(a, .flt t)] fun ns => fltRsq (.of t) m (fv t ns 0))
  | .fsqrt o p t m a => some (.flt o t.wide p m.fs [(a, .flt t)] fun ns => fltSqrt (.of t) m (fv t ns 0))
  | .fdiv o p t m a b =>
      some (.flt o t.wide p m.fs [(a, .flt t), (b, .flt t)] fun ns => fltDiv (.of t) m (fv t ns 0) (fv t ns 1))
  | .fexp2 o p t m a => some (.flt o t.wide p m.fs [(a, .flt t)] fun ns => fltExp2 (.of t) m (fv t ns 0))
  | .flog2 o p t m a => some (.flt o t.wide p m.fs [(a, .flt t)] fun ns => fltLog2 (.of t) m (fv t ns 0))
  | .fsin o p t m a => some (.flt o t.wide p m.fs [(a, .flt t)] fun ns => fltTrig false (.of t) m (fv t ns 0))
  | .fcos o p t m a => some (.flt o t.wide p m.fs [(a, .flt t)] fun ns => fltTrig true (.of t) m (fv t ns 0))
  | .fscale o p t m a n =>
      some (.flt o t.wide p m.fs [(a, .flt t), (n, .int .s32)] fun ns => fltScale (.of t) m (fv t ns 0) (signedOf 32 (arg ns 1)))
  | .fround o p t rm fs a => some (.flt o t.wide p fs [(a, .flt t)] fun ns => fltRound (.of t) rm (fv t ns 0))
  | .fcvt o p t m u a => some (.flt o t.wide p m.fs [(a, .flt u)] fun ns => fltCvt (.of t) m (fv u ns 0))
  | .fcvti o p t rm fs u a => some (.flt o t.wide p fs [(a, .flt u)] fun ns => fltToInt t rm (fv u ns 0))
  | .ficvt o p t m u a =>
      some (.flt o t.wide p m.fs [(a, .int u)] fun ns => fltOfInt (.of t) m (ITy.val u (arg ns 0)))
  | .fdot2 o p bf m a b c =>
      some (.flt o false p m.fs [(a, .packed), (b, .packed), (c, .flt .f32)]
        (dotPacked (.of (if bf then .bf16 else .f16)) 16 2 m))
  | .fdot4 o p t m a b c =>
      some (.flt o false p m.fs [(a, .packed), (b, .packed), (c, .flt .f32)] (dotPacked8 (.of8 t) m))
  | _ => none

/-- The packing and 8-bit instructions that no other lane takes part in (R143 to R147). -/
def narrowForm : Instr → Option LaneForm
  | .pk4 o p _ sat a b =>
      some { out := o, wide := false, pred := p, srcs := [(a, .packed), (b, .packed)]
             value := fun ns => packFields 4 ((fieldsOf 8 4 (arg ns 0) ++ fieldsOf 8 4 (arg ns 1)).map fun x =>
               if sat then wrapInt 4 (min (max (signedOf 8 x) (-8)) 7) else x % 16) }
  | .upk4 o p s4 a b =>
      some { out := o, wide := false, pred := p, srcs := [(a, .packed), (b, .packed)]
             value := fun ns => packFields 8 ((fieldsOf 4 4 (arg ns 0 / 2 ^ (16 * (arg ns 1 % 2)))).map fun n =>
               if s4 then wrapInt 8 (signedOf 4 n) else n) }
  | .pk6 o p a => some { out := o, wide := false, pred := p, srcs := [(a, .packed)]
                         value := fun ns => packFields 6 (fieldsOf 8 4 (arg ns 0)) }
  | .upk6 o p a => some { out := o, wide := false, pred := p, srcs := [(a, .packed)]
                          value := fun ns => packFields 8 (fieldsOf 6 4 (arg ns 0)) }
  | .f8enc o p t m a =>
      some (.flt o false p m.fs [(.vreg a, .packed), (.vreg (a + 1), .packed), (.vreg (a + 2), .packed), (.vreg (a + 3), .packed)]
        fun ns => (packFields 8 ((List.range 4).map fun i => (fltCvt (.of8 t) m (fv .f32 ns i)).1),
          (List.range 4).foldl (fun f i => f ||| (fltCvt (.of8 t) m (fv .f32 ns i)).2) 0))
  | .scl o p t m a b c =>
      some (.flt o false p m.fs [(a, .flt .f32), (b, .flt .f32), (c, .flt .f32)] fun ns =>
        fltScl (.of t) m (fv .f32 ns 0) (fv .f32 ns 1) (fv .f32 ns 2))
  | _ => none

/-! ## Completion of an instruction that computes lane by lane -/

/-- The number of registers of a result. -/
def LaneForm.span (f : LaneForm) : Nat := if f.wide then 2 else 1

/-- In a slice clause: with every operand of every executing lane read as a number, the instruction completes; each executing
lane's latch and destination hold the result, its `fsr` has the flags added, its carry predicate holds the carry; every other
register is unchanged, and so is everything but the registers and the unit's position (R86, R88, R89, R115, R116). -/
def CompletesInLanes (form : Instr → Option LaneForm) : Prop :=
  ∀ (i : Instr) (f : LaneForm) (s : State) (h : Here) (ns : LaneId → List Nat),
    form i = some f → i.wf = true → i.legalIn .slice = true → s.here? = some h → h.isSlice = true →
    h.boundsOk (srcRegs f.srcs ++ outRegs f.out f.span) = true →
    (∀ x ∈ h.execLanes s f.pred, readAll s h x f.srcs = .ok ((ns x).map Val.known)) →
    (∀ x ∈ h.execLanes s f.pred, s.splitSyms f.out f.wide x = []) →
    ∃ t, exec i s = .next (t.advance h.u) ∧ t = s.setRegs t.regs ∧
      (∀ x ∈ h.execLanes s f.pred,
        (latchKeys (h.latchUnit x) h.c.pos x f.wide).map t.cell = knownCells f.wide (f.value (ns x)) ∧
        (f.out.nwb = false → (Dst.keys f.out.dst h.u x f.wide).map t.cell = knownCells f.wide (f.value (ns x))) ∧
        t.fsr x = s.fsr x ||| BitVec.ofNat 32 (f.flags (ns x) % 32) ∧
        ∀ b, f.carry (ns x) = some b → f.carryTo < 7 → t.predBit x f.carryTo = b) ∧
      ∀ k, (∀ x ∈ h.lanes s, k ∉ latchKeys (h.latchUnit x) h.c.pos x f.wide) →
        (∀ x ∈ h.execLanes s f.pred, (f.out.nwb = false → k ∉ Dst.keys f.out.dst h.u x f.wide) ∧
          (k ≠ .fsr x.b x.g x.l ∨ f.flags (ns x) = 0) ∧
          ((f.carry (ns x)).isSome → f.carryTo < 7 → k ≠ .pred x.b x.g x.l f.carryTo)) →
        t.cell k = s.cell k

/-- Where the latch of a result of an upper clause stands (R89). -/
def latchesOfUpper (h : Here) (s : State) (d : Dst) (wide : Bool) : List RegKey :=
  match d with
  | .scope _ => latchKeys h.u h.c.pos noLane wide
  | _ => (h.lanes s).flatMap fun x => latchKeys (h.latchUnit x) h.c.pos x wide

/-- The registers that a result of an upper clause goes to: its own-scope registers, or one of each active lane (R51). -/
def registersOfUpper (h : Here) (s : State) (o : Out) (n : Nat) (wide : Bool) : List RegKey :=
  if o.nwb then []
  else match o.dst with
    | .scope k => (List.range n).map fun i => h.u.ownReg (k + i)
    | d => (h.active s).flatMap fun x => Dst.keys d h.u x wide

/-- In a clause of group class or above: with the predicate 1, every operand uniform and a number, and the result ready to be
written, and the gate passed where it writes flags or a carry of lanes, the instruction executes once; the own-scope register, or the destination of every active lane, holds the result;
the flags go to every lane of the unit; every other register is unchanged, and nothing else changes but the sequencers that a
decision of the result reaches (R68 to R70, R88, R116). -/
def CompletesOnce (form : Instr → Option LaneForm) : Prop :=
  ∀ (i : Instr) (f : LaneForm) (s : State) (h : Here) (ns : List Nat),
    form i = some f → i.wf = true → s.here? = some h → h.isSlice = false →
    upperPred h s f.pred = .ok true →
    allOk (f.srcs.map fun q => s.readUpper h q.2 q.1) = .ok (ns.map Val.known) →
    h.boundsOk (srcRegs f.srcs ++ outRegs f.out f.span) = true →
    readyUpper h s f.out f.wide = .ok () →
    (f.carryTo < 7 ∧ (f.carry ns).isSome = true ∨ f.flags ns ≠ 0 → gate h s = .ok ()) →
    ∃ t, exec i s = .next (t.advance h.u) ∧ t = (s.setRegs t.regs).setSeqs t.seqs ∧
      (∀ n, f.out.dst = .scope n → f.out.nwb = false →
        ((List.range f.span).map fun j => t.cell (h.u.ownReg (n + j))) = knownCells f.wide (f.value ns)) ∧
      ((∀ n, f.out.dst ≠ .scope n) → f.out.nwb = false →
        ∀ x ∈ h.active s, (Dst.keys f.out.dst h.u x f.wide).map t.cell = knownCells f.wide (f.value ns)) ∧
      (∀ x ∈ s.lanesOf h.u, t.fsr x = s.fsr x ||| BitVec.ofNat 32 (f.flags ns % 32)) ∧
      (∀ x ∈ h.active s, ∀ b, f.carry ns = some b → f.carryTo < 7 → t.predBit x f.carryTo = b) ∧
      ∀ k, k ∉ latchesOfUpper h s f.out.dst f.wide → k ∉ registersOfUpper h s f.out f.span f.wide →
        (∀ x ∈ s.lanesOf h.u, k ≠ .fsr x.b x.g x.l) →
        ((f.carry ns).isSome → f.carryTo < 7 → ∀ x ∈ h.active s, k ≠ .pred x.b x.g x.l f.carryTo) → t.cell k = s.cell k

end Sys2Proof.Machine
end

