-- ==== Sys2Proof/Certificates/Slice0/Effects.lean ====
section
/-! DEFINITION. How the statements say what an instruction delivers and what it leaves: results in lanes and in upper clauses,
and the turns of sequencers (03_encoding R51, R52, 05_integer R85 to R89, 04_control R75 to R79). -/

namespace Sys2Proof.Machine

/-! ## Results -/

/-- Every lane of `run` receives the cells `v x`, in its destination and in its latch; every other register, and everything but
the registers, is unchanged. -/
def LanesReceive (s t : State) (h : Here) (o : Out) (wide : Bool) (run : List LaneId) (v : LaneId → List Cell) : Prop :=
  t = { s with regs := t.regs } ∧
  (∀ x ∈ run, (latchKeys (h.latchUnit x) h.c.pos x wide).map t.cell = v x ∧
    (o.nwb = false → (Dst.keys o.dst h.u x wide).map t.cell = v x)) ∧
  ∀ k, (∀ x ∈ h.lanes s, k ∉ latchKeys (h.latchUnit x) h.c.pos x wide) →
    (o.nwb = false → ∀ x ∈ run, k ∉ Dst.keys o.dst h.u x wide) → t.cell k = s.cell k

/-- An upper clause delivers one value: to the own-scope register, or to the destination of every active lane; every other
register is unchanged, and nothing else changes but the sequencers that a decision reaches (R51, R62). -/
def UpperReceives (s t : State) (h : Here) (o : Out) (wide : Bool) (v : List Cell) : Prop :=
  t = { s with regs := t.regs, seqs := t.seqs } ∧
  (∀ n, o.dst = .scope n → o.nwb = false → (List.range v.length).map (fun j => t.cell (h.u.ownReg (n + j))) = v) ∧
  ((∀ n, o.dst ≠ .scope n) → o.nwb = false → ∀ x ∈ h.active s, (Dst.keys o.dst h.u x wide).map t.cell = v) ∧
  ∀ k, k ∉ latchesOfUpper h s o.dst wide → k ∉ registersOfUpper h s o v.length wide → t.cell k = s.cell k

/-- One 32-bit result: in a slice clause every active lane receives it, else the upper clause delivers it once. -/
def Delivers (s t : State) (h : Here) (o : Out) (v : Nat) : Prop :=
  if h.isSlice then LanesReceive s t h o false (h.active s) fun _ => [resultCell o v]
  else UpperReceives s t h o false [resultCell o v]

/-- Every lane of `run` receives `n` words in consecutive vector registers from `d`, and the first in its latch (R52); every
other register but the flags named is unchanged, and so is everything but the registers. -/
def LanesReceiveMany (s t : State) (h : Here) (d n : Nat) (run : List LaneId) (v : LaneId → List Nat) : Prop :=
  t = { s with regs := t.regs } ∧
  (∀ x ∈ run, t.cell (.latch (h.latchUnit x) h.c.pos x.b x.g x.l false) = .known (BitVec.ofNat 32 (arg (v x) 0)) ∧
    ∀ j < n, t.cell (.vec x.b x.g x.l (d + j)) = .known (BitVec.ofNat 32 (arg (v x) j))) ∧
  ∀ k, (∀ x ∈ h.lanes s, k ≠ .latch (h.latchUnit x) h.c.pos x.b x.g x.l false) →
    (∀ x ∈ run, ∀ j < n, k ≠ .vec x.b x.g x.l (d + j)) → (∀ x ∈ run, k ≠ .fsr x.b x.g x.l) → t.cell k = s.cell k

/-! ## Turns -/

/-- The clause of a unit that issues, after a transfer: where all units of the issue go the same way, each one's own clause moves
on with the address chosen; else each has a clause of its own from here (R76, R77). -/
def Here.turned (h : Here) (next : UnitRef → Option Nat) (ends : UnitRef → Bool) (u : UnitRef) (q : Seq) : Option ClauseRun :=
  if h.units.all fun v => next v == next u && ends v == ends u then
    q.clause.map fun c => ({ c with next := next u, ended := ends u } : ClauseRun).advance
  else some ({ h.c with team := [u.sliceNo], next := next u, ended := ends u } : ClauseRun).advance

/-- Only sequencers change, and only those of the units that issue together. -/
def OnlyTurns (s t : State) (h : Here) : Prop :=
  t = { s with seqs := t.seqs } ∧ ∀ u, u ∉ h.units → t.seq? u = s.seq? u

/-! ## Starting a clause (R65, R77, R83, R323) -/

/-- A sequencer but for what only orders the service of a quarter. -/
def Seq.unscheduled (q : Seq) : Seq := { q with promoted := false, readyAt := none, yielded := false }

/-- The units have arrived at their header, and stay there. -/
def State.arrivedAt (s : State) (us : List UnitRef) : State :=
  us.foldl (fun t y => match t.seq? y with
    | some x => (t.setSeq y x.arrive).setSeq y x.arrive.endRegion
    | none => t) s

/-- The groups of the quarter that are ready are dated. -/
def State.dated (s : State) (u : UnitRef) : State :=
  match u with
  | .slice b g _ | .group b g => s.dateReady ((b, g) :: (s.rivals (s.quarter b g) (b, g)).map (·.1))
  | _ => s

/-! ## Exchanges and blocks of eight lanes (R109, R131, R133, R140) -/

/-- An exchange: its operands, and the lane that a lane names. -/
structure Exchange where
  out : Out
  pred : Nat
  ty : Sys2Proof.ITy
  a : Src
  b : Src
  from_ : Nat → Nat → Int

def Exchange.srcs (f : Exchange) : List (Src × As) := [(f.a, .int f.ty), (f.b, .w32)]

/-- What lane `l` receives where lane `k` holds `A k` and names `B k`: in compatibility mode the lane is taken modulo 16. -/
def Exchange.received (f : Exchange) (d : Desc) (A B : Nat → Nat) (l : Nat) : Nat :=
  let k := f.from_ l (B l)
  let k := if d.compat then ((wrapInt 32 k % 16 : Nat) : Int) else k
  if 0 ≤ k ∧ k < d.lanes then A k.toNat else A l

/-- The exchanges (R109). -/
def exchangeForm : Instr → Option Exchange
  | .shf o p t a b => some ⟨o, p, t, a, b, fun _ n => n⟩
  | .shfx o p t a b => some ⟨o, p, t, a, b, fun l n => ((l ^^^ n : Nat) : Int)⟩
  | .shfu o p t a b => some ⟨o, p, t, a, b, fun l n => (l : Int) - n⟩
  | .shfd o p t a b => some ⟨o, p, t, a, b, fun l n => (l : Int) + n⟩
  | .bcast o p t a b => some ⟨o, p, t, a, b, fun _ n => n⟩
  | _ => none

/-- The 32 codes of the octet that a lane belongs to: element e is register e mod 4 of its lane e / 4; a lane that the group
does not have gives 0 (R133). -/
def octetCodes (d : Desc) (A : Nat → Nat → Nat) (l : Nat) : List Nat :=
  (List.range 32).map fun e => if l - l % 8 + e / 4 < d.lanes then A (l - l % 8 + e / 4) (e % 4) else 0
def octetOf (d : Desc) (A : Nat → Nat → Nat) (l : Nat) : List FV := (octetCodes d A l).map (FFmt.of .f32).read

/-- The greatest magnitude code of an octet that is no NaN (R142). -/
def greatest (cs : List Nat) : Nat :=
  (cs.map fun v => v % 2 ^ 31).foldl (fun m v => if v ≤ 0x7F800000 then max m v else m) 0

/-! ## Votes and branches (R75 to R79, R84) -/

/-- The votes, with the result over the participants' values. -/
def voteForm : Instr → Option (Out × Src × (List Nat → Nat))
  | .vany o a => some (o, a, fun vs => if vs.any (· != 0) then 1 else 0)
  | .vall o a => some (o, a, fun vs => if vs.all (· != 0) then 1 else 0)
  | .vfirst o a => some (o, a, fun vs => vs.headD 0)
  | .vcount o a => some (o, a, fun vs => vs.countP (· != 0))
  | .vsum o a => some (o, a, fun vs => vs.sum % 2 ^ 32)
  | .vmax uns o a => some (o, a, voteMax uns)
  | _ => none

/-- A branch: its scope, its condition with the sense that does not go, its target and its join. -/
structure Branch where
  scope : Scope
  cond : Option Src
  sense : Bool
  target : BitVec 20
  join : BitVec 16

def branchForm : Instr → Option Branch
  | .br sc t j => some ⟨sc, none, false, t, j⟩
  | .bt sc c t j => some ⟨sc, some c, false, t, j⟩
  | .bf sc c t j => some ⟨sc, some c, true, t, j⟩
  | _ => none

/-- Who issues a branch: a conditional one of a joined slice issues for every slice that stands at it, once no other slice of the
group is still to come to it (R76). -/
def Branch.issue (br : Branch) (h : Here) (s : State) : Here :=
  if h.isSlice && br.cond.isSome && !h.q.parted then metHere h s else h
def Branch.mayIssue (br : Branch) (h : Here) (s : State) : Prop :=
  h.isSlice = true → br.cond.isSome = true → h.q.parted = false → ∀ v ∈ otherSlices h s, s.comesTo h v = false

/-- A slice of the group that has not retired. -/
def Here.sibling (h : Here) (s : State) (u : UnitRef) : Bool := (s.children (.group h.b h.g)).contains u && !s.retired u

/-- Every unit that issues reads one value of a source: `N u` (R64, R68). -/
def ReadsOne (s : State) (h : Here) (c : Src) (N : UnitRef → Nat) : Prop :=
  h.boundsOk (srcRegs [(c, .w32)]) = true ∧
    ∀ u ∈ h.units, (if h.isSlice then s.readSlice h u .w32 c else s.readUpper h .w32 c) = .ok (.known (N u))

/-- Whether each unit goes to the target. -/
def Branch.Outcome (br : Branch) (s : State) (h : Here) (goes : UnitRef → Bool) : Prop :=
  match br.cond with
  | none => ∀ u ∈ h.units, goes u = true
  | some c => ∃ N, ReadsOne s h c N ∧ ∀ u ∈ h.units, goes u = ((N u != 0) != br.sense)

/-- Where a call leads each unit: the target, or the displacement from the clause header, which must be a multiple of 8. -/
def CallsTo (i : Instr) (s : State) (h : Here) (dest : UnitRef → Nat) : Prop :=
  match i with
  | .call _ t => ∀ u ∈ h.units, dest u = h.target t
  | .callr _ d => ∃ N, ReadsOne s h d N ∧ ∀ u ∈ h.units,
      wrapInt 64 (h.c.addr + signedOf 32 (N u)) % 8 = 0 ∧ dest u = pcWrap (h.c.addr + signedOf 32 (N u))
  | _ => False

/-- Whether `done` may retire the unit now: no slice state is pending, its descendants have caught up, and nothing of it is
outstanding (R66, R70, R82, R96, R150). -/
def mayRetire (h : Here) (s : State) : Except Stop Unit := do
  slicesWhole h s
  if h.isSlice then .ok () else gate h s
  if h.u.rank ≤ 2 then settled h s else blockDrained h s

/-! ## Accesses (R175, R185 to R190, R196 to R198) -/

def loadForm : Instr → Option (AccKind × Out × MemOp × Nat)
  | .ld o m c => some (.load, o, m, c)
  | .ldsys o m c => some (.loadSys, o, m, c)
  | _ => none

def storeForm : Instr → Option (AccKind × Nat × MemOp × Nat)
  | .st d m c => some (.store, d, m, c)
  | .stsys d m c => some (.storeSys, d, m, c)
  | _ => none

/-- The atomics: operation, result, width, address and operands (R255). -/
def atomForm : Instr → Option (AtOp × Option Out × Bool × Src × List Src)
  | .aadd o w a b => some (.add, o, w, a, [b])
  | .amin o w uns a b => some (.min uns, o, w, a, [b])
  | .amax o w uns a b => some (.max uns, o, w, a, [b])
  | .aand o w a b => some (.and, o, w, a, [b])
  | .aor o w a b => some (.or, o, w, a, [b])
  | .axor o w a b => some (.xor, o, w, a, [b])
  | .axchg o w a b => some (.xchg, o, w, a, [b])
  | .acas o w a b c => some (.cas, o, w, a, [b, c])
  | .afadd o w a b => some (.fadd, o, w, a, [b])
  | .ainc o w a b => some (.inc, o, w, a, [b])
  | _ => none

/-- How an operand of an atomic is read (R255). -/
def atomAs (op : AtOp) (wide : Bool) : As :=
  match op with
  | .fadd => .flt (if wide then .f64 else .f32)
  | .min uns | .max uns => atomInt wide uns
  | _ => atomInt wide false

/-- The accesses that a block, gang or grid clause waits for: where the value goes, and its bytes. -/
def upperAccess : Instr → Option (Option Out × Nat)
  | .ld o m _ | .ldsys o m _ => some (some o, m.width.bytes)
  | .st _ m _ | .stsys _ m _ => some (none, m.width.bytes)
  | i => (atomForm i).map fun f => (f.2.1, atomBytes f.2.2.1)

/-- `wcmp`: its relation, result, width, sign and operands (R259). -/
def wcmpForm : Instr → Option (Nat × Out × Bool × Bool × Src × Src)
  | .wcmpEq o w u a v => some (0, o, w, u, a, v)
  | .wcmpNe o w u a v => some (1, o, w, u, a, v)
  | .wcmpLt o w u a v => some (2, o, w, u, a, v)
  | .wcmpLe o w u a v => some (3, o, w, u, a, v)
  | .wcmpGt o w u a v => some (4, o, w, u, a, v)
  | .wcmpGe o w u a v => some (5, o, w, u, a, v)
  | .wcmpAny o w u a v => some (6, o, w, u, a, v)
  | _ => none

/-- The access that an instruction sends (R190). -/
def sent (h : Here) (s : State) (k : AccKind) (w ctr : Nat) (sym : Option (Nat × Nat)) (dst : Option Out)
    (lanes : List LaneAcc) : Access :=
  { id := s.env.fresh, unit := h.u, kind := k, width := w, ctr := ctr, bumped := if ctr = 0 then [] else s.ctrGroups h.u
    sym := sym, dst := dst, team := h.c.team, word := h.c.words.getD h.c.pos 0, pc := h.pc, lanes := lanes, poison := none }

/-- An access stands last in its order, its counters are one higher, and a load's symbol is taken; memory and everything else
but the registers is unchanged. -/
def Sent (s u : State) (a : Access) : Prop :=
  u = { s with
    regs := u.regs
    env := { s.env with fresh := s.env.fresh + 1 }
    qs := { s.qs with accs := s.qs.accs ++ [a] }
    seqs := (s.bumpCtrs a.bumped a.ctr (· + 1)).seqs
    syms := match a.sym with
      | some (q, n) => s.syms ++ [{ q := q, sym := n, b := (a.unit.block?).getD 0, g := a.unit.groupNo, feed := .access a.id,
                                    poison := none, deferred := [] }]
      | none => s.syms }

/-- No symbol that an access needs is poisoned. -/
def Unpoisoned (s : State) (a : Access) : Prop := ∀ p ∈ a.needs, ((s.sym? p.1 p.2).bind (·.poison)) = none

/-- Every lane of `run` holds the cells in consecutive registers of the destination; every other register but the latches is
unchanged. -/
def HoldsLoaded (s u : State) (h : Here) (o : Out) (run : List LaneId) (cs : List Cell) : Prop :=
  (∀ x ∈ run, ∀ d, o.dst = .vreg d → o.nwb = false → ∀ j (hj : j < cs.length), u.cell (.vec x.b x.g x.l (d + j)) = cs[j]) ∧
  ∀ k, (∀ x ∈ h.lanes s, ∀ hi, k ≠ .latch (h.latchUnit x) h.c.pos x.b x.g x.l hi) →
    (o.nwb = false → ∀ x ∈ run, ∀ d, o.dst = .vreg d → ∀ j < cs.length, k ≠ .vec x.b x.g x.l (d + j)) → u.cell k = s.cell k

/-- The lanes of an access to known addresses (R175): base, index sign-extended, and displacement, modulo 2^64. -/
def lanesAt (run : List LaneId) (disp w : Nat) (V : LaneId → List Val) (data : LaneId → List Cell) : List LaneAcc :=
  run.map fun x => laneAcc x.g x.l disp w ((V x).headD (.known 0)) (((V x).drop 1).headD (.known 0)) (data x)

/-- The byte of M that a lane of an access reaches, where it reaches M at once: a bank or scratchpad byte, or a mapped package
byte that nothing holds (R180, R275, R366). -/
def LaneAcc.keyIn (s : State) (write : Bool) (y : LaneAcc) : Option Nat :=
  match y.tgt with
  | .direct key => some key
  | .inter ia => if s.heldIa ia then none else match s.route ia write with
    | .pkg key => if s.heldPage key then none else some key
    | _ => none
  | _ => none

/-- A lane that reaches a mapped page pays the tokens of its line requests (R193). -/
def LaneAcc.pays (s : State) (a : Access) (y : LaneAcc) : Bool :=
  match y.tgt with
  | .inter ia => (s.pay (s.ctxOf a.unit) ia y.size (a.kind == .load)).isSome
  | _ => true

/-- The lanes of `llock` in rising order: the statuses, and the locks afterwards; none where a lane meets a missing mapping (R200). -/
def lockAll (ctx : Nat) : List Nat → State → Option (State × List Nat)
  | [], s => some (s, [])
  | a :: r, s => match lockLine ctx a s with
    | .status v t => (lockAll ctx r t).map fun p => (p.1, v :: p.2)
    | .page _ => none

/-- A barrier's value after an arrival, with the block noted among a gang barrier's arrivals (R264, R267). -/
def State.arrived (s : State) (h : Here) (gang : Bool) (n : Nat) (b : Bar) : State := noteArrival h gang n b (setBar h gang n b s)

/-- The slot that a drain names: the operand's, or the one the unit already waits for. -/
def NamesSlot (h : Here) (s : State) (slot : Src) (n : Nat) : Prop :=
  h.q.park = .bank n ∨ (∀ j, h.q.park ≠ .bank j) ∧ upNums h s [(slot, .w32)] = .ok [n] ∧ n ≤ 15

/-! ## Instructions of blocks -/

/-- A well-formed instruction that stands in a clause of a block, of group class or above. -/
def AtBlock (i : Instr) (s : State) (h : Here) (x : Blk) : Prop :=
  i.wf = true ∧ s.here? = some h ∧ h.isSlice = false ∧ s.blk? h.b = some x

/-- The instruction completes, with the state that its effect makes of `s1` and one word delivered. -/
def Gives (i : Instr) (s s1 : State) (h : Here) (o : Out) (v : Nat) : Prop :=
  ∃ t : State, exec i s = .next (t.advance h.u) ∧ UpperReceives s1 t h o false [resultCell o v]

/-- The instruction stands: the unit waits in the state that its effect makes of `s1`. -/
def Waits (i : Instr) (s s1 : State) (h : Here) (p : Park) : Prop :=
  ∃ t : State, exec i s = .next t ∧ t = { s1 with seqs := t.seqs } ∧ (∀ u, u ≠ h.u → t.seq? u = s1.seq? u) ∧
    ∀ q, s1.seq? h.u = some q → ∃ c, t.seq? h.u = some { q with park := p, parkAt := c }

/-! ## The matrix class (R149 to R159) -/

/-- The tiles that an `mzero` or `mma` makes held now: none where those queued before it already do. -/
def newTiles (x : Blk) (ns : List Nat) : List Nat :=
  if ns.all x.heldAfter then [] else ns.filter fun n => (x.tile? n).isNone

/-- The queue takes one more entry, and the tiles that it accumulates into can be held (R149, R151, R152). -/
def QueueTakes (s : State) (x : Blk) (ns : List Nat) : Prop :=
  ns.all x.heldAfter = true ∧ x.mq.length < 4 ∨ x.mq = [] ∧ s.tilesOn x.core + (newTiles x ns).length ≤ 32

/-- The entry stands last in the queue of the block, whose new tiles are held with zeros. -/
def State.queued (s : State) (b : Nat) (x : Blk) (ns : List Nat) (e : MQEntry) : State :=
  s.mapBlk b fun y => { (newTiles x ns).foldl (fun z n => Blk.setTile n [] z) y with mq := y.mq ++ [e] }

/-- The elements of column n of the second operand of an `mma`: of the panel, or of line n of the handle. -/
def columnOf (x : Blk) (b : Nat) (panel : Option (MTy × List (Nat × Byte))) (kmax n : Nat) : List FV :=
  match panel, x.handle? b with
  | some p, _ => panelVals p.1 p.2 n kmax fun _ => false
  | none, some z => lineVals z n kmax fun _ => false
  | none, none => []

/-- What an `mma` of the handles `ha` and `hb`, or of `ha` and a panel, makes of an element (R159, R169): its chunks of products,
with both scales, added one after another with rounding to nearest even. -/
def mmaElement (x : Blk) (ha : Handle) (b kb : Nat) (tb : MTy) (sb : Word) (k : Nat) (wide : Bool)
    (panel : Option (MTy × List (Nat × Byte))) (m n old : Nat) : Nat :=
  let kmax := min k (min ha.k kb)
  addChunks (.of (if wide then .f64 else .f32)) (min (MTy.chunk ha.ty) (MTy.chunk tb)) kmax
    (((lineVals ha m kmax fun _ => false).zip (columnOf x b panel kmax n)).map fun p =>
      scaledProd [p.1, p.2] [(FFmt.of .f32).read ha.scale.toNat, (FFmt.of .f32).read sb.toNat]) old

/-! ## Writes of M, and the engines (R226, R276) -/

/-- A well-formed instruction that stands in a clause of a class that may hold it. -/
def At (i : Instr) (s : State) (h : Here) : Prop := i.wf = true ∧ i.legalIn h.cls = true ∧ s.here? = some h

/-- The bytes stand at `key`, and every other byte of M is as before. -/
def Writes (s t : State) (key : Nat) (bs : List Byte) : Prop :=
  readBytes t.mem.bytes key bs.length = bs ∧
    ∀ k, ¬(key ≤ k ∧ k < key + bs.length) → readByte t.mem.bytes k = readByte s.mem.bytes k

/-- A queued access performs on M: a write leaves its bytes, a read takes those that stood there (R276). -/
def QEntry.Performs (e : QEntry) (s t : State) : Prop :=
  t.regs = s.regs ∧
    (match applyKind e.kind e.width (readBytes s.mem.bytes e.key e.width) e.data with
     | some bs => Writes s t e.key bs
     | none => ∀ k, readByte t.mem.bytes k = readByte s.mem.bytes k) ∧
    ∀ a, t.access? e.acc = some a → ∀ y, a.lanes[e.lane]? = some y →
      y.st = .done ∧ (e.kind.need.reads = true → y.got = readBytes s.mem.bytes e.key e.width)

/-- A request for one command that moves at least one byte, in normal mode (R229, R242). -/
def Req.plain (r : Req) : Prop := r.bad = false ∧ r.coll = none ∧ r.shadow = false ∧ ∃ g ∈ r.segs, g.len ≠ 0

/-- Every command of an issue exists, with their tickets by lane (R226, R228). -/
def State.created (s : State) (h : Here) (cs : List (Nat × Cmd)) : State × List (LaneId × Nat) :=
  let r := createUpTo h cs.length cs [] s
  (r.1, r.2.2.map fun p => (⟨h.b, h.g, p.1⟩, p.2))

/-- The descriptors that an issue reads have arrived (R243). -/
def DescsRead (s : State) (h : Here) (a : Access) : Prop :=
  h.q.park = .access a.id ∧ s.access? a.id = some a ∧ (a.lanes.all fun y => y.st == .done) = true

def Access.descs (a : Access) (h : Here) : List (LaneId × List Byte) := a.lanes.map fun y => (⟨h.b, y.g, y.l⟩, y.got)

/-! ## Faults (R71, R335, R337) -/

/-- The unit takes a fault: its block, or the gang or grid sequencer itself, stops for it, and it stands before its instruction,
or after it where `t.after` says so. -/
def TakesFault (i : Instr) (s : State) (h : Here) (t : Trap) : Prop := exec i s = .next (takeFault h.u h.pc t s)

/-! ## Requests from outside -/

/-- Memory and the frame states are in their canonical form. -/
def State.memWf (s : State) : Prop := Memory.wf s.mem.bytes ∧ canonFrom (0 : BitVec 32) none s.mem.frames = true

/-- A request is taken, and not aborted. -/
def State.asked (s : State) : State := s.setEnv { s.env with aborted := false }

/-- No posted write and no STATUS word waits for a page (R319, R374). -/
def State.nothingWaits (s : State) : Prop := (∀ e ∈ s.qs.inb, e.wait = none) ∧ s.work.posts = []

/-- A request is completed with completer abort, and nothing else changes (R342). -/
def Aborts (i : Instr) (s : State) : Prop := exec i s = .next (s.setEnv { s.env with aborted := true })

/-- The stage-2 commands, with the upper bits of CMD (R368). -/
def stage2Form : Instr → Option (BitVec 24)
  | .s2Map c | .s2Unmap c | .s2Inval c | .s2Scrub c | .s2Table c | .s2Untable c | .s2Shadd c | .s2Shdel c | .s2Expose c
  | .s2Retire c => some c
  | _ => none

/-- A stage-2 command may run: the physical function is not frozen, no command executes, and CMD is good (R342, R368). -/
def Stage2Free (s : State) (c : BitVec 24) : Prop := 0 ∉ s.flt.frozenFns ∧ s.chip.s2busy = none ∧ cmdBad c = false

/-- A stage-2 command ends with status 0; the state words of the frames that `g` names change to what it gives. -/
def Stage2Ends (s t : State) (g : Nat → Option (BitVec 32)) : Prop :=
  t.regs = s.regs ∧ t.chip = { s.chip with s2busy := none, s2status := 0 } ∧ ∀ f, t.frameWord f = (g f).getD (s.frameWord f)

/-- A frame and its draft marks are zeroed, and every other byte is as before (R368). -/
def Zeroed (s t : State) (frames : Nat → Bool) : Prop :=
  (∀ k, readByte t.mem.bytes k = if frames (k / 65536) then 0 else readByte s.mem.bytes k) ∧
  ∀ l, l ∈ t.mem.draft ↔ l ∈ s.mem.draft ∧ frames (l / 512) = false

/-- The commands of the service block, with the upper bits of SVCCMD (R388). -/
def serviceForm : Instr → Option (BitVec 24)
  | .drain c | .undrain c | .enterService c | .exitService c | .quiesce c | .recal c | .spare c | .resume c | .update c _
  | .extend c | .report c => some c
  | _ => none

/-- A service command may run: no master is frozen, no command executes, and CMD is good (R342, R388). -/
def ServiceFree (s : State) (c : BitVec 24) : Prop :=
  0 ∉ s.flt.frozenFns ∧ s.flt.frozenMgmt = false ∧ s.svc.busy = none ∧ c.toNat / 2 ^ 16 = 0

end Sys2Proof.Machine
end

