-- ==== Sys2Proof/Laws/Decode.lean ====
section
/-! SUPPORT. Packing and parsing the six formats, and the operand fields, are inverse (R44 to R51). -/

namespace Sys2Proof

/-- The fields of a V-format word fit their places. -/
def VWord.fits (f : VWord) : Prop :=
  f.opc < 512 ∧ f.dst < 1024 ∧ f.nwb < 2 ∧ f.sa < 2048 ∧ f.sb < 2048 ∧ f.sc < 2048 ∧ f.pred < 8 ∧ f.fs < 2 ∧
    f.rm < 4 ∧ f.sat < 2 ∧ f.ty < 16

theorem VWord.parse_pack (f : VWord) (h : f.fits) : VWord.parse f.pack = f := by
  obtain ⟨h1, h2, h3, h4, h5, h6, h7, h8, h9, h10, h11⟩ := h
  cases f
  simp only [VWord.parse, VWord.pack, bitsOf, VWord.mk.injEq] at *
  norm_num
  refine ⟨?_, ?_, ?_, ?_, ?_, ?_, ?_, ?_, ?_, ?_, ?_⟩ <;> omega

theorem VWord.opc_pack (f : VWord) (h : f.fits) : bitsOf f.pack 55 9 = f.opc :=
  congrArg VWord.opc (VWord.parse_pack f h)

def IWord.fits (f : IWord) : Prop :=
  f.opc < 512 ∧ f.dst < 1024 ∧ f.nwb < 2 ∧ f.sa < 2048 ∧ f.rsv < 2 ∧ f.imm < 2 ^ 32

theorem IWord.parse_pack (f : IWord) (h : f.fits) : IWord.parse f.pack = f := by
  obtain ⟨h1, h2, h3, h4, h5, h6⟩ := h
  cases f
  simp only [IWord.parse, IWord.pack, bitsOf, IWord.mk.injEq] at *
  norm_num at *
  refine ⟨?_, ?_, ?_, ?_, ?_, ?_⟩ <;> omega

theorem IWord.opc_pack (f : IWord) (h : f.fits) : bitsOf f.pack 55 9 = f.opc :=
  congrArg IWord.opc (IWord.parse_pack f h)

def MWord.fits (f : MWord) : Prop :=
  f.opc < 512 ∧ f.data < 1024 ∧ f.nwb < 2 ∧ f.base < 2048 ∧ f.index < 2048 ∧ f.offs < 4096 ∧ f.pred < 8 ∧
    f.width < 8 ∧ f.ctr < 4 ∧ f.hint < 4

theorem MWord.parse_pack (f : MWord) (h : f.fits) : MWord.parse f.pack = f := by
  obtain ⟨h1, h2, h3, h4, h5, h6, h7, h8, h9, h10⟩ := h
  cases f
  simp only [MWord.parse, MWord.pack, bitsOf, MWord.mk.injEq] at *
  norm_num
  refine ⟨?_, ?_, ?_, ?_, ?_, ?_, ?_, ?_, ?_, ?_⟩ <;> omega

theorem MWord.opc_pack (f : MWord) (h : f.fits) : bitsOf f.pack 55 9 = f.opc :=
  congrArg MWord.opc (MWord.parse_pack f h)

def CWord.fits (f : CWord) : Prop :=
  f.opc < 512 ∧ f.scope < 8 ∧ f.sense < 2 ∧ f.cond < 2048 ∧ f.target < 2 ^ 20 ∧ f.join < 2 ^ 16 ∧ f.rsv < 16

theorem CWord.parse_pack (f : CWord) (h : f.fits) : CWord.parse f.pack = f := by
  obtain ⟨h1, h2, h3, h4, h5, h6, h7⟩ := h
  cases f
  simp only [CWord.parse, CWord.pack, bitsOf, CWord.mk.injEq] at *
  norm_num at *
  refine ⟨?_, ?_, ?_, ?_, ?_, ?_, ?_⟩ <;> omega

theorem CWord.opc_pack (f : CWord) (h : f.fits) : bitsOf f.pack 55 9 = f.opc :=
  congrArg CWord.opc (CWord.parse_pack f h)

def KWord.fits (f : KWord) : Prop :=
  f.opc < 512 ∧ f.d < 1024 ∧ f.nwb < 2 ∧ f.sa < 2048 ∧ f.sb < 2048 ∧ f.sc < 2048 ∧ f.fn < 2048

theorem KWord.parse_pack (f : KWord) (h : f.fits) : KWord.parse f.pack = f := by
  obtain ⟨h1, h2, h3, h4, h5, h6, h7⟩ := h
  cases f
  simp only [KWord.parse, KWord.pack, bitsOf, KWord.mk.injEq] at *
  norm_num
  refine ⟨?_, ?_, ?_, ?_, ?_, ?_, ?_⟩ <;> omega

theorem KWord.opc_pack (f : KWord) (h : f.fits) : bitsOf f.pack 55 9 = f.opc :=
  congrArg KWord.opc (KWord.parse_pack f h)

def SWord.fits (f : SWord) : Prop :=
  f.opc < 512 ∧ f.d < 1024 ∧ f.crn < 4096 ∧ f.sa < 2048 ∧ f.fn < 2 ^ 22

theorem SWord.parse_pack (f : SWord) (h : f.fits) : SWord.parse f.pack = f := by
  obtain ⟨h1, h2, h3, h4, h5⟩ := h
  cases f
  simp only [SWord.parse, SWord.pack, bitsOf, SWord.mk.injEq] at *
  norm_num at *
  refine ⟨?_, ?_, ?_, ?_, ?_⟩ <;> omega

theorem SWord.opc_pack (f : SWord) (h : f.fits) : bitsOf f.pack 55 9 = f.opc :=
  congrArg SWord.opc (SWord.parse_pack f h)

/-- A source in range decodes to itself (R49). -/
theorem srcOf_code (x : Src) (h : x.inRange = true) : srcOf x.code = some x := by
  cases x with
  | sreg k n =>
    cases k <;> simp only [Src.inRange, decide_eq_true_eq] at h <;>
      simp (disch := omega) only [srcOf, Src.code, if_neg, if_pos, Nat.add_sub_cancel_left]
  | sv v => cases v <;> rfl
  | vidx i o =>
    simp only [Src.inRange, Bool.and_eq_true, decide_eq_true_eq] at h
    have k : ∀ i < 8, ∀ o < 16, srcOf (0x480 + 16 * i + o) = some (.vidx i o) := by decide
    exact k i h.1 o h.2
  | latch n =>
    simp only [Src.inRange, decide_eq_true_eq] at h
    have k : ∀ n < 16, srcOf (0x400 + 8 * n) = some (.latch n) := by decide
    exact k n h
  | vreg n =>
    simp only [Src.inRange, decide_eq_true_eq] at h
    exact if_pos h
  | pred n | k n | tile n | handle n =>
    simp only [Src.inRange, decide_eq_true_eq] at h
    simp (disch := omega) only [srcOf, Src.code, if_neg, if_pos, Nat.add_sub_cancel_left]

theorem Src.code_lt (x : Src) (h : x.inRange) : x.code < 2048 := by
  cases x with
  | sreg k n => cases k <;> simp [Src.inRange, Src.code] at * <;> omega
  | sv v => cases v <;> decide
  | _ => simp [Src.inRange, Src.code] at *; omega

theorem Src.inRange_of_isArith {wide : Bool} {x : Src} (h : x.isArith wide) : x.inRange := by
  cases x <;> simp_all [Src.isArith, Src.inRange]

theorem Src.inRange_of_isCond {x : Src} (h : x.isCond) : x.inRange := by
  cases x <;> simp_all [Src.isCond, Src.isArith, Src.inRange]

theorem Src.inRange_of_isSym {x : Src} (h : x.isSym) : x.inRange := by
  cases x with
  | sreg k n => cases k <;> simp_all [Src.isSym, Src.inRange]
  | _ => simp_all [Src.isSym, Src.inRange]

theorem Src.inRange_of_isConstOrScope {x : Src} (h : x.isConstOrScope) : x.inRange := by
  cases x <;> simp_all [Src.isConstOrScope, Src.inRange]

/-- A source field that holds an accepted operand decodes to it. -/
theorem srcF_code {ok : Src → Bool} {x : Src} (h : x.inRange) (hk : ok x = true) : srcF ok x.code = .ok x := by
  simp [srcF, srcOf_code x h, hk]

theorem srcF_arith {wide : Bool} {x : Src} (h : x.isArith wide = true) : srcF (Src.isArith wide) x.code = .ok x :=
  srcF_code (Src.inRange_of_isArith h) h

theorem srcF_cond {x : Src} (h : x.isCond = true) : srcF Src.isCond x.code = .ok x :=
  srcF_code (Src.inRange_of_isCond h) h

/-- A destination decodes to itself (R51). -/
theorem dstOf_code {x : Dst} {wide predOk : Bool} (h : x.accepts wide predOk = true) : dstOf x.code = some x := by
  cases x with
  | vreg n =>
    simp only [Dst.accepts, Bool.and_eq_true, decide_eq_true_eq] at h
    exact if_pos h.1
  | scope n =>
    simp only [Dst.accepts, Bool.and_eq_true, decide_eq_true_eq] at h
    simp (disch := omega) only [dstOf, Dst.code, if_neg, if_pos, Nat.add_sub_cancel_left]
  | pred n =>
    simp only [Dst.accepts, Bool.and_eq_true, decide_eq_true_eq] at h
    simp (disch := omega) only [dstOf, Dst.code, if_neg, if_pos, Nat.add_sub_cancel_left]

theorem Dst.code_lt {x : Dst} {wide predOk : Bool} (h : x.accepts wide predOk = true) : x.code < 1024 := by
  cases x <;> simp [Dst.accepts, Dst.code] at * <;> omega

theorem dstF_code {x : Dst} {wide predOk : Bool} (h : x.accepts wide predOk = true) :
    dstF wide predOk x.code = .ok x := by
  simp [dstF, dstOf_code h, h]

theorem outF_code {o : Out} {wide predOk : Bool} (h : o.accepts wide predOk = true) :
    outF wide predOk o.dst.code o.nwb.toNat = .ok o := by
  cases o with
  | mk d n => cases n <;> simp_all [outF, Out.accepts, dstF_code]

@[simp] theorem ityF_code (t : ITy) : ityF t.code = .ok t := by cases t <;> rfl
@[simp] theorem ftyF_code (t : FTy) : ftyF t.code = .ok t := by cases t <;> rfl
@[simp] theorem f8tyF_code (t : F8Ty) : f8tyF t.code = .ok t := by cases t <;> rfl
@[simp] theorem btyF_code (t : BTy) : btyF t.code = .ok t := by cases t <;> rfl
@[simp] theorem mtyF_code (t : MTy) : mtyF t.code = .ok t := by
  rcases t with (_ | _ | _ | _) | (_ | _) | (_ | _ | _) | _ <;> rfl
@[simp] theorem rmOf_code (r : RM) : rmOf r.code = r := by cases r <;> rfl
@[simp] theorem scopeF_code (x : Scope) : scopeF x.code = .ok x := by cases x <;> rfl
@[simp] theorem widthF_code (x : Width) : widthF x.code = .ok x := by cases x <;> rfl
@[simp] theorem fscopeOf_code (x : FScope) : fscopeOf x.code = x := by cases x <;> rfl
@[simp] theorem fkindF_code (x : FKind) : fkindF x.code = .ok x := by cases x <;> rfl
@[simp] theorem ckindOf_code (x : CKind) : ckindOf x.code = x := by cases x <;> rfl
@[simp] theorem scanOpF_code (x : ScanOp) : scanOpF x.code = .ok x := by cases x <;> rfl
theorem tagF_code (t : Option Nat) (h : tagOk t = true) : tagF (tagCode t) = .ok t := by
  cases t with
  | none => rfl
  | some n =>
    simp only [tagOk, decide_eq_true_eq] at h
    interval_cases n <;> rfl

theorem ITy.code_lt (t : ITy) : t.code < 4 := by cases t <;> decide
theorem FTy.code_lt (t : FTy) : t.code < 8 := by cases t <;> decide
theorem F8Ty.code_lt (t : F8Ty) : t.code < 10 := by cases t <;> decide
theorem BTy.code_lt (t : BTy) : t.code < 13 := by cases t <;> decide
theorem RM.code_lt (t : RM) : t.code < 4 := by cases t <;> decide
theorem Scope.code_lt (t : Scope) : t.code < 6 := by cases t <;> decide
theorem Width.code_lt (t : Width) : t.code < 6 := by cases t <;> decide

/-- A header with its fields in range decodes to itself (R41). -/
theorem decodeHeader_encode (h : Header) (h1 : h.count < 16) (h2 : h.wait0 < 4) (h3 : h.wait1 < 4) (h4 : h.wait2 < 4)
    (h5 : h.wait3 < 4) (h6 : h.prio < 8) (h7 : h.cache < 4) (h8 : h.len < 16) (h9 : h.hext < 2 ^ 32) :
    decodeHeader h.encode = some h := by
  obtain ⟨c, n, w0, w1, w2, w3, sw, pr, ca, le, hx⟩ := h
  have hc : c.code < 5 := by cases c <;> decide
  have hs : sw.toNat < 2 := by cases sw <;> decide
  have key : clsOf c.code = some c := by cases c <;> rfl
  have hb : (sw.toNat == 1) = sw := by cases sw <;> rfl
  simp only [Nat.reducePow] at *
  have f : ∀ lo len v, bitsOf (Header.encode ⟨c, n, w0, w1, w2, w3, sw, pr, ca, le, hx⟩) lo len = v ↔
      (0b1100 * 2 ^ 60 + c.code * 2 ^ 57 + n * 2 ^ 53 + w3 * 2 ^ 51 + w2 * 2 ^ 49 + w1 * 2 ^ 47
    + w0 * 2 ^ 45 + sw.toNat * 2 ^ 44 + pr * 2 ^ 38 + ca * 2 ^ 36 + le * 2 ^ 32 + hx) / 2 ^ lo % 2 ^ len = v :=
    fun _ _ _ => Iff.rfl
  have e1 := (f 60 4 12).2 (by simp only [Nat.reducePow]; omega)
  have e2 := (f 41 3 0).2 (by simp only [Nat.reducePow]; omega)
  have e3 := (f 57 3 c.code).2 (by simp only [Nat.reducePow]; omega)
  have e4 := (f 53 4 n).2 (by simp only [Nat.reducePow]; omega)
  have e5 := (f 51 2 w3).2 (by simp only [Nat.reducePow]; omega)
  have e6 := (f 49 2 w2).2 (by simp only [Nat.reducePow]; omega)
  have e7 := (f 47 2 w1).2 (by simp only [Nat.reducePow]; omega)
  have e8 := (f 45 2 w0).2 (by simp only [Nat.reducePow]; omega)
  have e9 := (f 44 1 sw.toNat).2 (by simp only [Nat.reducePow]; omega)
  have e10 := (f 38 3 pr).2 (by simp only [Nat.reducePow]; omega)
  have e11 := (f 36 2 ca).2 (by simp only [Nat.reducePow]; omega)
  have e12 := (f 32 4 le).2 (by simp only [Nat.reducePow]; omega)
  have e13 := (f 0 32 hx).2 (by simp only [Nat.reducePow]; omega)
  simp only [decodeHeader, e1, e2, e3, e4, e5, e6, e7, e8, e9, e10, e11, e12, e13, key, hb]
  rfl

end Sys2Proof
end

