-- ==== Sys2Proof/Laws/Coding.lean ====
section
/-! SUPPORT. For each shape of word: the fields the encoder fills fit their places and the shape's decoder reads the
instruction back (R44 to R51); for each range of opcodes, the decoder that `decode` takes. -/

namespace Sys2Proof

set_option Elab.async false

@[simp] theorem Bool.toNat_beq_one (b : Bool) : (b.toNat == 1) = b := by cases b <;> rfl
theorem Bool.toNat_lt_two (b : Bool) : b.toNat < 2 := by cases b <;> decide

theorem Out.code_lt_of_isVec {o : Out} (h : o.isVec = true) : o.dst.code < 1024 := by
  obtain ⟨d, n⟩ := o
  cases d <;> simp_all [Out.isVec, Dst.code]
  omega

theorem vecOutF_code {o : Out} (h : o.isVec = true) : vecOutF o.dst.code o.nwb.toNat = .ok o := by
  obtain ⟨d, n⟩ := o
  cases d <;> simp_all [Out.isVec, Dst.code, vecOutF]

theorem quadOk_lt {n : Nat} (h : quadOk n = true) : n < 2048 := by
  simp [quadOk] at h; omega

theorem predF_code {p : Nat} (h : p < 8) : predF (0x500 + p) = .ok p := by interval_cases p <;> rfl
theorem tileF_code {p : Nat} (h : p < 8) : tileF (0x700 + p) = .ok p := by interval_cases p <;> rfl
theorem handleF_code {p : Nat} (h : p < 32) : handleF (0x720 + p) = .ok p := by interval_cases p <;> rfl
theorem predDstF_code {p : Nat} (h : p < 7) : predDstF (704 + p) = .ok p := by interval_cases p <;> rfl
theorem FTy.code_div (t : FTy) : t.code / 16 = 0 := by cases t <;> rfl
theorem FTy.code_mod (t : FTy) : t.code % 16 = t.code := by cases t <;> rfl
theorem ITy.code_div (t : ITy) : t.code / 16 = 0 := by cases t <;> rfl
theorem ITy.code_mod (t : ITy) : t.code % 16 = t.code := by cases t <;> rfl
theorem six_add (w : Bool) : ((6 + w.toNat == 6 || 6 + w.toNat == 7) = true) ∧ (6 + w.toNat == 7) = w := by cases w <;> decide

theorem vWordF_fits {opc : Nat} {o : Out} {p : Nat} {m : FMod} {a b c ty : Nat} (hopc : opc < 512) (ho : o.dst.code < 1024) (hp : p < 8)
    (ha : a < 2048) (hb : b < 2048) (hc : c < 2048) (ht : ty < 16) : (vWordF opc o p m a b c ty).fits :=
  ⟨hopc, ho, Bool.toNat_lt_two _, ha, hb, hc, hp, Bool.toNat_lt_two _, RM.code_lt _, Bool.toNat_lt_two _, ht⟩

theorem vWord_fits {opc : Nat} {o : Out} {p : Nat} {a b c ty : Nat} (hopc : opc < 512) (ho : o.dst.code < 1024) (hp : p < 8)
    (ha : a < 2048) (hb : b < 2048) (hc : c < 2048) (ht : ty < 16) : (vWord opc o p a b c ty).fits :=
  ⟨hopc, ho, Bool.toNat_lt_two _, ha, hb, hc, hp, (by decide : (0:Nat) < 2), (by decide : (0:Nat) < 4), (by decide : (0:Nat) < 2), ht⟩

theorem Scope.code_lt_eight (x : Scope) : x.code < 8 := by cases x <;> decide
theorem MTy.code_lt (t : MTy) : t.code < 16 := by rcases t with (_ | _ | _ | _) | (_ | _) | (_ | _ | _) | _ <;> decide
theorem CKind.code_lt (x : CKind) : x.code < 4 := by cases x <;> decide
theorem vregF_code {n : Nat} (h : n < 640) : vregF n = .ok n := by simp [vregF, srcOf, h]
theorem crnKnown_lt {n : Nat} (h : crnKnown n = true) : n < 4096 := by
  simp [crnKnown] at h; omega
theorem twelve_add (w : Bool) : ((12 + 2 * w.toNat == 12 || 12 + 2 * w.toNat == 14) = true) ∧ (12 + 2 * w.toNat == 14) = w := by
  cases w <;> decide
theorem scan_fn (op : ScanOp) (x u : Bool) : op.code + 8 * x.toNat + 16 * u.toNat < 2048 ∧
    op.code + 8 * x.toNat + 16 * u.toNat < 32 ∧ scanOpF ((op.code + 8 * x.toNat + 16 * u.toNat) % 8) = .ok op ∧
    ((op.code + 8 * x.toNat + 16 * u.toNat) / 8 % 2 == 1) = x ∧ ((op.code + 8 * x.toNat + 16 * u.toNat) / 16 == 1) = u := by
  cases op <;> cases x <;> cases u <;> decide
theorem tagCode_lt {g : Option Nat} (h : tagOk g = true) : tagCode g < 8 := by
  cases g <;> simp_all [tagOk, tagCode]; omega
theorem tagCode_mod {g : Option Nat} (h : tagOk g = true) : tagCode g % 8 = tagCode g := Nat.mod_eq_of_lt (tagCode_lt h)
theorem tag_fn {g : Option Nat} (h : tagOk g = true) (u : Bool) : tagCode g + 8 * u.toNat < 16 ∧
    tagF ((tagCode g + 8 * u.toNat) % 8) = .ok g ∧ ((tagCode g + 8 * u.toNat) / 8 == 1) = u := by
  have := tagCode_lt h
  have e : (tagCode g + 8 * u.toNat) % 8 = tagCode g := by omega
  refine ⟨by have := Bool.toNat_lt_two u; omega, by rw [e]; exact tagF_code g h, ?_⟩
  have e : (tagCode g + 8 * u.toNat) / 8 = u.toNat := by omega
  rw [e]; simp
theorem mload_fn (t : MTy) {i : Nat} (h : i < 8) : t.code + 16 * i < 128 ∧ mtyF ((t.code + 16 * i) % 16) = .ok t ∧ (t.code + 16 * i) / 16 = i := by
  have := MTy.code_lt t
  have e : (t.code + 16 * i) % 16 = t.code := by omega
  exact ⟨by omega, by rw [e]; simp, by omega⟩
theorem bar_fn (g : Bool) {n : Nat} (h : n < 16) : barFn g n < 32 ∧ (barFn g n % 2 == 1) = g ∧ barFn g n / 2 = n := by
  unfold barFn
  cases g <;> simp <;> omega
theorem cnt_fn (x : CKind) : 1 + 4 * x.code < 16 ∧ (1 + 4 * x.code) % 4 = 1 ∧ ckindOf ((1 + 4 * x.code) / 4) = x := by
  cases x <;> decide
theorem bstat_fn (u : Bool) : ((1 + 2 * u.toNat == 0 || 1 + 2 * u.toNat == 1 || 1 + 2 * u.toNat == 3) = true) ∧ (1 + 2 * u.toNat == 0) = false ∧
    (1 + 2 * u.toNat == 3) = u := by cases u <;> decide
theorem crest_fn {n : Nat} (u : Bool) (h : n < 16) : n + 16 * u.toNat < 32 ∧ (n + 16 * u.toNat) % 16 = n ∧ ((n + 16 * u.toNat) / 16 == 1) = u := by
  cases u <;> simp <;> omega

theorem kWord_fits {opc : Nat} {o : Out} {a b c fn : Nat} (hopc : opc < 512) (ho : o.dst.code < 1024) (ha : a < 2048) (hb : b < 2048)
    (hc : c < 2048) (hf : fn < 2048) : (kWord opc o a b c fn).fits := ⟨hopc, ho, Bool.toNat_lt_two _, ha, hb, hc, hf⟩
theorem kWord0_fits {opc a b c fn : Nat} (hopc : opc < 512) (ha : a < 2048) (hb : b < 2048)
    (hc : c < 2048) (hf : fn < 2048) : (kWord0 opc a b c fn).fits := ⟨hopc, (by decide : (0 : Nat) < 1024), (by decide : (0 : Nat) < 2), ha, hb, hc, hf⟩
theorem iWord_fits {opc : Nat} {o : Out} {a x : Nat} (hopc : opc < 512) (ho : o.dst.code < 1024) (ha : a < 2048) (hx : x < 2 ^ 32) :
    (iWord opc o a x).fits := ⟨hopc, ho, Bool.toNat_lt_two _, ha, (by decide : (0 : Nat) < 2), hx⟩
theorem cWord_fits {opc : Nat} {sc : Scope} {n a t j : Nat} (hopc : opc < 512) (hs : sc.code < 8) (hn : n < 2) (ha : a < 2048) (ht : t < 2 ^ 20)
    (hj : j < 2 ^ 16) : (cWord opc sc n a t j).fits := ⟨hopc, hs, hn, ha, ht, hj, (by decide : (0 : Nat) < 16)⟩
theorem sWord_fits {opc d n a x : Nat} (hopc : opc < 512) (hd : d < 1024) (hn : n < 4096) (ha : a < 2048) (hx : x < 2 ^ 22) :
    (sWord opc d n a x).fits := ⟨hopc, hd, hn, ha, hx⟩

theorem MTy.code_mod (t : MTy) : t.code % 16 = t.code := Nat.mod_eq_of_lt (MTy.code_lt t)
theorem tag_fn0 {g : Option Nat} (h : tagOk g = true) : tagCode g < 16 ∧ tagCode g / 8 = 0 := by
  have := tagCode_lt h; omega
theorem tag_fn1 {g : Option Nat} (h : tagOk g = true) : tagCode g + 8 < 16 ∧ (tagCode g + 8) / 8 = 1 := by
  have := tagCode_lt h; omega
theorem quadOk_lt_dst {n : Nat} (h : quadOk n = true) : n < 1024 := by
  simp [quadOk] at h; omega
theorem srcOf_tile {n : Nat} (h : n < 8) : srcOf (0x700 + n) = some (.tile n) := srcOf_code (.tile n) (by simp [Src.inRange, h])
theorem srcOf_handle {n : Nat} (h : n < 32) : srcOf (0x720 + n) = some (.handle n) := srcOf_code (.handle n) (by simp [Src.inRange, h])
theorem srcOf_vreg {n : Nat} (h : n < 640) : srcOf n = some (.vreg n) := if_pos h

theorem intUn_ok {mk : Out → Nat → ITy → Src → Instr} {opc : Nat} {o : Out} {p : Nat} {t : ITy} {a : Src} (k : opc < 512)
    (h : (o.accepts t.wide false && decide (p < 8) && a.isArith t.wide) = true) :
    (vWord opc o p a.code 0 0 t.code).fits ∧ VWord.intUn mk (vWord opc o p a.code 0 0 t.code) = .ok (mk o p t a) := by
  simp only [Bool.and_eq_true, Bool.or_eq_true, decide_eq_true_eq, beq_iff_eq] at h
  obtain ⟨⟨h0, h1⟩, h2⟩ := h
  refine ⟨vWord_fits k (Dst.code_lt h0) h1 (Src.code_lt _ (Src.inRange_of_isArith h2)) (by decide) (by decide) (by have := ITy.code_lt t; omega), ?_⟩
  simp [VWord.intUn, vWord, zeroF, need, bind, Except.bind, outF_code h0, srcF_arith h2, VWord.plain]


theorem intUnSat_ok {mk : Out → Nat → ITy → Bool → Src → Instr} {opc : Nat} {o : Out} {p : Nat} {t : ITy} {s : Bool} {a : Src} (k : opc < 512)
    (h : (o.accepts t.wide false && decide (p < 8) && a.isArith t.wide) = true) :
    (vWordF opc o p ⟨.rne, false, s⟩ a.code 0 0 t.code).fits ∧ VWord.intUnSat false mk (vWordF opc o p ⟨.rne, false, s⟩ a.code 0 0 t.code) = .ok (mk o p t s a) := by
  simp only [Bool.and_eq_true, Bool.or_eq_true, decide_eq_true_eq, beq_iff_eq] at h
  obtain ⟨⟨h0, h1⟩, h2⟩ := h
  refine ⟨vWordF_fits k (Dst.code_lt h0) h1 (Src.code_lt _ (Src.inRange_of_isArith h2)) (by decide) (by decide) (by have := ITy.code_lt t; omega), ?_⟩
  simp [VWord.intUnSat, vWordF, zeroF, need, bind, Except.bind, outF_code h0, srcF_arith h2, RM.code]


theorem intUnSigned_ok {mk : Out → Nat → ITy → Bool → Src → Instr} {opc : Nat} {o : Out} {p : Nat} {t : ITy} {s : Bool} {a : Src} (k : opc < 512)
    (h : (o.accepts t.wide false && decide (p < 8) && t.signed && a.isArith t.wide) = true) :
    (vWordF opc o p ⟨.rne, false, s⟩ a.code 0 0 t.code).fits ∧ VWord.intUnSat true mk (vWordF opc o p ⟨.rne, false, s⟩ a.code 0 0 t.code) = .ok (mk o p t s a) := by
  simp only [Bool.and_eq_true, Bool.or_eq_true, decide_eq_true_eq, beq_iff_eq] at h
  obtain ⟨⟨⟨h0, h1⟩, h2⟩, h3⟩ := h
  refine ⟨vWordF_fits k (Dst.code_lt h0) h1 (Src.code_lt _ (Src.inRange_of_isArith h3)) (by decide) (by decide) (by have := ITy.code_lt t; omega), ?_⟩
  simp [VWord.intUnSat, vWordF, zeroF, need, bind, Except.bind, outF_code h0, h2, srcF_arith h3, RM.code]


theorem intBin_ok {mk : Out → Nat → ITy → Src → Src → Instr} {opc : Nat} {o : Out} {p : Nat} {t : ITy} {a : Src} {b : Src} (k : opc < 512)
    (h : (o.accepts t.wide false && decide (p < 8) && a.isArith t.wide && b.isArith t.wide) = true) :
    (vWord opc o p a.code b.code 0 t.code).fits ∧ VWord.intBin mk (vWord opc o p a.code b.code 0 t.code) = .ok (mk o p t a b) := by
  simp only [Bool.and_eq_true, Bool.or_eq_true, decide_eq_true_eq, beq_iff_eq] at h
  obtain ⟨⟨⟨h0, h1⟩, h2⟩, h3⟩ := h
  refine ⟨vWord_fits k (Dst.code_lt h0) h1 (Src.code_lt _ (Src.inRange_of_isArith h2)) (Src.code_lt _ (Src.inRange_of_isArith h3)) (by decide) (by have := ITy.code_lt t; omega), ?_⟩
  simp [VWord.intBin, vWord, zeroF, need, bind, Except.bind, outF_code h0, srcF_arith h2, srcF_arith h3, VWord.plain]


theorem intBinSat_ok {mk : Out → Nat → ITy → Bool → Src → Src → Instr} {opc : Nat} {o : Out} {p : Nat} {t : ITy} {s : Bool} {a : Src} {b : Src} (k : opc < 512)
    (h : (o.accepts t.wide false && decide (p < 8) && a.isArith t.wide && b.isArith t.wide) = true) :
    (vWordF opc o p ⟨.rne, false, s⟩ a.code b.code 0 t.code).fits ∧ VWord.intBinSat mk (vWordF opc o p ⟨.rne, false, s⟩ a.code b.code 0 t.code) = .ok (mk o p t s a b) := by
  simp only [Bool.and_eq_true, Bool.or_eq_true, decide_eq_true_eq, beq_iff_eq] at h
  obtain ⟨⟨⟨h0, h1⟩, h2⟩, h3⟩ := h
  refine ⟨vWordF_fits k (Dst.code_lt h0) h1 (Src.code_lt _ (Src.inRange_of_isArith h2)) (Src.code_lt _ (Src.inRange_of_isArith h3)) (by decide) (by have := ITy.code_lt t; omega), ?_⟩
  simp [VWord.intBinSat, vWordF, zeroF, need, bind, Except.bind, outF_code h0, srcF_arith h2, srcF_arith h3, RM.code]


theorem intTerSat_ok {mk : Out → Nat → ITy → Bool → Src → Src → Src → Instr} {opc : Nat} {o : Out} {p : Nat} {t : ITy} {s : Bool} {a : Src} {b : Src} {c : Src} (k : opc < 512)
    (h : (o.accepts t.wide false && decide (p < 8) && a.isArith t.wide && b.isArith t.wide && c.isArith t.wide) = true) :
    (vWordF opc o p ⟨.rne, false, s⟩ a.code b.code c.code t.code).fits ∧ VWord.intTerSat mk (vWordF opc o p ⟨.rne, false, s⟩ a.code b.code c.code t.code) = .ok (mk o p t s a b c) := by
  simp only [Bool.and_eq_true, Bool.or_eq_true, decide_eq_true_eq, beq_iff_eq] at h
  obtain ⟨⟨⟨⟨h0, h1⟩, h2⟩, h3⟩, h4⟩ := h
  refine ⟨vWordF_fits k (Dst.code_lt h0) h1 (Src.code_lt _ (Src.inRange_of_isArith h2)) (Src.code_lt _ (Src.inRange_of_isArith h3)) (Src.code_lt _ (Src.inRange_of_isArith h4)) (by have := ITy.code_lt t; omega), ?_⟩
  simp [VWord.intTerSat, vWordF, zeroF, need, bind, Except.bind, outF_code h0, srcF_arith h2, srcF_arith h3, srcF_arith h4, RM.code]


theorem intShift_ok {mk : Out → Nat → ITy → Src → Src → Instr} {opc : Nat} {o : Out} {p : Nat} {t : ITy} {a : Src} {b : Src} (k : opc < 512)
    (h : (o.accepts t.wide false && decide (p < 8) && a.isArith t.wide && b.isArith false) = true) :
    (vWord opc o p a.code b.code 0 t.code).fits ∧ VWord.intShift mk (vWord opc o p a.code b.code 0 t.code) = .ok (mk o p t a b) := by
  simp only [Bool.and_eq_true, Bool.or_eq_true, decide_eq_true_eq, beq_iff_eq] at h
  obtain ⟨⟨⟨h0, h1⟩, h2⟩, h3⟩ := h
  refine ⟨vWord_fits k (Dst.code_lt h0) h1 (Src.code_lt _ (Src.inRange_of_isArith h2)) (Src.code_lt _ (Src.inRange_of_isArith h3)) (by decide) (by have := ITy.code_lt t; omega), ?_⟩
  simp [VWord.intShift, vWord, zeroF, need, bind, Except.bind, outF_code h0, srcF_arith h2, srcF_arith h3, VWord.plain]


theorem intShiftSat_ok {mk : Out → Nat → ITy → Bool → Src → Src → Instr} {opc : Nat} {o : Out} {p : Nat} {t : ITy} {s : Bool} {a : Src} {b : Src} (k : opc < 512)
    (h : (o.accepts t.wide false && decide (p < 8) && a.isArith t.wide && b.isArith false) = true) :
    (vWordF opc o p ⟨.rne, false, s⟩ a.code b.code 0 t.code).fits ∧ VWord.intShiftSat mk (vWordF opc o p ⟨.rne, false, s⟩ a.code b.code 0 t.code) = .ok (mk o p t s a b) := by
  simp only [Bool.and_eq_true, Bool.or_eq_true, decide_eq_true_eq, beq_iff_eq] at h
  obtain ⟨⟨⟨h0, h1⟩, h2⟩, h3⟩ := h
  refine ⟨vWordF_fits k (Dst.code_lt h0) h1 (Src.code_lt _ (Src.inRange_of_isArith h2)) (Src.code_lt _ (Src.inRange_of_isArith h3)) (by decide) (by have := ITy.code_lt t; omega), ?_⟩
  simp [VWord.intShiftSat, vWordF, zeroF, need, bind, Except.bind, outF_code h0, srcF_arith h2, srcF_arith h3, RM.code]


theorem intBfi_ok {opc : Nat} {o : Out} {p : Nat} {t : ITy} {a : Src} {b : Src} {c : Src} (k : opc < 512)
    (h : (o.accepts t.wide false && decide (p < 8) && a.isArith t.wide && b.isArith t.wide && c.isArith false) = true) :
    (vWord opc o p a.code b.code c.code t.code).fits ∧ VWord.intBfi (vWord opc o p a.code b.code c.code t.code) = .ok (.bfi o p t a b c) := by
  simp only [Bool.and_eq_true, Bool.or_eq_true, decide_eq_true_eq, beq_iff_eq] at h
  obtain ⟨⟨⟨⟨h0, h1⟩, h2⟩, h3⟩, h4⟩ := h
  refine ⟨vWord_fits k (Dst.code_lt h0) h1 (Src.code_lt _ (Src.inRange_of_isArith h2)) (Src.code_lt _ (Src.inRange_of_isArith h3)) (Src.code_lt _ (Src.inRange_of_isArith h4)) (by have := ITy.code_lt t; omega), ?_⟩
  simp [VWord.intBfi, vWord, zeroF, need, bind, Except.bind, outF_code h0, srcF_arith h2, srcF_arith h3, srcF_arith h4, VWord.plain]


theorem intLea_ok {opc : Nat} {o : Out} {p : Nat} {t : ITy} {a : Src} {b : Src} {c : Src} (k : opc < 512)
    (h : (o.accepts true false && decide (p < 8) && a.isArith true && b.isArith t.wide && c.isArith false) = true) :
    (vWord opc o p a.code b.code c.code t.code).fits ∧ VWord.intLea (vWord opc o p a.code b.code c.code t.code) = .ok (.lea o p t a b c) := by
  simp only [Bool.and_eq_true, Bool.or_eq_true, decide_eq_true_eq, beq_iff_eq] at h
  obtain ⟨⟨⟨⟨h0, h1⟩, h2⟩, h3⟩, h4⟩ := h
  refine ⟨vWord_fits k (Dst.code_lt h0) h1 (Src.code_lt _ (Src.inRange_of_isArith h2)) (Src.code_lt _ (Src.inRange_of_isArith h3)) (Src.code_lt _ (Src.inRange_of_isArith h4)) (by have := ITy.code_lt t; omega), ?_⟩
  simp [VWord.intLea, vWord, zeroF, need, bind, Except.bind, outF_code h0, srcF_arith h2, srcF_arith h3, srcF_arith h4, VWord.plain]


theorem intCmp_ok {mk : Out → Nat → ITy → Src → Src → Instr} {opc : Nat} {o : Out} {p : Nat} {t : ITy} {a : Src} {b : Src} (k : opc < 512)
    (h : (o.accepts t.wide true && decide (p < 8) && a.isArith t.wide && b.isArith t.wide) = true) :
    (vWord opc o p a.code b.code 0 t.code).fits ∧ VWord.intCmp mk (vWord opc o p a.code b.code 0 t.code) = .ok (mk o p t a b) := by
  simp only [Bool.and_eq_true, Bool.or_eq_true, decide_eq_true_eq, beq_iff_eq] at h
  obtain ⟨⟨⟨h0, h1⟩, h2⟩, h3⟩ := h
  refine ⟨vWord_fits k (Dst.code_lt h0) h1 (Src.code_lt _ (Src.inRange_of_isArith h2)) (Src.code_lt _ (Src.inRange_of_isArith h3)) (by decide) (by have := ITy.code_lt t; omega), ?_⟩
  simp [VWord.intCmp, vWord, zeroF, need, bind, Except.bind, outF_code h0, srcF_arith h2, srcF_arith h3, VWord.plain]


theorem intBcast_ok {opc : Nat} {o : Out} {p : Nat} {t : ITy} {a : Src} {b : Src} (k : opc < 512)
    (h : (o.accepts t.wide false && decide (p < 8) && a.isArith t.wide && b.isConstOrScope) = true) :
    (vWord opc o p a.code b.code 0 t.code).fits ∧ VWord.intBcast (vWord opc o p a.code b.code 0 t.code) = .ok (.bcast o p t a b) := by
  simp only [Bool.and_eq_true, Bool.or_eq_true, decide_eq_true_eq, beq_iff_eq] at h
  obtain ⟨⟨⟨h0, h1⟩, h2⟩, h3⟩ := h
  refine ⟨vWord_fits k (Dst.code_lt h0) h1 (Src.code_lt _ (Src.inRange_of_isArith h2)) (Src.code_lt _ (Src.inRange_of_isConstOrScope h3)) (by decide) (by have := ITy.code_lt t; omega), ?_⟩
  simp [VWord.intBcast, vWord, zeroF, need, bind, Except.bind, outF_code h0, srcF_arith h2, srcF_code (Src.inRange_of_isConstOrScope h3) h3, VWord.plain]


theorem intPred_ok {mk : Out → Nat → ITy → Src → Src → Nat → Instr} {opc : Nat} {o : Out} {p : Nat} {t : ITy} {a b : Src} {c : Nat} (k : opc < 512)
    (h : (o.accepts t.wide false && decide (p < 8) && a.isArith t.wide && b.isArith t.wide && decide (c < 8)) = true) :
    (vWord opc o p a.code b.code (0x500 + c) t.code).fits ∧ VWord.intPred mk (vWord opc o p a.code b.code (0x500 + c) t.code) = .ok (mk o p t a b c) := by
  simp only [Bool.and_eq_true, Bool.or_eq_true, decide_eq_true_eq, beq_iff_eq] at h
  obtain ⟨⟨⟨⟨h0, h1⟩, h2⟩, h3⟩, h4⟩ := h
  refine ⟨vWord_fits k (Dst.code_lt h0) h1 (Src.code_lt _ (Src.inRange_of_isArith h2)) (Src.code_lt _ (Src.inRange_of_isArith h3)) (by omega) (by have := ITy.code_lt t; omega), ?_⟩
  simp [VWord.intPred, vWord, zeroF, need, bind, Except.bind, outF_code h0, srcF_arith h2, srcF_arith h3, VWord.plain, predF_code h4]


theorem predBin_ok {mk : Nat → Nat → Nat → Nat → Bool → Instr} {opc d p a b : Nat} {w : Bool} (k : opc < 512)
    (h : (decide (d < 7) && decide (p < 8) && decide (a < 8) && decide (b < 8)) = true) :
    (vWord opc ⟨.pred d, w⟩ p (0x500 + a) (0x500 + b) 0 0).fits ∧ VWord.predBin mk (vWord opc ⟨.pred d, w⟩ p (0x500 + a) (0x500 + b) 0 0) = .ok (mk d p a b w) := by
  simp only [Bool.and_eq_true, Bool.or_eq_true, decide_eq_true_eq, beq_iff_eq] at h
  obtain ⟨⟨⟨h0, h1⟩, h2⟩, h3⟩ := h
  refine ⟨vWord_fits k (show 704 + d < 1024 by omega) h1 (by omega) (by omega) (by decide) (by decide), ?_⟩
  simp [VWord.predBin, vWord, zeroF, need, bind, Except.bind, VWord.plain, Dst.code, predDstF_code h0, predF_code h2, predF_code h3]


theorem predNot_ok {opc d p a : Nat} {w : Bool} (k : opc < 512)
    (h : (decide (d < 7) && decide (p < 8) && decide (a < 8)) = true) :
    (vWord opc ⟨.pred d, w⟩ p (0x500 + a) 0 0 0).fits ∧ VWord.predNot (vWord opc ⟨.pred d, w⟩ p (0x500 + a) 0 0 0) = .ok (.pnot d p a w) := by
  simp only [Bool.and_eq_true, Bool.or_eq_true, decide_eq_true_eq, beq_iff_eq] at h
  obtain ⟨⟨h0, h1⟩, h2⟩ := h
  refine ⟨vWord_fits k (show 704 + d < 1024 by omega) h1 (by omega) (by decide) (by decide) (by decide), ?_⟩
  simp [VWord.predNot, vWord, zeroF, need, bind, Except.bind, VWord.plain, Dst.code, predDstF_code h0, predF_code h2]


theorem fltUn_ok {mk : Out → Nat → FTy → FMod → Src → Instr} {opc : Nat} {o : Out} {p : Nat} {t : FTy} {m : FMod} {a : Src} (k : opc < 512)
    (h : (o.accepts t.wide false && decide (p < 8) && a.isArith t.wide) = true) :
    (vWordF opc o p m a.code 0 0 t.code).fits ∧ VWord.fltUn mk (vWordF opc o p m a.code 0 0 t.code) = .ok (mk o p t m a) := by
  simp only [Bool.and_eq_true, Bool.or_eq_true, decide_eq_true_eq, beq_iff_eq] at h
  obtain ⟨⟨h0, h1⟩, h2⟩ := h
  refine ⟨vWordF_fits k (Dst.code_lt h0) h1 (Src.code_lt _ (Src.inRange_of_isArith h2)) (by decide) (by decide) (by have := FTy.code_lt t; omega), ?_⟩
  simp [VWord.fltUn, vWordF, zeroF, need, bind, Except.bind, outF_code h0, srcF_arith h2, VWord.fmod]


theorem fltBin_ok {mk : Out → Nat → FTy → FMod → Src → Src → Instr} {opc : Nat} {o : Out} {p : Nat} {t : FTy} {m : FMod} {a : Src} {b : Src} (k : opc < 512)
    (h : (o.accepts t.wide false && decide (p < 8) && a.isArith t.wide && b.isArith t.wide) = true) :
    (vWordF opc o p m a.code b.code 0 t.code).fits ∧ VWord.fltBin mk (vWordF opc o p m a.code b.code 0 t.code) = .ok (mk o p t m a b) := by
  simp only [Bool.and_eq_true, Bool.or_eq_true, decide_eq_true_eq, beq_iff_eq] at h
  obtain ⟨⟨⟨h0, h1⟩, h2⟩, h3⟩ := h
  refine ⟨vWordF_fits k (Dst.code_lt h0) h1 (Src.code_lt _ (Src.inRange_of_isArith h2)) (Src.code_lt _ (Src.inRange_of_isArith h3)) (by decide) (by have := FTy.code_lt t; omega), ?_⟩
  simp [VWord.fltBin, vWordF, zeroF, need, bind, Except.bind, outF_code h0, srcF_arith h2, srcF_arith h3, VWord.fmod]


theorem fltFma_ok {opc : Nat} {o : Out} {p : Nat} {t : FTy} {m : FMod} {a : Src} {b : Src} {c : Src} (k : opc < 512)
    (h : (o.accepts t.wide false && decide (p < 8) && a.isArith t.wide && b.isArith t.wide && c.isArith t.wide) = true) :
    (vWordF opc o p m a.code b.code c.code t.code).fits ∧ VWord.fltFma (vWordF opc o p m a.code b.code c.code t.code) = .ok (.ffma o p t m a b c) := by
  simp only [Bool.and_eq_true, Bool.or_eq_true, decide_eq_true_eq, beq_iff_eq] at h
  obtain ⟨⟨⟨⟨h0, h1⟩, h2⟩, h3⟩, h4⟩ := h
  refine ⟨vWordF_fits k (Dst.code_lt h0) h1 (Src.code_lt _ (Src.inRange_of_isArith h2)) (Src.code_lt _ (Src.inRange_of_isArith h3)) (Src.code_lt _ (Src.inRange_of_isArith h4)) (by have := FTy.code_lt t; omega), ?_⟩
  simp [VWord.fltFma, vWordF, zeroF, need, bind, Except.bind, outF_code h0, srcF_arith h2, srcF_arith h3, srcF_arith h4, VWord.fmod]


theorem fltMinMax_ok {mk : Out → Nat → FTy → Bool → Src → Src → Instr} {opc : Nat} {o : Out} {p : Nat} {t : FTy} {x : Bool} {a : Src} {b : Src} (k : opc < 512)
    (h : (o.accepts t.wide false && decide (p < 8) && a.isArith t.wide && b.isArith t.wide) = true) :
    (vWordF opc o p (fmodOf .rne x) a.code b.code 0 t.code).fits ∧ VWord.fltMinMax mk (vWordF opc o p (fmodOf .rne x) a.code b.code 0 t.code) = .ok (mk o p t x a b) := by
  simp only [Bool.and_eq_true, Bool.or_eq_true, decide_eq_true_eq, beq_iff_eq] at h
  obtain ⟨⟨⟨h0, h1⟩, h2⟩, h3⟩ := h
  refine ⟨vWordF_fits k (Dst.code_lt h0) h1 (Src.code_lt _ (Src.inRange_of_isArith h2)) (Src.code_lt _ (Src.inRange_of_isArith h3)) (by decide) (by have := FTy.code_lt t; omega), ?_⟩
  simp [VWord.fltMinMax, vWordF, zeroF, need, bind, Except.bind, outF_code h0, srcF_arith h2, srcF_arith h3, fmodOf, RM.code]


theorem fltSign_ok {mk : Out → Nat → FTy → Src → Instr} {opc : Nat} {o : Out} {p : Nat} {t : FTy} {a : Src} (k : opc < 512)
    (h : (o.accepts t.wide false && decide (p < 8) && a.isArith t.wide) = true) :
    (vWord opc o p a.code 0 0 t.code).fits ∧ VWord.fltSign mk (vWord opc o p a.code 0 0 t.code) = .ok (mk o p t a) := by
  simp only [Bool.and_eq_true, Bool.or_eq_true, decide_eq_true_eq, beq_iff_eq] at h
  obtain ⟨⟨h0, h1⟩, h2⟩ := h
  refine ⟨vWord_fits k (Dst.code_lt h0) h1 (Src.code_lt _ (Src.inRange_of_isArith h2)) (by decide) (by decide) (by have := FTy.code_lt t; omega), ?_⟩
  simp [VWord.fltSign, vWord, zeroF, need, bind, Except.bind, outF_code h0, srcF_arith h2, VWord.plain]


theorem fltCmp_ok {mk : Out → Nat → FTy → Bool → Src → Src → Instr} {opc : Nat} {o : Out} {p : Nat} {t : FTy} {x : Bool} {a : Src} {b : Src} (k : opc < 512)
    (h : (o.accepts false true && decide (p < 8) && a.isArith t.wide && b.isArith t.wide) = true) :
    (vWordF opc o p (fmodOf .rne x) a.code b.code 0 t.code).fits ∧ VWord.fltCmp mk (vWordF opc o p (fmodOf .rne x) a.code b.code 0 t.code) = .ok (mk o p t x a b) := by
  simp only [Bool.and_eq_true, Bool.or_eq_true, decide_eq_true_eq, beq_iff_eq] at h
  obtain ⟨⟨⟨h0, h1⟩, h2⟩, h3⟩ := h
  refine ⟨vWordF_fits k (Dst.code_lt h0) h1 (Src.code_lt _ (Src.inRange_of_isArith h2)) (Src.code_lt _ (Src.inRange_of_isArith h3)) (by decide) (by have := FTy.code_lt t; omega), ?_⟩
  simp [VWord.fltCmp, vWordF, zeroF, need, bind, Except.bind, outF_code h0, srcF_arith h2, srcF_arith h3, fmodOf, RM.code]


theorem fltClass_ok {opc : Nat} {o : Out} {p : Nat} {t : FTy} {a : Src} (k : opc < 512)
    (h : (o.accepts false false && decide (p < 8) && a.isArith t.wide) = true) :
    (vWord opc o p a.code 0 0 t.code).fits ∧ VWord.fltClass (vWord opc o p a.code 0 0 t.code) = .ok (.fclass o p t a) := by
  simp only [Bool.and_eq_true, Bool.or_eq_true, decide_eq_true_eq, beq_iff_eq] at h
  obtain ⟨⟨h0, h1⟩, h2⟩ := h
  refine ⟨vWord_fits k (Dst.code_lt h0) h1 (Src.code_lt _ (Src.inRange_of_isArith h2)) (by decide) (by decide) (by have := FTy.code_lt t; omega), ?_⟩
  simp [VWord.fltClass, vWord, zeroF, need, bind, Except.bind, outF_code h0, srcF_arith h2, VWord.plain]


theorem fltScale_ok {opc : Nat} {o : Out} {p : Nat} {t : FTy} {m : FMod} {a : Src} {b : Src} (k : opc < 512)
    (h : (o.accepts t.wide false && decide (p < 8) && a.isArith t.wide && b.isArith false) = true) :
    (vWordF opc o p m a.code b.code 0 t.code).fits ∧ VWord.fltScale (vWordF opc o p m a.code b.code 0 t.code) = .ok (.fscale o p t m a b) := by
  simp only [Bool.and_eq_true, Bool.or_eq_true, decide_eq_true_eq, beq_iff_eq] at h
  obtain ⟨⟨⟨h0, h1⟩, h2⟩, h3⟩ := h
  refine ⟨vWordF_fits k (Dst.code_lt h0) h1 (Src.code_lt _ (Src.inRange_of_isArith h2)) (Src.code_lt _ (Src.inRange_of_isArith h3)) (by decide) (by have := FTy.code_lt t; omega), ?_⟩
  simp [VWord.fltScale, vWordF, zeroF, need, bind, Except.bind, outF_code h0, srcF_arith h2, srcF_arith h3, VWord.fmod]


theorem fltRound_ok {opc : Nat} {o : Out} {p : Nat} {t : FTy} {r : RM} {x : Bool} {a : Src} (k : opc < 512)
    (h : (o.accepts t.wide false && decide (p < 8) && a.isArith t.wide) = true) :
    (vWordF opc o p (fmodOf r x) a.code 0 0 t.code).fits ∧ VWord.fltRound (vWordF opc o p (fmodOf r x) a.code 0 0 t.code) = .ok (.fround o p t r x a) := by
  simp only [Bool.and_eq_true, Bool.or_eq_true, decide_eq_true_eq, beq_iff_eq] at h
  obtain ⟨⟨h0, h1⟩, h2⟩ := h
  refine ⟨vWordF_fits k (Dst.code_lt h0) h1 (Src.code_lt _ (Src.inRange_of_isArith h2)) (by decide) (by decide) (by have := FTy.code_lt t; omega), ?_⟩
  simp [VWord.fltRound, vWordF, zeroF, need, bind, Except.bind, outF_code h0, srcF_arith h2, fmodOf]


theorem fltCvt_ok {opc : Nat} {o : Out} {p : Nat} {t : FTy} {m : FMod} {u : FTy} {a : Src} (k : opc < 512)
    (h : (o.accepts t.wide false && decide (p < 8) && a.isArith u.wide) = true) :
    (vWordF opc o p m a.code 0 u.code t.code).fits ∧ VWord.fltCvt (vWordF opc o p m a.code 0 u.code t.code) = .ok (.fcvt o p t m u a) := by
  simp only [Bool.and_eq_true, Bool.or_eq_true, decide_eq_true_eq, beq_iff_eq] at h
  obtain ⟨⟨h0, h1⟩, h2⟩ := h
  refine ⟨vWordF_fits k (Dst.code_lt h0) h1 (Src.code_lt _ (Src.inRange_of_isArith h2)) (by decide) (by have := FTy.code_lt u; omega) (by have := FTy.code_lt t; omega), ?_⟩
  simp [VWord.fltCvt, vWordF, zeroF, need, bind, Except.bind, outF_code h0, srcF_arith h2, VWord.fmod, FTy.code_div u, FTy.code_mod u]


theorem fltCvti_ok {opc : Nat} {o : Out} {p : Nat} {t : ITy} {r : RM} {x : Bool} {u : FTy} {a : Src} (k : opc < 512)
    (h : (o.accepts t.wide false && decide (p < 8) && a.isArith u.wide) = true) :
    (vWordF opc o p (fmodOf r x) a.code 0 u.code t.code).fits ∧ VWord.fltCvti (vWordF opc o p (fmodOf r x) a.code 0 u.code t.code) = .ok (.fcvti o p t r x u a) := by
  simp only [Bool.and_eq_true, Bool.or_eq_true, decide_eq_true_eq, beq_iff_eq] at h
  obtain ⟨⟨h0, h1⟩, h2⟩ := h
  refine ⟨vWordF_fits k (Dst.code_lt h0) h1 (Src.code_lt _ (Src.inRange_of_isArith h2)) (by decide) (by have := FTy.code_lt u; omega) (by have := ITy.code_lt t; omega), ?_⟩
  simp [VWord.fltCvti, vWordF, zeroF, need, bind, Except.bind, outF_code h0, srcF_arith h2, fmodOf, FTy.code_div u, FTy.code_mod u]


theorem intCvt_ok {opc : Nat} {o : Out} {p : Nat} {t : FTy} {m : FMod} {u : ITy} {a : Src} (k : opc < 512)
    (h : (o.accepts t.wide false && decide (p < 8) && a.isArith u.wide) = true) :
    (vWordF opc o p m a.code 0 u.code t.code).fits ∧ VWord.intCvt (vWordF opc o p m a.code 0 u.code t.code) = .ok (.ficvt o p t m u a) := by
  simp only [Bool.and_eq_true, Bool.or_eq_true, decide_eq_true_eq, beq_iff_eq] at h
  obtain ⟨⟨h0, h1⟩, h2⟩ := h
  refine ⟨vWordF_fits k (Dst.code_lt h0) h1 (Src.code_lt _ (Src.inRange_of_isArith h2)) (by decide) (by have := ITy.code_lt u; omega) (by have := FTy.code_lt t; omega), ?_⟩
  simp [VWord.intCvt, vWordF, zeroF, need, bind, Except.bind, outF_code h0, srcF_arith h2, VWord.fmod, ITy.code_div u, ITy.code_mod u]


theorem fltDot2_ok {opc : Nat} {o : Out} {p : Nat} {w : Bool} {m : FMod} {a b c : Src} (k : opc < 512)
    (h : (o.accepts false false && decide (p < 8) && a.isArith false && b.isArith false && c.isArith false) = true) :
    (vWordF opc o p m a.code b.code c.code (6 + w.toNat)).fits ∧ VWord.fltDot2 (vWordF opc o p m a.code b.code c.code (6 + w.toNat)) = .ok (.fdot2 o p w m a b c) := by
  simp only [Bool.and_eq_true, Bool.or_eq_true, decide_eq_true_eq, beq_iff_eq] at h
  obtain ⟨⟨⟨⟨h0, h1⟩, h2⟩, h3⟩, h4⟩ := h
  refine ⟨vWordF_fits k (Dst.code_lt h0) h1 (Src.code_lt _ (Src.inRange_of_isArith h2)) (Src.code_lt _ (Src.inRange_of_isArith h3)) (Src.code_lt _ (Src.inRange_of_isArith h4)) (by have := Bool.toNat_lt_two w; omega), ?_⟩
  simp [VWord.fltDot2, vWordF, zeroF, need, bind, Except.bind, outF_code h0, srcF_arith h2, srcF_arith h3, srcF_arith h4, VWord.fmod, six_add w]


theorem fltDot4_ok {opc : Nat} {o : Out} {p : Nat} {t : F8Ty} {m : FMod} {a : Src} {b : Src} {c : Src} (k : opc < 512)
    (h : (o.accepts false false && decide (p < 8) && a.isArith false && b.isArith false && c.isArith false) = true) :
    (vWordF opc o p m a.code b.code c.code t.code).fits ∧ VWord.fltDot4 (vWordF opc o p m a.code b.code c.code t.code) = .ok (.fdot4 o p t m a b c) := by
  simp only [Bool.and_eq_true, Bool.or_eq_true, decide_eq_true_eq, beq_iff_eq] at h
  obtain ⟨⟨⟨⟨h0, h1⟩, h2⟩, h3⟩, h4⟩ := h
  refine ⟨vWordF_fits k (Dst.code_lt h0) h1 (Src.code_lt _ (Src.inRange_of_isArith h2)) (Src.code_lt _ (Src.inRange_of_isArith h3)) (Src.code_lt _ (Src.inRange_of_isArith h4)) (by have := F8Ty.code_lt t; omega), ?_⟩
  simp [VWord.fltDot4, vWordF, zeroF, need, bind, Except.bind, outF_code h0, srcF_arith h2, srcF_arith h3, srcF_arith h4, VWord.fmod]


theorem bxMax_ok {opc : Nat} {o : Out} {p : Nat} {a : Nat} (k : opc < 512)
    (h : (o.isVec && decide (p < 8) && quadOk a) = true) :
    (vWord opc o p a 0 0 4).fits ∧ VWord.bxMax (vWord opc o p a 0 0 4) = .ok (.bxmax o p a) := by
  simp only [Bool.and_eq_true, Bool.or_eq_true, decide_eq_true_eq, beq_iff_eq] at h
  obtain ⟨⟨h0, h1⟩, h2⟩ := h
  refine ⟨vWord_fits k (Out.code_lt_of_isVec h0) h1 (quadOk_lt h2) (by decide) (by decide) (by decide), ?_⟩
  simp [VWord.bxMax, vWord, zeroF, need, bind, Except.bind, vecOutF_code h0, quadF, h2, VWord.plain]


theorem sixBit_ok {mk : Out → Nat → Src → Instr} {opc : Nat} {o : Out} {p : Nat} {a : Src} (k : opc < 512)
    (h : (o.isVec && decide (p < 8) && a.isArith false) = true) :
    (vWord opc o p a.code 0 0 11).fits ∧ VWord.sixBit mk (vWord opc o p a.code 0 0 11) = .ok (mk o p a) := by
  simp only [Bool.and_eq_true, Bool.or_eq_true, decide_eq_true_eq, beq_iff_eq] at h
  obtain ⟨⟨h0, h1⟩, h2⟩ := h
  refine ⟨vWord_fits k (Out.code_lt_of_isVec h0) h1 (Src.code_lt _ (Src.inRange_of_isArith h2)) (by decide) (by decide) (by decide), ?_⟩
  simp [VWord.sixBit, vWord, zeroF, need, bind, Except.bind, vecOutF_code h0, srcF_arith h2, VWord.plain]


theorem upkFour_ok {opc : Nat} {o : Out} {p : Nat} {w : Bool} {a b : Src} (k : opc < 512)
    (h : (o.isVec && decide (p < 8) && a.isArith false && b.isArith false) = true) :
    (vWord opc o p a.code b.code 0 (12 + 2 * w.toNat)).fits ∧ VWord.upkFour (vWord opc o p a.code b.code 0 (12 + 2 * w.toNat)) = .ok (.upk4 o p w a b) := by
  simp only [Bool.and_eq_true, Bool.or_eq_true, decide_eq_true_eq, beq_iff_eq] at h
  obtain ⟨⟨⟨h0, h1⟩, h2⟩, h3⟩ := h
  refine ⟨vWord_fits k (Out.code_lt_of_isVec h0) h1 (Src.code_lt _ (Src.inRange_of_isArith h2)) (Src.code_lt _ (Src.inRange_of_isArith h3)) (by decide) (by have := Bool.toNat_lt_two w; omega), ?_⟩
  simp [VWord.upkFour, vWord, zeroF, need, bind, Except.bind, vecOutF_code h0, srcF_arith h2, srcF_arith h3, VWord.plain, twelve_add w]


theorem f8Enc_ok {opc : Nat} {o : Out} {p : Nat} {t : F8Ty} {m : FMod} {a : Nat} (k : opc < 512)
    (h : (o.isVec && decide (p < 8) && quadOk a) = true) :
    (vWordF opc o p m a 0 0 t.code).fits ∧ VWord.f8Enc (vWordF opc o p m a 0 0 t.code) = .ok (.f8enc o p t m a) := by
  simp only [Bool.and_eq_true, Bool.or_eq_true, decide_eq_true_eq, beq_iff_eq] at h
  obtain ⟨⟨h0, h1⟩, h2⟩ := h
  refine ⟨vWordF_fits k (Out.code_lt_of_isVec h0) h1 (quadOk_lt h2) (by decide) (by decide) (by have := F8Ty.code_lt t; omega), ?_⟩
  simp [VWord.f8Enc, vWordF, zeroF, need, bind, Except.bind, vecOutF_code h0, quadF, h2, VWord.fmod]


theorem vote_ok {mk : Out → Src → Instr} {opc : Nat} {o : Out} {a : Src} (k : opc < 512)
    (h : (o.accepts false true && a.isCond) = true) :
    (kWord opc o a.code 0 0 0).fits ∧ KWord.vote mk (kWord opc o a.code 0 0 0) = .ok (mk o a) := by
  simp only [Bool.and_eq_true, Bool.or_eq_true, decide_eq_true_eq, beq_iff_eq] at h
  obtain ⟨h0, h1⟩ := h
  refine ⟨kWord_fits k (Dst.code_lt h0) (Src.code_lt _ (Src.inRange_of_isCond h1)) (by decide) (by decide) (by decide), ?_⟩
  simp [KWord.vote, kWord, zeroF, need, bind, Except.bind, outF_code h0, srcF_cond h1]


theorem vmaxOp_ok {opc : Nat} {o : Out} {u : Bool} {a : Src} (k : opc < 512)
    (h : (o.accepts false true && a.isCond) = true) :
    (kWord opc o a.code 0 0 u.toNat).fits ∧ KWord.vmaxOp (kWord opc o a.code 0 0 u.toNat) = .ok (.vmax u o a) := by
  simp only [Bool.and_eq_true, Bool.or_eq_true, decide_eq_true_eq, beq_iff_eq] at h
  obtain ⟨h0, h1⟩ := h
  refine ⟨kWord_fits k (Dst.code_lt h0) (Src.code_lt _ (Src.inRange_of_isCond h1)) (by decide) (by decide) (by have := Bool.toNat_lt_two u; omega), ?_⟩
  cases u <;>
    simp [KWord.vmaxOp, kWord, zeroF, need, bind, Except.bind, outF_code h0, srcF_cond h1, Bool.toNat_lt_two]


theorem ixgetOp_ok {opc : Nat} {o : Out} {i x : Nat} (k : opc < 512)
    (h : (o.isVec && decide (i < 8) && decide (x < 3)) = true) :
    (kWord opc o 0 0 0 (i + 8 * x)).fits ∧ KWord.ixgetOp (kWord opc o 0 0 0 (i + 8 * x)) = .ok (.ixget o i x) := by
  simp only [Bool.and_eq_true, Bool.or_eq_true, decide_eq_true_eq, beq_iff_eq] at h
  obtain ⟨⟨h0, h1⟩, h2⟩ := h
  refine ⟨kWord_fits k (Out.code_lt_of_isVec h0) (by decide) (by decide) (by decide) (by omega), ?_⟩
  simp [KWord.ixgetOp, kWord, zeroF, need, bind, Except.bind, vecOutF_code h0, (by omega : i + 8 * x < 24), (by omega : (i + 8 * x) % 8 = i), (by omega : (i + 8 * x) / 8 = x)]


theorem scanOp_ok {opc : Nat} {o : Out} {op : ScanOp} {x u : Bool} {a : Src} (k : opc < 512)
    (h : (o.accepts false false && a.isArith false) = true) :
    (kWord opc o a.code 0 0 (op.code + 8 * x.toNat + 16 * u.toNat)).fits ∧ KWord.scanOp (kWord opc o a.code 0 0 (op.code + 8 * x.toNat + 16 * u.toNat)) = .ok (.scan o op x u a) := by
  simp only [Bool.and_eq_true, Bool.or_eq_true, decide_eq_true_eq, beq_iff_eq] at h
  obtain ⟨h0, h1⟩ := h
  refine ⟨kWord_fits k (Dst.code_lt h0) (Src.code_lt _ (Src.inRange_of_isArith h1)) (by decide) (by decide) (scan_fn op x u).1, ?_⟩
  simp [KWord.scanOp, kWord, zeroF, need, bind, Except.bind, outF_code h0, srcF_arith h1, (scan_fn op x u).2]


theorem flgrdOp_ok {opc : Nat} {o : Out} (k : opc < 512)
    (h : (o.isVec) = true) :
    (kWord opc o 0 0 0 0).fits ∧ KWord.flgrdOp (kWord opc o 0 0 0 0) = .ok (.flgrd o) := by
  have h0 := h
  refine ⟨kWord_fits k (Out.code_lt_of_isVec h0) (by decide) (by decide) (by decide) (by decide), ?_⟩
  simp [KWord.flgrdOp, kWord, zeroF, need, bind, Except.bind, vecOutF_code h0]


theorem src1_ok {mk : Src → Instr} {opc : Nat} {a : Src} (k : opc < 512)
    (h : (a.isArith false) = true) :
    (kWord0 opc a.code 0 0 0).fits ∧ KWord.src1 mk (kWord0 opc a.code 0 0 0) = .ok (mk a) := by
  have h0 := h
  refine ⟨kWord0_fits k (Src.code_lt _ (Src.inRange_of_isArith h0)) (by decide) (by decide) (by decide), ?_⟩
  simp [KWord.src1, kWord0, zeroF, need, bind, Except.bind, srcF_arith h0, KWord.noD]


theorem outSrc00_ok {mk : Out → Src → Instr} {opc : Nat} {o : Out} {a : Src} (k : opc < 512)
    (h : (o.accepts false false && a.isArith false) = true) :
    (kWord opc o a.code 0 0 0).fits ∧ KWord.outSrc false false mk (kWord opc o a.code 0 0 0) = .ok (mk o a) := by
  simp only [Bool.and_eq_true, Bool.or_eq_true, decide_eq_true_eq, beq_iff_eq] at h
  obtain ⟨h0, h1⟩ := h
  refine ⟨kWord_fits k (Dst.code_lt h0) (Src.code_lt _ (Src.inRange_of_isArith h1)) (by decide) (by decide) (by decide), ?_⟩
  simp [KWord.outSrc, kWord, zeroF, need, bind, Except.bind, outF_code h0, srcF_arith h1]


theorem outSrc01_ok {mk : Out → Src → Instr} {opc : Nat} {o : Out} {a : Src} (k : opc < 512)
    (h : (o.accepts false false && a.isArith true) = true) :
    (kWord opc o a.code 0 0 0).fits ∧ KWord.outSrc false true mk (kWord opc o a.code 0 0 0) = .ok (mk o a) := by
  simp only [Bool.and_eq_true, Bool.or_eq_true, decide_eq_true_eq, beq_iff_eq] at h
  obtain ⟨h0, h1⟩ := h
  refine ⟨kWord_fits k (Dst.code_lt h0) (Src.code_lt _ (Src.inRange_of_isArith h1)) (by decide) (by decide) (by decide), ?_⟩
  simp [KWord.outSrc, kWord, zeroF, need, bind, Except.bind, outF_code h0, srcF_arith h1]


theorem outSrc10_ok {mk : Out → Src → Instr} {opc : Nat} {o : Out} {a : Src} (k : opc < 512)
    (h : (o.accepts false true && a.isArith false) = true) :
    (kWord opc o a.code 0 0 0).fits ∧ KWord.outSrc true false mk (kWord opc o a.code 0 0 0) = .ok (mk o a) := by
  simp only [Bool.and_eq_true, Bool.or_eq_true, decide_eq_true_eq, beq_iff_eq] at h
  obtain ⟨h0, h1⟩ := h
  refine ⟨kWord_fits k (Dst.code_lt h0) (Src.code_lt _ (Src.inRange_of_isArith h1)) (by decide) (by decide) (by decide), ?_⟩
  simp [KWord.outSrc, kWord, zeroF, need, bind, Except.bind, outF_code h0, srcF_arith h1]


theorem outSrc11_ok {mk : Out → Src → Instr} {opc : Nat} {o : Out} {a : Src} (k : opc < 512)
    (h : (o.accepts false true && a.isArith true) = true) :
    (kWord opc o a.code 0 0 0).fits ∧ KWord.outSrc true true mk (kWord opc o a.code 0 0 0) = .ok (mk o a) := by
  simp only [Bool.and_eq_true, Bool.or_eq_true, decide_eq_true_eq, beq_iff_eq] at h
  obtain ⟨h0, h1⟩ := h
  refine ⟨kWord_fits k (Dst.code_lt h0) (Src.code_lt _ (Src.inRange_of_isArith h1)) (by decide) (by decide) (by decide), ?_⟩
  simp [KWord.outSrc, kWord, zeroF, need, bind, Except.bind, outF_code h0, srcF_arith h1]


theorem mloadOp_ok {opc : Nat} {o : Out} {n : Nat} {a b : Src} {t : MTy} {i : Nat} (k : opc < 512)
    (h : (o.accepts false true && decide (n < 32) && a.isArith true && b.isArith false && decide (i < 8)) = true) :
    (kWord opc o (0x720 + n) a.code b.code (t.code + 16 * i)).fits ∧ KWord.mloadOp (kWord opc o (0x720 + n) a.code b.code (t.code + 16 * i)) = .ok (.mload o n a b t i) := by
  simp only [Bool.and_eq_true, Bool.or_eq_true, decide_eq_true_eq, beq_iff_eq] at h
  obtain ⟨⟨⟨⟨h0, h1⟩, h2⟩, h3⟩, h4⟩ := h
  refine ⟨kWord_fits k (Dst.code_lt h0) (by omega) (Src.code_lt _ (Src.inRange_of_isArith h2)) (Src.code_lt _ (Src.inRange_of_isArith h3)) (by have := MTy.code_lt t; omega), ?_⟩
  simp [KWord.mloadOp, kWord, zeroF, need, bind, Except.bind, outF_code h0, srcF_arith h2, srcF_arith h3, handleF_code h1, mload_fn t h4, MTy.code_mod t]


theorem mzeroOp_ok {opc a : Nat} (k : opc < 512)
    (h : (decide (a < 8)) = true) :
    (kWord0 opc (0x700 + a) 0 0 0).fits ∧ KWord.mzeroOp (kWord0 opc (0x700 + a) 0 0 0) = .ok (.mzero a) := by
  simp only [Bool.and_eq_true, Bool.or_eq_true, decide_eq_true_eq, beq_iff_eq] at h
  have h0 := h
  refine ⟨kWord0_fits k (by omega) (by decide) (by decide) (by decide), ?_⟩
  simp [KWord.mzeroOp, kWord0, zeroF, need, bind, Except.bind, KWord.noD, tileF_code h0]


theorem mstoreOp_ok {opc a : Nat} {b c : Src} (k : opc < 512)
    (h : (decide (a < 8) && b.isArith true && c.isArith false) = true) :
    (kWord0 opc (0x700 + a) b.code c.code 0).fits ∧ KWord.mstoreOp (kWord0 opc (0x700 + a) b.code c.code 0) = .ok (.mstore a b c) := by
  simp only [Bool.and_eq_true, Bool.or_eq_true, decide_eq_true_eq, beq_iff_eq] at h
  obtain ⟨⟨h0, h1⟩, h2⟩ := h
  refine ⟨kWord0_fits k (by omega) (Src.code_lt _ (Src.inRange_of_isArith h1)) (Src.code_lt _ (Src.inRange_of_isArith h2)) (by decide), ?_⟩
  simp [KWord.mstoreOp, kWord0, zeroF, need, bind, Except.bind, srcF_arith h1, srcF_arith h2, KWord.noD, tileF_code h0]


theorem mscaleAll_ok {opc : Nat} {a : Src} (k : opc < 512)
    (h : (a.isArith false) = true) :
    (kWord0 opc 0 a.code 0 1).fits ∧ KWord.mscaleOp (kWord0 opc 0 a.code 0 1) = .ok (.mscale none a) := by
  have h0 := h
  refine ⟨kWord0_fits k (by decide) (Src.code_lt _ (Src.inRange_of_isArith h0)) (by decide) (by decide), ?_⟩
  simp [KWord.mscaleOp, kWord0, zeroF, need, bind, Except.bind, srcF_arith h0, KWord.noD]


theorem mscaleOne_ok {opc n : Nat} {a : Src} (k : opc < 512)
    (h : (decide (n < 32) && a.isArith false) = true) :
    (kWord0 opc (0x720 + n) a.code 0 0).fits ∧ KWord.mscaleOp (kWord0 opc (0x720 + n) a.code 0 0) = .ok (.mscale (some n) a) := by
  simp only [Bool.and_eq_true, Bool.or_eq_true, decide_eq_true_eq, beq_iff_eq] at h
  obtain ⟨h0, h1⟩ := h
  refine ⟨kWord0_fits k (by omega) (Src.code_lt _ (Src.inRange_of_isArith h1)) (by decide) (by decide), ?_⟩
  simp [KWord.mscaleOp, kWord0, zeroF, need, bind, Except.bind, srcF_arith h1, KWord.noD, handleF_code h0]


theorem mgetOp_ok {opc d a : Nat} (k : opc < 512)
    (h : (decide (d < 640) && decide (a < 8)) = true) :
    (kWord opc ⟨.vreg d, false⟩ (0x700 + a) 0 0 0).fits ∧ KWord.mgetOp (kWord opc ⟨.vreg d, false⟩ (0x700 + a) 0 0 0) = .ok (.mget d a) := by
  simp only [Bool.and_eq_true, Bool.or_eq_true, decide_eq_true_eq, beq_iff_eq] at h
  obtain ⟨h0, h1⟩ := h
  refine ⟨kWord_fits k (show d < 1024 by omega) (by omega) (by decide) (by decide) (by decide), ?_⟩
  simp [KWord.mgetOp, kWord, zeroF, need, bind, Except.bind, tileF_code h1, Dst.code, h0]


theorem mputOp_ok {opc a n : Nat} (k : opc < 512)
    (h : (decide (a < 8) && decide (n < 640)) = true) :
    (kWord0 opc (0x700 + a) n 0 0).fits ∧ KWord.mputOp (kWord0 opc (0x700 + a) n 0 0) = .ok (.mput a n) := by
  simp only [Bool.and_eq_true, Bool.or_eq_true, decide_eq_true_eq, beq_iff_eq] at h
  obtain ⟨h0, h1⟩ := h
  refine ⟨kWord0_fits k (by omega) (by omega) (by decide) (by decide), ?_⟩
  simp [KWord.mputOp, kWord0, zeroF, need, bind, Except.bind, KWord.noD, tileF_code h0, vregF_code h1]


theorem merrOp_ok {opc : Nat} {o : Out} {n : Nat} (k : opc < 512)
    (h : (o.accepts false true && decide (n < 5)) = true) :
    (kWord opc o 0 0 0 n).fits ∧ KWord.merrOp (kWord opc o 0 0 0 n) = .ok (.merr o n) := by
  simp only [Bool.and_eq_true, Bool.or_eq_true, decide_eq_true_eq, beq_iff_eq] at h
  obtain ⟨h0, h1⟩ := h
  refine ⟨kWord_fits k (Dst.code_lt h0) (by decide) (by decide) (by decide) (by omega), ?_⟩
  simp [KWord.merrOp, kWord, zeroF, need, bind, Except.bind, outF_code h0, h1]


theorem lquotaOp_ok {opc : Nat} {o : Out} {u : Bool} (k : opc < 512)
    (h : (o.accepts false false) = true) :
    (kWord opc o 0 0 0 u.toNat).fits ∧ KWord.lquotaOp (kWord opc o 0 0 0 u.toNat) = .ok (.lquota o u) := by
  have h0 := h
  refine ⟨kWord_fits k (Dst.code_lt h0) (by decide) (by decide) (by decide) (by have := Bool.toNat_lt_two u; omega), ?_⟩
  cases u <;>
    simp [KWord.lquotaOp, kWord, zeroF, need, bind, Except.bind, outF_code h0, Bool.toNat_lt_two]


theorem biasDev_ok {opc : Nat} {o : Out} {a : Src} (k : opc < 512)
    (h : (o.accepts false false && a.isArith true) = true) :
    (kWord opc o a.code 0 0 1).fits ∧ KWord.biasOp (kWord opc o a.code 0 0 1) = .ok (.biasDev o a) := by
  simp only [Bool.and_eq_true, Bool.or_eq_true, decide_eq_true_eq, beq_iff_eq] at h
  obtain ⟨h0, h1⟩ := h
  refine ⟨kWord_fits k (Dst.code_lt h0) (Src.code_lt _ (Src.inRange_of_isArith h1)) (by decide) (by decide) (by decide), ?_⟩
  simp [KWord.biasOp, kWord, zeroF, need, bind, Except.bind, outF_code h0, srcF_arith h1]


theorem biasHost_ok {opc : Nat} {o : Out} {a : Src} (k : opc < 512)
    (h : (o.accepts false false && a.isArith true) = true) :
    (kWord opc o a.code 0 0 0).fits ∧ KWord.biasOp (kWord opc o a.code 0 0 0) = .ok (.biasHost o a) := by
  simp only [Bool.and_eq_true, Bool.or_eq_true, decide_eq_true_eq, beq_iff_eq] at h
  obtain ⟨h0, h1⟩ := h
  refine ⟨kWord_fits k (Dst.code_lt h0) (Src.code_lt _ (Src.inRange_of_isArith h1)) (by decide) (by decide) (by decide), ?_⟩
  simp [KWord.biasOp, kWord, zeroF, need, bind, Except.bind, outF_code h0, srcF_arith h1]


theorem giveOp_ok {opc : Nat} {o : Out} {a b c : Src} {u : Bool} (k : opc < 512)
    (h : (o.accepts false true && a.isArith false && b.isArith false && c.isArith false) = true) :
    (kWord opc o a.code b.code c.code u.toNat).fits ∧ KWord.giveOp (kWord opc o a.code b.code c.code u.toNat) = .ok (.give o a b c u) := by
  simp only [Bool.and_eq_true, Bool.or_eq_true, decide_eq_true_eq, beq_iff_eq] at h
  obtain ⟨⟨⟨h0, h1⟩, h2⟩, h3⟩ := h
  refine ⟨kWord_fits k (Dst.code_lt h0) (Src.code_lt _ (Src.inRange_of_isArith h1)) (Src.code_lt _ (Src.inRange_of_isArith h2)) (Src.code_lt _ (Src.inRange_of_isArith h3)) (by have := Bool.toNat_lt_two u; omega), ?_⟩
  cases u <;>
    simp [KWord.giveOp, kWord, zeroF, need, bind, Except.bind, outF_code h0, srcF_arith h1, srcF_arith h2, srcF_arith h3, Bool.toNat_lt_two]


theorem bshare_ok {opc : Nat} {o : Out} {a b : Src} {u : Bool} (k : opc < 512)
    (h : (o.accepts false true && a.isArith false && b.isArith false) = true) :
    (kWord opc o a.code b.code 0 u.toNat).fits ∧ KWord.bshareOp (kWord opc o a.code b.code 0 u.toNat) = .ok (.bshare o a b u) := by
  simp only [Bool.and_eq_true, Bool.or_eq_true, decide_eq_true_eq, beq_iff_eq] at h
  obtain ⟨⟨h0, h1⟩, h2⟩ := h
  refine ⟨kWord_fits k (Dst.code_lt h0) (Src.code_lt _ (Src.inRange_of_isArith h1)) (Src.code_lt _ (Src.inRange_of_isArith h2)) (by decide) (by have := Bool.toNat_lt_two u; omega), ?_⟩
  cases u <;>
    simp [KWord.bshareOp, kWord, zeroF, need, bind, Except.bind, outF_code h0, srcF_arith h1, srcF_arith h2, Bool.toNat_lt_two]


theorem bshareOff_ok {opc : Nat} {a : Src} (k : opc < 512)
    (h : (a.isArith false) = true) :
    (kWord0 opc a.code 0 0 2).fits ∧ KWord.bshareOp (kWord0 opc a.code 0 0 2) = .ok (.bshareOff a) := by
  have h0 := h
  refine ⟨kWord0_fits k (Src.code_lt _ (Src.inRange_of_isArith h0)) (by decide) (by decide) (by decide), ?_⟩
  simp [KWord.bshareOp, kWord0, zeroF, need, bind, Except.bind, srcF_arith h0, KWord.noD]


theorem cpyOp_ok {opc : Nat} {o : Out} {a b c : Src} {g : Option Nat} {u : Bool} (k : opc < 512)
    (h : (o.accepts false false && a.isArith true && b.isArith true && c.isArith false && tagOk g) = true) :
    (kWord opc o a.code b.code c.code (tagCode g + 8 * u.toNat)).fits ∧ KWord.cpyOp (kWord opc o a.code b.code c.code (tagCode g + 8 * u.toNat)) = .ok (.cpy o a b c g u) := by
  simp only [Bool.and_eq_true, Bool.or_eq_true, decide_eq_true_eq, beq_iff_eq] at h
  obtain ⟨⟨⟨⟨h0, h1⟩, h2⟩, h3⟩, h4⟩ := h
  refine ⟨kWord_fits k (Dst.code_lt h0) (Src.code_lt _ (Src.inRange_of_isArith h1)) (Src.code_lt _ (Src.inRange_of_isArith h2)) (Src.code_lt _ (Src.inRange_of_isArith h3)) (by have := Bool.toNat_lt_two u; have := tagCode_lt h4; omega), ?_⟩
  cases u <;>
    simp [KWord.cpyOp, kWord, zeroF, need, bind, Except.bind, outF_code h0, srcF_arith h1, srcF_arith h2, srcF_arith h3, tagCode_lt h4, tagCode_mod h4, tagF_code g h4, tag_fn0 h4, tag_fn1 h4]


theorem descOp_ok {mk : Out → Src → Option Nat → Bool → Instr} {opc : Nat} {o : Out} {a : Src} {g : Option Nat} {u : Bool} (k : opc < 512)
    (h : (o.accepts false false && a.isArith true && tagOk g) = true) :
    (kWord opc o a.code 0 0 (tagCode g + 8 * u.toNat)).fits ∧ KWord.descOp mk (kWord opc o a.code 0 0 (tagCode g + 8 * u.toNat)) = .ok (mk o a g u) := by
  simp only [Bool.and_eq_true, Bool.or_eq_true, decide_eq_true_eq, beq_iff_eq] at h
  obtain ⟨⟨h0, h1⟩, h2⟩ := h
  refine ⟨kWord_fits k (Dst.code_lt h0) (Src.code_lt _ (Src.inRange_of_isArith h1)) (by decide) (by decide) (by have := Bool.toNat_lt_two u; have := tagCode_lt h2; omega), ?_⟩
  cases u <;>
    simp [KWord.descOp, kWord, zeroF, need, bind, Except.bind, outF_code h0, srcF_arith h1, tagCode_lt h2, tagCode_mod h2, tagF_code g h2, tag_fn0 h2, tag_fn1 h2]


theorem laneCopy_ok {mk : Out → Src → Src → Src → Option Nat → Instr} {opc : Nat} {o : Out} {a b c : Src} {g : Option Nat} (k : opc < 512)
    (h : (o.accepts false false && a.isArith true && b.isArith true && c.isArith false && tagOk g) = true) :
    (kWord opc o a.code b.code c.code (tagCode g)).fits ∧ KWord.laneCopy mk (kWord opc o a.code b.code c.code (tagCode g)) = .ok (mk o a b c g) := by
  simp only [Bool.and_eq_true, Bool.or_eq_true, decide_eq_true_eq, beq_iff_eq] at h
  obtain ⟨⟨⟨⟨h0, h1⟩, h2⟩, h3⟩, h4⟩ := h
  refine ⟨kWord_fits k (Dst.code_lt h0) (Src.code_lt _ (Src.inRange_of_isArith h1)) (Src.code_lt _ (Src.inRange_of_isArith h2)) (Src.code_lt _ (Src.inRange_of_isArith h3)) (by have := tagCode_lt h4; omega), ?_⟩
  simp [KWord.laneCopy, kWord, zeroF, need, bind, Except.bind, outF_code h0, srcF_arith h1, srcF_arith h2, srcF_arith h3, tagCode_lt h4, tagCode_mod h4, tagF_code g h4]


theorem pubOp_ok {opc : Nat} {o : Out} {a b : Src} {u : Bool} (k : opc < 512)
    (h : (o.accepts false false && a.isArith true && b.isArith false) = true) :
    (kWord opc o a.code b.code 0 u.toNat).fits ∧ KWord.pubOp (kWord opc o a.code b.code 0 u.toNat) = .ok (.pub o a b u) := by
  simp only [Bool.and_eq_true, Bool.or_eq_true, decide_eq_true_eq, beq_iff_eq] at h
  obtain ⟨⟨h0, h1⟩, h2⟩ := h
  refine ⟨kWord_fits k (Dst.code_lt h0) (Src.code_lt _ (Src.inRange_of_isArith h1)) (Src.code_lt _ (Src.inRange_of_isArith h2)) (by decide) (by have := Bool.toNat_lt_two u; omega), ?_⟩
  cases u <;>
    simp [KWord.pubOp, kWord, zeroF, need, bind, Except.bind, outF_code h0, srcF_arith h1, srcF_arith h2, Bool.toNat_lt_two]


theorem bararrOp_ok {opc : Nat} {o : Out} {g : Bool} {n : Nat} {a : Src} (k : opc < 512)
    (h : (o.accepts false false && decide (n < 16) && a.isArith false) = true) :
    (kWord opc o a.code 0 0 (barFn g n)).fits ∧ KWord.bararrOp (kWord opc o a.code 0 0 (barFn g n)) = .ok (.bararr o g n a) := by
  simp only [Bool.and_eq_true, Bool.or_eq_true, decide_eq_true_eq, beq_iff_eq] at h
  obtain ⟨⟨h0, h1⟩, h2⟩ := h
  refine ⟨kWord_fits k (Dst.code_lt h0) (Src.code_lt _ (Src.inRange_of_isArith h2)) (by decide) (by decide) (by have := (bar_fn g h1).1; omega), ?_⟩
  simp [KWord.bararrOp, kWord, zeroF, need, bind, Except.bind, outF_code h0, srcF_arith h2, bar_fn g h1]


theorem barOp_ok {mk : Bool → Nat → Src → Instr} {opc : Nat} {g : Bool} {n : Nat} {a : Src} (k : opc < 512)
    (h : (decide (n < 16) && a.isArith false) = true) :
    (kWord0 opc a.code 0 0 (barFn g n)).fits ∧ KWord.barOp mk (kWord0 opc a.code 0 0 (barFn g n)) = .ok (mk g n a) := by
  simp only [Bool.and_eq_true, Bool.or_eq_true, decide_eq_true_eq, beq_iff_eq] at h
  obtain ⟨h0, h1⟩ := h
  refine ⟨kWord0_fits k (Src.code_lt _ (Src.inRange_of_isArith h1)) (by decide) (by decide) (by have := (bar_fn g h0).1; omega), ?_⟩
  simp [KWord.barOp, kWord0, zeroF, need, bind, Except.bind, srcF_arith h1, KWord.noD, bar_fn g h0]


theorem bindOp_ok {opc : Nat} {o : Out} {a b : Src} (k : opc < 512)
    (h : (o.accepts false false && a.isArith true && b.isArith true) = true) :
    (kWord opc o a.code b.code 0 0).fits ∧ KWord.bindOp (kWord opc o a.code b.code 0 0) = .ok (.bind o a b) := by
  simp only [Bool.and_eq_true, Bool.or_eq_true, decide_eq_true_eq, beq_iff_eq] at h
  obtain ⟨⟨h0, h1⟩, h2⟩ := h
  refine ⟨kWord_fits k (Dst.code_lt h0) (Src.code_lt _ (Src.inRange_of_isArith h1)) (Src.code_lt _ (Src.inRange_of_isArith h2)) (by decide) (by decide), ?_⟩
  simp [KWord.bindOp, kWord, zeroF, need, bind, Except.bind, outF_code h0, srcF_arith h1, srcF_arith h2]


theorem cntRd_ok {opc : Nat} {o : Out} {a : Src} (k : opc < 512)
    (h : (o.accepts false false && a.isArith false) = true) :
    (kWord opc o a.code 0 0 0).fits ∧ KWord.cntOp (kWord opc o a.code 0 0 0) = .ok (.cntRd o a) := by
  simp only [Bool.and_eq_true, Bool.or_eq_true, decide_eq_true_eq, beq_iff_eq] at h
  obtain ⟨h0, h1⟩ := h
  refine ⟨kWord_fits k (Dst.code_lt h0) (Src.code_lt _ (Src.inRange_of_isArith h1)) (by decide) (by decide) (by decide), ?_⟩
  simp [KWord.cntOp, kWord, zeroF, need, bind, Except.bind, outF_code h0, srcF_arith h1]


theorem cntSelf_ok {opc : Nat} {o : Out} {x : CKind} (k : opc < 512)
    (h : (o.accepts false false) = true) :
    (kWord opc o 0 0 0 (1 + 4 * x.code)).fits ∧ KWord.cntOp (kWord opc o 0 0 0 (1 + 4 * x.code)) = .ok (.cntSelf o x) := by
  have h0 := h
  refine ⟨kWord_fits k (Dst.code_lt h0) (by decide) (by decide) (by decide) (by have := CKind.code_lt x; omega), ?_⟩
  simp [KWord.cntOp, kWord, zeroF, need, bind, Except.bind, outF_code h0, cnt_fn x]


theorem cntClose_ok {opc : Nat} {o : Out} {a : Src} (k : opc < 512)
    (h : (o.accepts false false && a.isArith false) = true) :
    (kWord opc o a.code 0 0 3).fits ∧ KWord.cntOp (kWord opc o a.code 0 0 3) = .ok (.cntClose o a) := by
  simp only [Bool.and_eq_true, Bool.or_eq_true, decide_eq_true_eq, beq_iff_eq] at h
  obtain ⟨h0, h1⟩ := h
  refine ⟨kWord_fits k (Dst.code_lt h0) (Src.code_lt _ (Src.inRange_of_isArith h1)) (by decide) (by decide) (by decide), ?_⟩
  simp [KWord.cntOp, kWord, zeroF, need, bind, Except.bind, outF_code h0, srcF_arith h1]


theorem cancel_ok {opc : Nat} {o : Out} {a : Src} (k : opc < 512)
    (h : (o.accepts false false && a.isArith false) = true) :
    (kWord opc o a.code 0 0 0).fits ∧ KWord.cancelOp (kWord opc o a.code 0 0 0) = .ok (.cancel o a) := by
  simp only [Bool.and_eq_true, Bool.or_eq_true, decide_eq_true_eq, beq_iff_eq] at h
  obtain ⟨h0, h1⟩ := h
  refine ⟨kWord_fits k (Dst.code_lt h0) (Src.code_lt _ (Src.inRange_of_isArith h1)) (by decide) (by decide) (by decide), ?_⟩
  simp [KWord.cancelOp, kWord, zeroF, need, bind, Except.bind, outF_code h0, srcF_arith h1]


theorem cancelDrain_ok {opc : Nat} {o : Out} {a : Src} (k : opc < 512)
    (h : (o.accepts false false && a.isArith false) = true) :
    (kWord opc o a.code 0 0 1).fits ∧ KWord.cancelOp (kWord opc o a.code 0 0 1) = .ok (.cancelDrain o a) := by
  simp only [Bool.and_eq_true, Bool.or_eq_true, decide_eq_true_eq, beq_iff_eq] at h
  obtain ⟨h0, h1⟩ := h
  refine ⟨kWord_fits k (Dst.code_lt h0) (Src.code_lt _ (Src.inRange_of_isArith h1)) (by decide) (by decide) (by decide), ?_⟩
  simp [KWord.cancelOp, kWord, zeroF, need, bind, Except.bind, outF_code h0, srcF_arith h1]


theorem battachNew_ok {opc : Nat} {o : Out} {a : Src} (k : opc < 512)
    (h : (o.accepts false true && a.isArith false) = true) :
    (kWord opc o a.code 0 0 1).fits ∧ KWord.battachOp (kWord opc o a.code 0 0 1) = .ok (.battach o a none) := by
  simp only [Bool.and_eq_true, Bool.or_eq_true, decide_eq_true_eq, beq_iff_eq] at h
  obtain ⟨h0, h1⟩ := h
  refine ⟨kWord_fits k (Dst.code_lt h0) (Src.code_lt _ (Src.inRange_of_isArith h1)) (by decide) (by decide) (by decide), ?_⟩
  simp [KWord.battachOp, kWord, zeroF, need, bind, Except.bind, outF_code h0, srcF_arith h1]


theorem battachAt_ok {opc : Nat} {o : Out} {a b : Src} (k : opc < 512)
    (h : (o.accepts false true && a.isArith false && b.isArith false) = true) :
    (kWord opc o a.code b.code 0 0).fits ∧ KWord.battachOp (kWord opc o a.code b.code 0 0) = .ok (.battach o a (some b)) := by
  simp only [Bool.and_eq_true, Bool.or_eq_true, decide_eq_true_eq, beq_iff_eq] at h
  obtain ⟨⟨h0, h1⟩, h2⟩ := h
  refine ⟨kWord_fits k (Dst.code_lt h0) (Src.code_lt _ (Src.inRange_of_isArith h1)) (Src.code_lt _ (Src.inRange_of_isArith h2)) (by decide) (by decide), ?_⟩
  simp [KWord.battachOp, kWord, zeroF, need, bind, Except.bind, outF_code h0, srcF_arith h1, srcF_arith h2]


theorem bstatAll_ok {opc : Nat} {o : Out} {u : Bool} (k : opc < 512)
    (h : (o.accepts false true) = true) :
    (kWord opc o 0 0 0 (1 + 2 * u.toNat)).fits ∧ KWord.bstatOp (kWord opc o 0 0 0 (1 + 2 * u.toNat)) = .ok (.bstat o none u) := by
  have h0 := h
  refine ⟨kWord_fits k (Dst.code_lt h0) (by decide) (by decide) (by decide) (by have := Bool.toNat_lt_two u; omega), ?_⟩
  simp [KWord.bstatOp, kWord, zeroF, need, bind, Except.bind, outF_code h0, bstat_fn u]


theorem bstatOne_ok {opc : Nat} {o : Out} {a : Src} (k : opc < 512)
    (h : (o.accepts false true && a.isArith false) = true) :
    (kWord opc o a.code 0 0 0).fits ∧ KWord.bstatOp (kWord opc o a.code 0 0 0) = .ok (.bstat o (some a) false) := by
  simp only [Bool.and_eq_true, Bool.or_eq_true, decide_eq_true_eq, beq_iff_eq] at h
  obtain ⟨h0, h1⟩ := h
  refine ⟨kWord_fits k (Dst.code_lt h0) (Src.code_lt _ (Src.inRange_of_isArith h1)) (by decide) (by decide) (by decide), ?_⟩
  simp [KWord.bstatOp, kWord, zeroF, need, bind, Except.bind, outF_code h0, srcF_arith h1]


theorem optNone_ok {mk : Option Src → Instr} {opc : Nat} (k : opc < 512) :
    (kWord0 opc 0 0 0 1).fits ∧ KWord.optSrc mk (kWord0 opc 0 0 0 1) = .ok (mk none) := by
  refine ⟨kWord0_fits k (by decide) (by decide) (by decide) (by decide), ?_⟩
  simp [KWord.optSrc, kWord0, zeroF, need, bind, Except.bind, KWord.noD]


theorem optSome_ok {mk : Option Src → Instr} {opc : Nat} {a : Src} (k : opc < 512)
    (h : (a.isArith false) = true) :
    (kWord0 opc a.code 0 0 0).fits ∧ KWord.optSrc mk (kWord0 opc a.code 0 0 0) = .ok (mk (some a)) := by
  have h0 := h
  refine ⟨kWord0_fits k (Src.code_lt _ (Src.inRange_of_isArith h0)) (by decide) (by decide) (by decide), ?_⟩
  simp [KWord.optSrc, kWord0, zeroF, need, bind, Except.bind, srcF_arith h0, KWord.noD]


theorem immBin_ok {mk : Out → Src → BitVec 32 → Instr} {opc : Nat} {o : Out} {a : Src} {x : BitVec 32} (k : opc < 512)
    (h : (o.accepts false false && a.isArith false) = true) :
    (iWord opc o a.code x.toNat).fits ∧ IWord.bin mk (iWord opc o a.code x.toNat) = .ok (mk o a x) := by
  simp only [Bool.and_eq_true, Bool.or_eq_true, decide_eq_true_eq, beq_iff_eq] at h
  obtain ⟨h0, h1⟩ := h
  refine ⟨iWord_fits k (Dst.code_lt h0) (Src.code_lt _ (Src.inRange_of_isArith h1)) x.isLt, ?_⟩
  simp [IWord.bin, iWord, zeroF, need, bind, Except.bind, outF_code h0, srcF_arith h1]


theorem immSh_ok {mk : Out → Src → BitVec 5 → Instr} {opc : Nat} {o : Out} {a : Src} {x : BitVec 5} (k : opc < 512)
    (h : (o.accepts false false && a.isArith false) = true) :
    (iWord opc o a.code x.toNat).fits ∧ IWord.sh mk (iWord opc o a.code x.toNat) = .ok (mk o a x) := by
  simp only [Bool.and_eq_true, Bool.or_eq_true, decide_eq_true_eq, beq_iff_eq] at h
  obtain ⟨h0, h1⟩ := h
  refine ⟨iWord_fits k (Dst.code_lt h0) (Src.code_lt _ (Src.inRange_of_isArith h1)) (by have := x.isLt; omega), ?_⟩
  simp [IWord.sh, iWord, zeroF, need, bind, Except.bind, outF_code h0, srcF_arith h1, (by have := x.isLt; omega : x.toNat < 32)]


theorem immMov_ok {opc : Nat} {o : Out} {x : BitVec 32} (k : opc < 512)
    (h : (o.accepts false false) = true) :
    (iWord opc o 0 x.toNat).fits ∧ IWord.mov (iWord opc o 0 x.toNat) = .ok (.movi o x) := by
  have h0 := h
  refine ⟨iWord_fits k (Dst.code_lt h0) (by decide) x.isLt, ?_⟩
  simp [IWord.mov, iWord, zeroF, need, bind, Except.bind, outF_code h0]


theorem immLea_ok {opc : Nat} {o : Out} {a : Src} {x : BitVec 32} (k : opc < 512)
    (h : (o.accepts true false && a.isArith true) = true) :
    (iWord opc o a.code x.toNat).fits ∧ IWord.lea (iWord opc o a.code x.toNat) = .ok (.leaImm o a x) := by
  simp only [Bool.and_eq_true, Bool.or_eq_true, decide_eq_true_eq, beq_iff_eq] at h
  obtain ⟨h0, h1⟩ := h
  refine ⟨iWord_fits k (Dst.code_lt h0) (Src.code_lt _ (Src.inRange_of_isArith h1)) x.isLt, ?_⟩
  simp [IWord.lea, iWord, zeroF, need, bind, Except.bind, outF_code h0, srcF_arith h1]


theorem jump_ok {opc : Nat} {sc : Scope} {t : BitVec 20} {j : BitVec 16} (k : opc < 512) :
    (cWord opc sc 0 0 t.toNat j.toNat).fits ∧ CWord.jump (cWord opc sc 0 0 t.toNat j.toNat) = .ok (.br sc t j) := by
  refine ⟨cWord_fits k (Scope.code_lt_eight _) (by decide) (by decide) t.isLt j.isLt, ?_⟩
  simp [CWord.jump, cWord, zeroF, need, bind, Except.bind, ]


theorem branchT_ok {opc : Nat} {sc : Scope} {t : BitVec 20} {j : BitVec 16} {a : Src} (k : opc < 512)
    (h : (a.isCond) = true) :
    (cWord opc sc 0 a.code t.toNat j.toNat).fits ∧ CWord.branch (cWord opc sc 0 a.code t.toNat j.toNat) = .ok (.bt sc a t j) := by
  have h0 := h
  refine ⟨cWord_fits k (Scope.code_lt_eight _) (by decide) (Src.code_lt _ (Src.inRange_of_isCond h0)) t.isLt j.isLt, ?_⟩
  simp [CWord.branch, cWord, zeroF, need, bind, Except.bind, srcF_cond h0]


theorem branchF_ok {opc : Nat} {sc : Scope} {t : BitVec 20} {j : BitVec 16} {a : Src} (k : opc < 512)
    (h : (a.isCond) = true) :
    (cWord opc sc 1 a.code t.toNat j.toNat).fits ∧ CWord.branch (cWord opc sc 1 a.code t.toNat j.toNat) = .ok (.bf sc a t j) := by
  have h0 := h
  refine ⟨cWord_fits k (Scope.code_lt_eight _) (by decide) (Src.code_lt _ (Src.inRange_of_isCond h0)) t.isLt j.isLt, ?_⟩
  simp [CWord.branch, cWord, zeroF, need, bind, Except.bind, srcF_cond h0]


theorem loopOp_ok {opc : Nat} {sc : Scope} {t : BitVec 20} {j : BitVec 16} {a : Src} (k : opc < 512)
    (h : (sc.own && a.isArith false) = true) :
    (cWord opc sc 0 a.code t.toNat j.toNat).fits ∧ CWord.loopOp (cWord opc sc 0 a.code t.toNat j.toNat) = .ok (.loop sc a t j) := by
  simp only [Bool.and_eq_true, Bool.or_eq_true, decide_eq_true_eq, beq_iff_eq] at h
  obtain ⟨h0, h1⟩ := h
  refine ⟨cWord_fits k (Scope.code_lt_eight _) (by decide) (Src.code_lt _ (Src.inRange_of_isArith h1)) t.isLt j.isLt, ?_⟩
  simp [CWord.loopOp, cWord, zeroF, need, bind, Except.bind, h0, srcF_arith h1]


theorem callOp_ok {opc : Nat} {sc : Scope} {t : BitVec 20} (k : opc < 512)
    (h : (sc.own) = true) :
    (cWord opc sc 0 0 t.toNat 0).fits ∧ CWord.callOp (cWord opc sc 0 0 t.toNat 0) = .ok (.call sc t) := by
  have h0 := h
  refine ⟨cWord_fits k (Scope.code_lt_eight _) (by decide) (by decide) t.isLt (by decide), ?_⟩
  simp [CWord.callOp, cWord, zeroF, need, bind, Except.bind, h0]


theorem condOnly_ok {mk : Scope → Src → Instr} {opc : Nat} {sc : Scope} {a : Src} (k : opc < 512)
    (h : (sc.own && a.isArith false) = true) :
    (cWord opc sc 0 a.code 0 0).fits ∧ CWord.condOnly mk (cWord opc sc 0 a.code 0 0) = .ok (mk sc a) := by
  simp only [Bool.and_eq_true, Bool.or_eq_true, decide_eq_true_eq, beq_iff_eq] at h
  obtain ⟨h0, h1⟩ := h
  refine ⟨cWord_fits k (Scope.code_lt_eight _) (by decide) (Src.code_lt _ (Src.inRange_of_isArith h1)) (by decide) (by decide), ?_⟩
  simp [CWord.condOnly, cWord, zeroF, need, bind, Except.bind, h0, srcF_arith h1]


theorem lifOp_ok {opc : Nat} {u : Bool} {a : Src} (k : opc < 512)
    (h : (a.isCond) = true) :
    (cWord opc .lane u.toNat a.code 0 0).fits ∧ CWord.lifOp (cWord opc .lane u.toNat a.code 0 0) = .ok (.lif u a) := by
  have h0 := h
  refine ⟨cWord_fits k (Scope.code_lt_eight _) (Bool.toNat_lt_two u) (Src.code_lt _ (Src.inRange_of_isCond h0)) (by decide) (by decide), ?_⟩
  simp [CWord.lifOp, cWord, zeroF, need, bind, Except.bind, srcF_cond h0, Scope.code]


theorem ownOnly_ok {opc : Nat} {sc : Scope} (k : opc < 512)
    (h : (sc.own) = true) :
    (cWord opc sc 0 0 0 0).fits ∧ CWord.ownOnly (cWord opc sc 0 0 0 0) = .ok (sc) := by
  have h0 := h
  refine ⟨cWord_fits k (Scope.code_lt_eight _) (by decide) (by decide) (by decide) (by decide), ?_⟩
  simp [CWord.ownOnly, cWord, zeroF, need, bind, Except.bind, h0, CWord.only]


theorem only_ok {opc : Nat} {sc : Scope} (k : opc < 512) :
    (cWord opc sc 0 0 0 0).fits ∧ CWord.only (cWord opc sc 0 0 0 0) = .ok (sc) := by
  refine ⟨cWord_fits k (Scope.code_lt_eight _) (by decide) (by decide) (by decide) (by decide), ?_⟩
  simp [CWord.only, cWord, zeroF, need, bind, Except.bind, ]


theorem sImm_ok {mk : BitVec 22 → Instr} {opc : Nat} {x : BitVec 22} (k : opc < 512) :
    (sWord opc 0 0 0 x.toNat).fits ∧ SWord.imm mk (sWord opc 0 0 0 x.toNat) = .ok (mk x) := by
  refine ⟨sWord_fits k (by decide) (by decide) (by decide) x.isLt, ?_⟩
  simp [SWord.imm, sWord, zeroF, need, bind, Except.bind, ]


theorem eret_ok {opc : Nat} {d : Dst} {a : Src} (k : opc < 512)
    (h : (d.accepts false false && a.isArith true) = true) :
    (sWord opc d.code 0 a.code 0).fits ∧ SWord.eretOp (sWord opc d.code 0 a.code 0) = .ok (.eret d a) := by
  simp only [Bool.and_eq_true, Bool.or_eq_true, decide_eq_true_eq, beq_iff_eq] at h
  obtain ⟨h0, h1⟩ := h
  refine ⟨sWord_fits k (Dst.code_lt h0) (by decide) (Src.code_lt _ (Src.inRange_of_isArith h1)) (by decide), ?_⟩
  simp [SWord.eretOp, sWord, zeroF, need, bind, Except.bind, dstF_code h0, srcF_arith h1]


theorem eretKill_ok {opc : Nat} {d : Dst} {a : Src} (k : opc < 512)
    (h : (d.accepts false false && a.isArith true) = true) :
    (sWord opc d.code 0 a.code 1).fits ∧ SWord.eretOp (sWord opc d.code 0 a.code 1) = .ok (.eretKill d a) := by
  simp only [Bool.and_eq_true, Bool.or_eq_true, decide_eq_true_eq, beq_iff_eq] at h
  obtain ⟨h0, h1⟩ := h
  refine ⟨sWord_fits k (Dst.code_lt h0) (by decide) (Src.code_lt _ (Src.inRange_of_isArith h1)) (by decide), ?_⟩
  simp [SWord.eretOp, sWord, zeroF, need, bind, Except.bind, dstF_code h0, srcF_arith h1]


theorem csave_ok {opc : Nat} {d : Dst} {a : Src} (k : opc < 512)
    (h : (d.accepts false false && a.isArith true) = true) :
    (sWord opc d.code 0 a.code 0).fits ∧ SWord.csaveOp (sWord opc d.code 0 a.code 0) = .ok (.csave d a) := by
  simp only [Bool.and_eq_true, Bool.or_eq_true, decide_eq_true_eq, beq_iff_eq] at h
  obtain ⟨h0, h1⟩ := h
  refine ⟨sWord_fits k (Dst.code_lt h0) (by decide) (Src.code_lt _ (Src.inRange_of_isArith h1)) (by decide), ?_⟩
  simp [SWord.csaveOp, sWord, zeroF, need, bind, Except.bind, dstF_code h0, srcF_arith h1]


theorem freeze_ok {opc : Nat} {d : Dst} {a : Src} (k : opc < 512)
    (h : (d.accepts false false && a.isArith false) = true) :
    (sWord opc d.code 0 a.code 0).fits ∧ SWord.masterOp (sWord opc d.code 0 a.code 0) = .ok (.freeze d a) := by
  simp only [Bool.and_eq_true, Bool.or_eq_true, decide_eq_true_eq, beq_iff_eq] at h
  obtain ⟨h0, h1⟩ := h
  refine ⟨sWord_fits k (Dst.code_lt h0) (by decide) (Src.code_lt _ (Src.inRange_of_isArith h1)) (by decide), ?_⟩
  simp [SWord.masterOp, sWord, zeroF, need, bind, Except.bind, dstF_code h0, srcF_arith h1]


theorem thaw_ok {opc : Nat} {d : Dst} {a : Src} (k : opc < 512)
    (h : (d.accepts false false && a.isArith false) = true) :
    (sWord opc d.code 0 a.code 1).fits ∧ SWord.masterOp (sWord opc d.code 0 a.code 1) = .ok (.thaw d a) := by
  simp only [Bool.and_eq_true, Bool.or_eq_true, decide_eq_true_eq, beq_iff_eq] at h
  obtain ⟨h0, h1⟩ := h
  refine ⟨sWord_fits k (Dst.code_lt h0) (by decide) (Src.code_lt _ (Src.inRange_of_isArith h1)) (by decide), ?_⟩
  simp [SWord.masterOp, sWord, zeroF, need, bind, Except.bind, dstF_code h0, srcF_arith h1]


theorem halt_ok {opc : Nat} {d : Dst} {a : Src} (k : opc < 512)
    (h : (d.accepts false false && a.isArith false) = true) :
    (sWord opc d.code 0 a.code 2).fits ∧ SWord.masterOp (sWord opc d.code 0 a.code 2) = .ok (.halt d a) := by
  simp only [Bool.and_eq_true, Bool.or_eq_true, decide_eq_true_eq, beq_iff_eq] at h
  obtain ⟨h0, h1⟩ := h
  refine ⟨sWord_fits k (Dst.code_lt h0) (by decide) (Src.code_lt _ (Src.inRange_of_isArith h1)) (by decide), ?_⟩
  simp [SWord.masterOp, sWord, zeroF, need, bind, Except.bind, dstF_code h0, srcF_arith h1]


theorem mfcr_ok {opc : Nat} {d : Dst} {n : Nat} (k : opc < 512)
    (h : (d.accepts false false && crnKnown n) = true) :
    (sWord opc d.code n 0 0).fits ∧ SWord.mfcrOp (sWord opc d.code n 0 0) = .ok (.mfcr d n) := by
  simp only [Bool.and_eq_true, Bool.or_eq_true, decide_eq_true_eq, beq_iff_eq] at h
  obtain ⟨h0, h1⟩ := h
  refine ⟨sWord_fits k (Dst.code_lt h0) (crnKnown_lt h1) (by decide) (by decide), ?_⟩
  simp [SWord.mfcrOp, sWord, zeroF, need, bind, Except.bind, dstF_code h0, h1]


theorem mtcr_ok {opc n : Nat} {a : Src} (k : opc < 512)
    (h : (crnKnown n && a.isArith false) = true) :
    (sWord opc 0 n a.code 0).fits ∧ SWord.mtcrOp (sWord opc 0 n a.code 0) = .ok (.mtcr n a) := by
  simp only [Bool.and_eq_true, Bool.or_eq_true, decide_eq_true_eq, beq_iff_eq] at h
  obtain ⟨h0, h1⟩ := h
  refine ⟨sWord_fits k (by decide) (crnKnown_lt h0) (Src.code_lt _ (Src.inRange_of_isArith h1)) (by decide), ?_⟩
  simp [SWord.mtcrOp, sWord, zeroF, need, bind, Except.bind, h0, srcF_arith h1]


theorem crest_ok {opc : Nat} {d : Dst} {a : Src} {n : Nat} {u : Bool} (k : opc < 512)
    (h : (d.accepts false false && a.isArith false && decide (n < 16)) = true) :
    (sWord opc d.code 0 a.code (n + 16 * u.toNat)).fits ∧ SWord.crestOp (sWord opc d.code 0 a.code (n + 16 * u.toNat)) = .ok (.crest d a n u) := by
  simp only [Bool.and_eq_true, Bool.or_eq_true, decide_eq_true_eq, beq_iff_eq] at h
  obtain ⟨⟨h0, h1⟩, h2⟩ := h
  refine ⟨sWord_fits k (Dst.code_lt h0) (by decide) (Src.code_lt _ (Src.inRange_of_isArith h1)) (by have := Bool.toNat_lt_two u; omega), ?_⟩
  simp [SWord.crestOp, sWord, zeroF, need, bind, Except.bind, dstF_code h0, srcF_arith h1, crest_fn u h2]


theorem bxEnc_ok {opc d p : Nat} {t : BTy} {x : Bool} {a : Nat} (k : opc < 512)
    (h : (decide (d < 640) && (d % 2 == 0) && decide (p < 8) && quadOk a) = true) :
    (vWordF opc ⟨.vreg d, false⟩ p (fmodOf .rne x) a 0 0 t.code).fits ∧ VWord.bxEnc (vWordF opc ⟨.vreg d, false⟩ p (fmodOf .rne x) a 0 0 t.code) = .ok (.bxenc d p t x a) := by
  simp only [Bool.and_eq_true, Bool.or_eq_true, decide_eq_true_eq, beq_iff_eq] at h
  obtain ⟨⟨⟨h0, h1⟩, h2⟩, h3⟩ := h
  refine ⟨vWordF_fits k (show d < 1024 by omega) h2 (quadOk_lt h3) (by decide) (by decide) (by have := BTy.code_lt t; omega), ?_⟩
  simp [VWord.bxEnc, vWordF, zeroF, need, bind, Except.bind, fmodOf, RM.code, Dst.code, h0, h1, quadF, h3]


theorem bxDec_ok {opc d p : Nat} {t : BTy} {a b : Src} (k : opc < 512)
    (h : (quadOk d && decide (p < 8) && a.isArith false && b.isArith false) = true) :
    (vWord opc ⟨.vreg d, false⟩ p a.code b.code 0 t.code).fits ∧ VWord.bxDec (vWord opc ⟨.vreg d, false⟩ p a.code b.code 0 t.code) = .ok (.bxdec d p t a b) := by
  simp only [Bool.and_eq_true, Bool.or_eq_true, decide_eq_true_eq, beq_iff_eq] at h
  obtain ⟨⟨⟨h0, h1⟩, h2⟩, h3⟩ := h
  refine ⟨vWord_fits k (quadOk_lt_dst h0) h1 (Src.code_lt _ (Src.inRange_of_isArith h2)) (Src.code_lt _ (Src.inRange_of_isArith h3)) (by decide) (by have := BTy.code_lt t; omega), ?_⟩
  simp [VWord.bxDec, vWord, zeroF, need, bind, Except.bind, VWord.plain, Dst.code, h0, srcF_arith h2, srcF_arith h3]


theorem f8Dec_ok {opc d p : Nat} {t : F8Ty} {a : Src} (k : opc < 512)
    (h : (quadOk d && decide (p < 8) && a.isArith false) = true) :
    (vWord opc ⟨.vreg d, false⟩ p a.code 0 0 t.code).fits ∧ VWord.f8Dec (vWord opc ⟨.vreg d, false⟩ p a.code 0 0 t.code) = .ok (.f8dec d p t a) := by
  simp only [Bool.and_eq_true, Bool.or_eq_true, decide_eq_true_eq, beq_iff_eq] at h
  obtain ⟨⟨h0, h1⟩, h2⟩ := h
  refine ⟨vWord_fits k (quadOk_lt_dst h0) h1 (Src.code_lt _ (Src.inRange_of_isArith h2)) (by decide) (by decide) (by have := F8Ty.code_lt t; omega), ?_⟩
  simp [VWord.f8Dec, vWord, zeroF, need, bind, Except.bind, VWord.plain, Dst.code, h0, srcF_arith h2]


theorem pkFour_ok {opc : Nat} {o : Out} {p : Nat} {s x : Bool} {a b : Src} (k : opc < 512)
    (h : (o.isVec && decide (p < 8) && (s || !x) && a.isArith false && b.isArith false) = true) :
    (vWordF opc o p ⟨.rne, false, x⟩ a.code b.code 0 (12 + 2 * s.toNat)).fits ∧
      VWord.pkFour (vWordF opc o p ⟨.rne, false, x⟩ a.code b.code 0 (12 + 2 * s.toNat)) = .ok (.pk4 o p s x a b) := by
  simp only [Bool.and_eq_true, decide_eq_true_eq] at h
  obtain ⟨⟨⟨⟨h0, h1⟩, h2⟩, h3⟩, h4⟩ := h
  refine ⟨vWordF_fits k (Out.code_lt_of_isVec h0) h1 (Src.code_lt _ (Src.inRange_of_isArith h3))
    (Src.code_lt _ (Src.inRange_of_isArith h4)) (by decide) (by have := Bool.toNat_lt_two s; omega), ?_⟩
  cases s <;> cases x <;>
    simp [VWord.pkFour, vWordF, zeroF, need, bind, Except.bind, RM.code, vecOutF_code h0, srcF_arith h3, srcF_arith h4] at h2 ⊢

theorem sclOp_ok {opc : Nat} {o : Out} {p : Nat} {t : FTy} {m : FMod} {a b c : Src} (k : opc < 512)
    (h : (o.isVec && decide (p < 8) && !t.wide && a.isArith false && b.isArith false && c.isArith false) = true) :
    (vWordF opc o p m a.code b.code c.code t.code).fits ∧ VWord.sclOp (vWordF opc o p m a.code b.code c.code t.code) = .ok (.scl o p t m a b c) := by
  simp only [Bool.and_eq_true, Bool.or_eq_true, decide_eq_true_eq, beq_iff_eq] at h
  obtain ⟨⟨⟨⟨⟨h0, h1⟩, h2⟩, h3⟩, h4⟩, h5⟩ := h
  refine ⟨vWordF_fits k (Out.code_lt_of_isVec h0) h1 (Src.code_lt _ (Src.inRange_of_isArith h3)) (Src.code_lt _ (Src.inRange_of_isArith h4)) (Src.code_lt _ (Src.inRange_of_isArith h5)) (by have := FTy.code_lt t; omega), ?_⟩
  simp [VWord.sclOp, vWordF, zeroF, need, bind, Except.bind, VWord.fmod, h2, vecOutF_code h0, srcF_arith h3, srcF_arith h4, srcF_arith h5]


theorem ixsetFull_ok {opc i : Nat} {a b c : Src} (k : opc < 512)
    (h : (decide (i < 8) && a.isArith false && b.isArith false && c.isArith false) = true) :
    (kWord0 opc a.code b.code c.code i).fits ∧ KWord.ixsetOp (kWord0 opc a.code b.code c.code i) = .ok (.ixset i false a b c) := by
  simp only [Bool.and_eq_true, Bool.or_eq_true, decide_eq_true_eq, beq_iff_eq] at h
  obtain ⟨⟨⟨h0, h1⟩, h2⟩, h3⟩ := h
  refine ⟨kWord0_fits k (Src.code_lt _ (Src.inRange_of_isArith h1)) (Src.code_lt _ (Src.inRange_of_isArith h2)) (Src.code_lt _ (Src.inRange_of_isArith h3)) (by omega), ?_⟩
  simp [KWord.ixsetOp, kWord0, zeroF, need, bind, Except.bind, KWord.noD, h0, (by omega : i < 16), srcF_arith h1, srcF_arith h2, srcF_arith h3]


theorem ixsetVal_ok {opc i : Nat} {a : Src} (k : opc < 512)
    (h : (decide (i < 8) && a.isArith false) = true) :
    (kWord0 opc a.code 0 0 (8 + i)).fits ∧ KWord.ixsetOp (kWord0 opc a.code 0 0 (8 + i)) = .ok (.ixset i true a (.vreg 0) (.vreg 0)) := by
  simp only [Bool.and_eq_true, Bool.or_eq_true, decide_eq_true_eq, beq_iff_eq] at h
  obtain ⟨h0, h1⟩ := h
  refine ⟨kWord0_fits k (Src.code_lt _ (Src.inRange_of_isArith h1)) (by decide) (by decide) (by omega), ?_⟩
  simp [KWord.ixsetOp, kWord0, zeroF, need, bind, Except.bind, KWord.noD, (by omega : 8 + i < 16), srcF_arith h1]


theorem symqOp_ok {opc : Nat} {o : Out} {a : Src} {n : Nat} (k : opc < 512)
    (h : (o.accepts false false && a.isSym && (decide (n < 3) || n == 5 || n == 6)) = true) :
    (kWord opc o a.code 0 0 n).fits ∧ KWord.symqOp (kWord opc o a.code 0 0 n) = .ok (.symq o a n) := by
  simp only [Bool.and_eq_true] at h
  obtain ⟨⟨h0, h1⟩, h2⟩ := h
  refine ⟨kWord_fits k (Dst.code_lt h0) (Src.code_lt _ (Src.inRange_of_isSym h1)) (by decide) (by decide)
    (by simp at h2; omega), ?_⟩
  simp only [KWord.symqOp, kWord, zeroF, need, bind, Except.bind, outF_code h0, srcF_code (Src.inRange_of_isSym h1) h1]
  simp only [Bool.or_eq_true, decide_eq_true_eq, beq_iff_eq] at h2
  rcases h2 with (h2 | h2) | h2
  · interval_cases n <;> rfl
  · subst h2; rfl
  · subst h2; rfl

theorem symwOne_ok {opc : Nat} {a : Src} (k : opc < 512)
    (h : (a.isSym) = true) :
    (kWord0 opc a.code 0 0 0).fits ∧ KWord.symwOp (kWord0 opc a.code 0 0 0) = .ok (.symw false a) := by
  have h0 := h
  refine ⟨kWord0_fits k (Src.code_lt _ (Src.inRange_of_isSym h0)) (by decide) (by decide) (by decide), ?_⟩
  simp [KWord.symwOp, kWord0, zeroF, need, bind, Except.bind, KWord.noD, srcF_code (Src.inRange_of_isSym h0) h0]


theorem symwAll_ok {opc : Nat} (k : opc < 512) :
    (kWord0 opc 0 0 0 1).fits ∧ KWord.symwOp (kWord0 opc 0 0 0 1) = .ok (.symw true (.vreg 0)) := by
  refine ⟨kWord0_fits k (by decide) (by decide) (by decide) (by decide), ?_⟩
  simp [KWord.symwOp, kWord0, zeroF, need, bind, Except.bind, KWord.noD]


theorem mfreeTile_ok {opc n : Nat} (k : opc < 512)
    (h : (decide (n < 8)) = true) :
    (kWord0 opc (0x700 + n) 0 0 0).fits ∧ KWord.mfreeOp (kWord0 opc (0x700 + n) 0 0 0) = .ok (.mfree true n) := by
  simp only [Bool.and_eq_true, Bool.or_eq_true, decide_eq_true_eq, beq_iff_eq] at h
  have h0 := h
  refine ⟨kWord0_fits k (by omega) (by decide) (by decide) (by decide), ?_⟩
  simp [KWord.mfreeOp, kWord0, zeroF, need, bind, Except.bind, KWord.noD, srcOf_tile h0]


theorem mfreeHandle_ok {opc n : Nat} (k : opc < 512)
    (h : (decide (n < 32)) = true) :
    (kWord0 opc (0x720 + n) 0 0 0).fits ∧ KWord.mfreeOp (kWord0 opc (0x720 + n) 0 0 0) = .ok (.mfree false n) := by
  simp only [Bool.and_eq_true, Bool.or_eq_true, decide_eq_true_eq, beq_iff_eq] at h
  have h0 := h
  refine ⟨kWord0_fits k (by omega) (by decide) (by decide) (by decide), ?_⟩
  simp [KWord.mfreeOp, kWord0, zeroF, need, bind, Except.bind, KWord.noD, srcOf_handle h0]


theorem mmaFn_ok {c n : Nat} (hc : c < 16) (h : n < 8) (w : Bool) : c + 16 * n + 128 * w.toNat < 256 ∧
    (c + 16 * n + 128 * w.toNat) % 16 = c ∧ (c + 16 * n + 128 * w.toNat) / 16 % 8 = n ∧
    (c + 16 * n + 128 * w.toNat) / 128 = w.toNat ∧ (c + 16 * n + 128 * w.toNat < 128 ↔ w = false) := by
  have := Bool.toNat_lt_two w
  refine ⟨by omega, by omega, by omega, by omega, ?_⟩
  cases w <;> simp <;> omega

theorem mmaPair_ok {opc c a b n : Nat} {w : Bool} (k : opc < 512)
    (h : (decide (c < 8) && (!w || c % 2 == 0) && decide (a < 32) && decide (n < 8) && decide (b < 32)) = true) :
    (kWord0 opc (0x700 + c) (0x720 + a) (mmaB b none) (mmaT none + 16 * n + 128 * w.toNat)).fits ∧
      KWord.mmaOp (kWord0 opc (0x700 + c) (0x720 + a) (mmaB b none) (mmaT none + 16 * n + 128 * w.toNat)) =
        .ok (.mma c a b n w none) := by
  simp only [Bool.and_eq_true, decide_eq_true_eq] at h
  obtain ⟨⟨⟨⟨h0, h1⟩, h2⟩, h3⟩, h5⟩ := h
  obtain ⟨f1, f2, f3, f4, f5⟩ := mmaFn_ok (show 0 < 16 by decide) h3 w
  have hb : mmaB b none = 0x720 + b := rfl
  have ht : mmaT none = 0 := rfl
  rw [hb, ht]
  refine ⟨kWord0_fits k (by omega) (by omega) (by omega) (by omega), ?_⟩
  simp only [KWord.mmaOp, kWord0, zeroF, need, bind, Except.bind, KWord.noD, tileF_code h0, handleF_code h2, srcOf_handle h5,
    f1, f2, f3, f4, f5]
  cases w <;> simp_all

theorem mmaPanel_ok {opc c a n v : Nat} {t : MTy} {w : Bool} (k : opc < 512)
    (h : (decide (c < 8) && (!w || c % 2 == 0) && decide (a < 32) && decide (n < 8) && t.panelOk && decide (v < 640)) = true) :
    (kWord0 opc (0x700 + c) (0x720 + a) (mmaB 0 (some (t, v))) (mmaT (some (t, v)) + 16 * n + 128 * w.toNat)).fits ∧
      KWord.mmaOp (kWord0 opc (0x700 + c) (0x720 + a) (mmaB 0 (some (t, v))) (mmaT (some (t, v)) + 16 * n + 128 * w.toNat)) =
        .ok (.mma c a 0 n w (some (t, v))) := by
  simp only [Bool.and_eq_true, decide_eq_true_eq] at h
  obtain ⟨⟨⟨⟨⟨h0, h1⟩, h2⟩, h3⟩, h4⟩, h5⟩ := h
  obtain ⟨f1, f2, f3, f4, f5⟩ := mmaFn_ok (MTy.code_lt t) h3 w
  have hb : mmaB 0 (some (t, v)) = v := rfl
  have ht : mmaT (some (t, v)) = t.code := rfl
  rw [hb, ht]
  refine ⟨kWord0_fits k (by omega) (by omega) (by omega) (by omega), ?_⟩
  simp only [KWord.mmaOp, kWord0, zeroF, need, bind, Except.bind, KWord.noD, tileF_code h0, handleF_code h2, srcOf_vreg h5,
    f1, f2, f3, f4, f5, h4, mtyF_code]
  cases w <;> simp_all

theorem outOpt_lt {o : Option Out} {w : Bool} (h : (match o with | none => true | some x => x.accepts w false) = true) :
    (outOpt o).dst.code < 1024 := by
  cases o with
  | none => decide
  | some x => exact Dst.code_lt h

theorem atFn_fn (o : Option Out) (w u : Bool) : atFn o w u < 8 ∧ (atFn o w u / 2 % 2 == 1) = u ∧ (atFn o w u % 2 == 1) = w ∧
    atFn o w u / 2 % 2 = u.toNat ∧ atFn o w u / 4 = o.isNone.toNat := by
  cases o <;> cases w <;> cases u <;> simp [atFn]

theorem atOut_code {opc sa sb sc : Nat} {o : Option Out} {w : Bool} (u : Bool)
    (h : (match o with | none => true | some x => x.accepts w false) = true) :
    (kWord opc (outOpt o) sa sb sc (atFn o w u)).atOut w = .ok o := by
  unfold KWord.atOut
  simp only [kWord, (atFn_fn o w u).2.2.2.2]
  cases o with
  | none => rfl
  | some x => simp [outOpt, outF_code h]

theorem atomic_ok {mk : Option Out → Bool → Src → Src → Instr} {opc : Nat} {o : Option Out} {w : Bool} {a b : Src} (k : opc < 512)
    (h : ((match o with | none => true | some x => x.accepts w false) && a.isArith true && b.isArith w) = true) :
    (kWord opc (outOpt o) a.code b.code 0 (atFn o w false)).fits ∧ KWord.atomic mk (kWord opc (outOpt o) a.code b.code 0 (atFn o w false)) = .ok (mk o w a b) := by
  simp only [Bool.and_eq_true] at h
  obtain ⟨⟨h0, h1⟩, h2⟩ := h
  have q := atOut_code (opc := opc) (sa := a.code) (sb := b.code) (sc := 0) false h0
  obtain ⟨f1, f2, f3, f4, f5⟩ := atFn_fn o w false
  refine ⟨kWord_fits k (outOpt_lt h0) (Src.code_lt _ (Src.inRange_of_isArith h1)) (Src.code_lt _ (Src.inRange_of_isArith h2)) (by decide) (by omega), ?_⟩
  simp only [KWord.atomic, zeroF, need, bind, Except.bind] at q ⊢
  have e : (kWord opc (outOpt o) a.code b.code 0 (atFn o w false)).fn = atFn o w false := rfl
  have e2 : (kWord opc (outOpt o) a.code b.code 0 (atFn o w false)).sa = a.code := rfl
  have e3 : (kWord opc (outOpt o) a.code b.code 0 (atFn o w false)).sb = b.code := rfl
  have e4 : (kWord opc (outOpt o) a.code b.code 0 (atFn o w false)).sc = 0 := rfl
  simp only [e, e2, e3, e4, f3, f2, f4, q]
  simp [f1, srcF_arith h1, srcF_arith h2]

theorem atomicU_ok {mk : Option Out → Bool → Bool → Src → Src → Instr} {opc : Nat} {o : Option Out} {w : Bool} {a b : Src} {u : Bool} (k : opc < 512)
    (h : ((match o with | none => true | some x => x.accepts w false) && a.isArith true && b.isArith w) = true) :
    (kWord opc (outOpt o) a.code b.code 0 (atFn o w u)).fits ∧ KWord.atomicU mk (kWord opc (outOpt o) a.code b.code 0 (atFn o w u)) = .ok (mk o w u a b) := by
  simp only [Bool.and_eq_true] at h
  obtain ⟨⟨h0, h1⟩, h2⟩ := h
  have q := atOut_code (opc := opc) (sa := a.code) (sb := b.code) (sc := 0) u h0
  obtain ⟨f1, f2, f3, f4, f5⟩ := atFn_fn o w u
  refine ⟨kWord_fits k (outOpt_lt h0) (Src.code_lt _ (Src.inRange_of_isArith h1)) (Src.code_lt _ (Src.inRange_of_isArith h2)) (by decide) (by omega), ?_⟩
  simp only [KWord.atomicU, zeroF, need, bind, Except.bind] at q ⊢
  have e : (kWord opc (outOpt o) a.code b.code 0 (atFn o w u)).fn = atFn o w u := rfl
  have e2 : (kWord opc (outOpt o) a.code b.code 0 (atFn o w u)).sa = a.code := rfl
  have e3 : (kWord opc (outOpt o) a.code b.code 0 (atFn o w u)).sb = b.code := rfl
  have e4 : (kWord opc (outOpt o) a.code b.code 0 (atFn o w u)).sc = 0 := rfl
  simp only [e, e2, e3, e4, f3, f2, f4, q]
  simp [f1, srcF_arith h1, srcF_arith h2]

theorem acasOp_ok {opc : Nat} {o : Option Out} {w : Bool} {a b : Src} {c : Src} (k : opc < 512)
    (h : ((match o with | none => true | some x => x.accepts w false) && a.isArith true && b.isArith w && c.isArith w) = true) :
    (kWord opc (outOpt o) a.code b.code c.code (atFn o w false)).fits ∧ KWord.acasOp (kWord opc (outOpt o) a.code b.code c.code (atFn o w false)) = .ok (.acas o w a b c) := by
  simp only [Bool.and_eq_true] at h
  obtain ⟨⟨⟨h0, h1⟩, h2⟩, h3⟩ := h
  have q := atOut_code (opc := opc) (sa := a.code) (sb := b.code) (sc := c.code) false h0
  obtain ⟨f1, f2, f3, f4, f5⟩ := atFn_fn o w false
  refine ⟨kWord_fits k (outOpt_lt h0) (Src.code_lt _ (Src.inRange_of_isArith h1)) (Src.code_lt _ (Src.inRange_of_isArith h2)) (Src.code_lt _ (Src.inRange_of_isArith h3)) (by omega), ?_⟩
  simp only [KWord.acasOp, zeroF, need, bind, Except.bind] at q ⊢
  have e : (kWord opc (outOpt o) a.code b.code c.code (atFn o w false)).fn = atFn o w false := rfl
  have e2 : (kWord opc (outOpt o) a.code b.code c.code (atFn o w false)).sa = a.code := rfl
  have e3 : (kWord opc (outOpt o) a.code b.code c.code (atFn o w false)).sb = b.code := rfl
  have e4 : (kWord opc (outOpt o) a.code b.code c.code (atFn o w false)).sc = c.code := rfl
  simp only [e, e2, e3, e4, f3, f2, f4, q]
  simp [f1, srcF_arith h1, srcF_arith h2, srcF_arith h3]

theorem wcmpEq_ok {opc : Nat} {o : Out} {w u : Bool} {a b : Src} (k : opc < 512)
    (h : (o.accepts false true && a.isArith true && b.isArith w) = true) :
    (kWord opc o a.code b.code 0 (wcmpFn 0 w u)).fits ∧ KWord.wcmpOp (kWord opc o a.code b.code 0 (wcmpFn 0 w u)) = .ok (.wcmpEq o w u a b) := by
  simp only [Bool.and_eq_true] at h
  obtain ⟨⟨h0, h1⟩, h2⟩ := h
  refine ⟨kWord_fits k (Dst.code_lt h0) (Src.code_lt _ (Src.inRange_of_isArith h1)) (Src.code_lt _ (Src.inRange_of_isArith h2)) (by decide) (by cases w <;> cases u <;> decide), ?_⟩
  cases w <;> cases u <;> simp [KWord.wcmpOp, kWord, wcmpFn, zeroF, need, bind, Except.bind, outF_code h0, srcF_arith h1, srcF_arith h2]

theorem wcmpNe_ok {opc : Nat} {o : Out} {w u : Bool} {a b : Src} (k : opc < 512)
    (h : (o.accepts false true && a.isArith true && b.isArith w) = true) :
    (kWord opc o a.code b.code 0 (wcmpFn 1 w u)).fits ∧ KWord.wcmpOp (kWord opc o a.code b.code 0 (wcmpFn 1 w u)) = .ok (.wcmpNe o w u a b) := by
  simp only [Bool.and_eq_true] at h
  obtain ⟨⟨h0, h1⟩, h2⟩ := h
  refine ⟨kWord_fits k (Dst.code_lt h0) (Src.code_lt _ (Src.inRange_of_isArith h1)) (Src.code_lt _ (Src.inRange_of_isArith h2)) (by decide) (by cases w <;> cases u <;> decide), ?_⟩
  cases w <;> cases u <;> simp [KWord.wcmpOp, kWord, wcmpFn, zeroF, need, bind, Except.bind, outF_code h0, srcF_arith h1, srcF_arith h2]

theorem wcmpLt_ok {opc : Nat} {o : Out} {w u : Bool} {a b : Src} (k : opc < 512)
    (h : (o.accepts false true && a.isArith true && b.isArith w) = true) :
    (kWord opc o a.code b.code 0 (wcmpFn 2 w u)).fits ∧ KWord.wcmpOp (kWord opc o a.code b.code 0 (wcmpFn 2 w u)) = .ok (.wcmpLt o w u a b) := by
  simp only [Bool.and_eq_true] at h
  obtain ⟨⟨h0, h1⟩, h2⟩ := h
  refine ⟨kWord_fits k (Dst.code_lt h0) (Src.code_lt _ (Src.inRange_of_isArith h1)) (Src.code_lt _ (Src.inRange_of_isArith h2)) (by decide) (by cases w <;> cases u <;> decide), ?_⟩
  cases w <;> cases u <;> simp [KWord.wcmpOp, kWord, wcmpFn, zeroF, need, bind, Except.bind, outF_code h0, srcF_arith h1, srcF_arith h2]

theorem wcmpLe_ok {opc : Nat} {o : Out} {w u : Bool} {a b : Src} (k : opc < 512)
    (h : (o.accepts false true && a.isArith true && b.isArith w) = true) :
    (kWord opc o a.code b.code 0 (wcmpFn 3 w u)).fits ∧ KWord.wcmpOp (kWord opc o a.code b.code 0 (wcmpFn 3 w u)) = .ok (.wcmpLe o w u a b) := by
  simp only [Bool.and_eq_true] at h
  obtain ⟨⟨h0, h1⟩, h2⟩ := h
  refine ⟨kWord_fits k (Dst.code_lt h0) (Src.code_lt _ (Src.inRange_of_isArith h1)) (Src.code_lt _ (Src.inRange_of_isArith h2)) (by decide) (by cases w <;> cases u <;> decide), ?_⟩
  cases w <;> cases u <;> simp [KWord.wcmpOp, kWord, wcmpFn, zeroF, need, bind, Except.bind, outF_code h0, srcF_arith h1, srcF_arith h2]

theorem wcmpGt_ok {opc : Nat} {o : Out} {w u : Bool} {a b : Src} (k : opc < 512)
    (h : (o.accepts false true && a.isArith true && b.isArith w) = true) :
    (kWord opc o a.code b.code 0 (wcmpFn 4 w u)).fits ∧ KWord.wcmpOp (kWord opc o a.code b.code 0 (wcmpFn 4 w u)) = .ok (.wcmpGt o w u a b) := by
  simp only [Bool.and_eq_true] at h
  obtain ⟨⟨h0, h1⟩, h2⟩ := h
  refine ⟨kWord_fits k (Dst.code_lt h0) (Src.code_lt _ (Src.inRange_of_isArith h1)) (Src.code_lt _ (Src.inRange_of_isArith h2)) (by decide) (by cases w <;> cases u <;> decide), ?_⟩
  cases w <;> cases u <;> simp [KWord.wcmpOp, kWord, wcmpFn, zeroF, need, bind, Except.bind, outF_code h0, srcF_arith h1, srcF_arith h2]

theorem wcmpGe_ok {opc : Nat} {o : Out} {w u : Bool} {a b : Src} (k : opc < 512)
    (h : (o.accepts false true && a.isArith true && b.isArith w) = true) :
    (kWord opc o a.code b.code 0 (wcmpFn 5 w u)).fits ∧ KWord.wcmpOp (kWord opc o a.code b.code 0 (wcmpFn 5 w u)) = .ok (.wcmpGe o w u a b) := by
  simp only [Bool.and_eq_true] at h
  obtain ⟨⟨h0, h1⟩, h2⟩ := h
  refine ⟨kWord_fits k (Dst.code_lt h0) (Src.code_lt _ (Src.inRange_of_isArith h1)) (Src.code_lt _ (Src.inRange_of_isArith h2)) (by decide) (by cases w <;> cases u <;> decide), ?_⟩
  cases w <;> cases u <;> simp [KWord.wcmpOp, kWord, wcmpFn, zeroF, need, bind, Except.bind, outF_code h0, srcF_arith h1, srcF_arith h2]

theorem wcmpAny_ok {opc : Nat} {o : Out} {w u : Bool} {a b : Src} (k : opc < 512)
    (h : (o.accepts false true && a.isArith true && b.isArith w) = true) :
    (kWord opc o a.code b.code 0 (wcmpFn 6 w u)).fits ∧ KWord.wcmpOp (kWord opc o a.code b.code 0 (wcmpFn 6 w u)) = .ok (.wcmpAny o w u a b) := by
  simp only [Bool.and_eq_true] at h
  obtain ⟨⟨h0, h1⟩, h2⟩ := h
  refine ⟨kWord_fits k (Dst.code_lt h0) (Src.code_lt _ (Src.inRange_of_isArith h1)) (Src.code_lt _ (Src.inRange_of_isArith h2)) (by decide) (by cases w <;> cases u <;> decide), ?_⟩
  cases w <;> cases u <;> simp [KWord.wcmpOp, kWord, wcmpFn, zeroF, need, bind, Except.bind, outF_code h0, srcF_arith h1, srcF_arith h2]

theorem fenceOp_ok {opc : Nat} {s : FScope} {x : FKind} (k : opc < 512)
    (h : (x == .mir || x == .eng || x == .all || s == .system) = true) :
    (kWord0 opc 0 0 0 (s.code + 4 * x.code)).fits ∧ KWord.fenceOp (kWord0 opc 0 0 0 (s.code + 4 * x.code)) = .ok (.fence s x) := by
  refine ⟨kWord0_fits k (by decide) (by decide) (by decide) (by cases s <;> cases x <;> decide), ?_⟩
  revert h
  cases s <;> cases x <;> simp [KWord.fenceOp, kWord0, KWord.noD, zeroF, need, bind, Except.bind, FScope.code, FKind.code, fkindF, fscopeOf]

theorem cpubOp_ok {opc : Nat} {o : Out} {a b : Src} {s : FScope} (k : opc < 512)
    (h : (o.accepts false false && a.isArith true && b.isArith false && s != .system) = true) :
    (kWord opc o a.code b.code 0 s.code).fits ∧ KWord.cpubOp (kWord opc o a.code b.code 0 s.code) = .ok (.cpub o a b s) := by
  simp only [Bool.and_eq_true] at h
  obtain ⟨⟨⟨h0, h1⟩, h2⟩, h3⟩ := h
  have h4 : s.code < 3 := by cases s <;> first | decide | exact absurd h3 (by decide)
  refine ⟨kWord_fits k (Dst.code_lt h0) (Src.code_lt _ (Src.inRange_of_isArith h1)) (Src.code_lt _ (Src.inRange_of_isArith h2)) (by decide) (by omega), ?_⟩
  simp [KWord.cpubOp, kWord, zeroF, need, bind, Except.bind, outF_code h0, srcF_arith h1, srcF_arith h2, h4]

theorem cntNew_ok {opc : Nat} {o : Out} {x : CKind} {a : Src} (k : opc < 512)
    (h : (o.accepts false false && a.isArith false && (x == .graph || x == .phase)) = true) :
    (kWord opc o a.code 0 0 (2 + 4 * x.code)).fits ∧ KWord.cntOp (kWord opc o a.code 0 0 (2 + 4 * x.code)) = .ok (.cntNew o x a) := by
  simp only [Bool.and_eq_true] at h
  obtain ⟨⟨h0, h1⟩, h2⟩ := h
  refine ⟨kWord_fits k (Dst.code_lt h0) (Src.code_lt _ (Src.inRange_of_isArith h1)) (by decide) (by decide) (by cases x <;> decide), ?_⟩
  cases x <;> simp [KWord.cntOp, kWord, zeroF, need, bind, Except.bind, outF_code h0, srcF_arith h1, CKind.code, ckindOf] at h2 ⊢

theorem allZero_ok {i : Instr} {opc : Nat} (k : opc < 512) :
    (kWord0 opc 0 0 0 0).fits ∧ KWord.allZero i (kWord0 opc 0 0 0 0) = .ok (i) := by
  refine ⟨kWord0_fits k (by decide) (by decide) (by decide) (by decide), ?_⟩
  simp [KWord.allZero, kWord0, zeroF, need, bind, Except.bind, KWord.noD]


theorem fixed_ok {i : Instr} {opc : Nat} {sc : Scope} (k : opc < 512) :
    (cWord opc sc 0 0 0 0).fits ∧ CWord.fixed sc.code i (cWord opc sc 0 0 0 0) = .ok (i) := by
  refine ⟨cWord_fits k (Scope.code_lt_eight _) (by decide) (by decide) (by decide) (by decide), ?_⟩
  simp [CWord.fixed, cWord, zeroF, need, bind, Except.bind, ]


theorem mWord_fits {opc d n c : Nat} {m : MemOp} (k : opc < 512) (hd : d < 1024) (hn : n < 2) (hc : c < 4) (h : m.wf = true) :
    (mWord opc d n m c).fits := by
  simp only [MemOp.wf, Bool.and_eq_true, decide_eq_true_eq] at h
  exact ⟨k, hd, hn, Src.code_lt _ (Src.inRange_of_isArith h.1.1), Src.code_lt _ (Src.inRange_of_isArith h.1.2), m.offs.isLt, h.2,
    (by have := Width.code_lt m.width; show m.width.code < 8; omega), hc, m.hint.isLt⟩

theorem mWord_op {opc d n c : Nat} {m : MemOp} (h : m.wf = true) : (mWord opc d n m c).op = .ok m := by
  simp only [MemOp.wf, Bool.and_eq_true, decide_eq_true_eq] at h
  simp [MWord.op, mWord, bind, Except.bind, srcF_arith h.1.1, srcF_arith h.1.2]

theorem loadOutF_code {o : Out} {wd : Width} (h : loadDstOk o wd = true) : loadOutF wd o.dst.code o.nwb.toNat = .ok o ∧ o.dst.code < 1024 := by
  obtain ⟨d, n⟩ := o
  cases d with
  | vreg r =>
    have h' := h
    simp only [loadDstOk, Bool.and_eq_true, decide_eq_true_eq] at h'
    have e : dstOf r = some (.vreg r) := if_pos h'.1.1
    refine ⟨?_, show r < 1024 by omega⟩
    cases n <;> simp [loadOutF, Dst.code, e, h]
  | scope r =>
    have h' := h
    simp only [loadDstOk, Bool.and_eq_true, decide_eq_true_eq] at h'
    have e : dstOf (Dst.scope r).code = some (.scope r) := dstOf_code (wide := false) (predOk := false) (by simp [Dst.accepts]; omega)
    refine ⟨?_, show 640 + r < 1024 by omega⟩
    cases n <;> simp [loadOutF, e, h]
  | pred r => simp [loadDstOk] at h

theorem load_ok {mk : Out → MemOp → Nat → Instr} {opc : Nat} {o : Out} {m : MemOp} {c : Nat} (k : opc < 512)
    (h : (m.wf && decide (c < 4) && loadDstOk o m.width) = true) :
    (mWord opc o.dst.code o.nwb.toNat m c).fits ∧ MWord.load false mk (mWord opc o.dst.code o.nwb.toNat m c) = .ok (mk o m c) := by
  simp only [Bool.and_eq_true, decide_eq_true_eq] at h
  obtain ⟨⟨h0, h1⟩, h2⟩ := h
  obtain ⟨e, l⟩ := loadOutF_code h2
  refine ⟨mWord_fits k l (Bool.toNat_lt_two _) h1 h0, ?_⟩
  simp only [MWord.load, need, bind, Except.bind, mWord_op h0]
  simp [mWord, e]

theorem loadSys_ok {mk : Out → MemOp → Nat → Instr} {opc : Nat} {o : Out} {m : MemOp} {c : Nat} (k : opc < 512)
    (h : (m.wf && decide (c < 4) && loadDstOk o m.width && m.width.sysOk) = true) :
    (mWord opc o.dst.code o.nwb.toNat m c).fits ∧ MWord.load true mk (mWord opc o.dst.code o.nwb.toNat m c) = .ok (mk o m c) := by
  simp only [Bool.and_eq_true, decide_eq_true_eq] at h
  obtain ⟨⟨⟨h0, h1⟩, h2⟩, h3⟩ := h
  obtain ⟨e, l⟩ := loadOutF_code h2
  refine ⟨mWord_fits k l (Bool.toNat_lt_two _) h1 h0, ?_⟩
  simp only [MWord.load, need, bind, Except.bind, mWord_op h0]
  simp [mWord, e, h3]

theorem storeDataOk_lt {d : Nat} {w : Width} (h : storeDataOk d w = true) : d < 1024 := by
  simp [storeDataOk] at h; omega

theorem store_ok {mk : Nat → MemOp → Nat → Instr} {opc d : Nat} {m : MemOp} {c : Nat} (k : opc < 512)
    (h : (m.wf && decide (c < 4) && storeDataOk d m.width) = true) :
    (mWord opc d 0 m c).fits ∧ MWord.store false mk (mWord opc d 0 m c) = .ok (mk d m c) := by
  simp only [Bool.and_eq_true, decide_eq_true_eq] at h
  obtain ⟨⟨h0, h1⟩, h2⟩ := h
  refine ⟨mWord_fits k (storeDataOk_lt h2) (by decide) h1 h0, ?_⟩
  simp only [MWord.store, need, zeroF, bind, Except.bind, mWord_op h0]
  simp [mWord, h2]

theorem storeSys_ok {mk : Nat → MemOp → Nat → Instr} {opc d : Nat} {m : MemOp} {c : Nat} (k : opc < 512)
    (h : (m.wf && decide (c < 4) && storeDataOk d m.width && m.width.sysOk) = true) :
    (mWord opc d 0 m c).fits ∧ MWord.store true mk (mWord opc d 0 m c) = .ok (mk d m c) := by
  simp only [Bool.and_eq_true, decide_eq_true_eq] at h
  obtain ⟨⟨⟨h0, h1⟩, h2⟩, h3⟩ := h
  refine ⟨mWord_fits k (storeDataOk_lt h2) (by decide) h1 h0, ?_⟩
  simp only [MWord.store, need, zeroF, bind, Except.bind, mWord_op h0]
  simp [mWord, h2, h3]

theorem bare_ok {mk : MemOp → Instr} {opc : Nat} {m : MemOp} (k : opc < 512) (h : m.wf = true) :
    (mWord opc 0 0 m 0).fits ∧ MWord.bare mk (mWord opc 0 0 m 0) = .ok (mk m) := by
  refine ⟨mWord_fits k (by decide) (by decide) (by decide) h, ?_⟩
  simp only [MWord.bare, need, zeroF, bind, Except.bind, mWord_op h]
  rfl

theorem lock_ok {opc : Nat} {o : Out} {m : MemOp} (k : opc < 512) (h : (m.wf && o.accepts false false) = true) :
    (mWord opc o.dst.code o.nwb.toNat m 0).fits ∧ MWord.lock (mWord opc o.dst.code o.nwb.toNat m 0) = .ok (.llock o m) := by
  simp only [Bool.and_eq_true] at h
  refine ⟨mWord_fits k (Dst.code_lt h.2) (Bool.toNat_lt_two _) (by decide) h.1, ?_⟩
  simp only [MWord.lock, need, zeroF, bind, Except.bind, mWord_op h.1]
  simp [mWord, outF_code h.2]

theorem of_int {f : VWord} {i : Instr} (n : Nat) (e : f.opc = n) (r : (0x040 ≤ n ∧ n < 0x068) ∨ (0x080 ≤ n ∧ n < 0x085) ∨ (0x088 ≤ n ∧ n < 0x0C0)) (h : f.fits ∧ decodeInt f = .ok i) :
    decode f.pack = .ok i := by
  subst e
  unfold decode
  rw [VWord.opc_pack f h.1, VWord.parse_pack f h.1]
  simp only [beq_iff_eq]
  rcases r with r | r | r <;> simp (disch := omega) only [if_pos, if_neg] <;> exact h.2

theorem of_flt {f : VWord} {i : Instr} (n : Nat) (e : f.opc = n) (r : 0x0C0 ≤ n ∧ n < 0x0E0) (h : f.fits ∧ decodeFlt f = .ok i) :
    decode f.pack = .ok i := by
  subst e
  unfold decode
  rw [VWord.opc_pack f h.1, VWord.parse_pack f h.1]
  simp only [beq_iff_eq]
  rcases r with r <;> simp (disch := omega) only [if_pos, if_neg] <;> exact h.2

theorem of_narrow {f : VWord} {i : Instr} (n : Nat) (e : f.opc = n) (r : 0x120 ≤ n ∧ n < 0x140) (h : f.fits ∧ decodeNarrow f = .ok i) :
    decode f.pack = .ok i := by
  subst e
  unfold decode
  rw [VWord.opc_pack f h.1, VWord.parse_pack f h.1]
  simp only [beq_iff_eq]
  rcases r with r <;> simp (disch := omega) only [if_pos, if_neg] <;> exact h.2

theorem of_imm {f : IWord} {i : Instr} (n : Nat) (e : f.opc = n) (r : 0x068 ≤ n ∧ n < 0x078) (h : f.fits ∧ decodeImm f = .ok i) :
    decode f.pack = .ok i := by
  subst e
  unfold decode
  rw [IWord.opc_pack f h.1, IWord.parse_pack f h.1]
  simp only [beq_iff_eq]
  rcases r with r <;> simp (disch := omega) only [if_pos, if_neg] <;> exact h.2

theorem of_klow {f : KWord} {i : Instr} (n : Nat) (e : f.opc = n) (r : (0x010 ≤ n ∧ n < 0x040) ∨ (0x078 ≤ n ∧ n < 0x080) ∨ (0x085 ≤ n ∧ n < 0x088) ∨ (0x0E0 ≤ n ∧ n < 0x120)) (h : f.fits ∧ decodeKLow f = .ok i) :
    decode f.pack = .ok i := by
  subst e
  unfold decode
  rw [KWord.opc_pack f h.1, KWord.parse_pack f h.1]
  simp only [beq_iff_eq]
  rcases r with r | r | r | r <;> simp (disch := omega) only [if_pos, if_neg] <;> exact h.2

theorem of_kmid {f : KWord} {i : Instr} (n : Nat) (e : f.opc = n) (r : (0x140 ≤ n ∧ n < 0x160) ∨ (0x167 ≤ n ∧ n < 0x1C0)) (h : f.fits ∧ decodeKMid f = .ok i) :
    decode f.pack = .ok i := by
  subst e
  unfold decode
  rw [KWord.opc_pack f h.1, KWord.parse_pack f h.1]
  simp only [beq_iff_eq]
  rcases r with r | r <;> simp (disch := omega) only [if_pos, if_neg] <;> exact h.2

theorem of_khigh {f : KWord} {i : Instr} (n : Nat) (e : f.opc = n) (r : 0x1C0 ≤ n ∧ n < 0x1F8 ∧ n ≠ 0x1E9) (h : f.fits ∧ decodeKHigh f = .ok i) :
    decode f.pack = .ok i := by
  subst e
  unfold decode
  rw [KWord.opc_pack f h.1, KWord.parse_pack f h.1]
  simp only [beq_iff_eq]
  rcases r with r <;> simp (disch := omega) only [if_pos, if_neg] <;> exact h.2

theorem of_mem {f : MWord} {i : Instr} (n : Nat) (e : f.opc = n) (r : 0x160 ≤ n ∧ n < 0x167) (h : f.fits ∧ decodeMem f = .ok i) :
    decode f.pack = .ok i := by
  subst e
  unfold decode
  rw [MWord.opc_pack f h.1, MWord.parse_pack f h.1]
  simp only [beq_iff_eq]
  rcases r with r <;> simp (disch := omega) only [if_pos, if_neg] <;> exact h.2

theorem of_ctl {f : CWord} {i : Instr} (n : Nat) (e : f.opc = n) (r : n < 0x010 ∨ n = 0x1E9) (h : f.fits ∧ decodeCtl f = .ok i) :
    decode f.pack = .ok i := by
  subst e
  unfold decode
  rw [CWord.opc_pack f h.1, CWord.parse_pack f h.1]
  simp only [beq_iff_eq]
  rcases r with r | r <;> simp (disch := omega) only [if_pos, if_neg] <;> exact h.2

theorem of_sys {f : SWord} {i : Instr} (n : Nat) (e : f.opc = n) (r : 0x1F8 ≤ n) (h : f.fits ∧ decodeSys f = .ok i) :
    decode f.pack = .ok i := by
  subst e
  unfold decode
  rw [SWord.opc_pack f h.1, SWord.parse_pack f h.1]
  simp only [beq_iff_eq]
  rcases r with r <;> simp (disch := omega) only [if_pos, if_neg] <;> exact h.2

end Sys2Proof
end

