-- ==== Sys2Proof/Laws/PerInstr.lean ====
section
/-! SUPPORT. The family `Coding`: for each constructor, the word that the encoder gives a well-formed instruction
decodes to it (R44 to R54). A step of the part has no word. -/

namespace Sys2Proof.Laws.Coding

set_option Elab.async false

/-- Every word the encoder gives a well-formed instruction decodes to that instruction. -/
def Statement (i : Instr) : Prop := i.wf = true → ∀ w, encode i = some w → decode w = .ok i

theorem br (x0 : Scope) (x1 : BitVec 20) (x2 : BitVec 16) : Statement (.br x0 x1 x2) := by
  intro _ w hw
  obtain rfl := Option.some.inj hw
  exact of_ctl 0x001 rfl (by decide) (jump_ok (by decide))

theorem bt (x0 : Scope) (x1 : Src) (x2 : BitVec 20) (x3 : BitVec 16) : Statement (.bt x0 x1 x2 x3) := by
  intro h w hw
  obtain rfl := Option.some.inj hw
  exact of_ctl 0x002 rfl (by decide) (branchT_ok (by decide) h)

theorem bf (x0 : Scope) (x1 : Src) (x2 : BitVec 20) (x3 : BitVec 16) : Statement (.bf x0 x1 x2 x3) := by
  intro h w hw
  obtain rfl := Option.some.inj hw
  exact of_ctl 0x002 rfl (by decide) (branchF_ok (by decide) h)

theorem loop (x0 : Scope) (x1 : Src) (x2 : BitVec 20) (x3 : BitVec 16) : Statement (.loop x0 x1 x2 x3) := by
  intro h w hw
  obtain rfl := Option.some.inj hw
  exact of_ctl 0x003 rfl (by decide) (loopOp_ok (by decide) h)

theorem call (x0 : Scope) (x1 : BitVec 20) : Statement (.call x0 x1) := by
  intro h w hw
  obtain rfl := Option.some.inj hw
  exact of_ctl 0x004 rfl (by decide) (callOp_ok (by decide) h)

theorem callr (x0 : Scope) (x1 : Src) : Statement (.callr x0 x1) := by
  intro h w hw
  obtain rfl := Option.some.inj hw
  exact of_ctl 0x005 rfl (by decide) (condOnly_ok (by decide) h)

theorem ret (x0 : Scope) : Statement (.ret x0) := by
  intro h w hw
  obtain rfl := Option.some.inj hw
  have q := ownOnly_ok (opc := 0x006) (by decide) h
  exact of_ctl 0x006 rfl (by decide) ⟨q.1, by simp only [decodeCtl, cWord] at q ⊢; simp [q.2, bind, Except.bind]⟩

theorem regang : Statement .regang := by
  intro h w hw
  obtain rfl := Option.some.inj hw
  exact of_ctl 0x007 rfl (by decide) (fixed_ok (sc := .slice) (by decide))

theorem lif (x0 : Bool) (x1 : Src) : Statement (.lif x0 x1) := by
  intro h w hw
  obtain rfl := Option.some.inj hw
  exact of_ctl 0x008 rfl (by decide) (lifOp_ok (by decide) h)

theorem lelse : Statement .lelse := by
  intro h w hw
  obtain rfl := Option.some.inj hw
  exact of_ctl 0x009 rfl (by decide) (fixed_ok (sc := .lane) (by decide))

theorem lendif : Statement .lendif := by
  intro h w hw
  obtain rfl := Option.some.inj hw
  exact of_ctl 0x00A rfl (by decide) (fixed_ok (sc := .lane) (by decide))

theorem doneScope (x0 : Scope) : Statement (.doneScope x0) := by
  intro h w hw
  obtain rfl := Option.some.inj hw
  have q := only_ok (opc := 0x00B) (sc := x0) (by decide)
  refine of_ctl 0x00B rfl (by decide) ⟨q.1, ?_⟩
  simp only [Instr.wf] at h
  simp only [decodeCtl, cWord] at q ⊢
  simp [q.2, bind, Except.bind, need, h] at h ⊢

theorem nop (x0 : Scope) : Statement (.nop x0) := by
  intro h w hw
  obtain rfl := Option.some.inj hw
  have q := ownOnly_ok (opc := 0x00C) (by decide) h
  exact of_ctl 0x00C rfl (by decide) ⟨q.1, by simp only [decodeCtl, cWord] at q ⊢; simp [q.2, bind, Except.bind]⟩

theorem yield (x0 : Scope) : Statement (.yield x0) := by
  intro h w hw
  obtain rfl := Option.some.inj hw
  have q := only_ok (opc := 0x00D) (sc := x0) (by decide)
  refine of_ctl 0x00D rfl (by decide) ⟨q.1, ?_⟩
  simp only [Instr.wf] at h
  simp only [decodeCtl, cWord] at q ⊢
  simp [q.2, bind, Except.bind, need, h] at h ⊢

theorem vany (x0 : Out) (x1 : Src) : Statement (.vany x0 x1) := by
  intro h w hw
  obtain rfl := Option.some.inj hw
  exact of_klow 0x010 rfl (by decide) (vote_ok (by decide) h)

theorem vall (x0 : Out) (x1 : Src) : Statement (.vall x0 x1) := by
  intro h w hw
  obtain rfl := Option.some.inj hw
  exact of_klow 0x011 rfl (by decide) (vote_ok (by decide) h)

theorem vfirst (x0 : Out) (x1 : Src) : Statement (.vfirst x0 x1) := by
  intro h w hw
  obtain rfl := Option.some.inj hw
  exact of_klow 0x012 rfl (by decide) (vote_ok (by decide) h)

theorem vcount (x0 : Out) (x1 : Src) : Statement (.vcount x0 x1) := by
  intro h w hw
  obtain rfl := Option.some.inj hw
  exact of_klow 0x013 rfl (by decide) (vote_ok (by decide) h)

theorem vsum (x0 : Out) (x1 : Src) : Statement (.vsum x0 x1) := by
  intro h w hw
  obtain rfl := Option.some.inj hw
  exact of_klow 0x014 rfl (by decide) (vote_ok (by decide) h)

theorem vmax (x0 : Bool) (x1 : Out) (x2 : Src) : Statement (.vmax x0 x1 x2) := by
  intro h w hw
  obtain rfl := Option.some.inj hw
  exact of_klow 0x015 rfl (by decide) (vmaxOp_ok (by decide) h)

theorem add (x0 : Out) (x1 : Nat) (x2 : ITy) (x3 : Bool) (x4 : Src) (x5 : Src) : Statement (.add x0 x1 x2 x3 x4 x5) := by
  intro h w hw
  obtain rfl := Option.some.inj hw
  exact of_int 0x040 rfl (by decide) (intBinSat_ok (by decide) h)

theorem sub (x0 : Out) (x1 : Nat) (x2 : ITy) (x3 : Bool) (x4 : Src) (x5 : Src) : Statement (.sub x0 x1 x2 x3 x4 x5) := by
  intro h w hw
  obtain rfl := Option.some.inj hw
  exact of_int 0x041 rfl (by decide) (intBinSat_ok (by decide) h)

theorem mul (x0 : Out) (x1 : Nat) (x2 : ITy) (x3 : Bool) (x4 : Src) (x5 : Src) : Statement (.mul x0 x1 x2 x3 x4 x5) := by
  intro h w hw
  obtain rfl := Option.some.inj hw
  exact of_int 0x042 rfl (by decide) (intBinSat_ok (by decide) h)

theorem mulhi (x0 : Out) (x1 : Nat) (x2 : ITy) (x3 : Src) (x4 : Src) : Statement (.mulhi x0 x1 x2 x3 x4) := by
  intro h w hw
  obtain rfl := Option.some.inj hw
  exact of_int 0x043 rfl (by decide) (intBin_ok (by decide) h)

theorem mad (x0 : Out) (x1 : Nat) (x2 : ITy) (x3 : Bool) (x4 : Src) (x5 : Src) (x6 : Src) : Statement (.mad x0 x1 x2 x3 x4 x5 x6) := by
  intro h w hw
  obtain rfl := Option.some.inj hw
  exact of_int 0x044 rfl (by decide) (intTerSat_ok (by decide) h)

theorem div (x0 : Out) (x1 : Nat) (x2 : ITy) (x3 : Src) (x4 : Src) : Statement (.div x0 x1 x2 x3 x4) := by
  intro h w hw
  obtain rfl := Option.some.inj hw
  exact of_int 0x045 rfl (by decide) (intBin_ok (by decide) h)

theorem rem (x0 : Out) (x1 : Nat) (x2 : ITy) (x3 : Src) (x4 : Src) : Statement (.rem x0 x1 x2 x3 x4) := by
  intro h w hw
  obtain rfl := Option.some.inj hw
  exact of_int 0x046 rfl (by decide) (intBin_ok (by decide) h)

theorem min (x0 : Out) (x1 : Nat) (x2 : ITy) (x3 : Src) (x4 : Src) : Statement (.min x0 x1 x2 x3 x4) := by
  intro h w hw
  obtain rfl := Option.some.inj hw
  exact of_int 0x047 rfl (by decide) (intBin_ok (by decide) h)

theorem max (x0 : Out) (x1 : Nat) (x2 : ITy) (x3 : Src) (x4 : Src) : Statement (.max x0 x1 x2 x3 x4) := by
  intro h w hw
  obtain rfl := Option.some.inj hw
  exact of_int 0x048 rfl (by decide) (intBin_ok (by decide) h)

theorem abs (x0 : Out) (x1 : Nat) (x2 : ITy) (x3 : Bool) (x4 : Src) : Statement (.abs x0 x1 x2 x3 x4) := by
  intro h w hw
  obtain rfl := Option.some.inj hw
  exact of_int 0x049 rfl (by decide) (intUnSigned_ok (by decide) h)

theorem neg (x0 : Out) (x1 : Nat) (x2 : ITy) (x3 : Bool) (x4 : Src) : Statement (.neg x0 x1 x2 x3 x4) := by
  intro h w hw
  obtain rfl := Option.some.inj hw
  exact of_int 0x04A rfl (by decide) (intUnSat_ok (by decide) h)

theorem and (x0 : Out) (x1 : Nat) (x2 : ITy) (x3 : Src) (x4 : Src) : Statement (.and x0 x1 x2 x3 x4) := by
  intro h w hw
  obtain rfl := Option.some.inj hw
  exact of_int 0x04B rfl (by decide) (intBin_ok (by decide) h)

theorem or (x0 : Out) (x1 : Nat) (x2 : ITy) (x3 : Src) (x4 : Src) : Statement (.or x0 x1 x2 x3 x4) := by
  intro h w hw
  obtain rfl := Option.some.inj hw
  exact of_int 0x04C rfl (by decide) (intBin_ok (by decide) h)

theorem xor (x0 : Out) (x1 : Nat) (x2 : ITy) (x3 : Src) (x4 : Src) : Statement (.xor x0 x1 x2 x3 x4) := by
  intro h w hw
  obtain rfl := Option.some.inj hw
  exact of_int 0x04D rfl (by decide) (intBin_ok (by decide) h)

theorem andn (x0 : Out) (x1 : Nat) (x2 : ITy) (x3 : Src) (x4 : Src) : Statement (.andn x0 x1 x2 x3 x4) := by
  intro h w hw
  obtain rfl := Option.some.inj hw
  exact of_int 0x04E rfl (by decide) (intBin_ok (by decide) h)

theorem not (x0 : Out) (x1 : Nat) (x2 : ITy) (x3 : Src) : Statement (.not x0 x1 x2 x3) := by
  intro h w hw
  obtain rfl := Option.some.inj hw
  exact of_int 0x04F rfl (by decide) (intUn_ok (by decide) h)

theorem shl (x0 : Out) (x1 : Nat) (x2 : ITy) (x3 : Bool) (x4 : Src) (x5 : Src) : Statement (.shl x0 x1 x2 x3 x4 x5) := by
  intro h w hw
  obtain rfl := Option.some.inj hw
  exact of_int 0x050 rfl (by decide) (intShiftSat_ok (by decide) h)

theorem shr (x0 : Out) (x1 : Nat) (x2 : ITy) (x3 : Src) (x4 : Src) : Statement (.shr x0 x1 x2 x3 x4) := by
  intro h w hw
  obtain rfl := Option.some.inj hw
  exact of_int 0x051 rfl (by decide) (intShift_ok (by decide) h)

theorem sar (x0 : Out) (x1 : Nat) (x2 : ITy) (x3 : Src) (x4 : Src) : Statement (.sar x0 x1 x2 x3 x4) := by
  intro h w hw
  obtain rfl := Option.some.inj hw
  exact of_int 0x052 rfl (by decide) (intShift_ok (by decide) h)

theorem rot (x0 : Out) (x1 : Nat) (x2 : ITy) (x3 : Src) (x4 : Src) : Statement (.rot x0 x1 x2 x3 x4) := by
  intro h w hw
  obtain rfl := Option.some.inj hw
  exact of_int 0x053 rfl (by decide) (intShift_ok (by decide) h)

theorem clz (x0 : Out) (x1 : Nat) (x2 : ITy) (x3 : Src) : Statement (.clz x0 x1 x2 x3) := by
  intro h w hw
  obtain rfl := Option.some.inj hw
  exact of_int 0x054 rfl (by decide) (intUn_ok (by decide) h)

theorem popc (x0 : Out) (x1 : Nat) (x2 : ITy) (x3 : Src) : Statement (.popc x0 x1 x2 x3) := by
  intro h w hw
  obtain rfl := Option.some.inj hw
  exact of_int 0x055 rfl (by decide) (intUn_ok (by decide) h)

theorem brev (x0 : Out) (x1 : Nat) (x2 : ITy) (x3 : Src) : Statement (.brev x0 x1 x2 x3) := by
  intro h w hw
  obtain rfl := Option.some.inj hw
  exact of_int 0x056 rfl (by decide) (intUn_ok (by decide) h)

theorem bfx (x0 : Out) (x1 : Nat) (x2 : ITy) (x3 : Src) (x4 : Src) : Statement (.bfx x0 x1 x2 x3 x4) := by
  intro h w hw
  obtain rfl := Option.some.inj hw
  exact of_int 0x057 rfl (by decide) (intShift_ok (by decide) h)

theorem bfi (x0 : Out) (x1 : Nat) (x2 : ITy) (x3 : Src) (x4 : Src) (x5 : Src) : Statement (.bfi x0 x1 x2 x3 x4 x5) := by
  intro h w hw
  obtain rfl := Option.some.inj hw
  exact of_int 0x058 rfl (by decide) (intBfi_ok (by decide) h)

theorem ext (x0 : Out) (x1 : Nat) (x2 : ITy) (x3 : Src) (x4 : Src) : Statement (.ext x0 x1 x2 x3 x4) := by
  intro h w hw
  obtain rfl := Option.some.inj hw
  exact of_int 0x059 rfl (by decide) (intShift_ok (by decide) h)

theorem csel (x0 : Out) (x1 : Nat) (x2 : ITy) (x3 : Src) (x4 : Src) (x5 : Nat) : Statement (.csel x0 x1 x2 x3 x4 x5) := by
  intro h w hw
  obtain rfl := Option.some.inj hw
  exact of_int 0x05A rfl (by decide) (intPred_ok (by decide) h)

theorem mov (x0 : Out) (x1 : Nat) (x2 : ITy) (x3 : Src) : Statement (.mov x0 x1 x2 x3) := by
  intro h w hw
  obtain rfl := Option.some.inj hw
  exact of_int 0x05B rfl (by decide) (intUn_ok (by decide) h)

theorem lea (x0 : Out) (x1 : Nat) (x2 : ITy) (x3 : Src) (x4 : Src) (x5 : Src) : Statement (.lea x0 x1 x2 x3 x4 x5) := by
  intro h w hw
  obtain rfl := Option.some.inj hw
  exact of_int 0x05C rfl (by decide) (intLea_ok (by decide) h)

theorem addc (x0 : Out) (x1 : Nat) (x2 : ITy) (x3 : Src) (x4 : Src) (x5 : Nat) : Statement (.addc x0 x1 x2 x3 x4 x5) := by
  intro h w hw
  obtain rfl := Option.some.inj hw
  exact of_int 0x05D rfl (by decide) (intPred_ok (by decide) h)

theorem subb (x0 : Out) (x1 : Nat) (x2 : ITy) (x3 : Src) (x4 : Src) (x5 : Nat) : Statement (.subb x0 x1 x2 x3 x4 x5) := by
  intro h w hw
  obtain rfl := Option.some.inj hw
  exact of_int 0x05E rfl (by decide) (intPred_ok (by decide) h)

theorem cmpEq (x0 : Out) (x1 : Nat) (x2 : ITy) (x3 : Src) (x4 : Src) : Statement (.cmpEq x0 x1 x2 x3 x4) := by
  intro h w hw
  obtain rfl := Option.some.inj hw
  exact of_int 0x060 rfl (by decide) (intCmp_ok (by decide) h)

theorem cmpNe (x0 : Out) (x1 : Nat) (x2 : ITy) (x3 : Src) (x4 : Src) : Statement (.cmpNe x0 x1 x2 x3 x4) := by
  intro h w hw
  obtain rfl := Option.some.inj hw
  exact of_int 0x061 rfl (by decide) (intCmp_ok (by decide) h)

theorem cmpLt (x0 : Out) (x1 : Nat) (x2 : ITy) (x3 : Src) (x4 : Src) : Statement (.cmpLt x0 x1 x2 x3 x4) := by
  intro h w hw
  obtain rfl := Option.some.inj hw
  exact of_int 0x062 rfl (by decide) (intCmp_ok (by decide) h)

theorem cmpLe (x0 : Out) (x1 : Nat) (x2 : ITy) (x3 : Src) (x4 : Src) : Statement (.cmpLe x0 x1 x2 x3 x4) := by
  intro h w hw
  obtain rfl := Option.some.inj hw
  exact of_int 0x063 rfl (by decide) (intCmp_ok (by decide) h)

theorem cmpGt (x0 : Out) (x1 : Nat) (x2 : ITy) (x3 : Src) (x4 : Src) : Statement (.cmpGt x0 x1 x2 x3 x4) := by
  intro h w hw
  obtain rfl := Option.some.inj hw
  exact of_int 0x064 rfl (by decide) (intCmp_ok (by decide) h)

theorem cmpGe (x0 : Out) (x1 : Nat) (x2 : ITy) (x3 : Src) (x4 : Src) : Statement (.cmpGe x0 x1 x2 x3 x4) := by
  intro h w hw
  obtain rfl := Option.some.inj hw
  exact of_int 0x065 rfl (by decide) (intCmp_ok (by decide) h)

theorem addImm (x0 : Out) (x1 : Src) (x2 : BitVec 32) : Statement (.addImm x0 x1 x2) := by
  intro h w hw
  obtain rfl := Option.some.inj hw
  exact of_imm 0x068 rfl (by decide) (immBin_ok (by decide) h)

theorem subImm (x0 : Out) (x1 : Src) (x2 : BitVec 32) : Statement (.subImm x0 x1 x2) := by
  intro h w hw
  obtain rfl := Option.some.inj hw
  exact of_imm 0x069 rfl (by decide) (immBin_ok (by decide) h)

theorem mulImm (x0 : Out) (x1 : Src) (x2 : BitVec 32) : Statement (.mulImm x0 x1 x2) := by
  intro h w hw
  obtain rfl := Option.some.inj hw
  exact of_imm 0x06A rfl (by decide) (immBin_ok (by decide) h)

theorem andImm (x0 : Out) (x1 : Src) (x2 : BitVec 32) : Statement (.andImm x0 x1 x2) := by
  intro h w hw
  obtain rfl := Option.some.inj hw
  exact of_imm 0x06B rfl (by decide) (immBin_ok (by decide) h)

theorem orImm (x0 : Out) (x1 : Src) (x2 : BitVec 32) : Statement (.orImm x0 x1 x2) := by
  intro h w hw
  obtain rfl := Option.some.inj hw
  exact of_imm 0x06C rfl (by decide) (immBin_ok (by decide) h)

theorem xorImm (x0 : Out) (x1 : Src) (x2 : BitVec 32) : Statement (.xorImm x0 x1 x2) := by
  intro h w hw
  obtain rfl := Option.some.inj hw
  exact of_imm 0x06D rfl (by decide) (immBin_ok (by decide) h)

theorem shlImm (x0 : Out) (x1 : Src) (x2 : BitVec 5) : Statement (.shlImm x0 x1 x2) := by
  intro h w hw
  obtain rfl := Option.some.inj hw
  exact of_imm 0x06E rfl (by decide) (immSh_ok (by decide) h)

theorem shrImm (x0 : Out) (x1 : Src) (x2 : BitVec 5) : Statement (.shrImm x0 x1 x2) := by
  intro h w hw
  obtain rfl := Option.some.inj hw
  exact of_imm 0x06F rfl (by decide) (immSh_ok (by decide) h)

theorem sarImm (x0 : Out) (x1 : Src) (x2 : BitVec 5) : Statement (.sarImm x0 x1 x2) := by
  intro h w hw
  obtain rfl := Option.some.inj hw
  exact of_imm 0x070 rfl (by decide) (immSh_ok (by decide) h)

theorem rotImm (x0 : Out) (x1 : Src) (x2 : BitVec 5) : Statement (.rotImm x0 x1 x2) := by
  intro h w hw
  obtain rfl := Option.some.inj hw
  exact of_imm 0x071 rfl (by decide) (immSh_ok (by decide) h)

theorem movi (x0 : Out) (x1 : BitVec 32) : Statement (.movi x0 x1) := by
  intro h w hw
  obtain rfl := Option.some.inj hw
  exact of_imm 0x072 rfl (by decide) (immMov_ok (by decide) h)

theorem leaImm (x0 : Out) (x1 : Src) (x2 : BitVec 32) : Statement (.leaImm x0 x1 x2) := by
  intro h w hw
  obtain rfl := Option.some.inj hw
  exact of_imm 0x073 rfl (by decide) (immLea_ok (by decide) h)

theorem ixset (x0 : Nat) (x1 : Bool) (x2 : Src) (x3 : Src) (x4 : Src) : Statement (.ixset x0 x1 x2 x3 x4) := by
  intro h w hw
  cases x1 with
  | false =>
    obtain rfl := Option.some.inj hw
    have h' := h
    simp only [Instr.wf, Bool.and_eq_true] at h'
    exact of_klow 0x078 rfl (by decide) (ixsetFull_ok (by decide) (by simp_all))
  | true =>
    obtain rfl := Option.some.inj hw
    simp only [Instr.wf, if_true, Bool.and_eq_true, beq_iff_eq] at h
    obtain ⟨h1, rfl, rfl⟩ := h
    exact of_klow 0x078 rfl (by decide) (ixsetVal_ok (by decide) (by simp_all))

theorem ixget (x0 : Out) (x1 : Nat) (x2 : Nat) : Statement (.ixget x0 x1 x2) := by
  intro h w hw
  obtain rfl := Option.some.inj hw
  exact of_klow 0x079 rfl (by decide) (ixgetOp_ok (by decide) h)

theorem symq (x0 : Out) (x1 : Src) (x2 : Nat) : Statement (.symq x0 x1 x2) := by
  intro h w hw
  obtain rfl := Option.some.inj hw
  exact of_klow 0x07A rfl (by decide) (symqOp_ok (by decide) h)

theorem symw (x0 : Bool) (x1 : Src) : Statement (.symw x0 x1) := by
  intro h w hw
  cases x0 with
  | false =>
    obtain rfl := Option.some.inj hw
    exact of_klow 0x07B rfl (by decide) (symwOne_ok (by decide) h)
  | true =>
    obtain rfl := Option.some.inj hw
    simp only [Instr.wf, if_true, beq_iff_eq] at h
    subst h
    exact of_klow 0x07B rfl (by decide) (symwAll_ok (by decide))

theorem shf (x0 : Out) (x1 : Nat) (x2 : ITy) (x3 : Src) (x4 : Src) : Statement (.shf x0 x1 x2 x3 x4) := by
  intro h w hw
  obtain rfl := Option.some.inj hw
  exact of_int 0x080 rfl (by decide) (intShift_ok (by decide) h)

theorem shfx (x0 : Out) (x1 : Nat) (x2 : ITy) (x3 : Src) (x4 : Src) : Statement (.shfx x0 x1 x2 x3 x4) := by
  intro h w hw
  obtain rfl := Option.some.inj hw
  exact of_int 0x081 rfl (by decide) (intShift_ok (by decide) h)

theorem shfu (x0 : Out) (x1 : Nat) (x2 : ITy) (x3 : Src) (x4 : Src) : Statement (.shfu x0 x1 x2 x3 x4) := by
  intro h w hw
  obtain rfl := Option.some.inj hw
  exact of_int 0x082 rfl (by decide) (intShift_ok (by decide) h)

theorem shfd (x0 : Out) (x1 : Nat) (x2 : ITy) (x3 : Src) (x4 : Src) : Statement (.shfd x0 x1 x2 x3 x4) := by
  intro h w hw
  obtain rfl := Option.some.inj hw
  exact of_int 0x083 rfl (by decide) (intShift_ok (by decide) h)

theorem bcast (x0 : Out) (x1 : Nat) (x2 : ITy) (x3 : Src) (x4 : Src) : Statement (.bcast x0 x1 x2 x3 x4) := by
  intro h w hw
  obtain rfl := Option.some.inj hw
  exact of_int 0x084 rfl (by decide) (intBcast_ok (by decide) h)

theorem scan (x0 : Out) (x1 : ScanOp) (x2 : Bool) (x3 : Bool) (x4 : Src) : Statement (.scan x0 x1 x2 x3 x4) := by
  intro h w hw
  obtain rfl := Option.some.inj hw
  exact of_klow 0x085 rfl (by decide) (scanOp_ok (by decide) h)

theorem pand (x0 : Nat) (x1 : Nat) (x2 : Nat) (x3 : Nat) (x4 : Bool) : Statement (.pand x0 x1 x2 x3 x4) := by
  intro h w hw
  obtain rfl := Option.some.inj hw
  exact of_int 0x088 rfl (by decide) (predBin_ok (by decide) h)

theorem por (x0 : Nat) (x1 : Nat) (x2 : Nat) (x3 : Nat) (x4 : Bool) : Statement (.por x0 x1 x2 x3 x4) := by
  intro h w hw
  obtain rfl := Option.some.inj hw
  exact of_int 0x089 rfl (by decide) (predBin_ok (by decide) h)

theorem pxor (x0 : Nat) (x1 : Nat) (x2 : Nat) (x3 : Nat) (x4 : Bool) : Statement (.pxor x0 x1 x2 x3 x4) := by
  intro h w hw
  obtain rfl := Option.some.inj hw
  exact of_int 0x08A rfl (by decide) (predBin_ok (by decide) h)

theorem pnot (x0 : Nat) (x1 : Nat) (x2 : Nat) (x3 : Bool) : Statement (.pnot x0 x1 x2 x3) := by
  intro h w hw
  obtain rfl := Option.some.inj hw
  exact of_int 0x08B rfl (by decide) (predNot_ok (by decide) h)

theorem fadd (x0 : Out) (x1 : Nat) (x2 : FTy) (x3 : FMod) (x4 : Src) (x5 : Src) : Statement (.fadd x0 x1 x2 x3 x4 x5) := by
  intro h w hw
  obtain rfl := Option.some.inj hw
  exact of_flt 0x0C0 rfl (by decide) (fltBin_ok (by decide) h)

theorem fsub (x0 : Out) (x1 : Nat) (x2 : FTy) (x3 : FMod) (x4 : Src) (x5 : Src) : Statement (.fsub x0 x1 x2 x3 x4 x5) := by
  intro h w hw
  obtain rfl := Option.some.inj hw
  exact of_flt 0x0C1 rfl (by decide) (fltBin_ok (by decide) h)

theorem fmul (x0 : Out) (x1 : Nat) (x2 : FTy) (x3 : FMod) (x4 : Src) (x5 : Src) : Statement (.fmul x0 x1 x2 x3 x4 x5) := by
  intro h w hw
  obtain rfl := Option.some.inj hw
  exact of_flt 0x0C2 rfl (by decide) (fltBin_ok (by decide) h)

theorem ffma (x0 : Out) (x1 : Nat) (x2 : FTy) (x3 : FMod) (x4 : Src) (x5 : Src) (x6 : Src) : Statement (.ffma x0 x1 x2 x3 x4 x5 x6) := by
  intro h w hw
  obtain rfl := Option.some.inj hw
  exact of_flt 0x0C3 rfl (by decide) (fltFma_ok (by decide) h)

theorem fmin (x0 : Out) (x1 : Nat) (x2 : FTy) (x3 : Bool) (x4 : Src) (x5 : Src) : Statement (.fmin x0 x1 x2 x3 x4 x5) := by
  intro h w hw
  obtain rfl := Option.some.inj hw
  exact of_flt 0x0C4 rfl (by decide) (fltMinMax_ok (by decide) h)

theorem fmax (x0 : Out) (x1 : Nat) (x2 : FTy) (x3 : Bool) (x4 : Src) (x5 : Src) : Statement (.fmax x0 x1 x2 x3 x4 x5) := by
  intro h w hw
  obtain rfl := Option.some.inj hw
  exact of_flt 0x0C5 rfl (by decide) (fltMinMax_ok (by decide) h)

theorem fabs (x0 : Out) (x1 : Nat) (x2 : FTy) (x3 : Src) : Statement (.fabs x0 x1 x2 x3) := by
  intro h w hw
  obtain rfl := Option.some.inj hw
  exact of_flt 0x0C6 rfl (by decide) (fltSign_ok (by decide) h)

theorem fneg (x0 : Out) (x1 : Nat) (x2 : FTy) (x3 : Src) : Statement (.fneg x0 x1 x2 x3) := by
  intro h w hw
  obtain rfl := Option.some.inj hw
  exact of_flt 0x0C7 rfl (by decide) (fltSign_ok (by decide) h)

theorem fcmpEq (x0 : Out) (x1 : Nat) (x2 : FTy) (x3 : Bool) (x4 : Src) (x5 : Src) : Statement (.fcmpEq x0 x1 x2 x3 x4 x5) := by
  intro h w hw
  obtain rfl := Option.some.inj hw
  exact of_flt 0x0C8 rfl (by decide) (fltCmp_ok (by decide) h)

theorem fcmpNe (x0 : Out) (x1 : Nat) (x2 : FTy) (x3 : Bool) (x4 : Src) (x5 : Src) : Statement (.fcmpNe x0 x1 x2 x3 x4 x5) := by
  intro h w hw
  obtain rfl := Option.some.inj hw
  exact of_flt 0x0C9 rfl (by decide) (fltCmp_ok (by decide) h)

theorem fcmpLt (x0 : Out) (x1 : Nat) (x2 : FTy) (x3 : Bool) (x4 : Src) (x5 : Src) : Statement (.fcmpLt x0 x1 x2 x3 x4 x5) := by
  intro h w hw
  obtain rfl := Option.some.inj hw
  exact of_flt 0x0CA rfl (by decide) (fltCmp_ok (by decide) h)

theorem fcmpLe (x0 : Out) (x1 : Nat) (x2 : FTy) (x3 : Bool) (x4 : Src) (x5 : Src) : Statement (.fcmpLe x0 x1 x2 x3 x4 x5) := by
  intro h w hw
  obtain rfl := Option.some.inj hw
  exact of_flt 0x0CB rfl (by decide) (fltCmp_ok (by decide) h)

theorem fcmpGt (x0 : Out) (x1 : Nat) (x2 : FTy) (x3 : Bool) (x4 : Src) (x5 : Src) : Statement (.fcmpGt x0 x1 x2 x3 x4 x5) := by
  intro h w hw
  obtain rfl := Option.some.inj hw
  exact of_flt 0x0CC rfl (by decide) (fltCmp_ok (by decide) h)

theorem fcmpGe (x0 : Out) (x1 : Nat) (x2 : FTy) (x3 : Bool) (x4 : Src) (x5 : Src) : Statement (.fcmpGe x0 x1 x2 x3 x4 x5) := by
  intro h w hw
  obtain rfl := Option.some.inj hw
  exact of_flt 0x0CD rfl (by decide) (fltCmp_ok (by decide) h)

theorem fcmpUn (x0 : Out) (x1 : Nat) (x2 : FTy) (x3 : Bool) (x4 : Src) (x5 : Src) : Statement (.fcmpUn x0 x1 x2 x3 x4 x5) := by
  intro h w hw
  obtain rfl := Option.some.inj hw
  exact of_flt 0x0CE rfl (by decide) (fltCmp_ok (by decide) h)

theorem fcmpOr (x0 : Out) (x1 : Nat) (x2 : FTy) (x3 : Bool) (x4 : Src) (x5 : Src) : Statement (.fcmpOr x0 x1 x2 x3 x4 x5) := by
  intro h w hw
  obtain rfl := Option.some.inj hw
  exact of_flt 0x0CF rfl (by decide) (fltCmp_ok (by decide) h)

theorem fclass (x0 : Out) (x1 : Nat) (x2 : FTy) (x3 : Src) : Statement (.fclass x0 x1 x2 x3) := by
  intro h w hw
  obtain rfl := Option.some.inj hw
  exact of_flt 0x0D0 rfl (by decide) (fltClass_ok (by decide) h)

theorem frcp (x0 : Out) (x1 : Nat) (x2 : FTy) (x3 : FMod) (x4 : Src) : Statement (.frcp x0 x1 x2 x3 x4) := by
  intro h w hw
  obtain rfl := Option.some.inj hw
  exact of_flt 0x0D1 rfl (by decide) (fltUn_ok (by decide) h)

theorem frsq (x0 : Out) (x1 : Nat) (x2 : FTy) (x3 : FMod) (x4 : Src) : Statement (.frsq x0 x1 x2 x3 x4) := by
  intro h w hw
  obtain rfl := Option.some.inj hw
  exact of_flt 0x0D2 rfl (by decide) (fltUn_ok (by decide) h)

theorem fsqrt (x0 : Out) (x1 : Nat) (x2 : FTy) (x3 : FMod) (x4 : Src) : Statement (.fsqrt x0 x1 x2 x3 x4) := by
  intro h w hw
  obtain rfl := Option.some.inj hw
  exact of_flt 0x0D3 rfl (by decide) (fltUn_ok (by decide) h)

theorem fdiv (x0 : Out) (x1 : Nat) (x2 : FTy) (x3 : FMod) (x4 : Src) (x5 : Src) : Statement (.fdiv x0 x1 x2 x3 x4 x5) := by
  intro h w hw
  obtain rfl := Option.some.inj hw
  exact of_flt 0x0D4 rfl (by decide) (fltBin_ok (by decide) h)

theorem fexp2 (x0 : Out) (x1 : Nat) (x2 : FTy) (x3 : FMod) (x4 : Src) : Statement (.fexp2 x0 x1 x2 x3 x4) := by
  intro h w hw
  obtain rfl := Option.some.inj hw
  exact of_flt 0x0D5 rfl (by decide) (fltUn_ok (by decide) h)

theorem flog2 (x0 : Out) (x1 : Nat) (x2 : FTy) (x3 : FMod) (x4 : Src) : Statement (.flog2 x0 x1 x2 x3 x4) := by
  intro h w hw
  obtain rfl := Option.some.inj hw
  exact of_flt 0x0D6 rfl (by decide) (fltUn_ok (by decide) h)

theorem fsin (x0 : Out) (x1 : Nat) (x2 : FTy) (x3 : FMod) (x4 : Src) : Statement (.fsin x0 x1 x2 x3 x4) := by
  intro h w hw
  obtain rfl := Option.some.inj hw
  exact of_flt 0x0D7 rfl (by decide) (fltUn_ok (by decide) h)

theorem fcos (x0 : Out) (x1 : Nat) (x2 : FTy) (x3 : FMod) (x4 : Src) : Statement (.fcos x0 x1 x2 x3 x4) := by
  intro h w hw
  obtain rfl := Option.some.inj hw
  exact of_flt 0x0D8 rfl (by decide) (fltUn_ok (by decide) h)

theorem fscale (x0 : Out) (x1 : Nat) (x2 : FTy) (x3 : FMod) (x4 : Src) (x5 : Src) : Statement (.fscale x0 x1 x2 x3 x4 x5) := by
  intro h w hw
  obtain rfl := Option.some.inj hw
  exact of_flt 0x0D9 rfl (by decide) (fltScale_ok (by decide) h)

theorem fround (x0 : Out) (x1 : Nat) (x2 : FTy) (x3 : RM) (x4 : Bool) (x5 : Src) : Statement (.fround x0 x1 x2 x3 x4 x5) := by
  intro h w hw
  obtain rfl := Option.some.inj hw
  exact of_flt 0x0DA rfl (by decide) (fltRound_ok (by decide) h)

theorem fcvt (x0 : Out) (x1 : Nat) (x2 : FTy) (x3 : FMod) (x4 : FTy) (x5 : Src) : Statement (.fcvt x0 x1 x2 x3 x4 x5) := by
  intro h w hw
  obtain rfl := Option.some.inj hw
  exact of_flt 0x0DB rfl (by decide) (fltCvt_ok (by decide) h)

theorem fcvti (x0 : Out) (x1 : Nat) (x2 : ITy) (x3 : RM) (x4 : Bool) (x5 : FTy) (x6 : Src) : Statement (.fcvti x0 x1 x2 x3 x4 x5 x6) := by
  intro h w hw
  obtain rfl := Option.some.inj hw
  exact of_flt 0x0DC rfl (by decide) (fltCvti_ok (by decide) h)

theorem ficvt (x0 : Out) (x1 : Nat) (x2 : FTy) (x3 : FMod) (x4 : ITy) (x5 : Src) : Statement (.ficvt x0 x1 x2 x3 x4 x5) := by
  intro h w hw
  obtain rfl := Option.some.inj hw
  exact of_flt 0x0DD rfl (by decide) (intCvt_ok (by decide) h)

theorem fdot2 (x0 : Out) (x1 : Nat) (x2 : Bool) (x3 : FMod) (x4 : Src) (x5 : Src) (x6 : Src) : Statement (.fdot2 x0 x1 x2 x3 x4 x5 x6) := by
  intro h w hw
  obtain rfl := Option.some.inj hw
  exact of_flt 0x0DE rfl (by decide) (fltDot2_ok (by decide) h)

theorem fdot4 (x0 : Out) (x1 : Nat) (x2 : F8Ty) (x3 : FMod) (x4 : Src) (x5 : Src) (x6 : Src) : Statement (.fdot4 x0 x1 x2 x3 x4 x5 x6) := by
  intro h w hw
  obtain rfl := Option.some.inj hw
  exact of_flt 0x0DF rfl (by decide) (fltDot4_ok (by decide) h)

theorem flgrd (x0 : Out) : Statement (.flgrd x0) := by
  intro h w hw
  obtain rfl := Option.some.inj hw
  exact of_klow 0x0E0 rfl (by decide) (flgrdOp_ok (by decide) h)

theorem flgclr (x0 : Src) : Statement (.flgclr x0) := by
  intro h w hw
  obtain rfl := Option.some.inj hw
  exact of_klow 0x0E1 rfl (by decide) (src1_ok (by decide) h)

theorem flgset (x0 : Src) : Statement (.flgset x0) := by
  intro h w hw
  obtain rfl := Option.some.inj hw
  exact of_klow 0x0E2 rfl (by decide) (src1_ok (by decide) h)

theorem bxenc (x0 : Nat) (x1 : Nat) (x2 : BTy) (x3 : Bool) (x4 : Nat) : Statement (.bxenc x0 x1 x2 x3 x4) := by
  intro h w hw
  obtain rfl := Option.some.inj hw
  exact of_narrow 0x120 rfl (by decide) (bxEnc_ok (by decide) h)

theorem bxdec (x0 : Nat) (x1 : Nat) (x2 : BTy) (x3 : Src) (x4 : Src) : Statement (.bxdec x0 x1 x2 x3 x4) := by
  intro h w hw
  obtain rfl := Option.some.inj hw
  exact of_narrow 0x121 rfl (by decide) (bxDec_ok (by decide) h)

theorem bxmax (x0 : Out) (x1 : Nat) (x2 : Nat) : Statement (.bxmax x0 x1 x2) := by
  intro h w hw
  obtain rfl := Option.some.inj hw
  exact of_narrow 0x122 rfl (by decide) (bxMax_ok (by decide) h)

theorem pk4 (x0 : Out) (x1 : Nat) (x2 : Bool) (x3 : Bool) (x4 : Src) (x5 : Src) : Statement (.pk4 x0 x1 x2 x3 x4 x5) := by
  intro h w hw
  obtain rfl := Option.some.inj hw
  exact of_narrow 0x123 rfl (by decide) (pkFour_ok (by decide) h)

theorem upk4 (x0 : Out) (x1 : Nat) (x2 : Bool) (x3 : Src) (x4 : Src) : Statement (.upk4 x0 x1 x2 x3 x4) := by
  intro h w hw
  obtain rfl := Option.some.inj hw
  exact of_narrow 0x124 rfl (by decide) (upkFour_ok (by decide) h)

theorem pk6 (x0 : Out) (x1 : Nat) (x2 : Src) : Statement (.pk6 x0 x1 x2) := by
  intro h w hw
  obtain rfl := Option.some.inj hw
  exact of_narrow 0x125 rfl (by decide) (sixBit_ok (by decide) h)

theorem upk6 (x0 : Out) (x1 : Nat) (x2 : Src) : Statement (.upk6 x0 x1 x2) := by
  intro h w hw
  obtain rfl := Option.some.inj hw
  exact of_narrow 0x126 rfl (by decide) (sixBit_ok (by decide) h)

theorem f8enc (x0 : Out) (x1 : Nat) (x2 : F8Ty) (x3 : FMod) (x4 : Nat) : Statement (.f8enc x0 x1 x2 x3 x4) := by
  intro h w hw
  obtain rfl := Option.some.inj hw
  exact of_narrow 0x127 rfl (by decide) (f8Enc_ok (by decide) h)

theorem f8dec (x0 : Nat) (x1 : Nat) (x2 : F8Ty) (x3 : Src) : Statement (.f8dec x0 x1 x2 x3) := by
  intro h w hw
  obtain rfl := Option.some.inj hw
  exact of_narrow 0x128 rfl (by decide) (f8Dec_ok (by decide) h)

theorem scl (x0 : Out) (x1 : Nat) (x2 : FTy) (x3 : FMod) (x4 : Src) (x5 : Src) (x6 : Src) : Statement (.scl x0 x1 x2 x3 x4 x5 x6) := by
  intro h w hw
  obtain rfl := Option.some.inj hw
  exact of_narrow 0x129 rfl (by decide) (sclOp_ok (by decide) h)

theorem mload (x0 : Out) (x1 : Nat) (x2 : Src) (x3 : Src) (x4 : MTy) (x5 : Nat) : Statement (.mload x0 x1 x2 x3 x4 x5) := by
  intro h w hw
  obtain rfl := Option.some.inj hw
  exact of_kmid 0x140 rfl (by decide) (mloadOp_ok (by decide) h)

theorem mfree (x0 : Bool) (x1 : Nat) : Statement (.mfree x0 x1) := by
  intro h w hw
  cases x0 with
  | false =>
    obtain rfl := Option.some.inj hw
    exact of_kmid 0x141 rfl (by decide) (mfreeHandle_ok (by decide) h)
  | true =>
    obtain rfl := Option.some.inj hw
    exact of_kmid 0x141 rfl (by decide) (mfreeTile_ok (by decide) h)

theorem mma (x0 : Nat) (x1 : Nat) (x2 : Nat) (x3 : Nat) (x4 : Bool) (x5 : Option (MTy × Nat)) : Statement (.mma x0 x1 x2 x3 x4 x5) := by
  intro h w hw
  cases x5 with
  | none =>
    obtain rfl := Option.some.inj hw
    exact of_kmid 0x142 rfl (by decide) (mmaPair_ok (by decide) (by simpa [Instr.wf] using h))
  | some p =>
    obtain ⟨t, v⟩ := p
    obtain rfl := Option.some.inj hw
    have e : x2 = 0 := by simp [Instr.wf] at h; tauto
    subst e
    exact of_kmid 0x142 rfl (by decide) (mmaPanel_ok (by decide) (by simp [Instr.wf] at h ⊢; tauto))

theorem mzero (x0 : Nat) : Statement (.mzero x0) := by
  intro h w hw
  obtain rfl := Option.some.inj hw
  exact of_kmid 0x143 rfl (by decide) (mzeroOp_ok (by decide) h)

theorem mstore (x0 : Nat) (x1 : Src) (x2 : Src) : Statement (.mstore x0 x1 x2) := by
  intro h w hw
  obtain rfl := Option.some.inj hw
  exact of_kmid 0x144 rfl (by decide) (mstoreOp_ok (by decide) h)

theorem mscale (x0 : Option Nat) (x1 : Src) : Statement (.mscale x0 x1) := by
  intro h w hw
  cases x0 with
  | none =>
    obtain rfl := Option.some.inj hw
    exact of_kmid 0x145 rfl (by decide) (mscaleAll_ok (by decide) (by simpa [Instr.wf] using h))
  | some n =>
    obtain rfl := Option.some.inj hw
    exact of_kmid 0x145 rfl (by decide) (mscaleOne_ok (by decide) h)

theorem mget (x0 : Nat) (x1 : Nat) : Statement (.mget x0 x1) := by
  intro h w hw
  obtain rfl := Option.some.inj hw
  exact of_kmid 0x146 rfl (by decide) (mgetOp_ok (by decide) h)

theorem mput (x0 : Nat) (x1 : Nat) : Statement (.mput x0 x1) := by
  intro h w hw
  obtain rfl := Option.some.inj hw
  exact of_kmid 0x147 rfl (by decide) (mputOp_ok (by decide) h)

theorem merr (x0 : Out) (x1 : Nat) : Statement (.merr x0 x1) := by
  intro h w hw
  obtain rfl := Option.some.inj hw
  exact of_kmid 0x148 rfl (by decide) (merrOp_ok (by decide) h)

theorem mclr : Statement .mclr := by
  intro h w hw
  obtain rfl := Option.some.inj hw
  exact of_kmid 0x149 rfl (by decide) (allZero_ok (by decide))

theorem matrixQueueExecute (x0 : Nat) (x1 : List MErrAt) : Statement (.matrixQueueExecute x0 x1) := by
  intro _ w hw
  cases hw

theorem ld (x0 : Out) (x1 : MemOp) (x2 : Nat) : Statement (.ld x0 x1 x2) := by
  intro h w hw
  obtain rfl := Option.some.inj hw
  exact of_mem 0x160 rfl (by decide) (load_ok (by decide) h)

theorem st (x0 : Nat) (x1 : MemOp) (x2 : Nat) : Statement (.st x0 x1 x2) := by
  intro h w hw
  obtain rfl := Option.some.inj hw
  exact of_mem 0x161 rfl (by decide) (store_ok (by decide) h)

theorem ldsys (x0 : Out) (x1 : MemOp) (x2 : Nat) : Statement (.ldsys x0 x1 x2) := by
  intro h w hw
  obtain rfl := Option.some.inj hw
  exact of_mem 0x162 rfl (by decide) (loadSys_ok (by decide) h)

theorem stsys (x0 : Nat) (x1 : MemOp) (x2 : Nat) : Statement (.stsys x0 x1 x2) := by
  intro h w hw
  obtain rfl := Option.some.inj hw
  exact of_mem 0x163 rfl (by decide) (storeSys_ok (by decide) h)

theorem pf (x0 : MemOp) : Statement (.pf x0) := by
  intro h w hw
  obtain rfl := Option.some.inj hw
  exact of_mem 0x164 rfl (by decide) (bare_ok (by decide) h)

theorem llock (x0 : Out) (x1 : MemOp) : Statement (.llock x0 x1) := by
  intro h w hw
  obtain rfl := Option.some.inj hw
  exact of_mem 0x165 rfl (by decide) (lock_ok (by decide) h)

theorem lunlock (x0 : MemOp) : Statement (.lunlock x0) := by
  intro h w hw
  obtain rfl := Option.some.inj hw
  exact of_mem 0x166 rfl (by decide) (bare_ok (by decide) h)

theorem lquota (x0 : Out) (x1 : Bool) : Statement (.lquota x0 x1) := by
  intro h w hw
  obtain rfl := Option.some.inj hw
  exact of_kmid 0x167 rfl (by decide) (lquotaOp_ok (by decide) h)

theorem biasDev (x0 : Out) (x1 : Src) : Statement (.biasDev x0 x1) := by
  intro h w hw
  obtain rfl := Option.some.inj hw
  exact of_kmid 0x168 rfl (by decide) (biasDev_ok (by decide) h)

theorem biasHost (x0 : Out) (x1 : Src) : Statement (.biasHost x0 x1) := by
  intro h w hw
  obtain rfl := Option.some.inj hw
  exact of_kmid 0x168 rfl (by decide) (biasHost_ok (by decide) h)

theorem biasFlip (x0 : UnitRef) : Statement (.biasFlip x0) := by
  intro _ w hw
  cases hw

theorem accessQueueIssue (x0 : Nat) : Statement (.accessQueueIssue x0) := by
  intro _ w hw
  cases hw

theorem queuedStorePerform (x0 : Nat) : Statement (.queuedStorePerform x0) := by
  intro _ w hw
  cases hw

theorem symbolResolve (x0 : Nat) (x1 : Nat) : Statement (.symbolResolve x0 x1) := by
  intro _ w hw
  cases hw

theorem memoryAccessComplete (x0 : Nat) (x1 : Bool) (x2 : Bool) : Statement (.memoryAccessComplete x0 x1 x2) := by
  intro _ w hw
  cases hw

theorem homeSliceWrite (x0 : Nat) : Statement (.homeSliceWrite x0) := by
  intro _ w hw
  cases hw

theorem battach (x0 : Out) (x1 : Src) (x2 : Option Src) : Statement (.battach x0 x1 x2) := by
  intro h w hw
  cases x2 with
  | none =>
    obtain rfl := Option.some.inj hw
    exact of_kmid 0x1A0 rfl (by decide) (battachNew_ok (by decide) (by simpa [Instr.wf] using h))
  | some n =>
    obtain rfl := Option.some.inj hw
    exact of_kmid 0x1A0 rfl (by decide) (battachAt_ok (by decide) h)

theorem bdetach (x0 : Src) : Statement (.bdetach x0) := by
  intro h w hw
  obtain rfl := Option.some.inj hw
  exact of_kmid 0x1A1 rfl (by decide) (src1_ok (by decide) h)

theorem give (x0 : Out) (x1 : Src) (x2 : Src) (x3 : Src) (x4 : Bool) : Statement (.give x0 x1 x2 x3 x4) := by
  intro h w hw
  obtain rfl := Option.some.inj hw
  exact of_kmid 0x1A2 rfl (by decide) (giveOp_ok (by decide) h)

theorem bankDrainComplete (x0 : Nat) (x1 : Nat) : Statement (.bankDrainComplete x0 x1) := by
  intro _ w hw
  cases hw

theorem bwait (x0 : Out) (x1 : Src) : Statement (.bwait x0 x1) := by
  intro h w hw
  obtain rfl := Option.some.inj hw
  exact of_kmid 0x1A3 rfl (by decide) (outSrc10_ok (by decide) h)

theorem bstat (x0 : Out) (x1 : Option Src) (x2 : Bool) : Statement (.bstat x0 x1 x2) := by
  intro h w hw
  cases x1 with
  | none =>
    obtain rfl := Option.some.inj hw
    exact of_kmid 0x1A4 rfl (by decide) (bstatAll_ok (by decide) (by simpa [Instr.wf] using h))
  | some n =>
    obtain rfl := Option.some.inj hw
    have e : x2 = false := by simp [Instr.wf] at h; exact h.2.2
    subst e
    exact of_kmid 0x1A4 rfl (by decide) (bstatOne_ok (by decide) (by simpa [Instr.wf] using h))

theorem bzero (x0 : Src) : Statement (.bzero x0) := by
  intro h w hw
  obtain rfl := Option.some.inj hw
  exact of_kmid 0x1A5 rfl (by decide) (src1_ok (by decide) h)

theorem bmirror (x0 : Option Src) : Statement (.bmirror x0) := by
  intro h w hw
  cases x0 with
  | none =>
    obtain rfl := Option.some.inj hw
    exact of_kmid 0x1A6 rfl (by decide) (optNone_ok (by decide))
  | some n =>
    obtain rfl := Option.some.inj hw
    exact of_kmid 0x1A6 rfl (by decide) (optSome_ok (by decide) h)

theorem bshare (x0 : Out) (x1 : Src) (x2 : Src) (x3 : Bool) : Statement (.bshare x0 x1 x2 x3) := by
  intro h w hw
  obtain rfl := Option.some.inj hw
  exact of_kmid 0x1A7 rfl (by decide) (bshare_ok (by decide) h)

theorem bshareOff (x0 : Src) : Statement (.bshareOff x0) := by
  intro h w hw
  obtain rfl := Option.some.inj hw
  exact of_kmid 0x1A7 rfl (by decide) (bshareOff_ok (by decide) h)

theorem cpy (x0 : Out) (x1 : Src) (x2 : Src) (x3 : Src) (x4 : Option Nat) (x5 : Bool) : Statement (.cpy x0 x1 x2 x3 x4 x5) := by
  intro h w hw
  obtain rfl := Option.some.inj hw
  exact of_kmid 0x1B0 rfl (by decide) (cpyOp_ok (by decide) h)

theorem cpyd (x0 : Out) (x1 : Src) (x2 : Option Nat) (x3 : Bool) : Statement (.cpyd x0 x1 x2 x3) := by
  intro h w hw
  obtain rfl := Option.some.inj hw
  exact of_kmid 0x1B1 rfl (by decide) (descOp_ok (by decide) h)

theorem gat (x0 : Out) (x1 : Src) (x2 : Src) (x3 : Src) (x4 : Option Nat) : Statement (.gat x0 x1 x2 x3 x4) := by
  intro h w hw
  obtain rfl := Option.some.inj hw
  exact of_kmid 0x1B2 rfl (by decide) (laneCopy_ok (by decide) h)

theorem sct (x0 : Out) (x1 : Src) (x2 : Src) (x3 : Src) (x4 : Option Nat) : Statement (.sct x0 x1 x2 x3 x4) := by
  intro h w hw
  obtain rfl := Option.some.inj hw
  exact of_kmid 0x1B3 rfl (by decide) (laneCopy_ok (by decide) h)

theorem coll (x0 : Out) (x1 : Src) (x2 : Option Nat) (x3 : Bool) : Statement (.coll x0 x1 x2 x3) := by
  intro h w hw
  obtain rfl := Option.some.inj hw
  exact of_kmid 0x1B4 rfl (by decide) (descOp_ok (by decide) h)

theorem ewait (x0 : Out) (x1 : Src) : Statement (.ewait x0 x1) := by
  intro h w hw
  obtain rfl := Option.some.inj hw
  exact of_kmid 0x1B5 rfl (by decide) (outSrc00_ok (by decide) h)

theorem epoll (x0 : Out) (x1 : Src) : Statement (.epoll x0 x1) := by
  intro h w hw
  obtain rfl := Option.some.inj hw
  exact of_kmid 0x1B6 rfl (by decide) (outSrc00_ok (by decide) h)

theorem pub (x0 : Out) (x1 : Src) (x2 : Src) (x3 : Bool) : Statement (.pub x0 x1 x2 x3) := by
  intro h w hw
  obtain rfl := Option.some.inj hw
  exact of_kmid 0x1B7 rfl (by decide) (pubOp_ok (by decide) h)

theorem ecancel (x0 : Option Src) : Statement (.ecancel x0) := by
  intro h w hw
  cases x0 with
  | none =>
    obtain rfl := Option.some.inj hw
    exact of_kmid 0x1B8 rfl (by decide) (optNone_ok (by decide))
  | some n =>
    obtain rfl := Option.some.inj hw
    exact of_kmid 0x1B8 rfl (by decide) (optSome_ok (by decide) h)

theorem engineRead (x0 : Nat) (x1 : Nat) (x2 : Nat) (x3 : Bool) : Statement (.engineRead x0 x1 x2 x3) := by
  intro _ w hw
  cases hw

theorem drainEngineWrite (x0 : Nat) (x1 : Nat) : Statement (.drainEngineWrite x0 x1) := by
  intro _ w hw
  cases hw

theorem pageBoundaryRevalidation (x0 : Nat) (x1 : Nat) : Statement (.pageBoundaryRevalidation x0 x1) := by
  intro _ w hw
  cases hw

theorem aadd (x0 : Option Out) (x1 : Bool) (x2 : Src) (x3 : Src) : Statement (.aadd x0 x1 x2 x3) := by
  intro h w hw
  obtain rfl := Option.some.inj hw
  exact of_khigh 0x1C0 rfl (by decide) (atomic_ok (by decide) h)

theorem amin (x0 : Option Out) (x1 : Bool) (x2 : Bool) (x3 : Src) (x4 : Src) : Statement (.amin x0 x1 x2 x3 x4) := by
  intro h w hw
  obtain rfl := Option.some.inj hw
  exact of_khigh 0x1C1 rfl (by decide) (atomicU_ok (by decide) h)

theorem amax (x0 : Option Out) (x1 : Bool) (x2 : Bool) (x3 : Src) (x4 : Src) : Statement (.amax x0 x1 x2 x3 x4) := by
  intro h w hw
  obtain rfl := Option.some.inj hw
  exact of_khigh 0x1C2 rfl (by decide) (atomicU_ok (by decide) h)

theorem aand (x0 : Option Out) (x1 : Bool) (x2 : Src) (x3 : Src) : Statement (.aand x0 x1 x2 x3) := by
  intro h w hw
  obtain rfl := Option.some.inj hw
  exact of_khigh 0x1C3 rfl (by decide) (atomic_ok (by decide) h)

theorem aor (x0 : Option Out) (x1 : Bool) (x2 : Src) (x3 : Src) : Statement (.aor x0 x1 x2 x3) := by
  intro h w hw
  obtain rfl := Option.some.inj hw
  exact of_khigh 0x1C4 rfl (by decide) (atomic_ok (by decide) h)

theorem axor (x0 : Option Out) (x1 : Bool) (x2 : Src) (x3 : Src) : Statement (.axor x0 x1 x2 x3) := by
  intro h w hw
  obtain rfl := Option.some.inj hw
  exact of_khigh 0x1C5 rfl (by decide) (atomic_ok (by decide) h)

theorem axchg (x0 : Option Out) (x1 : Bool) (x2 : Src) (x3 : Src) : Statement (.axchg x0 x1 x2 x3) := by
  intro h w hw
  obtain rfl := Option.some.inj hw
  exact of_khigh 0x1C6 rfl (by decide) (atomic_ok (by decide) h)

theorem acas (x0 : Option Out) (x1 : Bool) (x2 : Src) (x3 : Src) (x4 : Src) : Statement (.acas x0 x1 x2 x3 x4) := by
  intro h w hw
  obtain rfl := Option.some.inj hw
  exact of_khigh 0x1C7 rfl (by decide) (acasOp_ok (by decide) h)

theorem afadd (x0 : Option Out) (x1 : Bool) (x2 : Src) (x3 : Src) : Statement (.afadd x0 x1 x2 x3) := by
  intro h w hw
  obtain rfl := Option.some.inj hw
  exact of_khigh 0x1C8 rfl (by decide) (atomic_ok (by decide) h)

theorem ainc (x0 : Option Out) (x1 : Bool) (x2 : Src) (x3 : Src) : Statement (.ainc x0 x1 x2 x3) := by
  intro h w hw
  obtain rfl := Option.some.inj hw
  exact of_khigh 0x1C9 rfl (by decide) (atomic_ok (by decide) h)

theorem wcmpEq (x0 : Out) (x1 : Bool) (x2 : Bool) (x3 : Src) (x4 : Src) : Statement (.wcmpEq x0 x1 x2 x3 x4) := by
  intro h w hw
  obtain rfl := Option.some.inj hw
  exact of_khigh 0x1CA rfl (by decide) (wcmpEq_ok (by decide) h)

theorem wcmpNe (x0 : Out) (x1 : Bool) (x2 : Bool) (x3 : Src) (x4 : Src) : Statement (.wcmpNe x0 x1 x2 x3 x4) := by
  intro h w hw
  obtain rfl := Option.some.inj hw
  exact of_khigh 0x1CA rfl (by decide) (wcmpNe_ok (by decide) h)

theorem wcmpLt (x0 : Out) (x1 : Bool) (x2 : Bool) (x3 : Src) (x4 : Src) : Statement (.wcmpLt x0 x1 x2 x3 x4) := by
  intro h w hw
  obtain rfl := Option.some.inj hw
  exact of_khigh 0x1CA rfl (by decide) (wcmpLt_ok (by decide) h)

theorem wcmpLe (x0 : Out) (x1 : Bool) (x2 : Bool) (x3 : Src) (x4 : Src) : Statement (.wcmpLe x0 x1 x2 x3 x4) := by
  intro h w hw
  obtain rfl := Option.some.inj hw
  exact of_khigh 0x1CA rfl (by decide) (wcmpLe_ok (by decide) h)

theorem wcmpGt (x0 : Out) (x1 : Bool) (x2 : Bool) (x3 : Src) (x4 : Src) : Statement (.wcmpGt x0 x1 x2 x3 x4) := by
  intro h w hw
  obtain rfl := Option.some.inj hw
  exact of_khigh 0x1CA rfl (by decide) (wcmpGt_ok (by decide) h)

theorem wcmpGe (x0 : Out) (x1 : Bool) (x2 : Bool) (x3 : Src) (x4 : Src) : Statement (.wcmpGe x0 x1 x2 x3 x4) := by
  intro h w hw
  obtain rfl := Option.some.inj hw
  exact of_khigh 0x1CA rfl (by decide) (wcmpGe_ok (by decide) h)

theorem wcmpAny (x0 : Out) (x1 : Bool) (x2 : Bool) (x3 : Src) (x4 : Src) : Statement (.wcmpAny x0 x1 x2 x3 x4) := by
  intro h w hw
  obtain rfl := Option.some.inj hw
  exact of_khigh 0x1CA rfl (by decide) (wcmpAny_ok (by decide) h)

theorem wcancel (x0 : Out) (x1 : Src) : Statement (.wcancel x0 x1) := by
  intro h w hw
  obtain rfl := Option.some.inj hw
  exact of_khigh 0x1CB rfl (by decide) (outSrc01_ok (by decide) h)

theorem bararr (x0 : Out) (x1 : Bool) (x2 : Nat) (x3 : Src) : Statement (.bararr x0 x1 x2 x3) := by
  intro h w hw
  obtain rfl := Option.some.inj hw
  exact of_khigh 0x1CC rfl (by decide) (bararrOp_ok (by decide) h)

theorem barwait (x0 : Bool) (x1 : Nat) (x2 : Src) : Statement (.barwait x0 x1 x2) := by
  intro h w hw
  obtain rfl := Option.some.inj hw
  exact of_khigh 0x1CD rfl (by decide) (barOp_ok (by decide) h)

theorem barsync (x0 : Bool) (x1 : Nat) (x2 : Src) : Statement (.barsync x0 x1 x2) := by
  intro h w hw
  obtain rfl := Option.some.inj hw
  exact of_khigh 0x1CE rfl (by decide) (barOp_ok (by decide) h)

theorem swapOut (x0 : Nat) : Statement (.swapOut x0) := by
  intro _ w hw
  cases hw

theorem blockRestore (x0 : Nat) (x1 : Nat) (x2 : Nat) : Statement (.blockRestore x0 x1 x2) := by
  intro _ w hw
  cases hw

theorem fence (x0 : FScope) (x1 : FKind) : Statement (.fence x0 x1) := by
  intro h w hw
  obtain rfl := Option.some.inj hw
  exact of_khigh 0x1E0 rfl (by decide) (fenceOp_ok (by decide) h)

theorem swf : Statement .swf := by
  intro h w hw
  obtain rfl := Option.some.inj hw
  exact of_khigh 0x1E1 rfl (by decide) (allZero_ok (by decide))

theorem drainTillerQueue (x0 : Nat) : Statement (.drainTillerQueue x0) := by
  intro _ w hw
  cases hw

theorem drainMirrorQueue (x0 : Nat) (x1 : Nat) : Statement (.drainMirrorQueue x0 x1) := by
  intro _ w hw
  cases hw

theorem drainSystemQueue (x0 : UnitRef) (x1 : SysPath) (x2 : Bool) : Statement (.drainSystemQueue x0 x1 x2) := by
  intro _ w hw
  cases hw

theorem drainInboundQueue (x0 : Nat) : Statement (.drainInboundQueue x0) := by
  intro _ w hw
  cases hw

theorem captureSystemLine (x0 : Nat) (x1 : Nat) : Statement (.captureSystemLine x0 x1) := by
  intro _ w hw
  cases hw

theorem captureCodeLine (x0 : Nat) (x1 : Nat) (x2 : Bool) : Statement (.captureCodeLine x0 x1 x2) := by
  intro _ w hw
  cases hw

theorem cpub (x0 : Out) (x1 : Src) (x2 : Src) (x3 : FScope) : Statement (.cpub x0 x1 x2 x3) := by
  intro h w hw
  obtain rfl := Option.some.inj hw
  exact of_khigh 0x1E8 rfl (by decide) (cpubOp_ok (by decide) h)

theorem callt (x0 : Scope) (x1 : Src) : Statement (.callt x0 x1) := by
  intro h w hw
  obtain rfl := Option.some.inj hw
  exact of_ctl 0x1E9 rfl (by decide) (condOnly_ok (by decide) h)

theorem calltRepoll (x0 : UnitRef) : Statement (.calltRepoll x0) := by
  intro _ w hw
  cases hw

theorem bind (x0 : Out) (x1 : Src) (x2 : Src) : Statement (.bind x0 x1 x2) := by
  intro h w hw
  obtain rfl := Option.some.inj hw
  exact of_khigh 0x1EA rfl (by decide) (bindOp_ok (by decide) h)

theorem clauseHeader (x0 : UnitRef) : Statement (.clauseHeader x0) := by
  intro _ w hw
  cases hw

theorem groupPromotion (x0 : Nat) (x1 : Nat) : Statement (.groupPromotion x0 x1) := by
  intro _ w hw
  cases hw

theorem launch (x0 : Out) (x1 : Src) : Statement (.launch x0 x1) := by
  intro h w hw
  obtain rfl := Option.some.inj hw
  exact of_khigh 0x1F0 rfl (by decide) (outSrc01_ok (by decide) h)

theorem cntRd (x0 : Out) (x1 : Src) : Statement (.cntRd x0 x1) := by
  intro h w hw
  obtain rfl := Option.some.inj hw
  exact of_khigh 0x1F1 rfl (by decide) (cntRd_ok (by decide) h)

theorem cntSelf (x0 : Out) (x1 : CKind) : Statement (.cntSelf x0 x1) := by
  intro h w hw
  obtain rfl := Option.some.inj hw
  exact of_khigh 0x1F1 rfl (by decide) (cntSelf_ok (by decide) h)

theorem cntNew (x0 : Out) (x1 : CKind) (x2 : Src) : Statement (.cntNew x0 x1 x2) := by
  intro h w hw
  obtain rfl := Option.some.inj hw
  exact of_khigh 0x1F1 rfl (by decide) (cntNew_ok (by decide) h)

theorem cntClose (x0 : Out) (x1 : Src) : Statement (.cntClose x0 x1) := by
  intro h w hw
  obtain rfl := Option.some.inj hw
  exact of_khigh 0x1F1 rfl (by decide) (cntClose_ok (by decide) h)

theorem cwait (x0 : Out) (x1 : Src) : Statement (.cwait x0 x1) := by
  intro h w hw
  obtain rfl := Option.some.inj hw
  exact of_khigh 0x1F2 rfl (by decide) (outSrc00_ok (by decide) h)

theorem cancel (x0 : Out) (x1 : Src) : Statement (.cancel x0 x1) := by
  intro h w hw
  obtain rfl := Option.some.inj hw
  exact of_khigh 0x1F3 rfl (by decide) (cancel_ok (by decide) h)

theorem cancelDrain (x0 : Out) (x1 : Src) : Statement (.cancelDrain x0 x1) := by
  intro h w hw
  obtain rfl := Option.some.inj hw
  exact of_khigh 0x1F3 rfl (by decide) (cancelDrain_ok (by decide) h)

theorem cancelDelivery (x0 : Nat) : Statement (.cancelDelivery x0) := by
  intro _ w hw
  cases hw

theorem launchReady (x0 : Nat) : Statement (.launchReady x0) := by
  intro _ w hw
  cases hw

theorem gridSequencerTake (x0 : Nat) (x1 : Nat) : Statement (.gridSequencerTake x0 x1) := by
  intro _ w hw
  cases hw

theorem ticketDispense (x0 : Nat) (x1 : Nat) (x2 : Bool) (x3 : List (Nat × Nat)) : Statement (.ticketDispense x0 x1 x2 x3) := by
  intro _ w hw
  cases hw

theorem blockStart (x0 : Nat) : Statement (.blockStart x0) := by
  intro _ w hw
  cases hw

theorem blockRetirement (x0 : Nat) : Statement (.blockRetirement x0) := by
  intro _ w hw
  cases hw

theorem jobdb (x0 : Nat) (x1 : Nat) (x2 : Nat) (x3 : BitVec 64) : Statement (.jobdb x0 x1 x2 x3) := by
  intro _ w hw
  cases hw

theorem joback (x0 : Nat) (x1 : Nat) (x2 : BitVec 64) : Statement (.joback x0 x1 x2) := by
  intro _ w hw
  cases hw

theorem trap (x0 : BitVec 22) : Statement (.trap x0) := by
  intro _ w hw
  obtain rfl := Option.some.inj hw
  exact of_sys 0x1F8 rfl (by decide) (sImm_ok (by decide))

theorem brk (x0 : BitVec 22) : Statement (.brk x0) := by
  intro _ w hw
  obtain rfl := Option.some.inj hw
  exact of_sys 0x1F9 rfl (by decide) (sImm_ok (by decide))

theorem eret (x0 : Dst) (x1 : Src) : Statement (.eret x0 x1) := by
  intro h w hw
  obtain rfl := Option.some.inj hw
  exact of_sys 0x1FA rfl (by decide) (eret_ok (by decide) h)

theorem eretKill (x0 : Dst) (x1 : Src) : Statement (.eretKill x0 x1) := by
  intro h w hw
  obtain rfl := Option.some.inj hw
  exact of_sys 0x1FA rfl (by decide) (eretKill_ok (by decide) h)

theorem mfcr (x0 : Dst) (x1 : Nat) : Statement (.mfcr x0 x1) := by
  intro h w hw
  obtain rfl := Option.some.inj hw
  exact of_sys 0x1FB rfl (by decide) (mfcr_ok (by decide) h)

theorem mtcr (x0 : Nat) (x1 : Src) : Statement (.mtcr x0 x1) := by
  intro h w hw
  obtain rfl := Option.some.inj hw
  exact of_sys 0x1FC rfl (by decide) (mtcr_ok (by decide) h)

theorem csave (x0 : Dst) (x1 : Src) : Statement (.csave x0 x1) := by
  intro h w hw
  obtain rfl := Option.some.inj hw
  exact of_sys 0x1FD rfl (by decide) (csave_ok (by decide) h)

theorem crest (x0 : Dst) (x1 : Src) (x2 : Nat) (x3 : Bool) : Statement (.crest x0 x1 x2 x3) := by
  intro h w hw
  obtain rfl := Option.some.inj hw
  exact of_sys 0x1FE rfl (by decide) (crest_ok (by decide) h)

theorem freeze (x0 : Dst) (x1 : Src) : Statement (.freeze x0 x1) := by
  intro h w hw
  obtain rfl := Option.some.inj hw
  exact of_sys 0x1FF rfl (by decide) (freeze_ok (by decide) h)

theorem thaw (x0 : Dst) (x1 : Src) : Statement (.thaw x0 x1) := by
  intro h w hw
  obtain rfl := Option.some.inj hw
  exact of_sys 0x1FF rfl (by decide) (thaw_ok (by decide) h)

theorem halt (x0 : Dst) (x1 : Src) : Statement (.halt x0 x1) := by
  intro h w hw
  obtain rfl := Option.some.inj hw
  exact of_sys 0x1FF rfl (by decide) (halt_ok (by decide) h)

theorem faultDelivery (x0 : UnitRef) : Statement (.faultDelivery x0) := by
  intro _ w hw
  cases hw

theorem faultRecordPost (x0 : Nat) : Statement (.faultRecordPost x0) := by
  intro _ w hw
  cases hw

theorem stateerr (x0 : Nat) : Statement (.stateerr x0) := by
  intro _ w hw
  cases hw

theorem resolve (x0 : BitVec 32) : Statement (.resolve x0) := by
  intro _ w hw
  cases hw

theorem s2Map (x0 : BitVec 24) : Statement (.s2Map x0) := by
  intro _ w hw
  cases hw

theorem s2Unmap (x0 : BitVec 24) : Statement (.s2Unmap x0) := by
  intro _ w hw
  cases hw

theorem s2Inval (x0 : BitVec 24) : Statement (.s2Inval x0) := by
  intro _ w hw
  cases hw

theorem stage2WaitComplete : Statement .stage2WaitComplete := by
  intro _ w hw
  cases hw

theorem s2Scrub (x0 : BitVec 24) : Statement (.s2Scrub x0) := by
  intro _ w hw
  cases hw

theorem s2Table (x0 : BitVec 24) : Statement (.s2Table x0) := by
  intro _ w hw
  cases hw

theorem s2Untable (x0 : BitVec 24) : Statement (.s2Untable x0) := by
  intro _ w hw
  cases hw

theorem s2Shadd (x0 : BitVec 24) : Statement (.s2Shadd x0) := by
  intro _ w hw
  cases hw

theorem s2Shdel (x0 : BitVec 24) : Statement (.s2Shdel x0) := by
  intro _ w hw
  cases hw

theorem s2Expose (x0 : BitVec 24) : Statement (.s2Expose x0) := by
  intro _ w hw
  cases hw

theorem s2Retire (x0 : BitVec 24) : Statement (.s2Retire x0) := by
  intro _ w hw
  cases hw

theorem rangeRegisterStage (x0 : Nat) (x1 : Nat) (x2 : Nat) (x3 : BitVec 64) : Statement (.rangeRegisterStage x0 x1 x2 x3) := by
  intro _ w hw
  cases hw

theorem rangeRegisterCommit (x0 : Nat) (x1 : Nat) (x2 : Nat) (x3 : BitVec 64) : Statement (.rangeRegisterCommit x0 x1 x2 x3) := by
  intro _ w hw
  cases hw

theorem rrsync (x0 : RegRead) : Statement (.rrsync x0) := by
  intro _ w hw
  cases hw

theorem contextTableWrite (x0 : Nat) (x1 : BitVec 128) : Statement (.contextTableWrite x0 x1) := by
  intro _ w hw
  cases hw

theorem spdiv (x0 : Nat) (x1 : BitVec 32) : Statement (.spdiv x0 x1) := by
  intro _ w hw
  cases hw

theorem spdivChange (x0 : Nat) : Statement (.spdivChange x0) := by
  intro _ w hw
  cases hw

theorem apctl (x0 : Nat) (x1 : BitVec 64) : Statement (.apctl x0 x1) := by
  intro _ w hw
  cases hw

theorem apertureRead (x0 : Nat) (x1 : Nat) (x2 : Nat) (x3 : Nat) : Statement (.apertureRead x0 x1 x2 x3) := by
  intro _ w hw
  cases hw

theorem apertureWrite (x0 : Nat) (x1 : Nat) (x2 : Nat) (x3 : List Byte) : Statement (.apertureWrite x0 x1 x2 x3) := by
  intro _ w hw
  cases hw

theorem hdmbaseWrite (x0 : Bool) (x1 : BitVec 64) : Statement (.hdmbaseWrite x0 x1) := by
  intro _ w hw
  cases hw

theorem cxlMemRead (x0 : Nat) (x1 : Nat) : Statement (.cxlMemRead x0 x1) := by
  intro _ w hw
  cases hw

theorem cxlMemWrite (x0 : Nat) (x1 : Nat) (x2 : List Byte) : Statement (.cxlMemWrite x0 x1 x2) := by
  intro _ w hw
  cases hw

theorem snpData (x0 : Nat) : Statement (.snpData x0) := by
  intro _ w hw
  cases hw

theorem snpInv (x0 : Nat) : Statement (.snpInv x0) := by
  intro _ w hw
  cases hw

theorem hccEviction (x0 : Nat) : Statement (.hccEviction x0) := by
  intro _ w hw
  cases hw

theorem hostLinkTraining (x0 : Bool) (x1 : Bool) : Statement (.hostLinkTraining x0 x1) := by
  intro _ w hw
  cases hw

theorem functionLevelReset (x0 : Nat) : Statement (.functionLevelReset x0) := by
  intro _ w hw
  cases hw

theorem peerInboundRequest (x0 : Nat) (x1 : Nat) (x2 : Nat) (x3 : PeerMsg) : Statement (.peerInboundRequest x0 x1 x2 x3) := by
  intro _ w hw
  cases hw

theorem linkFailure (x0 : Nat) : Statement (.linkFailure x0) := by
  intro _ w hw
  cases hw

theorem bandwidthTokenRefill (x0 : Nat) : Statement (.bandwidthTokenRefill x0) := by
  intro _ w hw
  cases hw

theorem statusWindowRefresh (x0 : BitVec 32) (x1 : BitVec 32) (x2 : BitVec 32) : Statement (.statusWindowRefresh x0 x1 x2) := by
  intro _ w hw
  cases hw

theorem drain (x0 : BitVec 24) : Statement (.drain x0) := by
  intro _ w hw
  cases hw

theorem undrain (x0 : BitVec 24) : Statement (.undrain x0) := by
  intro _ w hw
  cases hw

theorem enterService (x0 : BitVec 24) : Statement (.enterService x0) := by
  intro _ w hw
  cases hw

theorem exitService (x0 : BitVec 24) : Statement (.exitService x0) := by
  intro _ w hw
  cases hw

theorem quiesce (x0 : BitVec 24) : Statement (.quiesce x0) := by
  intro _ w hw
  cases hw

theorem recal (x0 : BitVec 24) : Statement (.recal x0) := by
  intro _ w hw
  cases hw

theorem recalComplete (x0 : Nat) (x1 : Nat) : Statement (.recalComplete x0 x1) := by
  intro _ w hw
  cases hw

theorem spare (x0 : BitVec 24) : Statement (.spare x0) := by
  intro _ w hw
  cases hw

theorem update (x0 : BitVec 24) (x1 : Nat) : Statement (.update x0 x1) := by
  intro _ w hw
  cases hw

theorem resume (x0 : BitVec 24) : Statement (.resume x0) := by
  intro _ w hw
  cases hw

theorem extend (x0 : BitVec 24) : Statement (.extend x0) := by
  intro _ w hw
  cases hw

theorem report (x0 : BitVec 24) : Statement (.report x0) := by
  intro _ w hw
  cases hw

theorem registerWrite (x0 : Nat) (x1 : BitVec 64) : Statement (.registerWrite x0 x1) := by
  intro _ w hw
  cases hw

theorem powerOn (x0 : List (Nat × Nat)) : Statement (.powerOn x0) := by
  intro _ w hw
  cases hw

theorem throttle (x0 : Bool) : Statement (.throttle x0) := by
  intro _ w hw
  cases hw

theorem thermalTrip (x0 : Nat) : Statement (.thermalTrip x0) := by
  intro _ w hw
  cases hw

theorem debugPortRead (x0 : Nat) : Statement (.debugPortRead x0) := by
  intro _ w hw
  cases hw

theorem modulePowerLoss : Statement .modulePowerLoss := by
  intro _ w hw
  cases hw

theorem conventionalReset : Statement .conventionalReset := by
  intro _ w hw
  cases hw

theorem measuredDebugEnable : Statement .measuredDebugEnable := by
  intro _ w hw
  cases hw

end Sys2Proof.Laws.Coding
end

