-- ==== Sys2Proof/Certificates/Slice0/Obligations.lean ====
section
/-! DEFINITION. The statements for the provers. -/

open Sys2Proof Sys2Proof.Machine

/-! ## Instructions that compute in lanes -/

/-- The integer instructions with their immediate forms, the predicate instructions, and the floating-point, packing and 8-bit
instructions, in a slice clause (R98 to R104, R121 to R129, R143 to R147). -/
def Obligations.ComputeInLanes : Prop :=
  ((CompletesInLanes integerForm) ∧
  (CompletesInLanes immediateForm)) ∧
  ((CompletesInLanes floatForm) ∧
  (CompletesInLanes narrowForm))

/-- The V-format integer instructions, the immediate forms and the predicate instructions in a clause of group class or above, and
the floating-point instructions in a group clause (R68, R98 to R104, R121 to R129). -/
def Obligations.ComputeOnce : Prop :=
  (CompletesOnce integerForm) ∧
  (CompletesOnce immediateForm) ∧
  (CompletesOnce floatForm)

/-- Exchanges (R108, R109): the last slice to arrive makes the exchange for every slice that stands at the instruction; each
executing lane receives the value of the lane it names, or its own where the group has no such lane. `scan` (R110): each active
lane receives the combination of the values of the active lanes below it, and of its own unless the form is exclusive. `bxenc`
(R139, R140): each executing lane receives its 32-bit piece of the encoded octet, the exponent word, and the flags of its four
elements unless FS is 1. `bxdec`, `bxmax`, `f8dec` (R131, R133, R141, R142, R146): each executing lane receives the four decoded
values of its place in the octet, the greatest magnitude of the octet, or the value of each byte; the flags stay. -/
def Obligations.ExchangesComplete : Prop :=
  ((∀ (i : Instr) (f : Exchange) (s : State) (h : Here) (A B : Nat → Nat),
    exchangeForm i = some f → i.wf = true → i.legalIn .slice = true → s.here? = some h → h.isSlice = true →
    h.q.parted = false → allMet h s = true →
    h.boundsOk (srcRegs f.srcs ++ outRegs f.out (if f.ty.wide then 2 else 1)) = true →
    (∀ l < h.desc.lanes, readAll s (metHere h s) ⟨h.b, h.g, l⟩ f.srcs = .ok [.known (A l), .known (B l)]) →
    (∀ x ∈ (metHere h s).execLanes s f.pred, x.l < h.desc.lanes ∧ s.splitSyms f.out f.ty.wide x = []) →
    ∃ t : State, exec i s = .next ((advanceOthers h t).advance h.u) ∧
      LanesReceive s t (metHere h s) f.out f.ty.wide ((metHere h s).execLanes s f.pred) fun x =>
        knownCells f.ty.wide (f.received h.desc A B x.l)) ∧
  (∀ (o : Out) (op : ScanOp) (excl uns : Bool) (a : Src) (s : State) (h : Here) (A : Nat → Nat),
    (Instr.scan o op excl uns a).wf = true → (Instr.scan o op excl uns a).legalIn .slice = true → s.here? = some h →
    h.isSlice = true → h.q.parted = false → allMet h s = true →
    h.boundsOk (srcRegs [(a, .w32)] ++ outRegs o 1) = true →
    (∀ l < h.desc.lanes, readAll s (metHere h s) ⟨h.b, h.g, l⟩ [(a, .w32)] = .ok [.known (A l)]) →
    (∀ x ∈ (metHere h s).active s, x.l < h.desc.lanes ∧ s.splitSyms o false x = []) →
    ∃ t : State, exec (.scan o op excl uns a) s = .next ((advanceOthers h t).advance h.u) ∧
      LanesReceive s t (metHere h s) o false ((metHere h s).active s) fun x =>
        knownCells false (((List.range h.desc.lanes).filter fun l =>
          ((metHere h s).active s).contains ⟨h.b, h.g, l⟩ && (decide (l < x.l) || (!excl && l == x.l))).foldl
            (fun n l => scanStep op uns n (A l)) (scanUnit op uns)))) ∧
  ((∀ (d p : Nat) (ty : BTy) (fs : Bool) (a : Nat) (s : State) (h : Here) (A : Nat → Nat → Nat),
    s.here? = some h → h.isSlice = true → h.q.parted = false → allMet h s = true → h.boundsOk [(a, 4), (d, 2)] = true →
    (∀ l < h.desc.lanes, readAll s (metHere h s) ⟨h.b, h.g, l⟩ (quadSrcs a .packed) =
      .ok ((List.range 4).map fun i => .known (A l i))) →
    (∀ x ∈ (metHere h s).execLanes s p, x.l < h.desc.lanes) →
    ∃ t : State, exec (.bxenc d p ty fs a) s = .next ((advanceOthers h t).advance h.u) ∧
      LanesReceiveMany s t (metHere h s) d 2 ((metHere h s).execLanes s p) (fun x =>
        [(bxEncode ty (octetOf h.desc A x.l)).1 / 2 ^ (32 * (x.l % 8)) % 2 ^ 32, (bxEncode ty (octetOf h.desc A x.l)).2.1]) ∧
      ∀ x ∈ (metHere h s).execLanes s p, t.fsr x = if fs then s.fsr x else
        (((bxEncode ty (octetOf h.desc A x.l)).2.2.drop (4 * (x.l % 8))).take 4).foldl
          (fun w f => w ||| BitVec.ofNat 32 (f % 32)) (s.fsr x)) ∧
  ((∀ (d p : Nat) (ty : BTy) (a e : Src) (s : State) (h : Here) (A X : Nat → Nat),
    s.here? = some h → h.isSlice = true → h.q.parted = false → allMet h s = true →
    h.boundsOk (srcRegs [(a, .packed), (e, .packed)] ++ [(d, 4)]) = true → h.desc.lanes % 8 = 0 →
    (∀ l < h.desc.lanes, readAll s (metHere h s) ⟨h.b, h.g, l⟩ [(a, .packed), (e, .packed)] = .ok [.known (A l), .known (X l)]) →
    (∀ x ∈ (metHere h s).execLanes s p, x.l < h.desc.lanes) →
    ∃ t : State, exec (.bxdec d p ty a e) s = .next ((advanceOthers h t).advance h.u) ∧
      LanesReceiveMany s t (metHere h s) d 4 ((metHere h s).execLanes s p) (fun x => (List.range 4).map fun i =>
        toF32 (bxValue ty (X (x.l - x.l % 8) % 256) (X (x.l - x.l % 8) / 256 % 256)
          ((List.range (BTy.k ty)).foldl (fun n q => n + A (x.l - x.l % 8 + q) * 2 ^ (32 * q)) 0 /
            2 ^ (BTy.k ty * (4 * (x.l % 8) + i)) % 2 ^ BTy.k ty))) ∧
      ∀ x, t.fsr x = s.fsr x) ∧
  (∀ (o : Out) (p a : Nat) (s : State) (h : Here) (A : Nat → Nat → Nat),
    (Instr.bxmax o p a).wf = true → s.here? = some h → h.isSlice = true → h.q.parted = false → allMet h s = true →
    h.boundsOk ((a, 4) :: outRegs o 1) = true →
    (∀ l < h.desc.lanes, readAll s (metHere h s) ⟨h.b, h.g, l⟩ (quadSrcs a .packed) =
      .ok ((List.range 4).map fun i => .known (A l i))) →
    (∀ x ∈ (metHere h s).execLanes s p, x.l < h.desc.lanes ∧ s.splitSyms o false x = []) →
    ∃ t : State, exec (.bxmax o p a) s = .next ((advanceOthers h t).advance h.u) ∧
      LanesReceive s t (metHere h s) o false ((metHere h s).execLanes s p) fun x =>
        knownCells false (greatest (octetCodes h.desc A x.l)))) ∧
  (∀ (d p : Nat) (ty : F8Ty) (a : Src) (s : State) (h : Here) (A : LaneId → Nat),
    s.here? = some h → h.isSlice = true → h.boundsOk (srcRegs [(a, .packed)] ++ [(d, 4)]) = true →
    (∀ x ∈ h.execLanes s p, readAll s h x [(a, .packed)] = .ok [.known (A x)]) →
    ∃ t : State, exec (.f8dec d p ty a) s = .next (t.advance h.u) ∧
      LanesReceiveMany s t h d 4 (h.execLanes s p) (fun x => (List.range 4).map fun i =>
        toF32 (quiet ((FFmt.of8 ty).read (A x / 2 ^ (8 * i) % 256)))) ∧
      ∀ x, t.fsr x = s.fsr x))

/-- `flgrd`, `flgclr`, `flgset` (R130): the flags of every active lane are read, cleared or set once no deferred instruction of its
lanes is outstanding. `ixset` and `ixget` (R87, R105): every active lane's index register takes the values given, or is read. -/
def Obligations.LaneRegistersComplete : Prop :=
  ((∀ (o : Out) (s : State) (h : Here), (Instr.flgrd o).wf = true → s.here? = some h → h.isSlice = true →
    h.boundsOk (outRegs o 1) = true → s.deferSyms (h.active s) = [] → (∀ x ∈ h.active s, s.splitSyms o false x = []) →
    ∃ t : State, exec (.flgrd o) s = .next (t.advance h.u) ∧ LanesReceive s t h o false (h.active s) fun x => [.known (s.fsr x)]) ∧
  (∀ (set : Bool) (mask : Src) (s : State) (h : Here) (K : LaneId → Nat), s.here? = some h → h.isSlice = true →
    h.boundsOk (srcRegs [(mask, .w32)]) = true → s.deferSyms (h.active s) = [] →
    (∀ x ∈ h.active s, readAll s h x [(mask, .w32)] = .ok [.known (K x)]) →
    ∃ t : State, exec (if set then .flgset mask else .flgclr mask) s = .next (t.advance h.u) ∧ t = { s with regs := t.regs } ∧
      (∀ x ∈ h.active s, t.fsr x =
        if set then s.fsr x ||| BitVec.ofNat 32 (K x % 32) else s.fsr x &&& ~~~ BitVec.ofNat 32 (K x % 32)) ∧
      ∀ k, (∀ x ∈ h.active s, k ≠ .fsr x.b x.g x.l) → t.cell k = s.cell k)) ∧
  ((∀ (i : Nat) (valOnly : Bool) (v b l : Src) (s : State) (h : Here) (V B L : LaneId → Nat), s.here? = some h →
    h.isSlice = true → h.boundsOk (srcRegs (if valOnly then [(v, .w32)] else [(v, .w32), (b, .w32), (l, .w32)])) = true →
    (∀ x ∈ h.active s, readAll s h x (if valOnly then [(v, .w32)] else [(v, .w32), (b, .w32), (l, .w32)]) =
      .ok (if valOnly then [.known (V x)] else [.known (V x), .known (B x), .known (L x)])) →
    ∃ t : State, exec (.ixset i valOnly v b l) s = .next (t.advance h.u) ∧ t = { s with regs := t.regs } ∧
      (∀ x ∈ h.active s, t.word (.ixv x.b x.g x.l i) = BitVec.ofNat 32 (V x % 2 ^ 16) ∧
        t.word (.ixb x.b x.g x.l i) = (if valOnly then s.word (.ixb x.b x.g x.l i) else BitVec.ofNat 32 (B x % 2 ^ 10)) ∧
        t.word (.ixl x.b x.g x.l i) = (if valOnly then s.word (.ixl x.b x.g x.l i) else BitVec.ofNat 32 (L x % 2 ^ 16))) ∧
      ∀ k, (∀ x ∈ h.active s, k ≠ .ixv x.b x.g x.l i ∧ k ≠ .ixb x.b x.g x.l i ∧ k ≠ .ixl x.b x.g x.l i) →
        t.cell k = s.cell k) ∧
  (∀ (o : Out) (i sel : Nat) (s : State) (h : Here), (Instr.ixget o i sel).wf = true → s.here? = some h → h.isSlice = true →
    h.boundsOk (outRegs o 1) = true → (∀ x ∈ h.active s, s.splitSyms o false x = []) →
    ∃ t : State, exec (.ixget o i sel) s = .next (t.advance h.u) ∧ LanesReceive s t h o false (h.active s) fun x =>
      [s.cell (if sel = 0 then .ixv x.b x.g x.l i else if sel = 1 then .ixb x.b x.g x.l i else .ixl x.b x.g x.l i)]))

/-- `symq` and `symw` (R106, R107): the description of what a register holds is read without waiting, in every active lane or
once in a group clause; `symw` is over when nothing it names is late, and changes nothing. -/
def Obligations.SymbolsInspected : Prop :=
  (∀ (o : Out) (n sel : Nat) (s : State) (h : Here), (Instr.symq o (.vreg n) sel).wf = true →
    (Instr.symq o (.vreg n) sel).legalIn .slice = true → s.here? = some h → h.isSlice = true →
    h.boundsOk ((n, 1) :: outRegs o 1) = true → (∀ x ∈ h.active s, s.splitSyms o false x = []) →
    ∃ t : State, exec (.symq o (.vreg n) sel) s = .next (t.advance h.u) ∧
      LanesReceive s t h o false (h.active s) fun x => knownCells false (symqWord s sel (s.cell (.vec x.b x.g x.l n)))) ∧
  (∀ (o : Out) (n sel : Nat) (s : State) (h : Here), (Instr.symq o (.sreg .g n) sel).wf = true → s.here? = some h →
    h.isSlice = false → h.boundsOk (outRegs o 1) = true → readyUpper h s o false = .ok () →
    ∃ t : State, exec (.symq o (.sreg .g n) sel) s = .next (t.advance h.u) ∧
      UpperReceives s t h o false (knownCells false (symqWord s sel (s.cell (.gr h.b h.g n))))) ∧
  (∀ (all : Bool) (n : Nat) (s : State) (h : Here), s.here? = some h → h.isSlice = true →
    (if all then s.syms.all (fun x => !(x.b == h.b && x.g == h.g)) = true
     else h.boundsOk [(n, 1)] = true ∧ ∀ x ∈ h.active s, (s.cell (.vec x.b x.g x.l n)).sym? = none) →
    exec (.symw all (.vreg n)) s = .next (s.advance h.u))

/-! ## Votes -/

/-- Votes (R84). In a slice clause each active lane receives the result over the participants of its slice: its active lanes where
the source has a value for each, else the one value. In a clause of group class or above, once every participant has reached the
instruction, the result over their values, in the order of block, group and lane, is delivered once. A predicate receives 1 for
a nonzero result. -/
def Obligations.VotesComplete : Prop :=
  (∀ (i : Instr) (o : Out) (a : Src) (f : List Nat → Nat) (s : State) (h : Here) (A : LaneId → Nat),
    voteForm i = some (o, a, f) → i.wf = true → i.legalIn .slice = true → s.here? = some h → h.isSlice = true →
    h.boundsOk (srcRegs [(a, .w32)] ++ outRegs o 1) = true →
    (∀ x ∈ h.lanes s, s.readLane h x .w32 a = .ok (.known (A x))) → (∀ x ∈ h.active s, s.splitSyms o false x = []) →
    ∃ t : State, exec i s = .next (t.advance h.u) ∧ LanesReceive s t h o false (h.active s) fun x =>
      [resultCell o (f ((if h.perLane a then (h.active s).filter fun y => y.l / 4 == x.l / 4
        else [⟨h.b, h.g, 4 * (x.l / 4)⟩]).map A))]) ∧
  (∀ (i : Instr) (o : Out) (a : Src) (f : List Nat → Nat) (s : State) (h : Here) (vs : List (Nat × Except Cause Val))
    (xs : List Nat),
    voteForm i = some (o, a, f) → i.wf = true → s.here? = some h → h.isSlice = false →
    (h.voteLower a = true → allArrived h s = true) → voteUpper h s a = .ok vs → voteVals s h.u vs = .ok xs →
    h.boundsOk (srcRegs [(a, .w32)] ++ outRegs o 1) = true → readyUpper h s o false = .ok () →
    ∃ t : State, exec i s = .next (t.advance h.u) ∧ UpperReceives s t h o false [resultCell o (f xs)])

/-! ## Control -/

/-- Branches. Of slice scope or above (R75, R76): each unit's RE becomes the later of RE and the join, and it goes to the target
where its outcome says so, popping the loops of its call frame that do not hold the target. The outcomes of the slices of a joined
group are compared once all have come that still come; where they differ, every slice of the group parts, with the join as its
pending join. Of lane scope (R77): the lanes that go begin to wait at the target; a slice left with no active lane begins to walk,
and its clause ends. -/
def Obligations.BranchesComplete : Prop :=
  (∀ (i : Instr) (br : Branch) (s : State) (h0 h : Here) (goes : UnitRef → Bool) (differ : Bool),
    branchForm i = some br → br.scope ≠ .lane → s.here? = some h0 → br.mayIssue h0 s → h = br.issue h0 s →
    slicesWhole h0 s = .ok () → slicesWhole h s = .ok () → br.Outcome s h goes →
    (differ = (h.isSlice && h.units.any fun u => h.units.any fun v => goes u != goes v)) →
    ∃ t : State, exec i s = .next t ∧ t = { s with seqs := t.seqs } ∧ ∀ u q, s.seq? u = some q →
      t.seq? u = some (
        let q1 : Seq := if differ && h.sibling s u && !q.parted then { q with parted := true, pjoin := some (h.join br.join) } else q
        if u ∈ h.units then { q1 with
          clause := h.turned (fun v => if goes v then some (h.target br.target) else none) (fun _ => false) u q
          park := .none, re := laterRe q.re (h.join br.join)
          loops := if goes u then popOutside (h.target br.target) q.calls.length q.loops else q.loops }
        else q1)) ∧
  (∀ (i : Instr) (br : Branch) (s : State) (h : Here) (A : LaneId → Nat) (W : UnitRef → List (Option Nat)) (walks : UnitRef → Bool),
    branchForm i = some br → br.scope = .lane → s.here? = some h → h.isSlice = true →
    (∀ c, br.cond = some c → h.boundsOk (srcRegs [(c, .w32)]) = true ∧
      ∀ x ∈ h.active s, readAll s h x [(c, .w32)] = .ok [.known (A x)]) →
    (∀ u ∈ h.units, ∃ q, s.seq? u = some q ∧
      W u = (q.waits.mapIdx fun k w => if (h.active s).contains ⟨h.b, h.g, 4 * u.sliceNo + k⟩ &&
        (br.cond.isNone || (A ⟨h.b, h.g, 4 * u.sliceNo + k⟩ != 0) != br.sense) then some (h.target br.target) else w) ∧
      walks u = ((Seq.activeLanes { q with waits := W u }).isEmpty && (W u).any Option.isSome)) →
    ∃ t : State, exec i s = .next t ∧ OnlyTurns s t h ∧ ∀ u ∈ h.units, ∀ q, s.seq? u = some q →
      t.seq? u = some { q with clause := h.turned (fun _ => none) walks u q, park := .none, waits := W u, walk := q.walk || walks u })

/-- `loop` (R78): a unit with a count other than 0 pushes an entry with that count and this range; one with count 0 goes to the
end; RE becomes the later of RE and the end; a sequencer above the slices tells its children. -/
def Obligations.LoopsComplete : Prop :=
  ∀ (sc : Scope) (c : Src) (top : BitVec 20) (stop : BitVec 16) (s : State) (h : Here) (N : UnitRef → Nat),
    s.here? = some h → slicesWhole h s = .ok () → ReadsOne s h c N →
    (∀ u ∈ h.units, ∀ q, s.seq? u = some q → N u ≠ 0 → q.loops.length < Config.loopDepth) →
    (h.isSlice = false → N h.u ≠ 0 → s.mayProduce h.u 1 = true) →
    let s1 := if h.isSlice || N h.u == 0 then s else produce h.u (.loopEntry (h.target top) (h.join stop)) none s
    ∃ t : State, exec (.loop sc c top stop) s = .next t ∧ OnlyTurns s1 t h ∧ ∀ u ∈ h.units, ∀ q, s1.seq? u = some q →
      t.seq? u = some { q with
        clause := h.turned (fun v => if N v = 0 then some (h.join stop) else none) (fun _ => false) u q
        park := .none, re := laterRe q.re (h.join stop)
        loops := if N u = 0 then q.loops
          else { remaining := N u, index := 0, top := h.target top, stop := h.join stop, frame := q.calls.length } :: q.loops }

/-- `call`, `callr` and `ret` (R79): a call saves the address after its clause, the depth of the loop stack and RE, clears RE
and goes to the target; a return restores the three and goes back. -/
def Obligations.CallsComplete : Prop :=
  (∀ (i : Instr) (s : State) (h : Here) (dest : UnitRef → Nat),
    s.here? = some h → slicesWhole h s = .ok () → CallsTo i s h dest →
    (∀ u ∈ h.units, ∀ q, s.seq? u = some q → q.calls.length < Config.callDepth) →
    ∃ t : State, exec i s = .next t ∧ OnlyTurns s t h ∧ ∀ u ∈ h.units, ∀ q, s.seq? u = some q →
      t.seq? u = some { q with clause := h.turned (fun v => some (dest v)) (fun _ => false) u q, park := .none, re := none
                               calls := { ret := h.c.after, depth := q.loops.length, re := q.re } :: q.calls }) ∧
  (∀ (sc : Scope) (s : State) (h : Here) (top : UnitRef → CallRec) (rest : UnitRef → List CallRec),
    s.here? = some h → slicesWhole h s = .ok () →
    (∀ u ∈ h.units, ∃ q, s.seq? u = some q ∧ q.calls = top u :: rest u) →
    ∃ t : State, exec (.ret sc) s = .next t ∧ OnlyTurns s t h ∧ ∀ u ∈ h.units, ∀ q, s.seq? u = some q →
      t.seq? u = some { q with clause := h.turned (fun v => some (top v).ret) (fun _ => false) u q, park := .none
                               re := (top u).re, calls := rest u, loops := q.loops.drop (q.loops.length - (top u).depth) })

/-- `lif`, `lelse`, `lendif` (R81): M keeps the lanes for which the condition holds, M is exchanged for its complement within
the saved mask, and the saved mask comes back. -/
def Obligations.LaneMasksComplete : Prop :=
  (∀ (neg : Bool) (c : Src) (s : State) (h : Here) (A : LaneId → Nat), s.here? = some h → h.isSlice = true →
    h.boundsOk (srcRegs [(c, .w32)]) = true → (∀ x ∈ h.lanes s, readAll s h x [(c, .w32)] = .ok [.known (A x)]) →
    (∀ u ∈ h.units, ∀ q, s.seq? u = some q → q.mstack.length < Config.maskDepth) →
    ∃ t : State, exec (.lif neg c) s = .next (t.advance h.u) ∧ OnlyTurns s t h ∧ ∀ u ∈ h.units, ∀ q, s.seq? u = some q →
      ∃ m, t.seq? u = some { q with mstack := q.mask :: q.mstack, mask := m } ∧
        ∀ k < 4, m.getLsbD k = (q.mask.getLsbD k && ((A ⟨h.b, h.g, 4 * u.sliceNo + k⟩ != 0) != neg))) ∧
  (∀ (els : Bool) (s : State) (h : Here) (top : UnitRef → BitVec 4) (rest : UnitRef → List (BitVec 4)), s.here? = some h →
    (∀ u ∈ h.units, ∃ q, s.seq? u = some q ∧ q.mstack = top u :: rest u) →
    ∃ t : State, exec (if els then .lelse else .lendif) s = .next (t.advance h.u) ∧ OnlyTurns s t h ∧
      ∀ u ∈ h.units, ∀ q, s.seq? u = some q →
        t.seq? u = some (if els then { q with mask := top u &&& ~~~ q.mask } else { q with mask := top u, mstack := rest u }))

/-- STACK (R73): a loop push beyond 8 entries, a call beyond 32, a return on an empty call stack, a mask push beyond 16 and `lelse`
or `lendif` on an empty mask stack raise STACK at the instruction, which has no effect. -/
def Obligations.StackFaults : Prop :=
  let stack : Trap := { cause := .stack, addr := 0, info := 0, lanes := 0, after := false }
  (∀ (sc : Scope) (c : Src) (top : BitVec 20) (stop : BitVec 16) (s : State) (h : Here) (N : UnitRef → Nat) (v : UnitRef) (q : Seq),
    s.here? = some h → slicesWhole h s = .ok () → ReadsOne s h c N → v ∈ h.units → s.seq? v = some q → N v ≠ 0 →
    8 ≤ q.loops.length → TakesFault (.loop sc c top stop) s h stack) ∧
  (∀ (i : Instr) (s : State) (h : Here) (dest : UnitRef → Nat) (v : UnitRef) (q : Seq), s.here? = some h →
    slicesWhole h s = .ok () → CallsTo i s h dest → v ∈ h.units → s.seq? v = some q → 32 ≤ q.calls.length →
    TakesFault i s h stack) ∧
  (∀ (sc : Scope) (index : Src) (s : State) (h : Here) (i e ia key : Nat) (r : BitVec 128) (v : UnitRef) (q : Seq),
    s.here? = some h → (∀ e, h.q.park ≠ .callt e false) → calltIndex h s index = .ok i → memBars h s true false = .ok () →
    h.desc.ltp ≠ 0 → e = (h.desc.ltp + 8 * i) % 2 ^ 64 → e % 8 = 0 → regionOf e = .global → s.stage1 h.ctx e = some (r, ia) →
    rightR r = true → s.route ia false = .pkg key → s.atHead h.u = true → s.heldIa ia = false → s.heldPage key = false →
    s.holed key 8 = false → s.env.dataErr = false → linkBad (s.readNat key 8) = false → s.readNat key 8 / 2 ^ 62 = 2 → v ∈ h.units →
    s.seq? v = some q → 32 ≤ q.calls.length → TakesFault (.callt sc index) s h stack) ∧
  (∀ (sc : Scope) (s : State) (h : Here) (v : UnitRef) (q : Seq), s.here? = some h → slicesWhole h s = .ok () → v ∈ h.units →
    s.seq? v = some q → q.calls = [] → TakesFault (.ret sc) s h stack) ∧
  (∀ (neg : Bool) (c : Src) (s : State) (h : Here) (A : LaneId → Nat) (v : UnitRef) (q : Seq), s.here? = some h →
    h.boundsOk (srcRegs [(c, .w32)]) = true → (∀ x ∈ h.lanes s, readAll s h x [(c, .w32)] = .ok [.known (A x)]) →
    v ∈ h.units → s.seq? v = some q → 16 ≤ q.mstack.length → TakesFault (.lif neg c) s h stack) ∧
  ∀ (els : Bool) (s : State) (h : Here) (v : UnitRef) (q : Seq), s.here? = some h → v ∈ h.units → s.seq? v = some q →
    q.mstack = [] → TakesFault (if els then .lelse else .lendif) s h stack

/-- `nop`, `pf` and `regang` of slices that are together change nothing; `yield` and `done` end the clause; `yield` marks the group, or the parted slice, to let another go first, and `done`
marks the clause to retire the unit, once nothing of it is outstanding; at `regang`, when every live slice of the group stands at the pending join,
parted slices are together again, led by the lowest (R80, R82, R83, R96, R119, R150, R199). -/
def Obligations.ClauseEndsComplete : Prop :=
  ((∀ (i : Instr) (s : State) (h : Here), s.here? = some h →
    ((∃ sc, i = .nop sc) ∨ (∃ m, i = .pf m) ∨ (i = .regang ∧ slicesWhole h s = .ok () ∧ h.q.parted = false)) →
    exec i s = .next (s.advance h.u)) ∧
  (∀ (sc : Scope) (retire : Bool) (s : State) (h : Here) (who : UnitRef), s.here? = some h →
    who = (if h.isSlice && !h.q.parted then .group h.b h.g else h.u) → (retire = true → mayRetire h s = .ok ()) →
    ∃ t : State, exec (if retire then .doneScope sc else .yield sc) s = .next t ∧ t = { s with seqs := t.seqs } ∧
      (∀ u, u ≠ h.u → t.seq? u = (s.seq? u).map fun q => { q with yielded := q.yielded || (!retire && u == who) }) ∧
      t.seq? h.u = some { h.q with park := .none, yielded := h.q.yielded || (!retire && h.u == who), clause := some { h.c with
        pos := h.c.pos + 1, ended := true, retire := h.c.retire || retire } })) ∧
  (∀ (s : State) (h : Here), s.here? = some h → slicesWhole h s = .ok () → h.q.parted = true →
    h.q.pjoin = some h.c.addr →
    (∀ v ∈ s.children (.group h.b h.g), s.retired v = false → s.standsBefore h.c.addr h.c.pos v = true) →
    ∃ t : State, exec .regang s = .next t ∧ t = { s with seqs := t.seqs } ∧
      ∀ v ∈ s.children (.group h.b h.g), s.retired v = false → ∀ q, s.seq? v = some q → ∃ q', t.seq? v = some q' ∧
        q' = { q with clause := q'.clause, parted := false, pjoin := none, park := .none, passed := [], pc := h.c.addr })

/-! ## Memory accesses -/

/-- `ld`, `ldsys`, `st` and `stsys` in a slice clause (R175, R185 to R187, R190, R196 to R198): with the operands readable, nothing to
wait for and every known address checked, the instruction completes without waiting for the data: the access, with the cells of
its data registers, stands last in its order, from where it performs; the destination of each executing lane of a load holds the
forms of a new symbol; a store changes no register.
The number of lanes that perform at once is an operand of the agenda (DESIGN CHOICE log 2, DESIGN CHOICE log 27: DESIGN CHOICE). -/
def Obligations.AccessesIssue : Prop :=
  (∀ (i : Instr) (k : AccKind) (o : Out) (m : MemOp) (ctr n : Nat) (s : State) (h : Here) (V : LaneId → List Val)
    (ls : List LaneAcc),
    loadForm i = some (k, o, m, ctr) → i.wf = true → i.legalIn .slice = true → s.here? = some h → h.isSlice = true →
    s.frameOf h.b = none → h.execLanes s m.pred ≠ [] →
    h.boundsOk (srcRegs [(m.base, .addr), (m.index, .w32)] ++ outRegs o (regsOf m.width.bytes)) = true →
    (∀ x ∈ h.execLanes s m.pred, readAll s h x [(m.base, .addr), (m.index, .w32)] = .ok (V x) ∧
      (V x).flatMap notForm = [] ∧ (m.width.bytes ≤ 4 → s.splitSyms o false x = [])) →
    memBars h s false false = .ok () →
    memRoom h s ctr ((lanesAt (h.execLanes s m.pred) (memDisp m) m.width.bytes V fun _ => []).any fun x => x.addr.isNone) =
      .ok () →
    checkLanes h s k true (fun _ => accInfo m.width.bytes false)
      (lanesAt (h.execLanes s m.pred) (memDisp m) m.width.bytes V fun _ => []) = .ok ls →
    s.freeSym (s.quarter h.b h.g) = some n →
    Unpoisoned s (sent h s k m.width.bytes ctr (some (s.quarter h.b h.g, n)) (some o) ls) →
    ∃ u : State, exec i s = .next ((performUpTo s.env.fresh s.env.budget u).advance h.u) ∧
      Sent s u (sent h s k m.width.bytes ctr (some (s.quarter h.b h.g, n)) (some o) ls) ∧
      HoldsLoaded s u h o (h.execLanes s m.pred) (freshCells (s.quarter h.b h.g) n m.width.bytes)) ∧
  (∀ (i : Instr) (k : AccKind) (d : Nat) (m : MemOp) (ctr : Nat) (s : State) (h : Here) (V : LaneId → List Val)
    (ls : List LaneAcc),
    storeForm i = some (k, d, m, ctr) → s.here? = some h → h.isSlice = true → s.frameOf h.b = none →
    h.execLanes s m.pred ≠ [] →
    h.boundsOk (srcRegs ([(m.base, .addr), (m.index, .w32)] ++ dataSrcs d m.width.bytes)) = true →
    (∀ x ∈ h.execLanes s m.pred,
      readAll s h x ([(m.base, .addr), (m.index, .w32)] ++ dataSrcs d m.width.bytes) = .ok (V x) ∧
      ((V x).take 2).flatMap notForm = []) →
    memBars h s true (k == .storeSys) = .ok () →
    memRoom h s ctr ((lanesAt (h.execLanes s m.pred) (memDisp m) m.width.bytes V fun x =>
      ((V x).drop 2).flatMap fun v => v.cells false).any fun x => x.addr.isNone || x.data.any fun c => c.sym?.isSome) = .ok () →
    checkLanes h s k true (fun _ => accInfo m.width.bytes true)
      (lanesAt (h.execLanes s m.pred) (memDisp m) m.width.bytes V fun x => ((V x).drop 2).flatMap fun v => v.cells false) =
      .ok ls →
    Unpoisoned s (sent h s k m.width.bytes ctr none none ls) →
    ∃ u : State, exec i s = .next ((performUpTo s.env.fresh s.env.budget u).advance h.u) ∧
      Sent s u (sent h s k m.width.bytes ctr none none ls) ∧ u.regs = s.regs) ∧
  (∀ (g l disp n b x : Nat) (data : List Cell), (laneAcc g l disp n (.known b) (.known x) data).addr =
    some ((b + ((BitVec.ofNat 32 x).signExtend 64).toNat + disp) % 2 ^ 64))

/-- Atomics in a slice clause (R249, R252, R255): as a load where the instruction has a destination, and as a store where it has
none.
The number of lanes that perform at once is an operand of the agenda (DESIGN CHOICE log 2, DESIGN CHOICE log 27: DESIGN CHOICE). -/
def Obligations.AtomicsIssue : Prop :=
  ∀ (i : Instr) (op : AtOp) (o : Option Out) (wide : Bool) (a : Src) (bs : List Src) (srcs : List (Src × As)) (s : State)
    (h : Here) (V : LaneId → List Nat) (n : Nat) (ls : List LaneAcc),
    atomForm i = some (op, o, wide, a, bs) → srcs = (a, .addr) :: bs.map (fun b => (b, atomAs op wide)) → i.wf = true →
    i.legalIn .slice = true → s.here? = some h → h.isSlice = true → h.execLanes s 7 ≠ [] → h.boundsOk (atomRegs o wide srcs) = true →
    (∀ x ∈ h.execLanes s 7, readAll s h x srcs = .ok ((V x).map .known)) → splitLate s o wide (h.execLanes s 7) = [] →
    memBars h s true false = .ok () →
    checkLanes h s (.atomic op wide) true (fun _ => accInfo (atomBytes wide) true)
      ((h.execLanes s 7).map fun x => laneAcc x.g x.l 0 (atomBytes wide) (.known ((V x).headD 0)) (.known 0)
        (((V x).drop 1).flatMap (knownCells wide))) = .ok ls →
    (o.isSome → s.freeSym (s.quarter h.b h.g) = some n) → (∀ y ∈ ls, y.parts = []) →
    ∃ u : State, exec i s = .next ((performUpTo s.env.fresh s.env.budget u).advance h.u) ∧
      Sent s u (sent h s (.atomic op wide) (atomBytes wide) 0 (o.map fun _ => (s.quarter h.b h.g, n)) o ls) ∧
      match o with
      | some d => HoldsLoaded s u h d (h.execLanes s 7) (freshCells (s.quarter h.b h.g) n (atomBytes wide))
      | none => u.regs = s.regs

/-- Loads and atomics of block, gang and grid clauses, and stores there (R185, R189, R252): once every lane of the access has
performed, the value is delivered as known words, and the access is over. -/
def Obligations.UpperAccessesComplete : Prop :=
  ∀ (i : Instr) (o : Option Out) (w id : Nat) (s : State) (h : Here) (a : Access), upperAccess i = some (o, w) → i.wf = true →
    s.here? = some h → h.isSlice = false → h.q.park = .access id → s.access? id = some a →
    (a.lanes.all fun y => y.st == .done) = true →
    ∃ t : State, exec i s = .next (t.advance h.u) ∧
      match o with
      | none => t = s
      | some o => w ≤ 8 → UpperReceives (s.dropAcc a) t h o (w == 8)
          ((loadedCells w ((a.lanes.head?.map (·.got)).getD [])).take (if w = 8 then 2 else 1))

/-- ACCESS_QUEUE_ISSUE and HOME_SLICE_WRITE (R187, R193, R256, R257, R260, R275): the lane at the head of its order that reaches a
byte of M performs there. A load takes the bytes of M; a store with known data writes them; an atomic takes the old bytes and
writes the new value. No other byte of M changes, and no register. -/
def Obligations.PerformsOnM : Prop :=
  ∀ (id j key : Nat) (s : State) (a : Access) (y : LaneAcc) (data : List Byte), s.access? id = some a → Memory.wf s.mem.bytes →
    (s.earlier a).any Access.blocks = false → s.inFrame a.unit = false → a.nextLane = some (y, j) → y.st = .todo →
    y.addr.isSome = true → y.keyIn s a.kind.isWrite = some key → y.pays s a = true →
    (match a.kind with
      | .load | .loadSys => s.holed key y.size = false
      | .store => cellsBytes y.data y.size = some data ∧ data.length = y.size
      | .storeSys => cellsBytes y.data y.size = some data ∧ data.length = y.size ∧ (s.sqOf a.unit).isEmpty = true ∧
          s.windowsDrained a.unit = true
      | .atomic op wide => s.holed key y.size = false ∧ ∃ ops, cellsBytes y.data (2 * y.size) = some ops ∧
          data = leBytes y.size (atomicNew op wide (leNat (readBytes s.mem.bytes key y.size)) (leNat (ops.take y.size))
            (leNat (ops.drop y.size)))) →
    ∃ t : State, exec (if a.kind.isWrite then .homeSliceWrite id else .accessQueueIssue id) s = .next t ∧ t.regs = s.regs ∧
      (if a.kind.isWrite then readBytes t.mem.bytes key y.size = data ∧
        ∀ k, ¬(key ≤ k ∧ k < key + y.size) → readByte t.mem.bytes k = readByte s.mem.bytes k
       else t.mem.bytes = s.mem.bytes) ∧
      ∀ b, t.access? id = some b → b.lanes[j]? = some { y with
        st := .done, got := if a.kind.need.reads then readBytes s.mem.bytes key y.size else y.got }

/-- MEMORY_ACCESS_COMPLETE and QUEUED_STORE_PERFORM (R187, R189, R190): an access that returns nothing is over once every lane
has performed, and its counters fall; a late-data store whose data is known writes the bytes that no later store has written
over, and nothing else. -/
def Obligations.StoresComplete : Prop :=
  (∀ (id : Nat) (s : State) (a : Access), s.access? id = some a → a.returns = false → s.accDone a = true →
    exec (.memoryAccessComplete id false false) s = .next (s.dropAcc a) ∧
    (s.dropAcc a).qs.accs = s.qs.accs.filter fun b => b.id != id) ∧
  (∀ (id j : Nat) (s : State) (a : Access) (y : LaneAcc) (bs : List Byte), s.access? id = some a → Memory.wf s.mem.bytes →
    (a.lanes.zipIdx.find? fun p => p.1.st == .hole && !p.1.lateData) = some (y, j) → cellsBytes y.data y.size = some bs →
    ∃ t : State, exec (.queuedStorePerform id) s = .next t ∧ t.regs = s.regs ∧
      (∀ k, (∀ e ∈ s.mem.holes, e.1 = k → ¬(e.2.1 = id ∧ e.2.2.1 = j)) → readByte t.mem.bytes k = readByte s.mem.bytes k) ∧
      ∀ k o, (s.mem.holes.filter fun e => e.1 == k && e.2.1 == id && e.2.2.1 == j) = [(k, id, j, o)] →
        readByte t.mem.bytes k = bs.getD o 0)

/-- SYMBOL_RESOLVE (R91, R94, R95): when the data of every lane has arrived, each register that holds a form of the symbol
becomes known, with SCALE times the arrived value plus OFFSET, every known register but `fsr` stays, and the symbol is free. -/
def Obligations.SymbolsResolve : Prop :=
  ∀ (q n id : Nat) (s : State) (x : Sym) (a : Access), s.sym? q n = some x → x.poison = none → x.feed = .access id →
    s.access? id = some a → (a.lanes.all fun y => y.st == .done) = true → s.inFrame (.block x.b) = false →
    a.bumped = [] →
    ∃ t : State, exec (.symbolResolve q n) s = .next t ∧ t.sym? q n = none ∧ t.mem = s.mem ∧
      ∀ k, (∀ b g l, k ≠ .fsr b g l) →
        (∀ f hi, s.cell k = .form f hi → f.q = q → f.sym = n →
          t.cell k = halfWord (f.value (s.symBytes x ((RegKey.lane? k).map (·.l)))) hi) ∧
        (∀ w, s.cell k = .known w → t.cell k = .known w) ∧
        ∀ f hi, s.cell k = .form f hi → ¬(f.q = q ∧ f.sym = n) → t.cell k = .form f hi

/-! ## Line locks and bias -/

/-- `llock` (R192, R200): at the head of its program order the instruction completes with a status for each address, taken lane by lane
in rising order; a lane whose line is mapped to this package gets 0 where the context holds the line already or takes it now, 2
where another context holds it or its set has 12, and 1 at the quota; one whose address no lock can hold gets 3; a taken line is
listed under the context, and nothing else of memory changes.
The number of lanes in one step is an operand of the agenda (DESIGN CHOICE log 2: DESIGN CHOICE). -/
def Obligations.LinesLocked : Prop :=
  (∀ (o : Out) (m : MemOp) (s t : State) (h : Here) (xs : List (LaneId × List Nat)) (vs : List Nat),
    (Instr.llock o m).wf = true → (Instr.llock o m).legalIn h.cls = true → s.here? = some h → readyResult h s o = .ok () →
    laneAddrs h s m.pred [(m.base, .addr), (m.index, .w32)] = .ok xs → (xs.map fun p => p.1.l).Nodup →
    memBars h s true false = .ok () → s.atHead h.u = true → (∀ l, h.q.park ≠ .flips l) → xs.length ≤ s.env.budget →
    lockAll h.ctx (xs.map fun p => memAddr m p.2) s = some (t, vs) →
    exec (.llock o m) s = .next ((writeResults h o ((xs.map (·.1)).zip vs) t).advance h.u) ∧
      t = { s with mem := { s.mem with locks := t.mem.locks } } ∧ vs.length = xs.length ∧ ∀ v ∈ vs, v ≤ 3) ∧
  (∀ (ctx a ia key : Nat) (r : BitVec 128) (s : State), regionOf a = .global → s.stage1 ctx a = some (r, ia) →
    rightR r = true → s.route ia false = .pkg key →
    lockLine ctx a s =
      match s.mem.locks.find? fun e => e.2.1 == ia / 128 with
      | some e => .status (if e.1 = ctx then 0 else 2) s
      | none =>
        if 12 ≤ s.setLocks ia then .status 2 s
        else if s.lockCount ctx = (s.cr ctx 0x32).toNat % 2 ^ 16 then .status 1 s
        else .status 0 { s with mem := { s.mem with locks := s.mem.locks ++ [(ctx, ia / 128, homeSlice ia)] } }) ∧
  ∀ (ctx a : Nat) (s : State), regionOf a ≠ .global ∨ s.stage1 ctx a = none ∨
      (∃ r ia, s.stage1 ctx a = some (r, ia) ∧ (rightR r = false ∨ s.route ia false = .prot ∨ s.route ia false = .refused)) →
    lockLine ctx a s = .status 3 s

/-- `lunlock` and `lquota` (R200, R201): at the head of its program order `lunlock` completes, the lines that the context holds at the
lanes' addresses are released, and no other; `lquota` completes with the count of the context's locked lines, or its quota.
The number of lanes in one step is an operand of the agenda (DESIGN CHOICE log 2: DESIGN CHOICE). -/
def Obligations.LinesUnlocked : Prop :=
  (∀ (m : MemOp) (s : State) (h : Here) (xs : List (LaneId × List Nat)), s.here? = some h →
    laneAddrs h s m.pred [(m.base, .addr), (m.index, .w32)] = .ok xs → (xs.map fun p => p.1.l).Nodup →
    memBars h s true false = .ok () → s.atHead h.u = true → (∀ l, h.q.park ≠ .flips l) → xs.length ≤ s.env.budget →
    ∃ t : State, exec (.lunlock m) s = .next (t.advance h.u) ∧ t = { s with mem := { s.mem with locks := t.mem.locks } } ∧
      ∀ e, e ∈ t.mem.locks ↔ e ∈ s.mem.locks ∧
        ¬(e.1 = h.ctx ∧ ∃ p ∈ xs, ∃ r ia, s.stage1 h.ctx (memAddr m p.2) = some (r, ia) ∧ e.2.1 = ia / 128)) ∧
  (∀ (o : Out) (q : Bool) (s : State) (h : Here), (Instr.lquota o q).wf = true → (Instr.lquota o q).legalIn h.cls = true →
    s.here? = some h → readyResult h s o = .ok () →
    ∃ t : State, exec (.lquota o q) s = .next (t.advance h.u) ∧
      Delivers s t h o (if q then (s.cr h.ctx 0x32).toNat % 2 ^ 16 else s.lockCount h.ctx % 2 ^ 32))

/-- `bias` and BIAS_FLIP (R202, R376, R377): with a status for every address the instruction completes with them; a flip sets the
page's bias and lets the unit go on; one to device bias makes the host-coherence cache give up the page's lines. -/
def Obligations.BiasCompletes : Prop :=
  (∀ (o : Out) (a : Src) (toDev : Bool) (s : State) (h : Here) (xs : List (LaneId × List Nat)) (st : LaneId → Nat),
    s.here? = some h → readyResult h s o = .ok () → laneAddrs h s 7 [(a, .addr)] = .ok xs → memBars h s true false = .ok () →
    (∀ l, h.q.park ≠ .flips l) → (xs.map fun p => p.1.l).Nodup →
    (∀ p ∈ xs, biasLane h.ctx (p.2.headD 0) toDev s = .status (st p.1)) →
    exec (if toDev then .biasDev o a else .biasHost o a) s =
      .next ((writeResults h o (xs.map fun p => (p.1, st p.1)) s).advance h.u)) ∧
  (∀ (u : UnitRef) (f : Flip) (s : State), (s.qs.flips.find? fun f => f.unit == u) = some f → s.work.posts = [] →
    (∀ e ∈ s.qs.inb, e.wait = none) → ∃ t : State, exec (.biasFlip u) s = .next t ∧ t.regs = s.regs ∧ t.mem.bytes = s.mem.bytes ∧
      (∀ p, p ∈ t.mem.device ↔ (if f.toDev then p = f.page ∨ p ∈ s.mem.device else p ∈ s.mem.device ∧ p ≠ f.page)) ∧
      (∀ e, e ∈ t.mem.hcc ↔ e ∈ s.mem.hcc ∧ (f.toDev = true → e.1 / 1024 ≠ f.page)) ∧
      (∀ g, g ∈ t.qs.flips ↔ g ∈ s.qs.flips ∧ g ≠ f))

/-! ## Monitors and barriers -/

/-- `wcmp`, `wcancel` (R259 to R261, R263): in a step that reads every lane, each lane whose memory word stands in the relation to its operand is given
status 0 at once, and no monitor is set; a lane whose condition does not hold sets a monitor, with room among the entries of the
home slice, and the unit waits at the instruction. `wcancel` of one address releases every monitor of the context on the line, whose
waiters receive status 2, and delivers the count of entries released.
The number of lanes read in one step is an operand of the agenda (DESIGN CHOICE log 2: DESIGN CHOICE). -/
def Obligations.MonitorsComplete : Prop :=
  (∀ (i : Instr) (rel : Nat) (o : Out) (wide uns : Bool) (a v : Src) (s : State) (h : Here) (xs : List (LaneId × List Nat))
    (ws : List (LaneId × Nat × List Nat)),
    wcmpForm i = some (rel, o, wide, uns, a, v) → i.wf = true → i.legalIn h.cls = true → s.here? = some h →
    readyResult h s o = .ok () → laneAddrs h s 7 [(a, .addr), (v, atomInt wide uns)] = .ok xs → xs ≠ [] →
    (xs.map fun p => p.1.l).Nodup → h.q.park = .none → memBars h s false false = .ok () →
    watchAll h s (atomBytes wide) xs = .ok ws → s.atHead h.u = true → xs.length ≤ s.env.budget → s.env.dataErr = false →
    (∀ m ∈ s.qs.mons, m.unit ≠ h.u) →
    (∀ p ∈ ws, s.heldIa p.2.1 = false ∧ ∃ key, s.route p.2.1 false = .pkg key ∧ s.heldPage key = false ∧
      s.holed key (atomBytes wide) = false ∧
      relHolds rel uns (8 * atomBytes wide) (s.readNat key (atomBytes wide)) ((p.2.2.drop 1).headD 0) = true) →
    exec i s = .next ((writeResults h o (xs.map fun p => (p.1, 0)) s).advance h.u)) ∧
  (∀ (o : Out) (wide uns : Bool) (rel : Nat) (a v : Src) (s : State) (h : Here) (x : LaneId) (va val ia key : Nat),
    s.here? = some h → readyResult h s o = .ok () →
    laneAddrs h s 7 [(a, .addr), (v, atomInt wide uns)] = .ok [(x, [va, val])] → h.q.park = .none →
    memBars h s false false = .ok () → watchAddr h s x va (atomBytes wide) = .at ia → s.atHead h.u = true →
    0 < s.env.budget → s.env.dataErr = false → (∀ m ∈ s.qs.mons, m.unit ≠ h.u) → s.heldIa ia = false →
    s.route ia false = .pkg key →
    s.heldPage key = false → s.holed key (atomBytes wide) = false →
    relHolds rel uns (8 * atomBytes wide) (s.readNat key (atomBytes wide)) val = false →
    (s.qs.mons.filter fun m => m.slice == homeSlice ia).length < Config.monitorsPerSlice →
    ∃ t : State, runInstr (wcmpBody o rel wide uns a v) s = .next t ∧
      t = { s with qs := { s.qs with mons := t.qs.mons }, seqs := t.seqs } ∧
      t.qs.mons = s.qs.mons ++ [{ slice := homeSlice ia, ctx := h.ctx, vaddr := va, key := key, width := atomBytes wide, rel := rel,
                                  uns := uns, operand := val, unit := h.u, lanes := [x.l], callt := false }] ∧
      t.seq? h.u = some { h.q with park := .monitors [(x.l, none)], parkAt := s.env.cycle } ∧
      ∀ u, u ≠ h.u → t.seq? u = s.seq? u) ∧
  ∀ (o : Out) (a : Src) (s : State) (h : Here) (x : LaneId) (va ia key : Nat),
    (Instr.wcancel o a).wf = true → (Instr.wcancel o a).legalIn h.cls = true → s.here? = some h → readyResult h s o = .ok () →
    laneAddrs h s 7 [(a, .addr)] = .ok [(x, [va])] → memBars h s false false = .ok () → cancelAddr h s x va = .ok (some ia) →
    s.allPerformed h.u = true → s.heldIa ia = false → s.route ia false = .pkg key → 0 < s.env.budget →
    (∀ l, h.q.park ≠ .flips l) →
    ∃ t : State, exec (.wcancel o a) s = .next ((writeResults h o
        [(x, (s.qs.mons.filter fun m => m.ctx == h.ctx && lineOf m.key == lineOf key).length)] t).advance h.u) ∧
      t = { s with qs := { s.qs with mons := t.qs.mons }, seqs := t.seqs } ∧
      t.qs.mons = s.qs.mons.filter fun m => !(m.ctx == h.ctx && lineOf m.key == lineOf key)

/-- `bararr`, `barwait`, `barsync` (R264 to R267): an arrival takes the phase as its token; the arrival
that completes the target starts the next phase; a wait for a phase that is past changes nothing, and an arrival that does not
complete the phase makes `barsync` wait with its token. -/
def Obligations.BarriersComplete : Prop :=
  (∀ (o : Out) (gang : Bool) (n c tok : Nat) (count : Src) (b : Bar) (s : State) (h : Here),
    (Instr.bararr o gang n count).wf = true → s.here? = some h → h.isSlice = false → readyResult h s o = .ok () →
    upNums h s [(count, .w32)] = .ok [c] → arrivalReady h s = .ok () → (barOf h gang n s).arrive c = some (b, tok) →
    ∃ t : State, exec (.bararr o gang n count) s = .next (t.advance h.u) ∧
      UpperReceives (s.arrived h gang n b) t h o false (knownCells false tok)) ∧
  (∀ (gang : Bool) (n v : Nat) (token : Src) (s : State) (h : Here), s.here? = some h → h.isSlice = false →
    (∀ t, h.q.park ≠ .barrier t) → upNums h s [(token, .w32)] = .ok [v] → (barOf h gang n s).phase ≠ v % 256 →
    exec (.barwait gang n token) s = .next (s.advance h.u)) ∧
  (∀ (gang : Bool) (n c tok : Nat) (count : Src) (b : Bar) (s : State) (h : Here), s.here? = some h → h.isSlice = false →
    (∀ t, h.q.park ≠ .barrier t) → upNums h s [(count, .w32)] = .ok [c] → arrivalReady h s = .ok () →
    (barOf h gang n s).arrive c = some (b, tok) →
    exec (.barsync gang n count) s = if (barOf h gang n (s.arrived h gang n b)).phase ≠ tok
      then .next ((s.arrived h gang n b).advance h.u)
      else .next ((s.arrived h gang n b).mapSeq h.u fun q =>
        { q with park := .barrier tok, parkAt := if h.q.park.stands then q.parkAt else s.env.cycle })) ∧
  (∀ (o : Out) (gang : Bool) (n c tok : Nat) (count : Src) (b : Bar) (s : State) (h : Here),
    (Instr.bararr o gang n count).wf = true → (Instr.bararr o gang n count).legalIn .slice = true → s.here? = some h →
    h.isSlice = true → h.q.parted = false → allMet h s = true → readyResult (metHere h s) s o = .ok () →
    barValue (metHere h s) s count = .ok (some c) → arrivalReady (metHere h s) s = .ok () →
    (barOf (metHere h s) gang n s).arrive c = some (b, tok) →
    ∃ t : State, exec (.bararr o gang n count) s = .next ((advanceOthers h t).advance h.u) ∧
      LanesReceive (s.arrived (metHere h s) gang n b) t (metHere h s) o false ((metHere h s).active s)
        fun _ => knownCells false tok) ∧
  ∀ (x : Bar) (c : Nat), 0 < c → c ≤ 1024 → x.target = 0 ∨ x.target = c →
    x.arrive c = some (if x.arrived + 1 = c then { target := 0, arrived := 0, phase := (x.phase + 1) % 256 }
      else { target := c, arrived := x.arrived + 1, phase := x.phase }, x.phase)

/-! ## Banks -/

/-- `battach`, `bstat`, `bwait`, `bmirror`, `bshare` (R205, R214, R217, R218, R220 to R222): a detached slot takes the bank named,
or the lowest free one, with GEN one higher, else the result is 0xFFFFFFFF; the bank words are delivered; the mirror flag
stands at the one slot named; a free share entry is taken, with status 0, or the status is 1.
SHIDX and MSLOT after a share or a mirror ends are free values (DESIGN CHOICE log 20: DESIGN CHOICE). -/
def Obligations.BanksComplete : Prop :=
  (∀ (o : Out) (slot : Src) (bank : Option Src) (n : Nat) (r : List Nat) (s : State) (h : Here) (x : Blk),
    AtBlock (.battach o slot bank) s h x → readyResult h s o = .ok () →
    upNums h s ((slot, .w32) :: (bank.toList.map fun b => (b, .w32))) = .ok (n :: r) → n ≤ 15 → (∀ k ∈ r, k ≤ 63) →
    (x.slot n).st = 0 →
    match (if bank.isSome then (s.freeBanks (tillerOf x.core)).find? (· == r.headD 0)
           else (s.freeBanks (tillerOf x.core)).head?) with
    | some k => Gives (.battach o slot bank) s (s.mapBlk h.b (Blk.setSlot n fun z =>
        { z with st := 1, bank := k, ro := false, gen := (z.gen + 1) % 256, mirror := false, shared := false, target := none })) h o k
    | none => Gives (.battach o slot bank) s s h o 0xFFFFFFFF) ∧
  (∀ (o : Out) (slot : Src) (n : Nat) (s : State) (h : Here) (x : Blk), s.here? = some h → readyResult h s o = .ok () →
    upNums h s [(slot, .w32)] = .ok [n] → n ≤ 15 →
    (AtBlock (.bstat o (some slot) false) s h x → Gives (.bstat o (some slot) false) s s h o (x.slot n).word) ∧
    (AtBlock (.bwait o slot) s h x → if (x.slot n).st = 1 then Gives (.bwait o slot) s s h o (x.slot n).word
      else Waits (.bwait o slot) s s h .waiting)) ∧
  (∀ (o : Out) (clr : Bool) (s : State) (h : Here) (x : Blk), AtBlock (.bstat o none clr) s h x → readyResult h s o = .ok () →
    upNums h s [] = .ok [] →
    Gives (.bstat o none clr) s (if clr then s.mapBlk h.b fun y => { y with mdrop := false } else s) h o x.bankWord) ∧
  (∀ (slot : Src) (n : Nat) (s : State) (h : Here) (x : Blk), AtBlock (.bmirror (some slot)) s h x →
    upNums h s [(slot, .w32)] = .ok [n] → n ≤ 15 → (x.slot n).st = 1 → (x.slot n).ro = false → (x.slot n).shared = false →
    exec (.bmirror (some slot)) s = .next ((s.mapBlk h.b fun y =>
      { y with slots := y.slots.mapIdx fun i z => { z with mirror := i == n } }).advance h.u)) ∧
  (∀ (s : State) (h : Here) (x : Blk), AtBlock (.bmirror none) s h x → upNums h s [] = .ok [] →
    ∃ t : State, exec (.bmirror none) s = .next (t.advance h.u) ∧
      if x.mirrorSlot = none then t = s
      else ∃ v, t = (s.mapBlk h.b fun y => { y with mslot := v, slots := y.slots.map fun z => { z with mirror := false } }).spendFree) ∧
  (∀ (o : Out) (slot index : Src) (ro : Bool) (n i : Nat) (s : State) (h : Here) (x : Blk) (g : Gang),
    AtBlock (.bshare o slot index ro) s h x → readyResult h s o = .ok () →
    upNums h s [(slot, .w32), (index, .w32)] = .ok [n, i] → n ≤ 15 → i ≤ 63 → (x.slot n).st = 1 → (x.slot n).shared = false →
    (x.slot n).mirror = false → s.gangOf h.b = some g →
    if ∃ e ∈ g.share, e.1 = i then Gives (.bshare o slot index ro) s s h o 1
    else Gives (.bshare o slot index ro) s
      ((s.mapGang g.launch g.no fun y => { y with share := y.share ++ [(i, tillerOf x.core, (x.slot n).bank, ro || (x.slot n).ro)] }).mapBlk
        h.b (Blk.setSlot n fun z => { z with shared := true, shidx := i })) h o 0) ∧
  ∀ (slot : Src) (n : Nat) (s : State) (h : Here) (x : Blk) (g : Gang), AtBlock (.bshareOff slot) s h x →
    NamesSlot h s slot n → s.gangOf h.b = some g →
    if (x.slot n).shared = false then exec (.bshareOff slot) s = .next (s.advance h.u)
    else
      let s1 := s.mapGang g.launch g.no fun y => { y with share := y.share.filter fun e =>
        !(e.1 == (x.slot n).shidx && e.2.1 == tillerOf x.core && e.2.2.1 == (x.slot n).bank) }
      if s1.shareDrained g (tillerOf x.core) (x.slot n).bank = true then
        ∃ v, exec (.bshareOff slot) s =
          .next (((s1.mapBlk h.b (Blk.setSlot n fun z => { z with shared := false, shidx := v })).spendFree).advance h.u)
      else Waits (.bshareOff slot) s s1 h (.bank n)

/-- `bdetach` and BANK_DRAIN_COMPLETE (R205, R207, R210, R215): `bdetach` of a detached slot completes at once; an attached slot begins
to drain; once every earlier access of the block to the bank has performed, BANK_DRAIN_COMPLETE returns the bank zeroed to the free
pool, or attaches it at the target of a `give` with GEN one higher; and `bdetach`, which waits for its slot, completes once the slot
drains no longer.
BANK after a detach is a free value (DESIGN CHOICE log 20: DESIGN CHOICE). -/
def Obligations.BanksDrain : Prop :=
  ((∀ (slot : Src) (n : Nat) (s : State) (h : Here) (x : Blk), AtBlock (.bdetach slot) s h x → (∀ j, h.q.park ≠ .bank j) →
    upNums h s [(slot, .w32)] = .ok [n] → n ≤ 15 →
    ((x.slot n).st = 0 → exec (.bdetach slot) s = .next (s.advance h.u)) ∧
    ((x.slot n).st = 2 → Waits (.bdetach slot) s s h (.bank n)) ∧
    ((x.slot n).st = 1 → (x.slot n).shared = false → s.bankRecord x n (x.slot n).bank = none →
      ∃ v, Waits (.bdetach slot) s ((s.mapBlk h.b fun y =>
        { (Blk.setSlot n (fun z => { z with mirror := false, st := 2, target := none }) y) with
          mslot := if (x.slot n).mirror then v else y.mslot }).spendFree) h (.bank n))) ∧
  (∀ (slot : Src) (n : Nat) (s : State) (h : Here) (x : Blk), AtBlock (.bdetach slot) s h x → h.q.park = .bank n →
    if (x.slot n).st = 2 then Waits (.bdetach slot) s s h (.bank n)
    else ((x.slot n).st = 1 → (x.slot n).shared = false) → exec (.bdetach slot) s = .next (s.advance h.u))) ∧
  ∀ (b n : Nat) (s : State) (x : Blk), s.blk? b = some x → (x.slot n).st = 2 → x.phase ≠ .retired → Memory.wf s.mem.bytes →
    s.bankDrained x (x.slot n).bank = true →
    ((x.slot n).target = none → ∃ t : State, exec (.bankDrainComplete b n) s = .next t ∧
      (∀ k, readByte t.mem.bytes k = if inBank (tillerOf x.core) (x.slot n).bank k then 0 else readByte s.mem.bytes k) ∧
      (∃ y, t.blk? b = some y ∧ (y.slot n).st = 0 ∧ ∀ j, j ≠ n → y.slot j = x.slot j) ∧
      ∀ c, c ≠ b → t.blk? c = s.blk? c) ∧
    (∀ c k y, (x.slot n).target = some (c, k) → c ≠ b → s.blk? c = some y → y.phase = .resident → k < y.slots.length →
      s.frameOf c = none → ∃ t : State, exec (.bankDrainComplete b n) s = .next t ∧ t.mem = s.mem ∧
        (∃ z, t.blk? b = some z ∧ (z.slot n).st = 0 ∧ ∀ j, j ≠ n → z.slot j = x.slot j) ∧
        ∃ z, t.blk? c = some z ∧ (∀ j, j ≠ k → z.slot j = y.slot j) ∧
          z.slot k = { y.slot k with st := 1, bank := (x.slot n).bank, gen := ((y.slot k).gen + 1) % 256, mirror := false
                                     shared := false, target := none })

/-- `give` (R216): where the target slot is taken, it completes with 1; else its slot begins to drain towards the slot of the target,
which begins to arrive; and once the bank has moved, the instruction completes with 0. `bzero` (R219): the stores over the whole
bank, 32 bytes each from the lowest address, stand last in the block's order; the instruction completes once every one of them has
its place. -/
def Obligations.BanksGivenZeroed : Prop :=
  ((∀ (o : Out) (slot member tslot : Src) (ro : Bool) (n : Nat) (s : State) (h : Here) (x : Blk),
    AtBlock (.give o slot member tslot ro) s h x → h.q.park = .bank n → (x.slot n).st ≠ 2 →
    Gives (.give o slot member tslot ro) s s h o 0) ∧
  (∀ (o : Out) (slot member tslot : Src) (ro : Bool) (n m k : Nat) (s : State) (h : Here) (x y : Blk),
    AtBlock (.give o slot member tslot ro) s h x → (∀ j, h.q.park ≠ .bank j) → readyResult h s o = .ok () →
    upNums h s [(slot, .w32), (member, .w32), (tslot, .w32)] = .ok [n, m, k] → n ≤ 15 → k ≤ 15 → m < x.desc.gang →
    (x.slot n).st = 1 → (x.slot n).shared = false → (x.slot n).mirror = false → s.giveTarget x m = some y →
    s.bankRecord x n (x.slot n).bank = none →
    if (y.slot k).st ≠ 0 then Gives (.give o slot member tslot ro) s s h o 1
    else Waits (.give o slot member tslot ro) s
      (((s.mapBlk y.id (Blk.setSlot k fun z => { z with st := 3, bank := (x.slot n).bank, ro := (x.slot n).ro || ro })).syncFrame
        y.id).mapBlk h.b (Blk.setSlot n fun z => { z with st := 2, target := some (y.id, k) })) h (.bank n))) ∧
  (∀ (slot : Src) (n : Nat) (s : State) (h : Here) (x : Blk), AtBlock (.bzero slot) s h x → (∀ id, h.q.park ≠ .access id) →
    upNums h s [(slot, .w32)] = .ok [n] → n ≤ 15 → (x.slot n).st = 1 → (x.slot n).ro = false →
    s.boardHit h.u (.direct (bankOf x (x.slot n).bank 0)) 131072 = false →
    ∃ u : State, Sent s u (sent h s .store 32 0 none none (zeroLanes x n (x.slot n))) ∧ u.regs = s.regs ∧
      exec (.bzero slot) s = finish h s (storePlaced h u s.env.fresh)) ∧
  ∀ (slot : Src) (id : Nat) (s : State) (h : Here) (a : Access), s.here? = some h → h.q.park = .access id →
    s.access? id = some a → (a.lanes.all fun y => y.st == .done) = true → exec (.bzero slot) s = .next (s.advance h.u)

/-! ## The matrix class -/

/-- `mfree`, `mscale`, `mzero`, `mma`, `mclr` (R149 to R152, R156, R158, R168 to R170, R172, R174): with room in the matrix queue
and for the tiles, the instruction completes with its entry last in the queue; an `mma` with a panel takes the registers'
values along. -/
def Obligations.MatrixQueued : Prop :=
  (∀ (i : Instr) (e : MQEntry) (s : State) (h : Here) (x : Blk), AtBlock i s h x → gate h s = .ok () → x.mq.length < 4 →
    ((∃ n, i = .mfree true n ∧ e = .mfreeTile n) ∨ (∃ n, i = .mfree false n ∧ e = .mfreeHandle n) ∨ (i = .mclr ∧ e = .mclr) ∨
      (i = .swf ∧ e = .swf)) →
    exec i s = .next ((s.queued h.b x [] e).advance h.u)) ∧
  (∀ (hn : Option Nat) (v : Src) (n : Nat) (s : State) (h : Here) (x : Blk), AtBlock (.mscale hn v) s h x →
    upNums h s [(v, .flt .f32)] = .ok [n] → x.mq.length < 4 →
    exec (.mscale hn v) s = .next ((s.queued h.b x [] (.mscale hn (BitVec.ofNat 32 n))).advance h.u)) ∧
  (∀ (acc : Nat) (s : State) (h : Here) (x : Blk), AtBlock (.mzero acc) s h x → gate h s = .ok () → QueueTakes s x [acc] →
    exec (.mzero acc) s = .next ((s.queued h.b x [acc] (.mzero acc)).advance h.u)) ∧
  ∀ (acc a b k : Nat) (wide : Bool) (panel : Option (MTy × Nat)) (ns : List Nat) (s : State) (h : Here) (x : Blk),
    AtBlock (.mma acc a b k wide panel) s h x → gate h s = .ok () → ns = (if wide then [acc, acc + 1] else [acc]) →
    QueueTakes s x ns → x.stale a = none → (panel = none → x.stale b = none) →
    (∀ p, panel = some p → (capturePanel h s p.1 (kOf k) p.2).2 = [] ∧
      h.boundsOk [(p.2, panelRegs h p.1 (kOf k))] = true) →
    exec (.mma acc a b k wide panel) s = .next ((s.queued h.b x ns
      (.mma acc a b (kOf k) wide (panel.map fun p => (p.1, (capturePanel h s p.1 (kOf k) p.2).1)))).advance h.u)

/-- MATRIX_QUEUE_EXECUTE (R149, R151, R159, R169, R174): the oldest entry of the block's queue has its effect, and nothing else
changes: a tile is zeroed or freed, a handle is freed or scaled, the generation rises, the log is cleared, or every element of
the accumulator takes the chunks of its products. -/
def Obligations.MatrixQueueExecutes : Prop :=
  ∀ (b : Nat) (s : State) (x : Blk) (e : MQEntry) (r : List MQEntry), s.blk? b = some x → x.mq = e :: r →
    ∃ (t : State) (y : Blk), exec (.matrixQueueExecute b []) s = .next t ∧ t = { s with blks := t.blks } ∧
      (∀ c, c ≠ b → t.blk? c = s.blk? c) ∧ t.blk? b = some y ∧
      y = { x with mq := r, tiles := y.tiles, handles := y.handles, gen := y.gen, ps := y.ps, merrSticky := y.merrSticky
                   merrOvf := y.merrOvf, mlog := y.mlog } ∧
      match e with
      | .mzero a => (y.tile? a).isSome ∧ (∀ m n, y.tileWord a m n = 0) ∧ (∀ c, c ≠ a → y.tile? c = x.tile? c) ∧
          y.handles = x.handles
      | .mfreeTile a => (∀ c, y.tile? c = if c = a then none else x.tile? c) ∧ y.handles = x.handles
      | .mfreeHandle a => (∀ c, y.handle? c = if c = a then none else x.handle? c) ∧ y.tiles = x.tiles
      | .mscale (some a) v => (∀ c, y.handle? c = if c = a then (x.handle? c).map fun z => { z with scale := v } else x.handle? c) ∧
          y.tiles = x.tiles
      | .mscale none v => y = { x with mq := r, ps := v }
      | .swf => y = { x with mq := r, gen := x.gen + 1 }
      | .mclr => y = { x with mq := r, merrSticky := false, merrOvf := false, mlog := [] } ∧ y.merr = 0
      | .mma acc a c k wide panel =>
          ∀ (ha : Handle) (kb : Nat) (tb : MTy) (sb : Word), x.handle? a = some ha →
            (match panel with
             | some p => kb = k ∧ tb = p.1 ∧ sb = x.ps
             | none => ∃ z, x.handle? c = some z ∧ kb = z.k ∧ tb = z.ty ∧ sb = z.scale) →
            min k (min ha.k kb) ≠ 0 → y.handles = x.handles ∧
            (∀ n, n ≠ acc → (wide → n ≠ acc + 1) → y.tile? n = x.tile? n) ∧
            ∀ m < 64, ∀ n < 64,
              let z := mmaElement x ha c kb tb sb k wide panel m n
                ((x.tileWord acc m n).toNat + if wide then (x.tileWord (acc + 1) m n).toNat * 2 ^ 32 else 0)
              y.tileWord acc m n = BitVec.ofNat 32 z ∧ (wide → y.tileWord (acc + 1) m n = BitVec.ofNat 32 (z / 2 ^ 32))

/-- `mload`, `mstore`, `mget`, `mput`, `merr` (R153 to R155, R162, R167, R171, R173, R174): once its lines have arrived an `mload`
binds the handle, with status 0, or leaves it unbound, with status 1, where the operand cache is full; an `mstore` issues a
store of each row; `mget` and `mput` move a tile to and from the registers of groups 0 to 3; `merr` delivers `cr.merr` or a log
entry.
That they wait for an empty queue is the model's reading (DEDUCED log 54: DEDUCED). -/
def Obligations.MatrixTransfers : Prop :=
  (∀ (o : Out) (n : Nat) (base stride : Src) (ty : MTy) (k va st id : Nat) (s s1 : State) (h : Here) (x : Blk) (a : Access),
    AtBlock (.mload o n base stride ty k) s h x → readyResult h s o = .ok () →
    upNums h s [(base, .addr), (stride, .w32)] = .ok [va, st] → x.mq = [] → h.q.park = .access id → s.access? id = some a →
    (a.lanes.all fun y => y.st == .done && !y.lost) = true → s1 = (s.dropAcc a).mapBlk h.b (Blk.dropHandle n) →
    if Config.operandCacheBytes < s1.cacheOn x.core + MTy.copyBytes ty (kOf k) then
      Gives (.mload o n base stride ty k) s s1 h o 1
    else Gives (.mload o n base stride ty k) s (s1.mapBlk h.b fun y => { y with handles := y.handles ++
      [{ n := n, ty := ty, k := kOf k, base := va, stride := st, scale := 0x3F800000, gen := x.gen
         copy := copyOf ⟨ty, kOf k, va, st⟩ (a.lanes.take (linesOf (lineSpans ty (kOf k) va st)).length) [] }] }) h o 0) ∧
  (∀ (acc : Nat) (base stride : Src) (va st : Nat) (s : State) (h : Here) (x : Blk) (ls : List LaneAcc),
    AtBlock (.mstore acc base stride) s h x → upNums h s [(base, .addr), (stride, .w32)] = .ok [va, st] → x.mq = [] →
    va % 4 = 0 → st % 4 = 0 → memBars h s true false = .ok () → (s.board x.core).length < Config.scoreboardPerCore →
    s.env.dataErr = false → checkLanes h s .store false (openInfo · true) (rowLanes (x.tileWord acc) va st) = .ok ls →
    pagesMapped h s true ls = .ok () →
    Unpoisoned s (sent h s .store 256 0 none none ls) →
    ∃ u : State, exec (.mstore acc base stride) s = .next ((performUpTo s.env.fresh s.env.budget u).advance h.u) ∧
      Sent s u (sent h s .store 256 0 none none ls) ∧ u.regs = s.regs) ∧
  (∀ (v acc : Nat) (s : State) (h : Here) (x : Blk), AtBlock (.mget v acc) s h x → gate h s = .ok () → h.desc.width ≤ 3 →
    moveBounds h s v = .ok () → x.mq = [] → s.env.dataErr = false → (∀ p ∈ tileRegs h s v true, ∃ w, s.cell p.2 = .known w) →
    ∃ t : State, exec (.mget v acc) s = .next (t.advance h.u) ∧ t = { s with regs := t.regs } ∧
      ∀ k : RegKey, match k with
        | .vec b g l r => t.cell k = (if b = h.b ∧ g ∈ presentGroups h s ∧ l < h.desc.lanes ∧ l < 64 ∧
              s.retired (.slice h.b g (l / 4)) = false ∧ v ≤ r ∧ r - v < 16 * (64 / h.desc.lanes) then
            .known (x.tileWord acc (16 * g + (r - v) / (64 / h.desc.lanes))
              ((r - v) % (64 / h.desc.lanes) * h.desc.lanes + l))
          else s.cell k)
        | _ => t.cell k = s.cell k) ∧
  (∀ (acc v : Nat) (s : State) (h : Here) (x : Blk), AtBlock (.mput acc v) s h x → gate h s = .ok () → h.desc.width ≤ 3 →
    moveBounds h s v = .ok () → x.mq = [] → (∀ p ∈ tileRegs h s v false, ∃ w, s.cell p.2 = .known w) →
    (x.tile? acc).isSome ∨ s.tilesOn x.core < 32 →
    ∃ (t : State) (y : Blk), exec (.mput acc v) s = .next (t.advance h.u) ∧ t = { s with blks := t.blks } ∧
      t.blk? h.b = some y ∧ y = { x with tiles := y.tiles } ∧ (∀ c, c ≠ h.b → t.blk? c = s.blk? c) ∧
      (∀ c, c ≠ acc → y.tile? c = x.tile? c) ∧
      ∀ m < 64, ∀ n < 64, y.tileWord acc m n = if m / 16 ∈ presentGroups h s then
        s.word (.vec h.b (m / 16) (n % h.desc.lanes) (v + m % 16 * (64 / h.desc.lanes) + n / h.desc.lanes)) else 0) ∧
  ∀ (o : Out) (sel : Nat) (s : State) (h : Here) (x : Blk), AtBlock (.merr o sel) s h x → gate h s = .ok () →
    readyResult h s o = .ok () → x.mq = [] →
    Gives (.merr o sel) s s h o (if sel = 0 then x.merr else (x.mlog.getD (sel - 1) 0).toNat)

/-! ## Engines -/

/-- `cpy`, `cpyd`, `gat`, `sct`, `coll` (R230, R242 to R245): once the checks of all commands pass and there is room, in a step that
creates all of them the instruction completes with the tickets as its results: a command for each executing lane, or for `gat` and
`sct` one command with an element for each; one command more stands pending in the block, with the next SEQ as its ticket (R226).
The number of commands created in one step is an operand of the agenda (DESIGN CHOICE log 2: DESIGN CHOICE). -/
def Obligations.EngineCommandsIssue : Prop :=
  (∀ (o : Out) (d e n : Src) (tag : Option Nat) (sh : Bool) (s t : State) (h : Here) (xs : List (LaneId × List Nat))
    (cs : List (Nat × Cmd)),
    At (.cpy o d e n tag sh) s h → (∀ r g, h.q.park ≠ .cmds r g) → readyResult h s o = .ok () →
    laneAddrs h s 7 [(d, .addr), (e, .addr), (n, .w32)] = .ok xs → memBars h s false false = .ok () →
    prepCmds h tag (xs.map fun p =>
      { lane := p.1, segs := [⟨p.2.headD 0, (p.2.drop 1).headD 0, (p.2.drop 2).headD 0⟩], coll := none, shadow := sh, bad := false })
      s = .ok (t, cs) → cs.length ≤ s.env.budget →
    exec (.cpy o d e n tag sh) s = .next ((writeResults h o (t.created h cs).2 (t.created h cs).1).advance h.u)) ∧
  (∀ (o : Out) (d : Src) (tag : Option Nat) (sh coll : Bool) (s t : State) (h : Here) (a : Access) (cs : List (Nat × Cmd)),
    At (if coll then .coll o d tag sh else .cpyd o d tag sh) s h → DescsRead s h a →
    prepCmds h tag ((a.descs h).map (if coll then collReq sh else cpydReq sh)) s = .ok (t, cs) → cs.length ≤ s.env.budget →
    exec (if coll then .coll o d tag sh else .cpyd o d tag sh) s =
      .next ((writeResults h o ((dropDescs h t).created h cs).2 ((dropDescs h t).created h cs).1).advance h.u)) ∧
  (∀ (o : Out) (b a n : Src) (tag : Option Nat) (sc : Bool) (v w : Nat) (s t : State) (h : Here)
    (x : LaneId × List Nat) (xs : List (LaneId × List Nat)) (cs : List (Nat × Cmd)),
    At (if sc then .sct o a b n tag else .gat o b a n tag) s h → readyResult h s o = .ok () →
    laneAddrs h s 7 [(b, .addr), (a, .addr), (n, .w32)] = .ok (x :: xs) →
    (∀ p ∈ x :: xs, p.2.headD 0 = v ∧ (p.2.drop 2).headD 0 = w) → memBars h s false false = .ok () →
    prepCmds h tag [{ lane := x.1, coll := none, shadow := false, bad := w == 0 || 65536 < w
                      segs := (x :: xs).map fun p =>
                        let far := (v + (if h.isSlice then p.1.l else 0) * w) % 2 ^ 64
                        if sc then ⟨(p.2.drop 1).headD 0, far, w⟩ else ⟨far, (p.2.drop 1).headD 0, w⟩ }] s = .ok (t, cs) →
    exec (if sc then .sct o a b n tag else .gat o b a n tag) s =
      .next ((writeResults h o ((x :: xs).map fun p => (p.1, (((t.created h cs).2.head?.map (·.2)).getD 0))) (t.created h cs).1).advance h.u)) ∧
  ∀ (tag : Option Nat) (r : Req) (s : State) (h : Here) (x : Blk) (ts : List (Touch × Reach)),
    s.blk? h.b = some x → r.plain → checkTouches h s [r] = .ok ts → s.atHead h.u = true → s.divPending (dieOf x.core) = false →
    s.windowsDrained h.u = true → (x.cmds.filter (·.st == 0)).length < 64 → (∀ c ∈ x.cmds, c.seq ≠ x.nextSeq) →
    (needsEntry s x.core ts 0 = true → (s.board x.core).length < Config.scoreboardPerCore) →
    (∀ w, tag = some w → s.ctrFull (s.ctrGroups h.u) w = false) →
    let gs := if tag.isSome then s.ctrGroups h.u else []
    let c := { r.cmd h 0 s.env.fresh tag gs with trans := windowTrans ts 0, marks := markedPages ts 0 }
    let t := s.bump.bumpCtrs gs (tag.getD 0) (· + 1)
    prepCmds h tag [r] s = .ok (t, [(r.lane.l, c)]) ∧
      t.created h [(r.lane.l, c)] = ((t.mapSeq h.u fun q => { q with park := .cmds [] [] }).mapBlk h.b fun y =>
        { y with cmds := keepCmds (y.cmds ++ [{ c with seq := x.nextSeq }])
                 nextSeq := if x.nextSeq = 65535 then 1 else x.nextSeq + 1 }, [(⟨h.b, h.g, r.lane.l⟩, x.nextSeq)])

/-- `epoll`, `ewait`, `ecancel`, `pub` (R226, R246 to R248): the status words of the tickets are delivered, at once or when they
are final; in a slice clause `ewait` leaves a new symbol that the tickets feed; a command that is cancelled is pending no more;
`pub` makes the shadow frames of the pages current, or gives them up, and delivers their number. -/
def Obligations.TicketsComplete : Prop :=
  (∀ (o : Out) (tk : Src) (s : State) (h : Here) (x : Blk) (xs : List (LaneId × List Nat)), At (.epoll o tk) s h →
    s.blk? h.b = some x → readyResult h s o = .ok () → laneAddrs h s 7 [(tk, .w32)] = .ok xs → s.atHead h.u = true →
    exec (.epoll o tk) s = .next ((writeResults h o (xs.map fun p => (p.1, x.ticketWord (p.2.headD 0))) s).advance h.u)) ∧
  (∀ (o : Out) (tk : Src) (n : Nat) (s : State) (h : Here) (x : Blk), At (.ewait o tk) s h → h.u = .block h.b →
    s.blk? h.b = some x → readyResult h s o = .ok () → upNums h s [(tk, .w32)] = .ok [n] → s.atHead h.u = true →
    if x.ticketWord n / 2 ^ 16 % 16 = 0 then Waits (.ewait o tk) s s h .waiting
    else Gives (.ewait o tk) s s h o (x.ticketWord n)) ∧
  (∀ (o : Out) (tk : Src) (n : Nat) (s : State) (h : Here) (xs : List (LaneId × List Nat)), At (.ewait o tk) s h →
    h.isSlice = true → readyResult h s o = .ok () → laneAddrs h s 7 [(tk, .w32)] = .ok xs → xs ≠ [] →
    s.freeSym (s.quarter h.b h.g) = some n →
    ∃ u : State, exec (.ewait o tk) s = .next (u.advance h.u) ∧
      u = { s with regs := u.regs, syms := s.syms ++ [{ q := s.quarter h.b h.g, sym := n, b := h.b, g := h.g, poison := none
                                                        feed := .tickets h.b (xs.map fun p => (p.1.l, p.2.headD 0 % 65536))
                                                        deferred := [] }] } ∧
      HoldsLoaded s u h o (xs.map (·.1)) (freshCells (s.quarter h.b h.g) n 4)) ∧
  (∀ (tk : Option Src) (q : Nat) (s : State) (h : Here) (x : Blk) (xs : List (LaneId × List Nat)), s.here? = some h →
    s.blk? h.b = some x → (∀ c ∈ x.cmds, c.coll = none ∧ c.shadow = false) → s.atHead h.u = true →
    (match tk with
     | none => (h.isSlice = true → h.active s ≠ []) ∧ (h.isSlice = false → gate h s = .ok ())
     | some a => laneAddrs h s 7 [(a, .w32)] = .ok xs ∧ ∃ p ∈ xs, p.2.headD 0 % 65536 = q) →
    ∃ (t : State) (y : Blk), exec (.ecancel tk) s = .next (t.advance h.u) ∧ t.blk? h.b = some y ∧ t.regs = s.regs ∧
      (∀ c ∈ y.cmds, tk = none ∨ c.seq = q → c.st ≠ 0) ∧
      (∀ c ∈ y.cmds, c ∈ x.cmds ∨ ∃ d ∈ x.cmds, d.st = 0 ∧ c = { d with st := 2, cause := 0, reason := 0, paused := none }) ∧
      ∀ e ∈ t.qs.eq, e ∈ s.qs.eq) ∧
  ∀ (o : Out) (base size : Src) (drop : Bool) (b n : Nat) (s : State) (h : Here) (ts : List Touch) (pages : List Nat)
    (held : List (Nat × Nat)),
    At (.pub o base size drop) s h → h.isSlice = false → upNums h s [(base, .addr), (size, .w32)] = .ok [b, n] →
    readyResult h s o = .ok () → b % 65536 = 0 → n % 65536 = 0 →
    ts = ((pagePieces b n).map fun p =>
      { idx := 0, lane := ⟨h.b, h.g, 0⟩, dst := true, shadow := false, addr := p.1, len := p.2 }) →
    (∀ t ∈ ts, ∀ c, touchReach h s t ≠ .fault c) →
    pages = (ts.filterMap fun t => if regionOf t.addr == .global then s.pageOf h.ctx t.addr else none).dedup →
    held = pages.filterMap (fun p => (lookup? p (s.ctx h.ctx).shadow).map fun f => (p, f)) →
    (drop = false → ∀ p ∈ held, ∃ a w e l, s.stage2 (p.1 * 65536) = .leaf a w e l) → s.shadowBusy h.ctx pages = false →
    Gives (.pub o base size drop) s
      (held.foldl (fun t p => if drop then t.returnFrame h.ctx p.2 else swapPage h.ctx p.1 p.2 t) s) h o held.length

/-- ENGINE_READ, DRAIN_ENGINE_WRITE, PAGE_BOUNDARY_REVALIDATION of a command that is no collective (R193, R231 to R233, R276): a unit's
bytes are read and join the command's buffer or its writes, and M is unchanged; a write whose turn has come changes its
bytes of M and no other; a page that stage 1 and the route admit is translated, and one that they refuse freezes the channel. -/
def Obligations.EngineUnitsPerform : Prop :=
  (∀ (b seq unit : Nat) (s : State) (x : Blk) (c : Cmd) (p : Piece) (bs : List Byte), s.blk? b = some x →
    x.pending? seq = some c → x.frozen = false → c.coll = none → c.units[unit]? = some p → unit ∉ c.read →
    s.cmdMayRead c = true → c.dstReady p = true → s.refusedRead x c p = none → unitBytes s x c p = some bs →
    (s.payEngine x.ctx p.src (p.off == 0)).isSome = true →
    ∃ (t : State) (y : Blk) (d : Cmd) (es : List EEntry), exec (.engineRead b seq unit false) s = .next t ∧ t.regs = s.regs ∧
      t.mem.bytes = s.mem.bytes ∧ t.blk? b = some y ∧ y.pending? seq = some d ∧
      d = { c with read := c.read ++ [unit], buf := d.buf } ∧
      (∀ q ∈ d.buf, q ∈ c.buf ∨ ∃ o < p.len, q = (p.off + o, bs.getD o 0)) ∧ t.qs.eq = s.qs.eq ++ es ∧
      ∀ e ∈ es, e.b = b ∧ e.seq = seq ∧ ∃ w ∈ c.writes, e.vaddr = w.dst ∧ c.key? true w.dst = some e.key ∧
        e.data.length = w.len ∧ ∀ o < w.len, (w.off + o, e.data.getD o 0) ∈ c.buf ∨
          ∃ i < p.len, w.off + o = p.off + i ∧ e.data.getD o 0 = bs.getD i 0) ∧
  (∀ (b idx : Nat) (s : State) (x : Blk) (e : EEntry), s.blk? b = some x → (s.qs.eq.filter (·.b == b))[idx]? = some e →
    Memory.wf s.mem.bytes → s.mayDrain x e = true → s.pathUp e.key = true → s.env.refused = false →
    (s.payEngine x.ctx e.vaddr (e.idx == 0)).isSome = true → (∀ c ∈ x.cmds, c.seq = e.seq → c.ctr = none ∧ c.coll = none) →
    ∃ t : State, exec (.drainEngineWrite b idx) s = .next t ∧ t.regs = s.regs ∧ Writes s t e.key e.data ∧
      ∀ f ∈ t.qs.eq, f ∈ s.qs.eq.erase e) ∧
  ∀ (b seq va ia k : Nat) (dst : Bool) (s : State) (x : Blk) (c : Cmd) (r : BitVec 128), s.blk? b = some x →
    x.pending? seq = some c → x.frozen = false → c.paused = none → c.nextPage = some (dst, va) → s.stage1 x.ctx va = some (r, ia) →
    (if dst then rightW r else rightR r) = true → s.heldIa ia = false →
    (s.route ia dst = .pkg k → s.heldPage k = false → (c.shadow && dst) = false →
      exec (.pageBoundaryRevalidation b seq) s = .next (s.mapCmd b seq fun d =>
        { d with trans := d.trans ++ [(dst, va / 65536, k - va % 65536, dst && c.marks.contains (va / 65536))] })) ∧
    (s.route ia dst = .prot → ∃ (t : State) (y : Blk), exec (.pageBoundaryRevalidation b seq) s = .next t ∧ t.blk? b = some y ∧
      y.frozen = true ∧ ∃ d, y.pending? seq = some d ∧ d = { c with refused := some .prot }) ∧
    (∀ m, s.route ia dst = .miss m → ∃ (t : State) (y : Blk) (n : Nat), exec (.pageBoundaryRevalidation b seq) s = .next t ∧
      t.blk? b = some y ∧ ∃ d, y.pending? seq = some d ∧ d = { c with paused := some n })

/-! ## Ordering and code -/

/-- `fence` and the drains and captures (R273, R275, R276, R282, R283): a fence that is enabled completes, and one that acquires
empties Y of the context; the head of a queue performs on M and leaves the queue; a captured line is the line of M. -/
def Obligations.QueuesDrain : Prop :=
  (∀ (sc : FScope) (k : FKind) (s : State) (h : Here), s.here? = some h → (h.isSlice = false → gate h s = .ok ()) →
    s.fenceClear h.u = true → fenceReady sc k h s = true →
    ∃ t : State, exec (.fence sc k) s = .next (t.advance h.u) ∧ t = { s with qs := { s.qs with ycap := t.qs.ycap } } ∧
      ∀ e, e ∈ t.qs.ycap ↔ e ∈ s.qs.ycap ∧
        ((k = .sysAcq ∨ k = .sys ∨ (k = .all ∧ sc = .system)) → e.1 ≠ h.ctx)) ∧
  (∀ (b : Nat) (e : QEntry) (s : State), (s.qs.tq.find? fun (e : QEntry) => e.unit.block? == some b) = some e → Memory.wf s.mem.bytes →
    (e.kind = .store ∨ e.kind = .storeSys ∨ s.holed e.key e.width = false) →
    ∃ t : State, exec (.drainTillerQueue b) s = .next t ∧ t.qs.tq = s.qs.tq.erase e ∧ e.Performs s t) ∧
  (∀ (u : UnitRef) (path : SysPath) (refused : Bool) (e : QEntry) (a : Access) (s : State),
    (s.qs.sq.find? fun (e : QEntry) => Sys2Proof.Machine.orderOf e.unit == u && e.path == some path) = some e → Memory.wf s.mem.bytes →
    s.access? e.acc = some a → a.poison = none → s.heldPage e.key = false →
    let up := match path with | .peer c => s.routeUp c | .host => s.chip.hostUp
    if refused = false ∧ up = true then
      ∃ t : State, exec (.drainSystemQueue u path refused) s = .next t ∧ t.qs.sq = s.qs.sq.erase e ∧ e.Performs s t
    else ∃ t : State, exec (.drainSystemQueue u path refused) s = .next t ∧ t.mem = s.mem ∧ t.qs.sq = s.qs.sq ∧
      t.access? e.acc = some { a with poison := some .isolation }) ∧
  (∀ (r : Nat) (e : InEntry) (s : State), (s.qs.inb.find? fun (e : InEntry) => e.requester == r) = some e → Memory.wf s.mem.bytes →
    e.wait = none → s.heldPage e.key = false →
    ∃ t : State, exec (.drainInboundQueue r) s = .next t ∧ t.regs = s.regs ∧ t.qs.inb = s.qs.inb.erase e ∧ Writes s t e.key e.data) ∧
  (∀ (src dst : Nat) (e : MEntry) (s : State) (x : Blk), (s.qs.mq.find? fun (e : MEntry) => e.src == src && e.dst == dst) = some e →
    Memory.wf s.mem.bytes → s.blk? dst = some x →
    ∃ t : State, exec (.drainMirrorQueue src dst) s = .next t ∧ t.qs.mq = s.qs.mq.erase e ∧
      match x.mirrorSlot with
      | some p => t.regs = s.regs ∧ Writes s t (bankOf x p.2.bank e.offset) e.data
      | none => t.blk? dst = some { x with mdrop := true }) ∧
  (∀ (ctx line : Nat) (s : State), s.sysLine line = true →
    ∃ t : State, exec (.captureSystemLine ctx line) s = .next t ∧ t = { s with qs := { s.qs with ycap := t.qs.ycap } } ∧
      ∀ e, e ∈ t.qs.ycap ↔ (e ∈ s.qs.ycap ∧ ¬(e.1 = ctx ∧ e.2.1 = line)) ∨
        e = (ctx, line, readBytes s.mem.bytes (line * 128) 128)) ∧
  ∀ (core line : Nat) (drop : Bool) (s : State), (drop = false → core < 868 ∧ isPackage (line * 128) = true ∧
      line ∉ s.mem.draft ∧ s.sysLine line = false ∧ s.holed (line * 128) 128 = false) →
    ∃ t : State, exec (.captureCodeLine core line drop) s = .next t ∧ t = { s with qs := { s.qs with fcap := t.qs.fcap } } ∧
      ∀ e, e ∈ t.qs.fcap ↔ (e ∈ s.qs.fcap ∧ ¬((if drop then e.1 ∈ buffersOf core else e.1 = core) ∧ e.2.1 = line)) ∨
        (drop = false ∧ e = (core, line, readBytes s.mem.bytes (line * 128) 128))

/-- `cpub` (R297, R298) and `bind` (R303): the draft marks of the range's lines are cleared and the lines leave the buffers of
the scope, and the count of marks is delivered; a bound entry holds STATE 2 and the target, with status 0: at once in package memory
and the block's own banks, by the queue of its path in a tiller window; an unpublished target gives 1 and an invalid one 2, and then
nothing is written. -/
def Obligations.CodePublished : Prop :=
  (∀ (o : Out) (base size : Src) (sc : FScope) (s : State) (h : Here) (x : Blk) (b n : Nat),
    At (.cpub o base size sc) s h → s.blk? h.b = some x → (h.isSlice = false → gate h s = .ok ()) →
    cpubRange base size h s = .ok (some (b, n)) → readyResult h s o = .ok () → memBars h s false false = .ok () →
    (∀ p ∈ linePieces b n, cpubCheck s h.ctx p.1 p.2 = none) → s.atHead h.u = true →
    cpubBusy s x (linePieces b n) = false → cpubHole s h.u h.ctx (linePieces b n) = false →
    let hit (key : Nat → Option Nat) (l : Nat) : Prop :=
      ∃ p ∈ linePieces b n, ∃ k, key p.1 = some k ∧ k / 128 ≤ l ∧ l ≤ (k + (p.2 - 1)) / 128
    ∃ (t : State) (m : Nat), exec (.cpub o base size sc) s = .next ((writeOne h o m t).advance h.u) ∧
      t = { s with mem := { s.mem with draft := t.mem.draft }, qs := { s.qs with fcap := t.qs.fcap } } ∧
      (∀ l, l ∈ t.mem.draft ↔ l ∈ s.mem.draft ∧ ¬hit (cpubKey s x.ctx) l) ∧
      m + t.mem.draft.length = s.mem.draft.length ∧
      ∀ e, e ∈ t.qs.fcap ↔ e ∈ s.qs.fcap ∧ ¬(hit (codeKey s x.ctx) e.2.1 ∧ cpubBuffer s sc x e.1 = true)) ∧
  ∀ (o : Out) (entry target : Src) (s : State) (h : Here) (x : LaneId) (e tgt : Nat) (y : LaneAcc),
    At (.bind o entry target) s h → readyResult h s o = .ok () → (∀ l, h.q.park ≠ .flips l) → 0 < s.env.budget →
    laneAddrs h s 7 [(entry, .addr), (target, .addr)] = .ok [(x, [e, tgt])] → memBars h s true false = .ok () →
    checkLanes h s .store true (openInfo · true) [laneAcc x.g x.l 0 8 (.known e) (.known 0) []] = .ok [y] →
    s.atHead h.u = true → s.env.dataErr = false → Memory.wf s.mem.bytes →
    (∀ ia, y.tgt = .inter ia → s.heldIa ia = false ∧ ∃ k, s.route ia true = .pkg k ∧ s.heldPage k = false) →
    ∃ (t : State) (st : Nat), exec (.bind o entry target) s = .next ((writeResults h o [(x, st)] t).advance h.u) ∧
      if targetBad s h.ctx tgt = true then st = 2 ∧ t = s
      else if targetDraft s h.ctx tgt = true then st = 1 ∧ t = s
      else st = 0 ∧
        (∀ k, (y.tgt = .direct k ∨ ∃ ia, y.tgt = .inter ia ∧ s.route ia true = .pkg k) →
          t.regs = s.regs ∧ Writes s t k (leBytes 8 (2 ^ 63 + tgt))) ∧
        ∀ k, y.tgt = .tiller k → ∃ q : QEntry, t = s.bump.addTq q ∧ q.key = k ∧ q.kind = .store ∧ q.width = 8 ∧ q.unit = h.u ∧
          q.data = leBytes 8 (2 ^ 63 + tgt)

/-- `callt` and CALLT_REPOLL (R300 to R302): a bound entry is called, exactly as `call` does; an unbound one becomes resolving,
and the unit takes BIND; a resolving one makes the unit wait; a unit that waits without a monitor reads its entry again. -/
def Obligations.LinkTableCalls : Prop :=
  (∀ (sc : Scope) (index : Src) (s : State) (h : Here) (i e ia key v : Nat) (r : BitVec 128),
    s.here? = some h → (∀ e, h.q.park ≠ .callt e false) → calltIndex h s index = .ok i → memBars h s true false = .ok () →
    h.desc.ltp ≠ 0 → e = (h.desc.ltp + 8 * i) % 2 ^ 64 → e % 8 = 0 → regionOf e = .global → s.stage1 h.ctx e = some (r, ia) →
    rightR r = true → s.route ia false = .pkg key → s.atHead h.u = true → s.heldIa ia = false → s.heldPage key = false →
    s.holed key 8 = false → s.env.dataErr = false → v = s.readNat key 8 → linkBad v = false →
    (v / 2 ^ 62 = 2 → (∀ u ∈ h.units, ∀ q, s.seq? u = some q → q.calls.length < Config.callDepth) →
      ∃ t : State, exec (.callt sc index) s = .next t ∧ OnlyTurns s t h ∧ ∀ u ∈ h.units, ∀ q, s.seq? u = some q →
        t.seq? u = some { q with clause := h.turned (fun _ => some (v % 2 ^ 57)) (fun _ => false) u q, park := .none, re := none
                                 calls := { ret := h.c.after, depth := q.loops.length, re := q.re } :: q.calls }) ∧
    (v / 2 ^ 62 = 0 → rightW r = true → s.route ia true ≠ .prot → Memory.wf s.mem.bytes →
      ∃ t : State, exec (.callt sc index) s = .next t ∧ t.regs = s.regs ∧ Writes s t key (leBytes 8 (v + 2 ^ 62)) ∧
        ∀ x, s.blk? h.b = some x → x.stop = none → h.u.block? = some h.b →
          ∃ y f, t.blk? h.b = some y ∧ y = { x with stop := some f } ∧ f.unit = h.u ∧ f.cause = .bind ∧ f.pc = h.pc ∧ f.addr = e) ∧
    (v / 2 ^ 62 = 1 → ∃ t : State, exec (.callt sc index) s = .next t ∧
      t = { s with qs := { s.qs with mons := t.qs.mons }, seqs := t.seqs } ∧ (∀ u, u ≠ h.u → t.seq? u = s.seq? u) ∧
      ∃ c, t.seq? h.u = some { h.q with park := .callt e false, parkAt := c })) ∧
  ∀ (u : UnitRef) (q : Seq) (e : Nat) (p : Bool) (s : State), s.seq? u = some q → q.park = .callt e p →
    (∀ m ∈ s.qs.mons, ¬(m.unit = u ∧ m.callt = true)) →
    exec (.calltRepoll u) s = .next (s.setSeq u { q with park := .callt e true })

/-! ## Launches -/

/-- `launch`, `cnt`, `cwait`, `cancel` (R313 to R315, R325, R328 to R332): status words and handles are delivered; a new entry
stands under its parent, whose PENDING rises, and its handle is the result; a closed phase or graph loses its own count;
`cwait` is over when the entry is final or unknown, and empties Y; a cancelled entry ends with all below it. -/
def Obligations.LaunchInstructions : Prop :=
  (∀ (s : State) (ctx v : Nat) (e : Entry), s.named ctx v = some e ↔
    v / 4096 % 16 ≠ 0 ∧ s.genOf (v % 4096) = v / 4096 % 16 ∧ s.entry? (v % 4096) = some e ∧ e.ctx = ctx) ∧
  (∀ (o : Out) (hd : Src) (s : State) (h : Here) (ls : List LaneId) (v : Nat), At (.cntRd o hd) s h → readyResult h s o = .ok () →
    oneOf h s [(hd, .w32)] = .ok (some (ls, [v])) → s.atHead h.u = true →
    exec (.cntRd o hd) s = .next ((oneResult h o ls (match s.named h.ctx v with
      | some e => e.st.code * 2 ^ 28 + kindCode e.kind * 2 ^ 25 + e.pending % 2 ^ 24 | none => 0) s).advance h.u)) ∧
  (∀ (o : Out) (k : CKind) (s : State) (h : Here), At (.cntSelf o k) s h → readyResult h s o = .ok () →
    (h.isSlice = false → gate h s = .ok ()) →
    ∃ t : State, exec (.cntSelf o k) s = .next (t.advance h.u) ∧ Delivers s t h o (s.handleOf (s.ownOf k 5 h.launch))) ∧
  (∀ (o : Out) (k : CKind) (hd : Src) (s t : State) (h : Here) (ls : List LaneId) (v i d : Nat) (p : Entry),
    At (.cntNew o k hd) s h → readyResult h s o = .ok () → oneOf h s [(hd, .w32)] = .ok (some (ls, [v])) →
    s.atHead h.u = true → s.named h.ctx v = some p → mayHold p.kind k = true → p.final = false → s.allocDie (s.dieOf h.u) = some d →
    s.allocEntry d (fun i => { idx := i, ctx := h.ctx, kind := k, parent := p.idx, pending := 1, st := .opened, isOpen := true
                               creator := h.launch, hard := false, drained := false, launch := none, job := none }) = some (t, i) →
    exec (.cntNew o k hd) s = .next ((oneResult h o ls (t.genOf i * 4096 + i % 4096)
      (t.mapEntry p.idx fun x => { x with pending := x.pending + 1 })).advance h.u)) ∧
  (∀ (o : Out) (hd : Src) (s : State) (h : Here) (ls : List LaneId) (v : Nat), At (.cntClose o hd) s h →
    readyResult h s o = .ok () → oneOf h s [(hd, .w32)] = .ok (some (ls, [v])) → s.atHead h.u = true →
    exec (.cntClose o hd) s = .next (match s.named h.ctx v with
      | some e => if e.kind = .launch ∨ e.kind = .job then (oneResult h o ls 3 s).advance h.u
        else if e.final = true ∨ e.isOpen = false then (oneResult h o ls 1 s).advance h.u
        else (oneResult h o ls 0 ((s.mapEntry e.idx Entry.close).settleAll)).advance h.u
      | none => (oneResult h o ls 3 s).advance h.u)) ∧
  (∀ (o : Out) (hd : Src) (s : State) (h : Here) (v : Nat), At (.cwait o hd) s h → h.isSlice = false →
    upNums h s [(hd, .w32)] = .ok [v] → readyResult h s o = .ok () → s.atHead h.u = true →
    match s.named h.ctx v with
    | some e => if e.st = .done ∨ e.st = .cancelled then Gives (.cwait o hd) s (s.emptyY h.ctx) h o e.word
      else Waits (.cwait o hd) s s h .waiting
    | none => Gives (.cwait o hd) s (s.emptyY h.ctx) h o 0) ∧
  (∀ (o : Out) (hd : Src) (hard : Bool) (s : State) (h : Here) (v : Nat),
    At (if hard then .cancel o hd else .cancelDrain o hd) s h → upNums h s [(hd, .w32)] = .ok [v] → readyResult h s o = .ok () →
    s.atHead h.u = true → exec (if hard then .cancel o hd else .cancelDrain o hd) s = .next (match s.matchHandle v with
      | some e => if e.ctx ≠ h.ctx then (writeOne h o 2 s).advance h.u
        else if e.final = true ∨ e.hard = true ∨ (hard = false ∧ e.drained = true) then (writeOne h o 1 s).advance h.u
        else ((writeOne h o 0 s).cancelEntry hard e.idx).advance h.u
      | none => (writeOne h o 1 s).advance h.u)) ∧
  ∀ (o : Out) (rec : Src) (s s0 : State) (h : Here) (x r : Access) (d : Desc) (p : Entry),
    At (.launch o rec) s h → h.q.park = .access x.id → readyUpper h s o false = .ok () → s.access? x.id = some x →
    x.width = 8 → (x.lanes.all fun y => y.st == .done) = true →
    ((s.ordered h.u).find? fun a => a.width == 64 && a.pc == h.pc && a.kind == .load) = some r →
    s0 = (s.dropAcc x).dropAcc r → readDesc x.bytes = some d → (readLRec r.bytes).ok = true → (readLRec r.bytes).nb ≤ 16777215 →
    (readLRec r.bytes).nb % d.gang = 0 → d.couldFit = true →
    (if (readLRec r.bytes).parent = 0 then (s0.entry? h.launch).bind fun e => s0.entry? e.parent
     else s0.named h.ctx (readLRec r.bytes).parent) = some p → p.kind ≠ .launch →
    match (s0.allocDie (s.dieOf h.u)).bind fun i => s0.allocEntry i
        (newLaunch s0 h.ctx p.idx (p.final || p.hard || p.drained) (readLRec r.bytes) d
          ((((s0.entry? (s0.jobOf p.idx)).bind (·.job)).map (·.maxprio)).getD 7)) with
    | some (t, i) => exec (.launch o rec) s = .next ((writeOne h o (t.genOf i * 4096 + i % 4096)
        ((t.mapEntry p.idx fun y => { y with pending := y.pending + 1 }).settleAll)).advance h.u)
    | none => exec (.launch o rec) s = .next ((writeOne h o 0x80000001 s0).advance h.u)

/-- LAUNCH_READY, GRID_SEQUENCER_TAKE, TICKET_DISPENSE, BLOCK_START, GROUP_PROMOTION (R311, R315, R320 to R323): a held launch
that no dependence holds is ready; a grid sequencer begins at ENTRY with the arguments; a die serves a launch of the highest PRIO,
and of those of one job the earliest ready; a gang is admitted whole, each member reserved at its place with its index; a member
starts with its banks attached and its barriers at zero; a group that waits too long is promoted.
The places of a gang are an operand of the event (DESIGN CHOICE log 10: DESIGN CHOICE). -/
def Obligations.LaunchesDispatch : Prop :=
  (∀ (n : Nat) (e : Entry) (d : LaunchData) (s : State), s.entry? n = some e → e.launch = some d → e.st = .held →
    e.hard = false → e.drained = false → d.deps = [] →
    exec (.launchReady n) s = .next (s.mapEntry n fun x =>
      { x with st := .ready, launch := some { d with readyAt := s.env.cycle } })) ∧
  (∀ (die n : Nat) (e : Entry) (d : LaunchData) (s : State), s.entry? n = some e → e.launch = some d → e.st = .ready →
    d.gridSeq = false → n / Config.entriesPerDie = die →
    ((s.work.entries.filter fun x => x.idx / Config.entriesPerDie == die && (match x.launch with
      | some y => y.gridSeq && !x.final | none => false)).length < Config.gridSeqsPerDie) →
    ∃ t : State, exec (.gridSequencerTake die n) s = .next t ∧ t.seq? (.grid n) = some { Seq.start d.desc.entry with parkAt := s.env.cycle } ∧
      (∀ j (hj : j < d.args.length), t.word (.dr n j) = d.args[j]) ∧
      t.entry? n = some { e with launch := some { d with gridSeq := true } }) ∧
  (∀ (die n : Nat) (s : State), s.mayServe die n = true →
    ∃ e ∈ s.work.entries, ∃ d, e.idx = n ∧ s.contends die e = some d ∧ ∀ e2 ∈ s.work.entries, ∀ d2, s.contends die e2 = some d2 →
      d2.prio ≤ d.prio ∧ (d2.prio = d.prio → s.jobOf e2.idx = s.jobOf n → d.readyAt ≤ d2.readyAt)) ∧
  (∀ (die n : Nat) (steal : Bool) (places : List (Nat × Nat)) (e : Entry) (d d1 : LaunchData) (tk : Nat) (s s1 : State)
    (ids : List Nat), s.entry? n = some e → e.launch = some d → s.divPending die = false → s.mayServe die n = true →
    placesOk d.desc die places = true → d.take die steal = some (tk, d1) →
    reserve e d1 tk 0 places (s.countServed die n) = some (s1, ids) →
    ∃ (t : State) (g : Gang), exec (.ticketDispense die n steal places) s = .next t ∧ t.gangs = s.gangs ++ [g] ∧
      g.launch = n ∧ g.no = tk ∧ g.members = ids ∧ ids.length = places.length ∧ g.share = [] ∧
      g.bars = List.replicate 16 Bar.zero ∧
      t.seq? (.gang n tk) = some { Seq.start d.desc.entry with parkAt := s.env.cycle } ∧
      t.entry? n = some { e with st := .active, launch := some { d1 with given := d1.given + 1 } }) ∧
  (∀ (e : Entry) (d : LaunchData) (tk m : Nat) (ps : List (Nat × Nat)) (s t : State) (ids : List Nat),
    reserve e d tk m ps s = some (t, ids) → (∀ x ∈ s.blks, x.id < s.env.fresh) →
    ids.length = ps.length ∧ ∀ j (hj : j < ids.length) p, ps[j]? = some p → ∃ x, t.blk? ids[j] = some x ∧ x.phase = .reserved ∧
      x.launch = e.idx ∧ x.gangNo = tk ∧ x.member = m + j ∧ x.index = tk * d.desc.gang + (m + j) ∧ x.core = p.1 ∧ x.lslot = p.2) ∧
  (∀ (b : Nat) (x : Blk) (s : State), s.blk? b = some x → x.phase = .reserved → x.cancelled = false →
    s.divPending (dieOf x.core) = false → (s.ctx x.ctx).halted = false → x.desc.banks ≤ (s.freeBanks (tillerOf x.core)).length →
    ∃ (t : State) (y : Blk), exec (.blockStart b) s = .next t ∧ t.blk? b = some y ∧ y.phase = .resident ∧
      y = { x with phase := .resident, slots := y.slots, bars := y.bars, chan := y.chan } ∧
      (∀ n, (y.slot n).st = (if n < x.desc.banks ∧ n < 16 then 1 else 0)) ∧
      (∀ n < 16, n < x.desc.banks → (y.slot n).bank = (s.freeBanks (tillerOf x.core)).getD n 0) ∧
      y.bars = List.replicate 16 { target := 0, arrived := 0, phase := 0 } ∧
      ∀ u ∈ groupsOf x ++ (List.range x.desc.groups).flatMap (slicesOf x), 
        t.seq? u = some { Seq.start x.desc.entry with parkAt := s.env.cycle }) ∧
  ∀ (b g : Nat) (q : Seq) (s : State), s.seq? (.group b g) = some q →
    exec (.groupPromotion b g) s = .next (s.setSeq (.group b g)
      (if q.retired = false ∧ (q.readyAt.any fun c => c + 256 < s.env.cycle) = true then { q with promoted := true } else q))

/-- BLOCK_RETIREMENT, CANCEL_DELIVERY, JOBDB, JOBACK (R316, R318, R319, R324, R340): a block with nothing outstanding leaves the
part, and so does a cancelled one that never started; a cancelled one issues nothing more; a doorbell admits its job, or writes the
reason into STATUS; a final job's entry is freed when it is acknowledged.
Where a cancel finds a framed block is DEDUCED log 143 (DEDUCED). -/
def Obligations.LaunchesEnd : Prop :=
  (∀ (b : Nat) (x : Blk) (s : State), s.blk? b = some x → x.stop = none → x.phase ≠ .retired →
    (if x.phase = .reserved then x.cancelled = true else (∀ u ∈ unitsOf x, s.retired u = true) ∧ s.blockClear x = true) →
    ∃ t : State, exec (.blockRetirement b) s = .next t ∧ (∀ y, t.blk? b = some y → y.phase = .retired ∧ y.tiles = [] ∧ y.handles = []) ∧
      (∀ y ∈ t.syms, y.b ≠ b) ∧ ∀ a ∈ t.qs.accs, a.unit.block? ≠ some b) ∧
  (∀ (b : Nat) (x : Blk) (s : State), s.blk? b = some x → x.cancelled = true → x.kill = false → s.cancelReaches x = true →
    ∃ (t : State) (y : Blk), exec (.cancelDelivery b) s = .next t ∧ t.blk? b = some y ∧ y.kill = true ∧ y.stop = none ∧
      (∀ u ∈ unitsOf x, t.retired u = true) ∧ (∀ f ∈ t.flt.frames, f.block ≠ some b) ∧ t.regs = s.regs) ∧
  (∀ (fn ctx rq : Nat) (rec : BitVec 64) (s : State) (bs : List Byte), s.env.aborted = false → fn ∉ s.flt.frozenFns →
    (s.ctx ctx).valid = true → (s.ctx ctx).fn = fn → (∀ e ∈ s.qs.inb, e.requester ≠ rq) → rec.toNat % 128 = 0 →
    s.ctxBytes ctx rec.toNat 128 true = .ok bs →
    (s.svc.dev ≠ .active → exec (.jobdb fn ctx rq rec) s = .next (s.pokeVa ctx (rec.toNat + 68) (leBytes 4 0x80000005))) ∧
    (∀ n, s.svc.dev = .active → readJob s ctx rec.toNat bs = .ok (.inl n) →
      exec (.jobdb fn ctx rq rec) s = .next (s.pokeVa ctx (rec.toNat + 68) (leBytes 4 (0x80000000 + n)))) ∧
    (∀ j r d, s.svc.dev = .active → readJob s ctx rec.toNat bs = .ok (.inr (j, r, d)) →
      2 ≤ ((List.range Config.dies).map s.freeEntries).sum →
      exec (.jobdb fn ctx rq rec) s = .next (admitJob fn ctx rec.toNat j r d s))) ∧
  ∀ (fn ctx : Nat) (v : BitVec 64) (e : Entry) (s : State), s.env.aborted = false → fn ∉ s.flt.frozenFns → (s.ctx ctx).fn = fn →
    s.named ctx (v.toNat % 65536) = some e → e.kind = .job → e.st = .done ∨ e.st = .cancelled →
    ∃ t : State, exec (.joback fn ctx v) s = .next t ∧ t = { s with work := t.work, svc := t.svc } ∧
      (∀ x, x ∈ t.work.entries ↔ x ∈ s.work.entries ∧ x.idx ≠ e.idx) ∧ t.work.freed = s.work.freed ++ [e.idx] ∧
      t.svc = { s.svc with dev := if s.svc.dev = .draining ∧ (∀ x ∈ t.work.entries, x.kind ≠ .job) then .drained else s.svc.dev }

/-! ## The system class -/

/-- `trap`, `brk`, `mfcr`, `mtcr` (R60, R71, R335, R337, R349, R350, R353, R355): a trap stops its block for SYSCALL or BRK, with
IMM22 in the record and its unit after the instruction; a control register is read, or its writable bits are written, and a
context without SYS takes PRIV at a register of the system.
Registers of a block read where there is no block are free values (DESIGN CHOICE log 20: DESIGN CHOICE). -/
def Obligations.TrapsAndControlRegisters : Prop :=
  (∀ (brk : Bool) (imm : BitVec 22) (s : State) (h : Here), s.here? = some h →
    if h.isSlice = true ∧ h.active s = [] then exec (if brk then .brk imm else .trap imm) s = .next (s.advance h.u)
    else TakesFault (if brk then .brk imm else .trap imm) s h
      { cause := if brk then .brk else .syscall, addr := 0, info := imm.toNat
        lanes := if h.isSlice then laneMask (h.active s) else 0, after := true }) ∧
  (∀ (d : Dst) (n : Nat) (s : State) (h : Here), At (.mfcr d n) s h → readyResult h s (sOut d) = .ok () →
    ∃ t : State, exec (.mfcr d n) s = .next (t.advance h.u) ∧
      if h.isSlice then LanesReceive s t h (sOut d) false (h.active s) fun x =>
        knownCells false (if n = 0 then s.seqst (.slice x.b x.g (x.l / 4)) else s.crRead h n)
      else if crOpen h n then ∃ v, UpperReceives s.spendFree t h (sOut d) false (knownCells false v)
      else UpperReceives s t h (sOut d) false (knownCells false (if n = 0 then s.seqst h.u else s.crRead h n))) ∧
  ∀ (n v : Nat) (a : Src) (s : State) (h : Here), s.here? = some h → mtcrValue h s a = .ok (some v) →
    if crSystem n = true ∧ (s.ctx h.ctx).sys = false then
      TakesFault (.mtcr n a) s h { cause := .priv, addr := 0, info := 0, lanes := 0, after := false }
    else s.allPerformed h.u = true →
      ∃ t : State, exec (.mtcr n a) s = .next (t.advance h.u) ∧ t = { s with ctxs := t.ctxs } ∧
        ∀ c m, (t.ctx c).cr m = if c = s.crCtx h.ctx n ∧ m = n ∧ crMask n ≠ 0 then BitVec.ofNat 32 (v &&& crMask n)
          else (s.ctx c).cr m

/-- TAKING A FAULT (R71, R72, R335, R339): the first fault of a block is the one that it stops for, and changes nothing else but
the position of a unit that stands after its instruction. Of two found in the same cycle the block stops for that of the higher rank,
then of the lower group; the unit of the other one stands before its instruction, and so does a unit that finds a later fault. A
gang or grid sequencer stops alone. -/
def Obligations.FaultTaken : Prop :=
  ∀ (u : UnitRef) (pc : Nat) (t : Trap) (s : State),
    let f : FaultInfo := { unit := u, cause := t.cause, pc := pc, addr := t.addr, info := t.info, lanes := t.lanes, preempt := false
                           final := false, since := s.env.cycle, no := s.env.fresh, back := if t.after then s.seq? u else none }
    let s1 := (if t.after then s.advance u else s).bump
    let stops (b : Nat) (x : Blk) (r : State) : Prop := r.blk? b = some { x with stop := some f } ∧ ∀ c, c ≠ b → r.blk? c = s.blk? c
    (∀ b x, u.block? = some b → s.blk? b = some x → x.stop = none →
      takeFault u pc t s = { s1 with blks := (takeFault u pc t s).blks } ∧ stops b x (takeFault u pc t s)) ∧
    (∀ b x g, u.block? = some b → s.blk? b = some x → x.stop = some g →
      if g.preempt = false ∧ g.since = s.env.cycle ∧
          (g.unit.rank < u.rank ∨ g.unit.rank = u.rank ∧ u.groupNo < g.unit.groupNo) then
        let r := takeFault u pc t s
        r = { s1 with blks := r.blks, seqs := r.seqs } ∧ stops b x r ∧ (∀ v, v ≠ g.unit → r.seq? v = s1.seq? v) ∧
          ∀ q, s1.seq? g.unit = some q → r.seq? g.unit = some { g.back.getD q with park := .refault }
      else takeFault u pc t s = s.mapSeq u fun q => { q with park := .refault }) ∧
    (u.block? = none → (∀ p ∈ s.flt.uppers, p.1 ≠ u) →
      takeFault u pc t s = { s1 with flt := { s1.flt with uppers := s1.flt.uppers ++ [(u, f)] } })

/-- `eret`, `csave`, `crest` (R341, R354, R356): a frame that holds what the part wrote, but for what a handler may change, is
resumed from the bytes read, or its block killed, with status 0; one that has been read already is resumed as it was read (DEDUCED log 148:
DEDUCED); the other statuses change nothing; a saved block's frame is
held, and its FID delivered; a held frame is resumed on the core named. -/
def Obligations.FramesResume : Prop :=
  (∀ (d : Dst) (a : Src) (kill : Bool) (va : Nat) (s : State) (h : Here),
    At (if kill then .eretKill d a else .eret d a) s h → upNums h s [(a, .addr)] = .ok [va] → readyResult h s (sOut d) = .ok () →
    memBars h s false false = .ok () → s.atHead h.u = true →
    match s.flt.frames.find? fun f => f.ctx == h.ctx && f.addr == va with
    | none => exec (if kill then .eretKill d a else .eret d a) s = .next ((writeOne h (sOut d) 1 s).advance h.u)
    | some f =>
      if f.frozen = true ∨ f.halted = true ∨ f.held = true then
        exec (if kill then .eretKill d a else .eret d a) s = .next ((writeOne h (sOut d) 4 s).advance h.u)
      else if f.accepted = true then
        exec (if kill then .eretKill d a else .eret d a) s = .next ((if kill then (writeOne h (sOut d) 0 s).killFrame f
          else writeOne h (sOut d) 0 s).advance h.u)
      else ∀ bs, loadFrame h va f.size s = .ok bs →
        exec (if kill then .eretKill d a else .eret d a) s = .next ((if s.acceptable f bs = false then writeOne h (sOut d) 2 s
          else if kill then (writeOne h (sOut d) 0 s).killFrame f
          else (writeOne h (sOut d) 0 s).resumeFrame f bs).advance h.u)) ∧
  (∀ (f : FrameInfo) (bs : List Byte) (s : State), f.upper = none → f ∈ s.flt.frames →
    s.resumeFrame f bs = { s with flt := { s.flt with frames := (s.resumeFrame f bs).flt.frames } } ∧
    ({ f with ready := true, image := some bs, pageTag := none } : FrameInfo) ∈ (s.resumeFrame f bs).flt.frames) ∧
  (∀ (d : Dst) (a : Src) (v : Nat) (s : State) (h : Here), At (.csave d a) s h → h.isSlice = false →
    upNums h s [(a, .addr)] = .ok [v] → readyResult h s (sOut d) = .ok () → (s.ctx h.ctx).sys = true →
    match s.blockNamed h.ctx (v % 2 ^ 32) (v / 2 ^ 32) with
    | none => Gives (.csave d a) s s h (sOut d) 0xFFFFFFFF
    | some x =>
      (x.phase = .resident → Waits (.csave d a) s ((s.preempt x.id false).mapBlk x.id fun y => { y with hold := some h.b }) h .waiting) ∧
      (∀ f, x.phase = .framed → s.frameOf x.id = some f →
        Gives (.csave d a) s (s.markFrame f fun g => { g with held := true, ready := false }) h (sOut d) f.fid)) ∧
  ∀ (d : Dst) (a : Src) (core n : Nat) (any : Bool) (s : State) (h : Here), At (.crest d a core any) s h → h.isSlice = false →
    upNums h s [(a, .w32)] = .ok [n] → readyResult h s (sOut d) = .ok () → (s.ctx h.ctx).sys = true →
    match s.flt.frames.find? fun f => f.ctx == h.ctx && f.fid == n && f.held with
    | none => Gives (.crest d a core any) s s h (sOut d) 1
    | some f => (s.partFrame f = .error .refused → Gives (.crest d a core any) s s h (sOut d) 2) ∧ ∀ bs, s.partFrame f = .ok bs →
      if s.acceptable f bs = false then Gives (.crest d a core any) s s h (sOut d) 2
      else if any = false ∧ 7 < core then Gives (.crest d a core any) s s h (sOut d) 3
      else Gives (.crest d a core any) s (s.markFrame f fun g =>
        { g with held := false, ready := true, image := some bs, core := if any then none else some (f.tiller * 8 + core) }) h (sOut d) 0

/-- `freeze`, `thaw`, `halt` (R342, R357): in a context with SYS the master is frozen, resumed or killed, with status 0, or
nothing changes and the status is 1 or 2, once a frame that resumes can be read; a halted context dispenses nothing, its other blocks are pre-empted, and the
instruction is over once all are framed. A context without SYS takes PRIV. -/
def Obligations.MastersControlled : Prop :=
  (∀ (d : Dst) (m : Src) (th : Bool) (w : Nat) (s : State) (h : Here),
    At (if th then .thaw d m else .freeze d m) s h → upNums h s [(m, .w32)] = .ok [w] → readyResult h s (sOut d) = .ok () →
    if (s.ctx h.ctx).sys = false then
      TakesFault (if th then .thaw d m else .freeze d m) s h { cause := .priv, addr := 0, info := 0, lanes := 0, after := false }
    else (th = true → thawCheck h.ctx w s = .ok ()) →
      let f := if th then thawStep h.ctx w else freezeStep h.ctx w
      exec (if th then .thaw d m else .freeze d m) s = .next (((f (writeOne h (sOut d) (f s).2 s)).1).advance h.u)) ∧
  (∀ (ctx i : Nat) (s : State), i ≤ 32 →
    freezeStep ctx (2 * 2 ^ 24 + i) s = (if i ∈ s.flt.frozenFns then (s, 2)
      else ({ s with flt := { s.flt with frozenFns := s.flt.frozenFns ++ [i] } }, 0)) ∧
    thawStep ctx (2 * 2 ^ 24 + i) s = (if i ∈ s.flt.frozenFns then
      ({ s with flt := { s.flt with frozenFns := s.flt.frozenFns.erase i } }, 0) else (s, 2)) ∧
    thawStep ctx (2 ^ 31 + 2 * 2 ^ 24 + i) s = (if i ∈ s.flt.frozenFns then (s.resetFn i, 0) else (s, 2))) ∧
  (∀ (ctx i : Nat) (x : Blk) (s : State), i < 2 ^ 24 → s.chanBlock i = some x →
    freezeStep ctx (2 ^ 24 + i) s = (if x.frozen then (s, 2) else (s.mapBlk x.id fun y => { y with frozen := true }, 0)) ∧
    thawStep ctx (2 ^ 24 + i) s = (if x.frozen then (s.thawChannel x.id, 0) else (s, 2)) ∧
    thawStep ctx (2 ^ 31 + 2 ^ 24 + i) s = (if x.frozen then (s.killChannel x.id, 0) else (s, 2))) ∧
  ∀ (d : Dst) (m : Src) (i : Nat) (s : State) (h : Here), At (.halt d m) s h → h.isSlice = false → i < 64 →
    upNums h s [(m, .w32)] = .ok [5 * 2 ^ 24 + i] → readyResult h s (sOut d) = .ok () → (s.ctx h.ctx).sys = true →
    (s.ctx i).valid = true →
    let ends (s1 : State) : Prop := ∃ t : State, UpperReceives s1 t h (sOut d) false [resultCell (sOut d) 0] ∧
      exec (.halt d m) s = .next ((if i = h.ctx then t.mapBlk h.b fun x =>
        { x with haltReq := true, stop := x.stop.or (some (preemption h.b false)) } else t).advance h.u)
    (((s.ctx i).halted = true ∧ h.q.park ≠ .waiting) → Gives (.halt d m) s s h (sOut d) 2) ∧
    (((s.ctx i).halted = true ∧ h.q.park = .waiting ∧ s.haltDone i h.b = true) → ends s) ∧
    ((s.ctx i).halted = false →
      if (s.haltCtx i h.b).haltDone i h.b = true then ends (s.haltCtx i h.b)
      else Waits (.halt d m) s (s.haltCtx i h.b) h .waiting)

/-- FAULT_DELIVERY, FAULT_RECORD_POST, BLOCK_RESTORE, SWAP_OUT, STATEERR (R261, R335, R336, R340, R343, R344, R347, R390): a block
that stands still is framed at the lowest free run of its pool, with its record; a record is written at the queue's tail, which
moves on; a ready frame is restored on a core with room; a block that has waited long is pre-empted where others wait; an
uncorrectable error ends the block and counts against the core.
The bytes of a frame follow the layouts of DESIGN CHOICE log 12 (DESIGN CHOICE). -/
def Obligations.FramesBuilt : Prop :=
  (∀ (u : UnitRef) (b fid : Nat) (x : Blk) (i : FaultInfo) (s : State), u.block? = some b → s.blk? b = some x → x.stop = some i →
    s.mayFrame x (s.settleWhy i) = true → ((s.settleWhy i).faulted = true → s.queueUsable x.ctx = true) →
    let c := s.noteFault (s.settleWhy i)
    let bs := (c.standFor x (s.settleWhy i)).blockFrame x (s.settleWhy i)
    s.freeRun x.ctx (((bs 0).length + 65535) / 65536) = some fid →
    s.partAccess x.ctx (s.poolBase x.ctx + fid * 65536) (bs 0).length true = .ok →
    ∃ (t : State) (y : Blk) (f : FrameInfo), exec (.faultDelivery u) s = .next t ∧ t.blk? b = some y ∧ y.phase = .framed ∧
      y.stop = none ∧ f ∈ t.flt.frames ∧ f.fid = fid ∧ f.ctx = x.ctx ∧ f.addr = s.poolBase x.ctx + fid * 65536 ∧ f.block = some b ∧
      f.built = bs fid ∧
      t.flt.records = if (s.settleWhy i).faulted then insertRecord (c.blockRecord x (s.settleWhy i) (some fid)) s.flt.records
        else s.flt.records) ∧
  (∀ (ctx k : Nat) (r : FaultRec) (s : State), (s.flt.records.find? fun r => r.ctx == ctx) = some r → s.queueUsable ctx = true →
    s.partAccess ctx (s.queueBase ctx) 8 true = .ok → s.vaKey ctx (s.queueBase ctx) true = some k →
    let log := (s.cr ctx 0x42).toNat % 16
    let tail := s.readNat k 4
    let at_ := s.queueBase ctx + 64 + 64 * (tail % 2 ^ log)
    if 2 ^ log ≤ (tail + 2 ^ 32 - s.readNat (k + 4) 4) % 2 ^ 32 then exec (.faultRecordPost ctx) s = .next s
    else s.partAccess ctx at_ 64 true = .ok →
      exec (.faultRecordPost ctx) s = .next
        (let t := (s.pokeVa ctx at_ (splice 4 (leBytes 4 tail) r.bytes)).pokeVa ctx (s.queueBase ctx) (leBytes 4 ((tail + 1) % 2 ^ 32))
         { t with flt := { t.flt with records := t.flt.records.erase r } })) ∧
  (∀ (ctx fid core : Nat) (f : FrameInfo) (x : Blk) (bs : List Byte) (s t : State),
    (s.flt.frames.find? fun f => f.ctx == ctx && f.fid == fid) = some f → f.block = some x.id → s.blk? x.id = some x →
    x.phase = .framed → x.kill = false → x.cancelled = false → s.restorable x f = true → f.held = false → f.frozen = false →
    f.halted = false → f.pageTag = none → tillerOf core = f.tiller → (∀ c, f.core = some c → c = core) →
    s.coreRoom x.desc core = true → s.tilesOn core + x.tiles.length ≤ Config.tilesPerCore →
    s.cacheOn core + (x.handles.map fun h => MTy.copyBytes h.ty h.k).foldl (· + ·) 0 ≤ Config.operandCacheBytes →
    (f.image = some bs ∨ f.image = none ∧ s.partAccess ctx f.addr f.size false = .ok ∧ s.acceptable f bs = true ∧
      bs = s.readPages ctx (pagePieces f.addr f.size)) →
    s.restoreFrom f x core bs = some t → exec (.blockRestore ctx fid core) s = .next t) ∧
  (∀ (b since : Nat) (x : Blk) (s : State), s.blk? b = some x → x.phase = .resident → x.stop = none → x.cancelled = false →
    x.frozen = false → s.blockParked x = some since → s.someWaits (tillerOf x.core) = true →
    since + 16 * (s.cr x.ctx 0x20).toNat < s.env.cycle ∨ (s.cr x.ctx 0x20).toNat = 0 →
    ∃ (t : State) (i : FaultInfo), exec (.swapOut b) s = .next t ∧ t = { s with blks := t.blks } ∧
      t.blk? b = some { x with stop := some i } ∧ i.preempt = true ∧ ∀ c, c ≠ b → t.blk? c = s.blk? c) ∧
  ∀ (b : Nat) (x : Blk) (s : State), s.blk? b = some x → x.phase = .resident → x.kill = false →
    ∃ (t : State) (r : FaultRec), exec (.stateerr b) s = .next t ∧ t.flt.records = insertRecord r s.flt.records ∧ r.ctx = x.ctx ∧
      r.no = s.env.fresh ∧ r.handle = some x.launch ∧ r.fid = none ∧
      (∀ y, t.blk? b = some y → y.kill = true ∧ y.cancelled = true) ∧
      t.healthOf 0 x.core = (s.healthOf 0 x.core).withError s.env.cycle

/-! ## Translation, host and peers -/

/-- MAP and RESOLVE (R366, R368): with the arguments good, a leaf is written whose frames were CLEAN and lie on the page's home
die, and they become MAPPED, or the status says what forbids it; an answered page request is closed, and the lanes that wait for
it try again. Every stage-2 command aborts while the physical function is frozen, is ignored while one executes, and gives status
7 where CMD is invalid.
The order of the statuses is the model's (DEDUCED log 106: DEDUCED). -/
def Obligations.PagesMapped : Prop :=
  (∀ (i : Instr) (c : BitVec 24) (s : State), stage2Form i = some c →
    (0 ∈ s.flt.frozenFns → Aborts i s) ∧
    (0 ∉ s.flt.frozenFns → s.chip.s2busy.isSome → exec i s = .next s.asked) ∧
    (0 ∉ s.flt.frozenFns → s.chip.s2busy = none → cmdBad c = true →
      exec i s = .next (s.asked.setChip { s.chip with s2busy := none, s2status := 7 }))) ∧
  (∀ (c : BitVec 24) (s : State), Stage2Free s c → s.memWf →
    let n := levelBytes (cmdLevel c)
    let ia := s.chip.arg0.toNat
    let pa := s.chip.arg1.toNat
    let full := cmdCtx c * 2 ^ 46 + ia % 2 ^ 46
    let ends (k : Nat) : Prop := exec (.s2Map c) s = .next (s.asked.setChip { s.chip with s2busy := none, s2status := k })
    mappable pa = true → ia % n = 0 → pa % n = 0 → s.ownChip pa = true → localOf pa + n ≤ Config.packageBytes →
    match s.entryAt (cmdCtx c) full (cmdLevel c) with
    | .noTable => ends 6
    | .leafAbove => ends 4
    | .at_ p e =>
      if e / 2 ^ 63 % 2 = 1 then ends 4
      else if ∃ f ∈ framesOf (localOf pa) n, frameState (s.frameWord f) ≠ 0 then ends 1
      else if homeDie full ≠ homeDie (localOf pa) then ends 3
      else ∃ t : State, exec (.s2Map c) s = .next t ∧
        Writes s t (s.keyOf p) (leBytes 8 (2 ^ 63 + 2 ^ 62 + (cmdWp c).toNat * 2 ^ 61 + pa)) ∧
        Stage2Ends s t fun f => if f ∈ framesOf (localOf pa) n then some (BitVec.ofNat 32 (2 ^ 29 + cmdCtx c)) else none) ∧
  (∀ (c : BitVec 24) (s : State) (p e : Nat), Stage2Free s c → s.memWf →
    let n := levelBytes (cmdLevel c)
    let ia := s.chip.arg0.toNat
    let pa := s.chip.arg1.toNat
    let host := 2 ^ 44 ≤ localOf pa
    mappable pa = true → ia % n = 0 → pa % n = 0 → (s.ownChip pa = true ↔ host) →
    s.entryAt (cmdCtx c) (cmdCtx c * 2 ^ 46 + ia % 2 ^ 46) (cmdLevel c) = .at_ p e → e / 2 ^ 63 % 2 = 0 →
    if (if host then (s.ctx (cmdCtx c)).host else (s.ctx (cmdCtx c)).peer) = false then
      exec (.s2Map c) s = .next (s.asked.setChip { s.chip with s2busy := none, s2status := 5 })
    else ∃ t : State, exec (.s2Map c) s = .next t ∧
      Writes s t (s.keyOf p) (leBytes 8 (2 ^ 63 + 2 ^ 62 + (cmdWp c).toNat * 2 ^ 61 + pa)) ∧ Stage2Ends s t fun _ => none) ∧
  (∀ (v : BitVec 32) (s : State), (0 ∈ s.flt.frozenFns → Aborts (.resolve v) s) ∧
    (0 ∉ s.flt.frozenFns → (∀ p ∈ s.qs.pages, p.tag ≠ v.toNat / 2) → exec (.resolve v) s = .next s.asked)) ∧
  ∀ (v : BitVec 32) (p : PageReq) (s : State), 0 ∉ s.flt.frozenFns → v.toNat % 2 = 0 →
    (s.qs.pages.find? fun p => p.tag == v.toNat / 2 && p.written) = some p → (s.qs.accs.map (·.id)).Nodup →
    (∀ x ∈ s.blks, ∀ c ∈ x.cmds, c.paused ≠ some p.tag) → (∀ f ∈ s.flt.frames, f.pageTag ≠ some p.tag) → s.nothingWaits →
    if p.malformed then exec (.resolve v) s = .next s.asked
    else exec (.resolve v) s = .next (s.asked.setQs { s.qs with
      pages := s.qs.pages.filter fun q => q.tag != p.tag
      accs := s.qs.accs.map fun a => { a with lanes := a.lanes.map fun y => if y.st = .page p.tag then { y with st := .todo } else y } })

/-- The other stage-2 commands (R365, R368, R369): UNMAP, INVAL and UNTABLE wait; once nothing that was translated is outstanding
the leaf is invalid and its frames are DIRTY, the locks of the page are released, what translation caches kept under the entry is
dropped, and a table's frame is DIRTY. SCRUB zeroes and cleans
the DIRTY frames of its run; TABLE, SHADD, SHDEL, EXPORT and RETIRE act on a frame in the state that they need, else the status
is 1.
The order of the statuses is the model's (DEDUCED log 106: DEDUCED). -/
def Obligations.FramesManaged : Prop :=
  (∀ (c : BitVec 24) (s : State), Stage2Free s c →
    let ia := s.chip.arg0.toNat
    let waits (w : S2Wait) : State := s.asked.setChip { s.chip with s2busy := some w }
    let ends (k : Nat) : State := s.asked.setChip { s.chip with s2busy := none, s2status := k }
    (ia % levelBytes (cmdLevel c) ≠ 0 → exec (.s2Unmap c) s = .next (ends 2) ∧ exec (.s2Inval c) s = .next (ends 2)) ∧
    (ia % levelBytes (cmdLevel c) = 0 →
      exec (.s2Inval c) s = .next (waits (.inval (cmdCtx c) (cmdLevel c) (ia % 2 ^ 46))) ∧
      ∀ p e, s.entryAt (cmdCtx c) (cmdCtx c * 2 ^ 46 + ia % 2 ^ 46) (cmdLevel c) = .at_ p e →
        exec (.s2Unmap c) s = .next (if e / 2 ^ 62 % 4 = 3 then waits (.unmap (cmdCtx c) (cmdLevel c) (ia % 2 ^ 46)) else ends 4)) ∧
    ∀ k, s.argFrame 1 = .ok k →
      exec (.s2Untable c) s = .next (if frameState (s.frameWord k) = 2 then waits (.untable k) else ends 1)) ∧
  (∀ (s : State), s.chip.s2busy = none → exec .stage2WaitComplete s = .next s) ∧
  (∀ (ctx lv ia p e : Nat) (s : State), s.chip.s2busy = some (.unmap ctx lv ia) → s.memWf → s.nothingWaits →
    s.entryAt ctx (ctx * 2 ^ 46 + ia) lv = .at_ p e → e / 2 ^ 62 % 4 = 3 →
    let pa := e / 2 ^ 16 % 2 ^ 41 * 65536
    let base := s.keyOf pa
    let n := levelBytes lv
    if s.runBusy base n = true ∨ s.streamsIn ctx false (inRun base n) = true then exec .stage2WaitComplete s = .next s
    else ∃ t : State, exec .stage2WaitComplete s = .next t ∧ Writes s t (s.keyOf p) (leBytes 8 (e - 2 ^ 63)) ∧
      (∀ l, l ∈ t.mem.locks ↔ l ∈ s.mem.locks ∧ inRun ((ctx * 2 ^ 46 + ia) / 128) (n / 128) l.2.1 = false) ∧
      (∀ y, y ∈ t.qs.ycap ↔ y ∈ s.qs.ycap ∧ inRun (base / 128) (n / 128) y.2.1 = false) ∧
      Stage2Ends s t fun f => if s.ownChip pa = true ∧ isPackage (localOf pa) = true ∧ f ∈ framesOf (localOf pa) n
        then some (BitVec.ofNat 32 (4 * 2 ^ 29 + frameOwner (s.frameWord f))) else none) ∧
  (∀ (w : S2Wait) (ctx : Nat) (s : State), s.chip.s2busy = some w → s.memWf → s.nothingWaits →
    ((∃ lv ia, w = .inval ctx lv ia) ∨ ∃ f, w = .untable f ∧ ctx = frameOwner (s.frameWord f)) →
    if s.ctxInFlight ctx = true ∨ s.streamsIn ctx false (fun _ => true) = true then exec .stage2WaitComplete s = .next s
    else ∃ t : State, exec .stage2WaitComplete s = .next t ∧ t.mem.bytes = s.mem.bytes ∧ (∀ y ∈ t.mem.stale, y ∈ s.mem.stale) ∧
      (∀ lv ia p e, w = .inval ctx lv ia → s.entryAt ctx (ctx * 2 ^ 46 + ia) lv = .at_ p e →
        ∀ y ∈ t.mem.stale, s.underEntry (s.keyOf p) (3 - lv) y.1 = false) ∧
      Stage2Ends s t fun f => if w = .untable f then some (BitVec.ofNat 32 (4 * 2 ^ 29 + ctx)) else none) ∧
  (∀ (c : BitVec 24) (f : Nat) (s : State), Stage2Free s c → s.memWf → s.argFrame s.chip.arg1.toNat = .ok f →
    let dirty (k : Nat) : Bool := decide (f ≤ k ∧ k < f + s.chip.arg1.toNat) && frameState (s.frameWord k) == 4
    ∃ t : State, exec (.s2Scrub c) s = .next t ∧ Zeroed s t dirty ∧ Stage2Ends s t fun k => if dirty k then some 0 else none) ∧
  (∀ (i : Instr) (c : BitVec 24) (k : Nat) (s : State) (ok : Bool) (w : BitVec 32), Stage2Free s c → s.memWf → s.argFrame 1 = .ok k →
    (let st := frameState (s.frameWord k)
     let own := frameOwner (s.frameWord k)
     let g := s.chip.arg1.toNat % 4096
     (i = .s2Table c ∧ ok = decide (st = 0) ∧ w = BitVec.ofNat 32 (2 * 2 ^ 29 + cmdCtx c)) ∨
     (i = .s2Shadd c ∧ ok = decide (st = 0) ∧ w = BitVec.ofNat 32 (3 * 2 ^ 29 + cmdCtx c)) ∨
     (i = .s2Shdel c ∧ ok = decide (st = 3 ∧ ∃ x ∈ s.ctxs, k ∈ x.pool) ∧ w = BitVec.ofNat 32 (4 * 2 ^ 29 + own)) ∨
     (i = .s2Expose c ∧ ok = decide (st = 1) ∧ w = BitVec.ofNat 32 (2 ^ 29 + (if g = 0 then 0 else 2 ^ 28 + g * 2 ^ 16) + own)) ∨
     (i = .s2Retire c ∧ ok = decide (st ≠ 1 ∧ st ≠ 2 ∧ st ≠ 3) ∧ w = BitVec.ofNat 32 (5 * 2 ^ 29))) →
    if ok = false then exec i s = .next (s.asked.setChip { s.chip with s2busy := none, s2status := 1 })
    else ∃ t : State, exec i s = .next t ∧ Stage2Ends s t (fun f => if f = k then some w else none) ∧
      (∀ f, i = .s2Table f → Zeroed s t (· == k)) ∧ ((∀ f, i ≠ .s2Table f) → t.mem.bytes = s.mem.bytes) ∧
      (∀ f, i = .s2Shadd f → ∀ m, (t.ctx m).pool = if m = cmdCtx c then (s.ctx m).pool ++ [k] else (s.ctx m).pool))

/-- Range registers, RRSYNC, the context table, SPDIV, APCTL, HDMBASE and HDMSIZE (R342, R359, R361, R362, R372 to R375): the owning
function's writes take effect on the writable bits and on nothing else, and those of a frozen function are aborted; a read of RRSYNC
waits for what was checked under the old ranges, and no stream keeps a translation past it; a write that a busy context, a division
too large or a mapped frame forbids is ignored; a division changes once the die is idle, and the bytes that it takes away are gone. -/
def Obligations.RegistersWritten : Prop :=
  (∀ (fn ctx i : Nat) (v : BitVec 64) (s : State),
    (fn ∈ s.flt.frozenFns → Aborts (.rangeRegisterStage fn ctx i v) s ∧ Aborts (.rangeRegisterCommit fn ctx i v) s) ∧
    (fn ∉ s.flt.frozenFns →
      if (s.ctx ctx).fn = fn ∧ ctx < 64 ∧ i < 16 then
        (∃ t : State, exec (.rangeRegisterStage fn ctx i v) s = .next t ∧ t = { s.asked with ctxs := t.ctxs } ∧
          ∀ c, t.ctx c = if c = ctx then { s.ctx c with staged := assign i v (s.ctx c).staged } else s.ctx c) ∧
        ∃ t : State, exec (.rangeRegisterCommit fn ctx i v) s = .next t ∧ t = { s.asked with ctxs := t.ctxs } ∧
          (∀ c, t.ctx c = if c = ctx then { s.ctx c with ranges := (t.ctx c).ranges } else s.ctx c) ∧
          ∀ j, lookupD (0 : BitVec 128) j (t.ctx ctx).ranges =
            if j = i then
              (lookupD (((lookupD (0 : BitVec 128) i (s.ctx ctx).ranges) >>> 64).setWidth 64) i (s.ctx ctx).staged
                &&& 0x3FFFFFFF3FFFFFFF) ++ (v &&& 0xF80001FFFFFFFFFF)
            else lookupD 0 j (s.ctx ctx).ranges
      else exec (.rangeRegisterStage fn ctx i v) s = .next s.asked ∧ exec (.rangeRegisterCommit fn ctx i v) s = .next s.asked)) ∧
  (∀ (fn rq : Nat) (s : State),
    (fn ∈ s.flt.frozenFns → Aborts (.rrsync ⟨fn, rq⟩) s) ∧
    (fn ∉ s.flt.frozenFns →
      if s.rangesInUse fn = true ∨ ∃ e ∈ s.qs.inb, e.requester = rq then exec (.rrsync ⟨fn, rq⟩) s = .next s
      else ∃ t : State, exec (.rrsync ⟨fn, rq⟩) s = .next t ∧
        t = { s with blks := t.blks, env := { s.env with reply := [0, 0, 0, 0], aborted := false } } ∧
        ∀ x ∈ t.blks, (∃ c ∈ s.ctxs, c.n = x.ctx ∧ c.fn = fn) → ∀ c ∈ x.cmds, c.st = 0 → ∀ r ∈ c.trans,
          regionOf (r.2.1 * 65536) = .global → s.streamPast x.id c r.1 r.2.1 = true)) ∧
  (∀ (n : Nat) (v : BitVec 128) (s : State),
    let old := s.ctx n
    let new := { old with entry := v &&& ctxEntryMask }
    (0 ∈ s.flt.frozenFns → Aborts (.contextTableWrite n v) s) ∧
    (0 ∉ s.flt.frozenFns → n < 64 →
      if (new.root ≠ old.root ∨ new.fn ≠ old.fn ∨ (old.valid = true ∧ new.valid = false)) ∧ s.ctxBusy n = true then
        exec (.contextTableWrite n v) s = .next s.asked
      else ∃ t : State, exec (.contextTableWrite n v) s = .next t ∧
        t = { s.asked with ctxs := t.ctxs, mem := { s.mem with locks := t.mem.locks } } ∧
        (∀ c, t.ctx c = if c = n then new else s.ctx c) ∧
        ∀ l, l ∈ t.mem.locks ↔ l ∈ s.mem.locks ∧ ¬(old.valid = true ∧ new.valid = false ∧ l.1 = n))) ∧
  (∀ (die : Nat) (v : BitVec 32) (s : State), (0 ∈ s.flt.frozenFns → Aborts (.spdiv die v) s) ∧
    (0 ∉ s.flt.frozenFns → die < 4 →
      exec (.spdiv die v) s = .next (if s.sramUnits die < v.toNat % 16 then s.asked
        else s.asked.setChip { s.chip with
          spReq := s.chip.spReq.set die (v.toNat % 16)
          spPend := s.chip.spPend.set die (s.divPending die || v.toNat % 16 != s.chip.spCur.getD die 0) }))) ∧
  (∀ (die : Nat) (s : State), s.memWf → s.divPending die = true →
    if ∃ x ∈ s.blks, dieOf x.core = die ∧ (x.phase = .resident ∨ x.phase ≠ .framed ∧ ∃ c ∈ x.cmds, c.st = 0) then
      exec (.spdivChange die) s = .next s
    else ∃ t : State, exec (.spdivChange die) s = .next t ∧ t.regs = s.regs ∧
      t.chip = { s.chip with spCur := s.chip.spCur.set die (s.chip.spReq.getD die 0), spPend := s.chip.spPend.set die false } ∧
      ∀ k, readByte t.mem.bytes k =
        if spadKey die (s.chip.spReq.getD die 0 * 2 ^ 28) ≤ k ∧ k < spadKey (die + 1) 0 then 0 else readByte s.mem.bytes k) ∧
  (∀ (fn : Nat) (v : BitVec 64) (s : State),
    (fn ∈ s.flt.frozenFns → Aborts (.apctl fn v) s) ∧
    (fn ∉ s.flt.frozenFns →
      if 32 < fn then exec (.apctl fn v) s = .next s.asked
      else ∃ t : State, exec (.apctl fn v) s = .next t ∧ t = { s.asked with chip := { s.chip with apctl := t.chip.apctl } } ∧
        ∀ f, lookupD (0 : BitVec 64) f t.chip.apctl =
          if f ≠ fn then lookupD 0 f s.chip.apctl
          else if (s.ctx (v.toNat % 64)).fn = fn then v &&& 0x81FFFFFFFFFF003F else v &&& 0x01FFFFFFFFFF003F)) ∧
  ∀ (size : Bool) (v : BitVec 64) (s : State), (0 ∈ s.flt.frozenFns → Aborts (.hdmbaseWrite size v) s) ∧
    (0 ∉ s.flt.frozenFns →
      let w := v &&& 0xFFFFFFFFFFFF0000
      let c := if size then { s.chip with hdmSize := w } else { s.chip with hdmBase := w }
      exec (.hdmbaseWrite size v) s = .next
        (if s.rangeMapped s.chip.hdmBase.toNat s.chip.hdmSize.toNat = true ∨ s.rangeMapped c.hdmBase.toNat c.hdmSize.toNat = true
         then s.asked else s.asked.setChip c))

/-- The apertures, CXL.mem and peers (R276, R374, R376, R378, R381, R382): a read returns the bytes of M, after the requester's
posted writes; a posted write stands last in the requester's queue, and waits there where a page of it has no translation; a
violation freezes the function, and is aborted; a peer's request is sent on where its address is another chip's, performed where the
frame is exported to its group, and refused elsewhere; a link that fails leaves every route. -/
def Obligations.OutsideAccesses : Prop :=
  (∀ (fn rq off width ctx base : Nat) (s : State), fn ∉ s.flt.frozenFns → fn ≤ 32 → off + width ≤ apertureBytes fn →
    (s.aperture fn = none → exec (.apertureRead fn rq off width) s = .next (s.setEnv
      { s.env with reply := List.replicate width 0xFF, aborted := false })) ∧
    (s.aperture fn = some (ctx, base) → (∀ e ∈ s.qs.inb, e.requester ≠ rq) →
      (∀ ks, s.apAccess ctx (base + off) width = .ok ks → (∀ k ∈ ks, s.holed k.1 k.2 = false) →
        exec (.apertureRead fn rq off width) s = .next (s.setEnv
          { s.env with reply := ks.flatMap fun k => readBytes s.mem.bytes k.1 k.2, aborted := false })) ∧
      ∀ c, s.apAccess ctx (base + off) width = .error (.bad c) →
        ∃ t : State, exec (.apertureRead fn rq off width) s = .next t ∧ t.env.aborted = true ∧ fn ∈ t.flt.frozenFns ∧
          t.mem = s.mem ∧ ∃ r, t.flt.records = insertRecord r s.flt.records ∧ r.ctx = ctx)) ∧
  (∀ (fn rq off ctx base : Nat) (bs : List Byte) (s : State), fn ∉ s.flt.frozenFns → fn ≤ 32 →
    off + bs.length ≤ apertureBytes fn →
    (s.aperture fn = none → exec (.apertureWrite fn rq off bs) s = .next s.asked) ∧
    (s.aperture fn = some (ctx, base) →
      let ps := pagePieces (base + off) bs.length
      (s.apBad ctx (base + off) bs.length = none → (∀ p ∈ ps, ∀ ia, s.apPage ctx p.1 true ≠ .miss ia) → ∃ es : List InEntry,
        exec (.apertureWrite fn rq off bs) s = .next (s.asked.setQs { s.qs with inb := s.qs.inb ++ es }) ∧
        es.flatMap (·.data) = bs ∧ es.length = ps.length ∧ ∀ (j : Nat) (e : InEntry) (p : Nat × Nat), es[j]? = some e → ps[j]? = some p →
          e.requester = rq ∧ e.ctx = some ctx ∧ (match s.apPage ctx p.1 true with
            | .key k => e.key = k ∧ e.wait = none
            | .wait ia => e.key = ia ∧ e.wait = some (fn, p.1)
            | _ => False)) ∧
      (∀ p ia, ps = [p] → s.apPage ctx p.1 true = .miss ia → ∃ t : State, exec (.apertureWrite fn rq off bs) s = .next t ∧
        t.qs.inb = s.qs.inb ++ [{ requester := rq, key := ia, data := bs, ctx := some ctx, wait := some (fn, p.1) }] ∧
        ∃ r ∈ t.qs.pages, r.page = ia / 65536 ∧ (fn, p.1) ∈ r.fns) ∧
      ∀ va c, s.apBad ctx (base + off) bs.length = some (va, c) →
        ∃ t : State, exec (.apertureWrite fn rq off bs) s = .next t ∧ t.env.aborted = true ∧ fn ∈ t.flt.frozenFns ∧ t.mem = s.mem ∧
          t.qs = s.qs)) ∧
  (∀ (fn rq off width : Nat) (bs : List Byte) (s : State), fn ∈ s.flt.frozenFns →
    exec (.apertureRead fn rq off width) s = .next (s.setEnv { s.env with aborted := true, reply := [] }) ∧
    Aborts (.apertureWrite fn rq off bs) s) ∧
  (∀ (addr width : Nat) (s : State), s.inHdm addr width = true → s.heldPage addr = false →
    (∀ e ∈ s.qs.inb, e.requester ≠ hostRequester) → s.holed addr width = false →
    exec (.cxlMemRead addr width) s = .next (s.setEnv { s.env with reply := readBytes s.mem.bytes addr width, aborted := false })) ∧
  (∀ (line off : Nat) (bs : List Byte) (s : State), s.inHdm (64 * line + off) bs.length = true → exec (.cxlMemWrite line off bs) s =
    .next (s.setQs { s.qs with inb := s.qs.inb ++ [{ requester := hostRequester, key := 64 * line + off, data := bs }] })) ∧
  (∀ (link hop group addr : Nat) (rq : Sys2Proof.PeerReq) (s : State), link < 24 → link ∉ s.flt.frozenLinks →
    s.chip.linksUp.getLsbD link = true → Memory.wf s.mem.bytes →
    let n := PeerReq.size rq
    let loc := localOf addr
    let refused : Prop := exec (.peerInboundRequest link group addr ⟨hop, rq⟩) s =
      .next (s.setEnv { s.env with aborted := true, reply := [] })
    (s.ownChip addr = false → match s.linkTo (chipOf addr) link with
      | none => refused
      | some k => if 8 ≤ hop then refused else exec (.peerInboundRequest link group addr ⟨hop, rq⟩) s =
          .next { s with env := { s.env with aborted := false, reply := [] }
                         chip := { s.chip with passed := s.chip.passed ++ [(k, hop + 1, group, addr, rq)] } }) ∧
    (s.ownChip addr = true → s.exported group loc n = false → refused) ∧
    (s.ownChip addr = true → s.exported group loc n = true → s.heldPage loc = false → s.holed loc n = false →
      ∃ t : State, exec (.peerInboundRequest link group addr ⟨hop, rq⟩) s = .next t ∧ t.regs = s.regs ∧ t.env.aborted = false ∧
        match rq with
        | .read n => t.mem.bytes = s.mem.bytes ∧ t.env.reply = readBytes s.mem.bytes loc n
        | .write bs => Writes s t loc bs
        | .atomic op wide b c => t.env.reply = readBytes s.mem.bytes loc n ∧ Writes s t loc (leBytes n (atomicNew op wide
            (leNat (readBytes s.mem.bytes loc n)) (b.toNat % 2 ^ (8 * n)) (c.toNat % 2 ^ (8 * n)))))) ∧
  ∀ (link : Nat) (s : State), link < 24 → ∃ t : State, exec (.linkFailure link) s = .next t ∧
    t = { s with chip := { s.chip with linksUp := t.chip.linksUp, routes := t.chip.routes } } ∧
    (∀ k < 24, t.chip.linksUp.getLsbD k = (s.chip.linksUp.getLsbD k && decide (k ≠ link))) ∧
    t.chip.routes.map (·.1) = s.chip.routes.map (·.1) ∧
    ∀ n, let w : BitVec 32 := lookupD 0 n s.chip.routes
      let v : BitVec 32 := lookupD 0 n t.chip.routes
      v.extractLsb' 24 8 = w.extractLsb' 24 8 ∧ ∀ k < 24, v.getLsbD k = (w.getLsbD k && decide (k ≠ link))

/-- The host-coherence cache, the host link, a function-level reset and the token buckets (R193, R324, R371, R375, R377): a snoop
moves the line's state, and returns the data of an M line; an eviction tells the host; the first training fixes the mode, and a
link that cannot retrain in it stays down; a reset hard-cancels the jobs of the function's contexts and clears their range
registers; a context with a rate takes its tokens, up to CAP, and the rest goes to the pool, up to 1,024. -/
def Obligations.HostEvents : Prop :=
  (∀ (line : Nat) (i : Instr) (s : State), i = .snpData line ∨ i = .snpInv line →
    let hit := lookup? line s.mem.hcc
    ∃ t : State, exec i s = .next t ∧
      t = { s with
        mem := { s.mem with hcc := t.mem.hcc }
        chip := { s.chip with cxlOut := s.chip.cxlOut ++ (if hit = some .m then [(.data, line)] else []) }
        env := { s.env with reply := if hit = some .m then readBytes s.mem.bytes (64 * line) 64 else [], aborted := false } } ∧
      ∀ l, lookup? l t.mem.hcc = if l = line then (if i = .snpInv line then none else hit.map fun _ => Mesi.s)
        else lookup? l s.mem.hcc) ∧
  (∀ (line : Nat) (s : State), ∃ t : State, exec (.hccEviction line) s = .next t ∧
    t = { s with
      mem := { s.mem with hcc := t.mem.hcc }
      chip := { s.chip with cxlOut := s.chip.cxlOut ++ (match lookup? line s.mem.hcc with
        | none => [] | some .m => [(.dirtyEvict, line)] | some _ => [(.cleanEvict, line)]) } } ∧
    ∀ l, lookup? l t.mem.hcc = if l = line then none else lookup? l s.mem.hcc) ∧
  (∀ (cxl up : Bool) (s : State), exec (.hostLinkTraining cxl up) s = .next (s.setChip
    (if up = false then { s.chip with hostUp := false }
     else if s.chip.mode = .untrained then { s.chip with mode := if cxl then .cxl else .pcie, hostUp := true }
     else if s.chip.mode = (if cxl then .cxl else .pcie) then { s.chip with hostUp := !s.chip.hostFailed }
     else { s.chip with hostUp := false, hostFailed := true }))) ∧
  (∀ (fn : Nat) (s : State), ∃ t : State, exec (.functionLevelReset fn) s = .next t ∧
    t.flt.frozenFns = s.flt.frozenFns.erase fn ∧
    (∀ c, (t.ctx c).ranges = if (s.ctx c).fn = fn then [] else (s.ctx c).ranges) ∧
    ∀ e ∈ t.work.entries, e.kind = .job → (s.ctx e.ctx).fn = fn → e.final = true ∨ e.hard = true) ∧
  ∀ (slice : Nat) (s : State), (s.ctxs.map (·.n)).Nodup →
    ∃ t : State, exec (.bandwidthTokenRefill slice) s = .next t ∧
      t = { s with mem := { s.mem with buckets := t.mem.buckets, spills := t.mem.spills, borrows := t.mem.borrows } } ∧
      (∀ b ∈ t.mem.borrows, b ∈ s.mem.borrows ∧ b.1 ≠ slice) ∧
      (∀ b ∈ t.mem.spills, b ∈ s.mem.spills ∨ b.1 = slice ∧ b.2 ≤ 1024) ∧
      ∀ c ∈ s.ctxs, let w := (c.cr 0x33).toNat
        let had (u : State) : Nat := ((u.mem.buckets.find? fun b => b.1 == slice && b.2.1 == c.n).map (·.2.2)).getD 0
        had t = if w % 65536 = 0 then had s else min (had s + w % 65536) (max (16 * (w / 65536 % 256)) (had s))

/-! ## Service -/

/-- The commands of the service block (R388, R389, R391, R392, R394, R395): aborted while the physical function is frozen, ignored
while one executes, status 3 where CMD is invalid; the device state changes along the rows of its table, else the status is 1; a
domain is quiesced, recalibrated, spared or resumed where its state and its use allow it.
The image length of UPDATE is an operand of the event (DESIGN CHOICE log 10: DESIGN CHOICE). -/
def Obligations.ServiceCommands : Prop :=
  (∀ (i : Instr) (c : BitVec 24) (s : State), serviceForm i = some c → s.svc.busy = none →
    (0 ∈ s.flt.frozenFns → Aborts i s) ∧
    (0 ∉ s.flt.frozenFns → s.flt.frozenMgmt = true → exec i s = .next s.asked) ∧
    (0 ∉ s.flt.frozenFns → s.flt.frozenMgmt = false → c.toNat / 2 ^ 16 ≠ 0 →
      exec i s = .next (s.asked.setSvc { s.svc with status := 3 }))) ∧
  (∀ (i : Instr) (c : BitVec 24) (k n b : Nat) (s : State), serviceForm i = some c → s.svc.busy = some (k + 1, n, b) →
    0 ∉ s.flt.frozenFns → exec i s = .next s.asked) ∧
  (∀ (i : Instr) (c : BitVec 24) (from_ : List DevState) (new : DevState) (s : State), ServiceFree s c →
    (i, from_, new) ∈ [(Instr.drain c, [DevState.active], if s.jobs = 0 then DevState.drained else .draining),
      (.undrain c, [.draining, .drained], .active), (.enterService c, [.drained], .service), (.exitService c, [.service], .active)] →
    exec i s = .next (s.asked.setSvc (if s.svc.dev ∈ from_ then { s.svc with dev := new, status := 0 } else { s.svc with status := 1 }))) ∧
  (∀ (c : BitVec 24) (s : State), ServiceFree s c →
    let k := svcKind c
    let n := svcIndex c
    let ends (m : Nat) : Prop := exec (.quiesce c) s = .next (s.asked.setSvc { s.svc with status := m })
    if isDomain k n = false ∨ k = 4 then ends 3
    else if s.domainState k n ≠ 0 then ends 1
    else if k = 1 ∧ s.pairInUse n = true ∨ k = 3 ∧ s.linkNeeded n = true ∨
        k = 2 ∧ (s.sramUnits (n / 4) - 3 < s.chip.spCur.getD (n / 4) 0 ∨ s.sramUnits (n / 4) - 3 < s.chip.spReq.getD (n / 4) 0) then ends 2
    else ∃ t : State, exec (.quiesce c) s = .next t ∧ t.regs = s.regs ∧ t.mem = s.mem ∧
      (∀ d, d ≠ (k, n) → t.domainState d.1 d.2 = s.domainState d.1 d.2) ∧
      if k = 0 ∧ s.placedOn n ≠ [] then t.domainState k n = 1 ∧ t.svc.busy = some (0, n, 2) ∧
        ∀ x ∈ s.placedOn n, x.phase = .resident → s.blk? x.id = some x → ∃ y, t.blk? x.id = some y ∧ y.stop.isSome
      else t.domainState k n = 2 ∧ t.svc.busy = none ∧ t.svc.status = 0 ∧
        (k = 2 → n ∈ t.svc.halvesOut) ∧ (k = 3 → t.chip.linksUp.getLsbD n = false)) ∧
  (∀ (c : BitVec 24) (s : State), ServiceFree s c →
    let k := svcKind c
    let n := svcIndex c
    let ends (m : Nat) : Prop := exec (.recal c) s = .next (s.asked.setSvc { s.svc with status := m })
    if isDomain k n = false ∨ ¬(k = 1 ∨ k = 3) then ends 3
    else if s.domainState k n ≠ 0 ∧ s.domainState k n ≠ 2 then ends 1
    else if k = 3 ∧ s.linkNeeded n = true then ends 2
    else ∃ t : State, exec (.recal c) s = .next t ∧ t.regs = s.regs ∧ t.mem = s.mem ∧ t.domainState k n = 3 ∧
      t.svc.busy = some (k, n, s.domainState k n)) ∧
  (∀ (k n b : Nat) (s : State), s.svc.busy = some (k, n, b) → k ≠ 0 →
    ∃ t : State, exec (.recalComplete k n) s = .next t ∧ t.regs = s.regs ∧ t.mem = s.mem ∧ t.domainState k n = b ∧
      t.svc.busy = none ∧ t.svc.status = 0 ∧ (k = 3 → n < 24 → t.chip.linksUp.getLsbD n = true)) ∧
  (∀ (c : BitVec 24) (s : State), ServiceFree s c → svcKind c = 0 → svcIndex c < 768 →
    let n := svcIndex c
    let ends (m : Nat) : Prop := exec (.spare c) s = .next (s.asked.setSvc { s.svc with status := m })
    if s.domainState 0 n ≠ 2 then ends 1
    else if (∃ p ∈ s.svc.spared, p.1 = tillerOf n) ∨ tillerOf n ∈ s.svc.spareFailed then ends 2
    else ∃ t : State, exec (.spare c) s = .next t ∧ t.domainState 0 n = 5 ∧ t.svc.status = 0 ∧
      t = { s.asked with svc := { s.svc with health := t.svc.health, status := 0, spared := s.svc.spared ++ [(tillerOf n, n % 8)] } }) ∧
  (∀ (c : BitVec 24) (s : State), ServiceFree s c → isDomain (svcKind c) (svcIndex c) = true →
    let k := svcKind c
    let n := svcIndex c
    ∃ t : State, exec (.resume c) s = .next t ∧ t.regs = s.regs ∧ t.mem = s.mem ∧ t.svc.status = 0 ∧
      (t.healthOf k n).dstate = 0 ∧ (t.healthOf k n).grade = 0 ∧ (k = 2 → n ∉ t.svc.halvesOut) ∧
      (k = 3 → t.chip.linksUp.getLsbD n = true)) ∧
  (∀ (c : BitVec 24) (len : Nat) (s : State), ServiceFree s c → svcKind c = 4 → svcIndex c < 2 → s.argOk len = true →
    let k := svcIndex c
    let slot := 1 - s.svc.slots.getD k 0
    let bs := readBytes s.mem.bytes (hostKey s.svc.arg.toNat) len
    let svc := { s.svc with images := assign (k * 2 + slot) (imageNumber bs) s.svc.images }
    exec (.update c len) s = .next (s.asked.setSvc
      (if Config.imageVerifies k bs then { svc with slots := s.svc.slots.set k slot, status := 0 } else { svc with status := 4 }))) ∧
  (∀ (c : BitVec 24) (s : State), ServiceFree s c →
    let n := svcIndex c
    if n < 4 ∨ 7 < n then exec (.extend c) s = .next (s.asked.setSvc { s.svc with status := 3 })
    else s.argOk 64 = true → exec (.extend c) s = .next (s.asked.setSvc { s.svc with
      status := 0
      meas := s.svc.meas.set n (measExtend (s.svc.meas.getD n 0) (digestNat (readBytes s.mem.bytes (hostKey s.svc.arg.toNat) 64))) })) ∧
  ∀ (c : BitVec 24) (s : State), ServiceFree s c → s.argOk 2000 = true → Memory.wf s.mem.bytes →
    let a := hostKey s.svc.arg.toNat
    ∃ t : State, exec (.report c) s = .next t ∧ t.regs = s.regs ∧ t.svc = { s.svc with status := 0 } ∧
      Writes s t (a + 64) (s.report (readBytes s.mem.bytes a 32))

/-- The service events (R372, R375, R385 to R387, R393, R394, R396): a refresh raises SEQ by 2 and writes the window whole; a
register of the physical function takes its write, and a read of one returns what it holds; without power everything is lost but what is not the part's, and power on ends
in SERVICE; the clamp is shown; the debug port reads memory only with measured debug, which is measured first; a conventional reset
gives every page back to the host.
Power, temperature and limit are operands of the event (DESIGN CHOICE log 10: DESIGN CHOICE). -/
def Obligations.ServiceEvents : Prop :=
  (∀ (power temp limit : BitVec 32) (s : State), s.svc.busy = none →
    if s.flt.frozenMgmt = true then exec (.statusWindowRefresh power temp limit) s = .next s
    else ∃ t : State, exec (.statusWindowRefresh power temp limit) s = .next t ∧ t = { s with svc := t.svc } ∧
      t.svc.wseq = (s.svc.wseq + 2) % 2 ^ 32 ∧ readBytes t.svc.window 0 4 = leBytes 4 ((s.svc.wseq + 2) % 2 ^ 32) ∧
      readBytes t.svc.window 4 4 = leBytes 4 (s.jobs % 8192 * 65536 + s.svc.throt.toNat * 8 + s.svc.dev.code) ∧
      readBytes t.svc.window 8 8 = leBytes 8 s.env.cycle ∧
      readBytes t.svc.window 0x20 4 = leBytes 4 (power.toNat % 65536 + min 2400 (limit.toNat % 65536) * 65536) ∧
      readBytes t.svc.window 0x24 4 = leBytes 4 temp.toNat) ∧
  (∀ (off : Nat) (v : BitVec 64) (s : State), (0 ∈ s.flt.frozenFns → Aborts (.registerWrite off v) s) ∧
    (0 ∉ s.flt.frozenFns →
      (off = 0x1000 → exec (.registerWrite off v) s = .next (s.asked.setChip { s.chip with chipId := v.setWidth 12 })) ∧
      (off = 0x20000 → exec (.registerWrite off v) s = .next (s.asked.setChip { s.chip with arg0 := v })) ∧
      (off = 0x20008 → exec (.registerWrite off v) s = .next (s.asked.setChip { s.chip with arg1 := v })) ∧
      (off = 0x21000 → exec (.registerWrite off v) s = .next (s.asked.setChip { s.chip with prqBase := v })) ∧
      (off = 0x20010 → v.toNat % 256 = 0 ∨ 10 < v.toNat % 256 → s.chip.s2busy = none →
        exec (.registerWrite off v) s = .next (s.asked.setChip { s.chip with s2busy := none, s2status := 7 })) ∧
      (off = 0x30000 → v.toNat % 256 = 0 ∨ 11 < v.toNat % 256 → s.svc.busy = none → s.flt.frozenMgmt = false →
        exec (.registerWrite off v) s = .next (s.asked.setSvc { s.svc with status := 3 })) ∧
      (off = 0x30008 → exec (.registerWrite off v) s = .next (s.asked.setSvc { s.svc with arg := v })) ∧
      ∀ n < 4096, off = 0x10000 + 4 * n → exec (.registerWrite off v) s = .next (s.asked.setChip { s.chip with
        routes := assign n (v.setWidth 32 &&& 0x80FFFFFF) s.chip.routes }))) ∧
  (∀ (off : Nat) (v : BitVec 64) (s : State), 0 ∉ s.flt.frozenFns → (∀ p ∈ s.qs.pages, p.written = true) →
    (off = 0x2100C → exec (.registerWrite off v) s = .next (s.asked.setChip { s.chip with prqHead := v.setWidth 32 })) ∧
    (off = 0x21010 → exec (.registerWrite off v) s = .next (s.asked.setChip { s.chip with prqLog := v.setWidth 32 }))) ∧
  (∀ (i : Instr) (s : State), i = .modulePowerLoss ∨ (∃ d, i = .thermalTrip d ∧ 1100 ≤ d) →
    ∃ t : State, exec i s = .next t ∧ t.env.powered = false ∧ t.blks = [] ∧ t.ctxs = State.reset.ctxs ∧ t.svc = State.reset.svc ∧
      t.mem.frames = [] ∧ ∀ k, k < 2 ^ 44 ∨ 2 ^ 60 ≤ k → readByte t.mem.bytes k = 0) ∧
  (∀ (d : Nat) (s : State), d < 1100 → exec (.thermalTrip d) s = .next s) ∧
  (∀ (ds : List (Nat × Nat)) (s : State),
    if s.env.powered = true then exec (.powerOn ds) s = .next s
    else ∃ t : State, exec (.powerOn ds) s = .next t ∧ t.env.powered = true ∧ t.svc.dev = .service ∧ t.mem.frames = [] ∧
      (∀ c, (t.ctx c).valid = false) ∧ (∀ k, 2 ^ 60 ≤ k → readByte t.mem.bytes k = 0) ∧
      ∀ d ∈ ds, isDomain d.1 d.2 = true → (t.healthOf d.1 d.2).dstate = 6 ∧ (t.healthOf d.1 d.2).grade = 3) ∧
  (∀ (on : Bool) (s : State), exec (.throttle on) s = .next (s.setSvc { s.svc with throt := on })) ∧
  (∀ (addr : Nat) (s : State), exec (.debugPortRead addr) s = .next (s.setEnv { s.env with
    reply := if s.svc.debug then [readByte s.mem.bytes addr] else [], aborted := !s.svc.debug })) ∧
  (∀ (s : State), exec .conventionalReset s = .next { s with
    chip := { s.chip with mode := .untrained, hostUp := false, hostFailed := false }, mem := { s.mem with device := [] } }) ∧
  (∀ (fn rq off : Nat) (s : State),
    (fn ∈ s.flt.frozenFns → execReadReg fn rq off s = .next (s.setEnv { s.env with aborted := true })) ∧
    (fn ∉ s.flt.frozenFns → (∃ e ∈ s.qs.inb, e.requester = rq) → execReadReg fn rq off s = .next s) ∧
    (fn ∉ s.flt.frozenFns → (∀ e ∈ s.qs.inb, e.requester ≠ rq) →
      let reads (bs : List Byte) : Prop := execReadReg fn rq off s = .next (s.setEnv { s.env with reply := bs, aborted := false })
      (fn = 0 → (off = 0x20018 → reads (leBytes 4 (s.chip.s2busy.isSome.toNat * 2 ^ 31 + s.chip.s2status % 256))) ∧
        (off = 0x30010 → reads (leBytes 4 (s.svc.busy.isSome.toNat * 2 ^ 31 + s.svc.status % 256))) ∧
        (off = 0x20000 → reads (leBytes 8 s.chip.arg0.toNat)) ∧ (off = 0x20010 ∨ off = 0x30000 → reads (leBytes 8 0)) ∧
        ∀ d < 4, off = 0x23000 + 4 * d → reads (leBytes 4 ((s.divPending d).toNat * 2 ^ 31 +
          s.chip.spCur.getD d 0 % 16 * 2 ^ 16 + s.chip.spReq.getD d 0 % 16))) ∧
      (0 < fn → off = 0x2000 → reads (leBytes 8 (lookupD (0 : BitVec 64) fn s.chip.apctl).toNat)))) ∧
  ∀ (s : State), exec .measuredDebugEnable s = .next (s.setSvc { s.svc with
    debug := true, meas := s.svc.meas.set 3 (measExtend (s.svc.meas.getD 3 0) Config.debugDigest) })

/-! ## Encodings -/

/-- Words that the spec's examples write out field by field, and the instructions that they are (R44 to R51, R54). -/
def Obligations.DecodeWords : Prop :=
  decode 0x3700_2A80_0000_0002 = .ok (.shlImm ⟨.vreg 1, false⟩ (.sv .lane) 2) ∧
  decode 0x2400_C00B_6000_0700 = .ok (.max ⟨.vreg 6, false⟩ 7 .s32 (.vreg 5) (.k 0)) ∧
  decode 0x6100_6005_7340_0704 = .ok (.fmul ⟨.vreg 3, false⟩ 7 .f32 ⟨.rne, false, false⟩ (.vreg 2) (.k 77)) ∧
  decode 0xB000_4D80_0040_03A0 = .ok (.ld ⟨.vreg 2, false⟩ ⟨.sreg .d 0, .vreg 1, 0, 7, .w, 0⟩ 0) ∧
  decode 0x00B0_00FF_FF80_0100 = .ok (.br .block 0xFFFF8 16) ∧
  decode 0xE380_6D81_6000_1000 = .ok (.acas (some ⟨.vreg 3, false⟩) false (.sreg .d 0) (.k 0) (.vreg 2)) ∧
  decode 0xD150_8B01_606C_1000 = .ok (.give ⟨.scope 4, false⟩ (.k 0) (.k 1) (.k 2) false) ∧
  decode 0xFD81_4080_0000_0000 = .ok (.mfcr (.vreg 10) 0x040) ∧
  decode 0 = .error .opcode

/-- DECODE AND ENCODE AGREE: the word that the encoder gives a well-formed instruction decodes to it, with every operand at every
value that its encoding admits (R44 to R54). -/
def Obligations.EncodeDecode : Prop := ∀ i : Instr, Laws.Coding.Statement i

/-- The decoder gives no ill-formed instruction, and a word that decodes is the word of its instruction: no bit is dropped, and a
nonzero bit where zero is required is refused (R48, R49, R51). -/
def Obligations.DecodeExact : Prop :=
  (∀ (w : Nat) (i : Instr), decode w = .ok i → i.wf = true) ∧
  ∀ (w : Nat) (i : Instr), w < 2 ^ 64 → decode w = .ok i → encode i = some w

/-! ## The machine -/

/-- State right after reset (R359, R362, R367, R373, R375, R386, R387, R396): in SERVICE, every context invalid with no range register,
the status window with every core in service, every frame CLEAN, all of M zero and in canonical form, each die's SRAM all memory-side cache, no mode negotiated, every page
host-biased, and no work.
That unlisted bytes read as zero and that the agenda is empty are the model's (DESIGN CHOICE log 2, DESIGN CHOICE log 3: DESIGN CHOICE). -/
def Obligations.ResetValues : Prop :=
  let s := State.reset
  s.svc.dev = .service ∧ readBytes s.svc.window 4 4 = leBytes 4 3 ∧ (∀ t < 96, readByte s.svc.window (0x100 + 4 * t) = 0xFF) ∧ (∀ c, (s.ctx c).valid = false ∧ (s.ctx c).ranges = []) ∧ (∀ f, s.frameWord f = 0) ∧ s.memWf ∧
    (∀ k, readByte s.mem.bytes k = 0) ∧ s.mem.draft = [] ∧ s.mem.device = [] ∧ s.chip.spCur = [0, 0, 0, 0] ∧ s.chip.mode = .untrained ∧
    s.blks = [] ∧ s.work.entries = [] ∧ s.env.agenda = []

/-- Every step keeps memory and the frame states in their canonical form.
The canonical form is the model's (DESIGN CHOICE log 3: DESIGN CHOICE): strictly rising addresses and no entry equal to what an unlisted one reads as. -/
def Obligations.MemoryWfStep : Prop := ∀ s t : State, s.memWf → step s = .next t → t.memWf

/-- Every step answers a next state: no instruction and no event of the part ends the machine.
That a program fault never ends the machine is the spec's; that a step without effect leaves the state is the model's (DESIGN CHOICE log 2: DESIGN CHOICE). -/
def Obligations.StepAnswers : Prop := ∀ s : State, Safe s

/-- A STEP RUNS THE DECODED INSTRUCTION (R52, R55 to R57): where the agenda lets a unit issue, the word at its clause's position is
decoded, checked for its class, its place and its latches, and executed in the state in which the unit acts; a word that fails
the checks raises UNDEF or LATCH; a step of the part runs in the state as it is; with nothing asked, nothing happens.
The agenda is the model's (DESIGN CHOICE log 2: DESIGN CHOICE), and the placing of a word that of DESIGN CHOICE log 1 (DESIGN CHOICE). -/
def Obligations.StepRunsDecoded : Prop :=
  (∀ s : State, s.env.agenda = [] → step s = .next s) ∧
  (∀ (c : Choice) (r : List Choice) (u : UnitRef) (n w : Nat) (q : Seq) (k : ClauseRun) (s : State), s.env.agenda = c :: r →
    c.act = .issue u n → s.env.powered = true → (s.take c r).mayIssue u = true → s.seq? u = some q → q.clause = some k →
    k.ended = false → k.words[k.pos]? = some w →
    (∀ i, decode w = .ok i → i.legalIn u.cls = true → i.placedOk k.pos = true → i.latchOk k.pos k.earlier = true →
      step s = exec i ((s.take c r).acting u n)) ∧
    (∀ i, decode w = .ok i → i.legalIn u.cls = true → i.placedOk k.pos = true → i.latchOk k.pos k.earlier = false →
      step s = .next (takeFault u k.pcAt (decodeTrap .latch u k) (s.take c r))) ∧
    ((∀ i, decode w = .ok i → i.legalIn u.cls = false ∨ i.placedOk k.pos = false) →
      step s = .next (takeFault u k.pcAt (decodeTrap .undef u k) (s.take c r)))) ∧
  (∀ (c : Choice) (r : List Choice) (u : UnitRef) (n : Nat) (q : Seq) (s : State), s.env.agenda = c :: r → c.act = .issue u n →
    s.env.powered = true → (s.take c r).mayIssue u = true → s.seq? u = some q →
    (q.clause = none ∨ ∃ k, q.clause = some k ∧ k.ended = true) →
    step s = exec (.clauseHeader u) ((s.take c r).acting u n)) ∧
  (∀ (c : Choice) (r : List Choice) (i : Instr) (s : State), s.env.agenda = c :: r → c.act = .event i → s.env.powered = true →
    i.classes = [] → step s = exec i (s.take c r)) ∧
  (∀ (c : Choice) (r : List Choice) (fn rq off : Nat) (s : State), s.env.agenda = c :: r → c.act = .readReg fn rq off →
    s.env.powered = true → step s = execReadReg fn rq off (s.take c r)) ∧
  ∀ (w : Nat) (i : Instr) (s : State), decode (w % 2 ^ 64) = .ok i → (∃ c, i.legalIn c = true) → i.placedOk 0 = true →
    i.latchOk 0 [] = true → ∃ u t, step (s.withFetchWord 64 w) = exec i t ∧ t.env.cur = u ∧
      ∃ q k, t.seq? u = some q ∧ q.clause = some k ∧ k.words = [w % 2 ^ 64]

/-- WALKING THE TEXT (R40 to R43, R61, R62, R65, R66, R77, R78, R82, R323): units that stand at the header of a clause of their own
class start it together, with its words as fetched, led by the first, where their group has pass positions or may take them; a
clause of a lower class is stepped over; the newest loop that ends at the header counts down and goes back, or is left; a slice
follows the Clause end of a level above it; a unit leaves a clause that has ended for the address it goes to, and retires there if
`done` said so.
When RE is cleared is the model's reading (DEDUCED log 13: DEDUCED), and so is when a group gives up its positions (DESIGN CHOICE log 38: DESIGN CHOICE). -/
def Obligations.TextWalked : Prop :=
  (∀ (u v : UnitRef) (us : List UnitRef) (q : Seq) (w : Nat) (hd : Header) (ws : List Nat) (s : State),
    s.seq? u = some q → s.mayIssue u = true → q.clause = none → s.ownRecord u = none → s.together u q = v :: us →
    decodeHeader w = some hd → hd.cls = u.cls →
    (∀ y ∈ v :: us, y.cls = u.cls ∧ ∃ x, s.seq? y = some x ∧ x.pc = q.pc ∧ x.clause = none ∧ Seq.walk (Seq.arrive x) = false ∧
      (∀ e, x.loops.head? = some e → e.stop ≠ x.pc) ∧ (∀ p ∈ x.watches, p.2.2 ≠ x.pc) ∧
      s.fetchWord y x.pc = .ok w ∧ s.fetchWords y (x.pc + 8) (hd.count + 1) = .ok ws ∧ clauseReady y hd s = .ok ()) →
    ((s.arrivedAt (v :: us)).dated u).mayStart v hd = true →
    ∃ t : State, exec (.clauseHeader u) s = .next t ∧ t = { s with seqs := t.seqs } ∧
      (∀ y, y ∉ v :: us → (t.seq? y).map Seq.unscheduled = (s.seq? y).map Seq.unscheduled) ∧
      (∀ y ∈ v :: us, ∀ x, s.seq? y = some x → (t.seq? y).map Seq.unscheduled = some (Seq.unscheduled (if y = v then
        { (Seq.arrive x).endRegion with park := .none, clause := some { addr := q.pc, hdr := hd, words := ws, pos := 0, next := none, team := (v :: us).map UnitRef.sliceNo, retire := false, ended := false } }
        else (Seq.arrive x).endRegion))) ∧
      ∀ b g x, u.rank ≤ 2 → u.block? = some b → u.groupNo = g → t.seq? (.group b g) = some x →
        x.readyAt = none ∧ x.promoted = false ∧ x.yielded = false) ∧
  (∀ (u : UnitRef) (q : Seq) (w : Nat) (hd : Header) (s : State), s.seq? u = some q → s.mayIssue u = true → q.clause = none →
    s.ownRecord u = none → s.together u q = [u] → (∀ e, q.loops.head? = some e → e.stop ≠ q.pc) →
    (∀ p ∈ q.watches, p.2.2 ≠ q.pc) → s.fetchWord u q.pc = .ok w → decodeHeader w = some hd →
    (hd.cls.rank < u.rank → ∃ t : State, exec (.clauseHeader u) s = .next t ∧ t = { s with seqs := t.seqs } ∧
      (∀ v, v ≠ u → t.seq? v = s.seq? v) ∧ t.seq? u = some { (Seq.arrive q).endRegion with
        pc := pcWrap (q.pc + hd.bytes), parkAt := if pcWrap (q.pc + hd.bytes) = q.pc then q.parkAt else s.env.cycle }) ∧
    (∀ d n retire depth, u.rank = 1 → 1 < hd.cls.rank → s.nextDecision u q = some d → d.kind = .clauseEnd n retire depth →
      Seq.re (Seq.arrive q).endRegion = none → q.calls = [] → q.parted = false → Seq.laneState (Seq.arrive q) = false →
      ∃ t : State, exec (.clauseHeader u) s = .next t ∧ ∃ x, t.seq? u = some x ∧ x.pc = n ∧ x.queue = q.queue.tail ∧
        x.clause = none ∧ x.retired = (q.retired || (retire && d.rank == 2)))) ∧
  (∀ (u : UnitRef) (q : Seq) (e : Loop) (r : List Loop) (s : State), s.seq? u = some q → s.mayIssue u = true → q.clause = none →
    s.ownRecord u = none → s.together u q = [u] → q.loops = e :: r → e.stop = q.pc → s.mayProduce u 1 = true →
    ∃ t : State, exec (.clauseHeader u) s = .next t ∧ ∃ x, t.seq? u = some x ∧ x.re = q.re ∧
      if e.remaining = 1 then x.pc = q.pc ∧ x.loops = r
      else x.pc = e.top ∧ x.loops = { e with remaining := (e.remaining + (2 ^ 32 - 1)) % 2 ^ 32, index := (e.index + 1) % 2 ^ 32 } :: r) ∧
  ∀ (u : UnitRef) (q : Seq) (k : ClauseRun) (s : State), s.seq? u = some q → s.mayIssue u = true → q.clause = some k →
    (k.ended = false → exec (.clauseHeader u) s = .next s) ∧
    (k.ended = true → (u.rank = 1 → k.team = [u.sliceNo] ∧ k.words.any isMeet = false) → u.rank = 1 ∨ s.mayProduce u 1 = true →
      ∃ t : State, exec (.clauseHeader u) s = .next t ∧ ∃ x, t.seq? u = some x ∧ x.clause = none ∧
        x.pc = (if u.rank = 1 then Seq.landing q (k.next.getD k.after) else k.next.getD k.after) ∧
        x.retired = (q.retired || k.retire))

/-- Registers beyond the block's allocation (R85): an instruction of a slice clause that computes in lanes and names one takes
REGBOUND.
That LANES is 0 is the model's (DESIGN CHOICE log 18: DESIGN CHOICE). -/
def Obligations.RegistersBounded : Prop :=
  ∀ (form : Instr → Option LaneForm) (i : Instr) (f : LaneForm) (s : State) (h : Here),
    form = integerForm ∨ form = immediateForm ∨ form = floatForm ∨ form = narrowForm →
    form i = some f → i.wf = true → i.legalIn .slice = true → s.here? = some h → h.isSlice = true →
    h.boundsOk (srcRegs f.srcs ++ outRegs f.out f.span) = false →
    TakesFault i s h { cause := .regbound, addr := 0, info := 0, lanes := 0, after := false }

/-- RANGE REGISTERS (R360): the lowest-numbered register that covers a global address gives the intermediate address, which never
leaves the region of its context. -/
def Obligations.RangesCover : Prop :=
  let iaoff (r : BitVec 128) : Nat := (r.extractLsb' 96 30).toNat
  let sizem1 (r : BitVec 128) : Nat := (r.extractLsb' 64 30).toNat
  let vbase (r : BitVec 128) : Nat := (r.extractLsb' 0 41).toNat
  let covers (r : BitVec 128) (a : Nat) : Prop := r.getLsbD 63 = true ∧ iaoff r + sizem1 r < 2 ^ 30 ∧ vbase r * 2 ^ 16 ≤ a ∧
    a < (vbase r + sizem1 r + 1) * 2 ^ 16 ∧ regionOf a = .global
  ∀ (c a : Nat) (s : State), let reg (i : Nat) : BitVec 128 := lookupD 0 i (s.ctx c).ranges
    (∀ r ia, s.stage1 c a = some (r, ia) ↔ ∃ i < 16, r = reg i ∧ covers r a ∧ (∀ j < i, ¬covers (reg j) a) ∧
      ia = c * 2 ^ 46 + iaoff r * 2 ^ 16 + (a - vbase r * 2 ^ 16)) ∧
    ∀ r ia, s.stage1 c a = some (r, ia) → ia / 2 ^ 46 = c
end

