-- ==== Sys2Proof/Laws/State.lean ====
section
/-! SUPPORT. One lemma per field of State and per update of a group: what the update leaves and what it sets. -/

namespace Sys2Proof.Machine

/-! ### `setEnv` -/

@[simp] theorem State.setEnv_env (s : State) (x : Env) : (s.setEnv x).env = x := rfl
@[simp] theorem State.setEnv_regs (s : State) (x : Env) : (s.setEnv x).regs = s.regs := rfl
@[simp] theorem State.setEnv_seqs (s : State) (x : Env) : (s.setEnv x).seqs = s.seqs := rfl
@[simp] theorem State.setEnv_blks (s : State) (x : Env) : (s.setEnv x).blks = s.blks := rfl
@[simp] theorem State.setEnv_gangs (s : State) (x : Env) : (s.setEnv x).gangs = s.gangs := rfl
@[simp] theorem State.setEnv_work (s : State) (x : Env) : (s.setEnv x).work = s.work := rfl
@[simp] theorem State.setEnv_syms (s : State) (x : Env) : (s.setEnv x).syms = s.syms := rfl
@[simp] theorem State.setEnv_mem (s : State) (x : Env) : (s.setEnv x).mem = s.mem := rfl
@[simp] theorem State.setEnv_qs (s : State) (x : Env) : (s.setEnv x).qs = s.qs := rfl
@[simp] theorem State.setEnv_ctxs (s : State) (x : Env) : (s.setEnv x).ctxs = s.ctxs := rfl
@[simp] theorem State.setEnv_flt (s : State) (x : Env) : (s.setEnv x).flt = s.flt := rfl
@[simp] theorem State.setEnv_chip (s : State) (x : Env) : (s.setEnv x).chip = s.chip := rfl
@[simp] theorem State.setEnv_svc (s : State) (x : Env) : (s.setEnv x).svc = s.svc := rfl
@[simp] theorem State.setEnv_setEnv (s : State) (x y : Env) : (s.setEnv x).setEnv y = s.setEnv y := rfl
@[simp] theorem State.setEnv_self (s : State) : s.setEnv s.env = s := rfl

/-! ### `setRegs` -/

@[simp] theorem State.setRegs_env (s : State) (x : List (RegKey × Cell)) : (s.setRegs x).env = s.env := rfl
@[simp] theorem State.setRegs_regs (s : State) (x : List (RegKey × Cell)) : (s.setRegs x).regs = x := rfl
@[simp] theorem State.setRegs_seqs (s : State) (x : List (RegKey × Cell)) : (s.setRegs x).seqs = s.seqs := rfl
@[simp] theorem State.setRegs_blks (s : State) (x : List (RegKey × Cell)) : (s.setRegs x).blks = s.blks := rfl
@[simp] theorem State.setRegs_gangs (s : State) (x : List (RegKey × Cell)) : (s.setRegs x).gangs = s.gangs := rfl
@[simp] theorem State.setRegs_work (s : State) (x : List (RegKey × Cell)) : (s.setRegs x).work = s.work := rfl
@[simp] theorem State.setRegs_syms (s : State) (x : List (RegKey × Cell)) : (s.setRegs x).syms = s.syms := rfl
@[simp] theorem State.setRegs_mem (s : State) (x : List (RegKey × Cell)) : (s.setRegs x).mem = s.mem := rfl
@[simp] theorem State.setRegs_qs (s : State) (x : List (RegKey × Cell)) : (s.setRegs x).qs = s.qs := rfl
@[simp] theorem State.setRegs_ctxs (s : State) (x : List (RegKey × Cell)) : (s.setRegs x).ctxs = s.ctxs := rfl
@[simp] theorem State.setRegs_flt (s : State) (x : List (RegKey × Cell)) : (s.setRegs x).flt = s.flt := rfl
@[simp] theorem State.setRegs_chip (s : State) (x : List (RegKey × Cell)) : (s.setRegs x).chip = s.chip := rfl
@[simp] theorem State.setRegs_svc (s : State) (x : List (RegKey × Cell)) : (s.setRegs x).svc = s.svc := rfl
@[simp] theorem State.setRegs_setRegs (s : State) (x y : List (RegKey × Cell)) : (s.setRegs x).setRegs y = s.setRegs y := rfl
@[simp] theorem State.setRegs_self (s : State) : s.setRegs s.regs = s := rfl

/-! ### `setSeqs` -/

@[simp] theorem State.setSeqs_env (s : State) (x : List (UnitRef × Seq)) : (s.setSeqs x).env = s.env := rfl
@[simp] theorem State.setSeqs_regs (s : State) (x : List (UnitRef × Seq)) : (s.setSeqs x).regs = s.regs := rfl
@[simp] theorem State.setSeqs_seqs (s : State) (x : List (UnitRef × Seq)) : (s.setSeqs x).seqs = x := rfl
@[simp] theorem State.setSeqs_blks (s : State) (x : List (UnitRef × Seq)) : (s.setSeqs x).blks = s.blks := rfl
@[simp] theorem State.setSeqs_gangs (s : State) (x : List (UnitRef × Seq)) : (s.setSeqs x).gangs = s.gangs := rfl
@[simp] theorem State.setSeqs_work (s : State) (x : List (UnitRef × Seq)) : (s.setSeqs x).work = s.work := rfl
@[simp] theorem State.setSeqs_syms (s : State) (x : List (UnitRef × Seq)) : (s.setSeqs x).syms = s.syms := rfl
@[simp] theorem State.setSeqs_mem (s : State) (x : List (UnitRef × Seq)) : (s.setSeqs x).mem = s.mem := rfl
@[simp] theorem State.setSeqs_qs (s : State) (x : List (UnitRef × Seq)) : (s.setSeqs x).qs = s.qs := rfl
@[simp] theorem State.setSeqs_ctxs (s : State) (x : List (UnitRef × Seq)) : (s.setSeqs x).ctxs = s.ctxs := rfl
@[simp] theorem State.setSeqs_flt (s : State) (x : List (UnitRef × Seq)) : (s.setSeqs x).flt = s.flt := rfl
@[simp] theorem State.setSeqs_chip (s : State) (x : List (UnitRef × Seq)) : (s.setSeqs x).chip = s.chip := rfl
@[simp] theorem State.setSeqs_svc (s : State) (x : List (UnitRef × Seq)) : (s.setSeqs x).svc = s.svc := rfl
@[simp] theorem State.setSeqs_setSeqs (s : State) (x y : List (UnitRef × Seq)) : (s.setSeqs x).setSeqs y = s.setSeqs y := rfl
@[simp] theorem State.setSeqs_self (s : State) : s.setSeqs s.seqs = s := rfl

/-! ### `setBlks` -/

@[simp] theorem State.setBlks_env (s : State) (x : List Blk) : (s.setBlks x).env = s.env := rfl
@[simp] theorem State.setBlks_regs (s : State) (x : List Blk) : (s.setBlks x).regs = s.regs := rfl
@[simp] theorem State.setBlks_seqs (s : State) (x : List Blk) : (s.setBlks x).seqs = s.seqs := rfl
@[simp] theorem State.setBlks_blks (s : State) (x : List Blk) : (s.setBlks x).blks = x := rfl
@[simp] theorem State.setBlks_gangs (s : State) (x : List Blk) : (s.setBlks x).gangs = s.gangs := rfl
@[simp] theorem State.setBlks_work (s : State) (x : List Blk) : (s.setBlks x).work = s.work := rfl
@[simp] theorem State.setBlks_syms (s : State) (x : List Blk) : (s.setBlks x).syms = s.syms := rfl
@[simp] theorem State.setBlks_mem (s : State) (x : List Blk) : (s.setBlks x).mem = s.mem := rfl
@[simp] theorem State.setBlks_qs (s : State) (x : List Blk) : (s.setBlks x).qs = s.qs := rfl
@[simp] theorem State.setBlks_ctxs (s : State) (x : List Blk) : (s.setBlks x).ctxs = s.ctxs := rfl
@[simp] theorem State.setBlks_flt (s : State) (x : List Blk) : (s.setBlks x).flt = s.flt := rfl
@[simp] theorem State.setBlks_chip (s : State) (x : List Blk) : (s.setBlks x).chip = s.chip := rfl
@[simp] theorem State.setBlks_svc (s : State) (x : List Blk) : (s.setBlks x).svc = s.svc := rfl
@[simp] theorem State.setBlks_setBlks (s : State) (x y : List Blk) : (s.setBlks x).setBlks y = s.setBlks y := rfl
@[simp] theorem State.setBlks_self (s : State) : s.setBlks s.blks = s := rfl

/-! ### `setGangs` -/

@[simp] theorem State.setGangs_env (s : State) (x : List Gang) : (s.setGangs x).env = s.env := rfl
@[simp] theorem State.setGangs_regs (s : State) (x : List Gang) : (s.setGangs x).regs = s.regs := rfl
@[simp] theorem State.setGangs_seqs (s : State) (x : List Gang) : (s.setGangs x).seqs = s.seqs := rfl
@[simp] theorem State.setGangs_blks (s : State) (x : List Gang) : (s.setGangs x).blks = s.blks := rfl
@[simp] theorem State.setGangs_gangs (s : State) (x : List Gang) : (s.setGangs x).gangs = x := rfl
@[simp] theorem State.setGangs_work (s : State) (x : List Gang) : (s.setGangs x).work = s.work := rfl
@[simp] theorem State.setGangs_syms (s : State) (x : List Gang) : (s.setGangs x).syms = s.syms := rfl
@[simp] theorem State.setGangs_mem (s : State) (x : List Gang) : (s.setGangs x).mem = s.mem := rfl
@[simp] theorem State.setGangs_qs (s : State) (x : List Gang) : (s.setGangs x).qs = s.qs := rfl
@[simp] theorem State.setGangs_ctxs (s : State) (x : List Gang) : (s.setGangs x).ctxs = s.ctxs := rfl
@[simp] theorem State.setGangs_flt (s : State) (x : List Gang) : (s.setGangs x).flt = s.flt := rfl
@[simp] theorem State.setGangs_chip (s : State) (x : List Gang) : (s.setGangs x).chip = s.chip := rfl
@[simp] theorem State.setGangs_svc (s : State) (x : List Gang) : (s.setGangs x).svc = s.svc := rfl
@[simp] theorem State.setGangs_setGangs (s : State) (x y : List Gang) : (s.setGangs x).setGangs y = s.setGangs y := rfl
@[simp] theorem State.setGangs_self (s : State) : s.setGangs s.gangs = s := rfl

/-! ### `setWork` -/

@[simp] theorem State.setWork_env (s : State) (x : Work) : (s.setWork x).env = s.env := rfl
@[simp] theorem State.setWork_regs (s : State) (x : Work) : (s.setWork x).regs = s.regs := rfl
@[simp] theorem State.setWork_seqs (s : State) (x : Work) : (s.setWork x).seqs = s.seqs := rfl
@[simp] theorem State.setWork_blks (s : State) (x : Work) : (s.setWork x).blks = s.blks := rfl
@[simp] theorem State.setWork_gangs (s : State) (x : Work) : (s.setWork x).gangs = s.gangs := rfl
@[simp] theorem State.setWork_work (s : State) (x : Work) : (s.setWork x).work = x := rfl
@[simp] theorem State.setWork_syms (s : State) (x : Work) : (s.setWork x).syms = s.syms := rfl
@[simp] theorem State.setWork_mem (s : State) (x : Work) : (s.setWork x).mem = s.mem := rfl
@[simp] theorem State.setWork_qs (s : State) (x : Work) : (s.setWork x).qs = s.qs := rfl
@[simp] theorem State.setWork_ctxs (s : State) (x : Work) : (s.setWork x).ctxs = s.ctxs := rfl
@[simp] theorem State.setWork_flt (s : State) (x : Work) : (s.setWork x).flt = s.flt := rfl
@[simp] theorem State.setWork_chip (s : State) (x : Work) : (s.setWork x).chip = s.chip := rfl
@[simp] theorem State.setWork_svc (s : State) (x : Work) : (s.setWork x).svc = s.svc := rfl
@[simp] theorem State.setWork_setWork (s : State) (x y : Work) : (s.setWork x).setWork y = s.setWork y := rfl
@[simp] theorem State.setWork_self (s : State) : s.setWork s.work = s := rfl

/-! ### `setSyms` -/

@[simp] theorem State.setSyms_env (s : State) (x : List Sym) : (s.setSyms x).env = s.env := rfl
@[simp] theorem State.setSyms_regs (s : State) (x : List Sym) : (s.setSyms x).regs = s.regs := rfl
@[simp] theorem State.setSyms_seqs (s : State) (x : List Sym) : (s.setSyms x).seqs = s.seqs := rfl
@[simp] theorem State.setSyms_blks (s : State) (x : List Sym) : (s.setSyms x).blks = s.blks := rfl
@[simp] theorem State.setSyms_gangs (s : State) (x : List Sym) : (s.setSyms x).gangs = s.gangs := rfl
@[simp] theorem State.setSyms_work (s : State) (x : List Sym) : (s.setSyms x).work = s.work := rfl
@[simp] theorem State.setSyms_syms (s : State) (x : List Sym) : (s.setSyms x).syms = x := rfl
@[simp] theorem State.setSyms_mem (s : State) (x : List Sym) : (s.setSyms x).mem = s.mem := rfl
@[simp] theorem State.setSyms_qs (s : State) (x : List Sym) : (s.setSyms x).qs = s.qs := rfl
@[simp] theorem State.setSyms_ctxs (s : State) (x : List Sym) : (s.setSyms x).ctxs = s.ctxs := rfl
@[simp] theorem State.setSyms_flt (s : State) (x : List Sym) : (s.setSyms x).flt = s.flt := rfl
@[simp] theorem State.setSyms_chip (s : State) (x : List Sym) : (s.setSyms x).chip = s.chip := rfl
@[simp] theorem State.setSyms_svc (s : State) (x : List Sym) : (s.setSyms x).svc = s.svc := rfl
@[simp] theorem State.setSyms_setSyms (s : State) (x y : List Sym) : (s.setSyms x).setSyms y = s.setSyms y := rfl
@[simp] theorem State.setSyms_self (s : State) : s.setSyms s.syms = s := rfl

/-! ### `setMem` -/

@[simp] theorem State.setMem_env (s : State) (x : Mem) : (s.setMem x).env = s.env := rfl
@[simp] theorem State.setMem_regs (s : State) (x : Mem) : (s.setMem x).regs = s.regs := rfl
@[simp] theorem State.setMem_seqs (s : State) (x : Mem) : (s.setMem x).seqs = s.seqs := rfl
@[simp] theorem State.setMem_blks (s : State) (x : Mem) : (s.setMem x).blks = s.blks := rfl
@[simp] theorem State.setMem_gangs (s : State) (x : Mem) : (s.setMem x).gangs = s.gangs := rfl
@[simp] theorem State.setMem_work (s : State) (x : Mem) : (s.setMem x).work = s.work := rfl
@[simp] theorem State.setMem_syms (s : State) (x : Mem) : (s.setMem x).syms = s.syms := rfl
@[simp] theorem State.setMem_mem (s : State) (x : Mem) : (s.setMem x).mem = x := rfl
@[simp] theorem State.setMem_qs (s : State) (x : Mem) : (s.setMem x).qs = s.qs := rfl
@[simp] theorem State.setMem_ctxs (s : State) (x : Mem) : (s.setMem x).ctxs = s.ctxs := rfl
@[simp] theorem State.setMem_flt (s : State) (x : Mem) : (s.setMem x).flt = s.flt := rfl
@[simp] theorem State.setMem_chip (s : State) (x : Mem) : (s.setMem x).chip = s.chip := rfl
@[simp] theorem State.setMem_svc (s : State) (x : Mem) : (s.setMem x).svc = s.svc := rfl
@[simp] theorem State.setMem_setMem (s : State) (x y : Mem) : (s.setMem x).setMem y = s.setMem y := rfl
@[simp] theorem State.setMem_self (s : State) : s.setMem s.mem = s := rfl

/-! ### `setQs` -/

@[simp] theorem State.setQs_env (s : State) (x : Queues) : (s.setQs x).env = s.env := rfl
@[simp] theorem State.setQs_regs (s : State) (x : Queues) : (s.setQs x).regs = s.regs := rfl
@[simp] theorem State.setQs_seqs (s : State) (x : Queues) : (s.setQs x).seqs = s.seqs := rfl
@[simp] theorem State.setQs_blks (s : State) (x : Queues) : (s.setQs x).blks = s.blks := rfl
@[simp] theorem State.setQs_gangs (s : State) (x : Queues) : (s.setQs x).gangs = s.gangs := rfl
@[simp] theorem State.setQs_work (s : State) (x : Queues) : (s.setQs x).work = s.work := rfl
@[simp] theorem State.setQs_syms (s : State) (x : Queues) : (s.setQs x).syms = s.syms := rfl
@[simp] theorem State.setQs_mem (s : State) (x : Queues) : (s.setQs x).mem = s.mem := rfl
@[simp] theorem State.setQs_qs (s : State) (x : Queues) : (s.setQs x).qs = x := rfl
@[simp] theorem State.setQs_ctxs (s : State) (x : Queues) : (s.setQs x).ctxs = s.ctxs := rfl
@[simp] theorem State.setQs_flt (s : State) (x : Queues) : (s.setQs x).flt = s.flt := rfl
@[simp] theorem State.setQs_chip (s : State) (x : Queues) : (s.setQs x).chip = s.chip := rfl
@[simp] theorem State.setQs_svc (s : State) (x : Queues) : (s.setQs x).svc = s.svc := rfl
@[simp] theorem State.setQs_setQs (s : State) (x y : Queues) : (s.setQs x).setQs y = s.setQs y := rfl
@[simp] theorem State.setQs_self (s : State) : s.setQs s.qs = s := rfl

/-! ### `setCtxs` -/

@[simp] theorem State.setCtxs_env (s : State) (x : List Ctx) : (s.setCtxs x).env = s.env := rfl
@[simp] theorem State.setCtxs_regs (s : State) (x : List Ctx) : (s.setCtxs x).regs = s.regs := rfl
@[simp] theorem State.setCtxs_seqs (s : State) (x : List Ctx) : (s.setCtxs x).seqs = s.seqs := rfl
@[simp] theorem State.setCtxs_blks (s : State) (x : List Ctx) : (s.setCtxs x).blks = s.blks := rfl
@[simp] theorem State.setCtxs_gangs (s : State) (x : List Ctx) : (s.setCtxs x).gangs = s.gangs := rfl
@[simp] theorem State.setCtxs_work (s : State) (x : List Ctx) : (s.setCtxs x).work = s.work := rfl
@[simp] theorem State.setCtxs_syms (s : State) (x : List Ctx) : (s.setCtxs x).syms = s.syms := rfl
@[simp] theorem State.setCtxs_mem (s : State) (x : List Ctx) : (s.setCtxs x).mem = s.mem := rfl
@[simp] theorem State.setCtxs_qs (s : State) (x : List Ctx) : (s.setCtxs x).qs = s.qs := rfl
@[simp] theorem State.setCtxs_ctxs (s : State) (x : List Ctx) : (s.setCtxs x).ctxs = x := rfl
@[simp] theorem State.setCtxs_flt (s : State) (x : List Ctx) : (s.setCtxs x).flt = s.flt := rfl
@[simp] theorem State.setCtxs_chip (s : State) (x : List Ctx) : (s.setCtxs x).chip = s.chip := rfl
@[simp] theorem State.setCtxs_svc (s : State) (x : List Ctx) : (s.setCtxs x).svc = s.svc := rfl
@[simp] theorem State.setCtxs_setCtxs (s : State) (x y : List Ctx) : (s.setCtxs x).setCtxs y = s.setCtxs y := rfl
@[simp] theorem State.setCtxs_self (s : State) : s.setCtxs s.ctxs = s := rfl

/-! ### `setFlt` -/

@[simp] theorem State.setFlt_env (s : State) (x : Faults) : (s.setFlt x).env = s.env := rfl
@[simp] theorem State.setFlt_regs (s : State) (x : Faults) : (s.setFlt x).regs = s.regs := rfl
@[simp] theorem State.setFlt_seqs (s : State) (x : Faults) : (s.setFlt x).seqs = s.seqs := rfl
@[simp] theorem State.setFlt_blks (s : State) (x : Faults) : (s.setFlt x).blks = s.blks := rfl
@[simp] theorem State.setFlt_gangs (s : State) (x : Faults) : (s.setFlt x).gangs = s.gangs := rfl
@[simp] theorem State.setFlt_work (s : State) (x : Faults) : (s.setFlt x).work = s.work := rfl
@[simp] theorem State.setFlt_syms (s : State) (x : Faults) : (s.setFlt x).syms = s.syms := rfl
@[simp] theorem State.setFlt_mem (s : State) (x : Faults) : (s.setFlt x).mem = s.mem := rfl
@[simp] theorem State.setFlt_qs (s : State) (x : Faults) : (s.setFlt x).qs = s.qs := rfl
@[simp] theorem State.setFlt_ctxs (s : State) (x : Faults) : (s.setFlt x).ctxs = s.ctxs := rfl
@[simp] theorem State.setFlt_flt (s : State) (x : Faults) : (s.setFlt x).flt = x := rfl
@[simp] theorem State.setFlt_chip (s : State) (x : Faults) : (s.setFlt x).chip = s.chip := rfl
@[simp] theorem State.setFlt_svc (s : State) (x : Faults) : (s.setFlt x).svc = s.svc := rfl
@[simp] theorem State.setFlt_setFlt (s : State) (x y : Faults) : (s.setFlt x).setFlt y = s.setFlt y := rfl
@[simp] theorem State.setFlt_self (s : State) : s.setFlt s.flt = s := rfl

/-! ### `setChip` -/

@[simp] theorem State.setChip_env (s : State) (x : Chip) : (s.setChip x).env = s.env := rfl
@[simp] theorem State.setChip_regs (s : State) (x : Chip) : (s.setChip x).regs = s.regs := rfl
@[simp] theorem State.setChip_seqs (s : State) (x : Chip) : (s.setChip x).seqs = s.seqs := rfl
@[simp] theorem State.setChip_blks (s : State) (x : Chip) : (s.setChip x).blks = s.blks := rfl
@[simp] theorem State.setChip_gangs (s : State) (x : Chip) : (s.setChip x).gangs = s.gangs := rfl
@[simp] theorem State.setChip_work (s : State) (x : Chip) : (s.setChip x).work = s.work := rfl
@[simp] theorem State.setChip_syms (s : State) (x : Chip) : (s.setChip x).syms = s.syms := rfl
@[simp] theorem State.setChip_mem (s : State) (x : Chip) : (s.setChip x).mem = s.mem := rfl
@[simp] theorem State.setChip_qs (s : State) (x : Chip) : (s.setChip x).qs = s.qs := rfl
@[simp] theorem State.setChip_ctxs (s : State) (x : Chip) : (s.setChip x).ctxs = s.ctxs := rfl
@[simp] theorem State.setChip_flt (s : State) (x : Chip) : (s.setChip x).flt = s.flt := rfl
@[simp] theorem State.setChip_chip (s : State) (x : Chip) : (s.setChip x).chip = x := rfl
@[simp] theorem State.setChip_svc (s : State) (x : Chip) : (s.setChip x).svc = s.svc := rfl
@[simp] theorem State.setChip_setChip (s : State) (x y : Chip) : (s.setChip x).setChip y = s.setChip y := rfl
@[simp] theorem State.setChip_self (s : State) : s.setChip s.chip = s := rfl

/-! ### `setSvc` -/

@[simp] theorem State.setSvc_env (s : State) (x : Svc) : (s.setSvc x).env = s.env := rfl
@[simp] theorem State.setSvc_regs (s : State) (x : Svc) : (s.setSvc x).regs = s.regs := rfl
@[simp] theorem State.setSvc_seqs (s : State) (x : Svc) : (s.setSvc x).seqs = s.seqs := rfl
@[simp] theorem State.setSvc_blks (s : State) (x : Svc) : (s.setSvc x).blks = s.blks := rfl
@[simp] theorem State.setSvc_gangs (s : State) (x : Svc) : (s.setSvc x).gangs = s.gangs := rfl
@[simp] theorem State.setSvc_work (s : State) (x : Svc) : (s.setSvc x).work = s.work := rfl
@[simp] theorem State.setSvc_syms (s : State) (x : Svc) : (s.setSvc x).syms = s.syms := rfl
@[simp] theorem State.setSvc_mem (s : State) (x : Svc) : (s.setSvc x).mem = s.mem := rfl
@[simp] theorem State.setSvc_qs (s : State) (x : Svc) : (s.setSvc x).qs = s.qs := rfl
@[simp] theorem State.setSvc_ctxs (s : State) (x : Svc) : (s.setSvc x).ctxs = s.ctxs := rfl
@[simp] theorem State.setSvc_flt (s : State) (x : Svc) : (s.setSvc x).flt = s.flt := rfl
@[simp] theorem State.setSvc_chip (s : State) (x : Svc) : (s.setSvc x).chip = s.chip := rfl
@[simp] theorem State.setSvc_svc (s : State) (x : Svc) : (s.setSvc x).svc = x := rfl
@[simp] theorem State.setSvc_setSvc (s : State) (x y : Svc) : (s.setSvc x).setSvc y = s.setSvc y := rfl
@[simp] theorem State.setSvc_self (s : State) : s.setSvc s.svc = s := rfl

/-! ### The named updates change one group -/

@[simp] theorem State.setCell_env (s : State) (k : RegKey) (c : Cell) : (s.setCell k c).env = s.env := rfl
@[simp] theorem State.setCell_seqs (s : State) (k : RegKey) (c : Cell) : (s.setCell k c).seqs = s.seqs := rfl
@[simp] theorem State.setCell_blks (s : State) (k : RegKey) (c : Cell) : (s.setCell k c).blks = s.blks := rfl
@[simp] theorem State.setCell_gangs (s : State) (k : RegKey) (c : Cell) : (s.setCell k c).gangs = s.gangs := rfl
@[simp] theorem State.setCell_work (s : State) (k : RegKey) (c : Cell) : (s.setCell k c).work = s.work := rfl
@[simp] theorem State.setCell_syms (s : State) (k : RegKey) (c : Cell) : (s.setCell k c).syms = s.syms := rfl
@[simp] theorem State.setCell_mem (s : State) (k : RegKey) (c : Cell) : (s.setCell k c).mem = s.mem := rfl
@[simp] theorem State.setCell_qs (s : State) (k : RegKey) (c : Cell) : (s.setCell k c).qs = s.qs := rfl
@[simp] theorem State.setCell_ctxs (s : State) (k : RegKey) (c : Cell) : (s.setCell k c).ctxs = s.ctxs := rfl
@[simp] theorem State.setCell_flt (s : State) (k : RegKey) (c : Cell) : (s.setCell k c).flt = s.flt := rfl
@[simp] theorem State.setCell_chip (s : State) (k : RegKey) (c : Cell) : (s.setCell k c).chip = s.chip := rfl
@[simp] theorem State.setCell_svc (s : State) (k : RegKey) (c : Cell) : (s.setCell k c).svc = s.svc := rfl

@[simp] theorem State.setCells_env (s : State) (ks : List (RegKey × Cell)) : (s.setCells ks).env = s.env := rfl
@[simp] theorem State.setCells_seqs (s : State) (ks : List (RegKey × Cell)) : (s.setCells ks).seqs = s.seqs := rfl
@[simp] theorem State.setCells_blks (s : State) (ks : List (RegKey × Cell)) : (s.setCells ks).blks = s.blks := rfl
@[simp] theorem State.setCells_gangs (s : State) (ks : List (RegKey × Cell)) : (s.setCells ks).gangs = s.gangs := rfl
@[simp] theorem State.setCells_work (s : State) (ks : List (RegKey × Cell)) : (s.setCells ks).work = s.work := rfl
@[simp] theorem State.setCells_syms (s : State) (ks : List (RegKey × Cell)) : (s.setCells ks).syms = s.syms := rfl
@[simp] theorem State.setCells_mem (s : State) (ks : List (RegKey × Cell)) : (s.setCells ks).mem = s.mem := rfl
@[simp] theorem State.setCells_qs (s : State) (ks : List (RegKey × Cell)) : (s.setCells ks).qs = s.qs := rfl
@[simp] theorem State.setCells_ctxs (s : State) (ks : List (RegKey × Cell)) : (s.setCells ks).ctxs = s.ctxs := rfl
@[simp] theorem State.setCells_flt (s : State) (ks : List (RegKey × Cell)) : (s.setCells ks).flt = s.flt := rfl
@[simp] theorem State.setCells_chip (s : State) (ks : List (RegKey × Cell)) : (s.setCells ks).chip = s.chip := rfl
@[simp] theorem State.setCells_svc (s : State) (ks : List (RegKey × Cell)) : (s.setCells ks).svc = s.svc := rfl

@[simp] theorem State.setWord_env (s : State) (k : RegKey) (w : Word) : (s.setWord k w).env = s.env := rfl
@[simp] theorem State.setWord_seqs (s : State) (k : RegKey) (w : Word) : (s.setWord k w).seqs = s.seqs := rfl
@[simp] theorem State.setWord_blks (s : State) (k : RegKey) (w : Word) : (s.setWord k w).blks = s.blks := rfl
@[simp] theorem State.setWord_gangs (s : State) (k : RegKey) (w : Word) : (s.setWord k w).gangs = s.gangs := rfl
@[simp] theorem State.setWord_work (s : State) (k : RegKey) (w : Word) : (s.setWord k w).work = s.work := rfl
@[simp] theorem State.setWord_syms (s : State) (k : RegKey) (w : Word) : (s.setWord k w).syms = s.syms := rfl
@[simp] theorem State.setWord_mem (s : State) (k : RegKey) (w : Word) : (s.setWord k w).mem = s.mem := rfl
@[simp] theorem State.setWord_qs (s : State) (k : RegKey) (w : Word) : (s.setWord k w).qs = s.qs := rfl
@[simp] theorem State.setWord_ctxs (s : State) (k : RegKey) (w : Word) : (s.setWord k w).ctxs = s.ctxs := rfl
@[simp] theorem State.setWord_flt (s : State) (k : RegKey) (w : Word) : (s.setWord k w).flt = s.flt := rfl
@[simp] theorem State.setWord_chip (s : State) (k : RegKey) (w : Word) : (s.setWord k w).chip = s.chip := rfl
@[simp] theorem State.setWord_svc (s : State) (k : RegKey) (w : Word) : (s.setWord k w).svc = s.svc := rfl

@[simp] theorem State.mapBlk_env (s : State) (b : Nat) (f : Blk → Blk) : (s.mapBlk b f).env = s.env := rfl
@[simp] theorem State.mapBlk_regs (s : State) (b : Nat) (f : Blk → Blk) : (s.mapBlk b f).regs = s.regs := rfl
@[simp] theorem State.mapBlk_seqs (s : State) (b : Nat) (f : Blk → Blk) : (s.mapBlk b f).seqs = s.seqs := rfl
@[simp] theorem State.mapBlk_gangs (s : State) (b : Nat) (f : Blk → Blk) : (s.mapBlk b f).gangs = s.gangs := rfl
@[simp] theorem State.mapBlk_work (s : State) (b : Nat) (f : Blk → Blk) : (s.mapBlk b f).work = s.work := rfl
@[simp] theorem State.mapBlk_syms (s : State) (b : Nat) (f : Blk → Blk) : (s.mapBlk b f).syms = s.syms := rfl
@[simp] theorem State.mapBlk_mem (s : State) (b : Nat) (f : Blk → Blk) : (s.mapBlk b f).mem = s.mem := rfl
@[simp] theorem State.mapBlk_qs (s : State) (b : Nat) (f : Blk → Blk) : (s.mapBlk b f).qs = s.qs := rfl
@[simp] theorem State.mapBlk_ctxs (s : State) (b : Nat) (f : Blk → Blk) : (s.mapBlk b f).ctxs = s.ctxs := rfl
@[simp] theorem State.mapBlk_flt (s : State) (b : Nat) (f : Blk → Blk) : (s.mapBlk b f).flt = s.flt := rfl
@[simp] theorem State.mapBlk_chip (s : State) (b : Nat) (f : Blk → Blk) : (s.mapBlk b f).chip = s.chip := rfl
@[simp] theorem State.mapBlk_svc (s : State) (b : Nat) (f : Blk → Blk) : (s.mapBlk b f).svc = s.svc := rfl

@[simp] theorem State.mapGang_env (s : State) (l k : Nat) (f : Gang → Gang) : (s.mapGang l k f).env = s.env := rfl
@[simp] theorem State.mapGang_regs (s : State) (l k : Nat) (f : Gang → Gang) : (s.mapGang l k f).regs = s.regs := rfl
@[simp] theorem State.mapGang_seqs (s : State) (l k : Nat) (f : Gang → Gang) : (s.mapGang l k f).seqs = s.seqs := rfl
@[simp] theorem State.mapGang_blks (s : State) (l k : Nat) (f : Gang → Gang) : (s.mapGang l k f).blks = s.blks := rfl
@[simp] theorem State.mapGang_work (s : State) (l k : Nat) (f : Gang → Gang) : (s.mapGang l k f).work = s.work := rfl
@[simp] theorem State.mapGang_syms (s : State) (l k : Nat) (f : Gang → Gang) : (s.mapGang l k f).syms = s.syms := rfl
@[simp] theorem State.mapGang_mem (s : State) (l k : Nat) (f : Gang → Gang) : (s.mapGang l k f).mem = s.mem := rfl
@[simp] theorem State.mapGang_qs (s : State) (l k : Nat) (f : Gang → Gang) : (s.mapGang l k f).qs = s.qs := rfl
@[simp] theorem State.mapGang_ctxs (s : State) (l k : Nat) (f : Gang → Gang) : (s.mapGang l k f).ctxs = s.ctxs := rfl
@[simp] theorem State.mapGang_flt (s : State) (l k : Nat) (f : Gang → Gang) : (s.mapGang l k f).flt = s.flt := rfl
@[simp] theorem State.mapGang_chip (s : State) (l k : Nat) (f : Gang → Gang) : (s.mapGang l k f).chip = s.chip := rfl
@[simp] theorem State.mapGang_svc (s : State) (l k : Nat) (f : Gang → Gang) : (s.mapGang l k f).svc = s.svc := rfl

@[simp] theorem State.setSeq_env (s : State) (u : UnitRef) (q : Seq) : (s.setSeq u q).env = s.env := rfl
@[simp] theorem State.setSeq_regs (s : State) (u : UnitRef) (q : Seq) : (s.setSeq u q).regs = s.regs := rfl
@[simp] theorem State.setSeq_blks (s : State) (u : UnitRef) (q : Seq) : (s.setSeq u q).blks = s.blks := rfl
@[simp] theorem State.setSeq_gangs (s : State) (u : UnitRef) (q : Seq) : (s.setSeq u q).gangs = s.gangs := rfl
@[simp] theorem State.setSeq_work (s : State) (u : UnitRef) (q : Seq) : (s.setSeq u q).work = s.work := rfl
@[simp] theorem State.setSeq_syms (s : State) (u : UnitRef) (q : Seq) : (s.setSeq u q).syms = s.syms := rfl
@[simp] theorem State.setSeq_mem (s : State) (u : UnitRef) (q : Seq) : (s.setSeq u q).mem = s.mem := rfl
@[simp] theorem State.setSeq_qs (s : State) (u : UnitRef) (q : Seq) : (s.setSeq u q).qs = s.qs := rfl
@[simp] theorem State.setSeq_ctxs (s : State) (u : UnitRef) (q : Seq) : (s.setSeq u q).ctxs = s.ctxs := rfl
@[simp] theorem State.setSeq_flt (s : State) (u : UnitRef) (q : Seq) : (s.setSeq u q).flt = s.flt := rfl
@[simp] theorem State.setSeq_chip (s : State) (u : UnitRef) (q : Seq) : (s.setSeq u q).chip = s.chip := rfl
@[simp] theorem State.setSeq_svc (s : State) (u : UnitRef) (q : Seq) : (s.setSeq u q).svc = s.svc := rfl

@[simp] theorem State.mapEntry_env (s : State) (i : Nat) (f : Entry → Entry) : (s.mapEntry i f).env = s.env := rfl
@[simp] theorem State.mapEntry_regs (s : State) (i : Nat) (f : Entry → Entry) : (s.mapEntry i f).regs = s.regs := rfl
@[simp] theorem State.mapEntry_seqs (s : State) (i : Nat) (f : Entry → Entry) : (s.mapEntry i f).seqs = s.seqs := rfl
@[simp] theorem State.mapEntry_blks (s : State) (i : Nat) (f : Entry → Entry) : (s.mapEntry i f).blks = s.blks := rfl
@[simp] theorem State.mapEntry_gangs (s : State) (i : Nat) (f : Entry → Entry) : (s.mapEntry i f).gangs = s.gangs := rfl
@[simp] theorem State.mapEntry_syms (s : State) (i : Nat) (f : Entry → Entry) : (s.mapEntry i f).syms = s.syms := rfl
@[simp] theorem State.mapEntry_mem (s : State) (i : Nat) (f : Entry → Entry) : (s.mapEntry i f).mem = s.mem := rfl
@[simp] theorem State.mapEntry_qs (s : State) (i : Nat) (f : Entry → Entry) : (s.mapEntry i f).qs = s.qs := rfl
@[simp] theorem State.mapEntry_ctxs (s : State) (i : Nat) (f : Entry → Entry) : (s.mapEntry i f).ctxs = s.ctxs := rfl
@[simp] theorem State.mapEntry_flt (s : State) (i : Nat) (f : Entry → Entry) : (s.mapEntry i f).flt = s.flt := rfl
@[simp] theorem State.mapEntry_chip (s : State) (i : Nat) (f : Entry → Entry) : (s.mapEntry i f).chip = s.chip := rfl
@[simp] theorem State.mapEntry_svc (s : State) (i : Nat) (f : Entry → Entry) : (s.mapEntry i f).svc = s.svc := rfl

@[simp] theorem State.bump_regs (s : State)  : (s.bump).regs = s.regs := rfl
@[simp] theorem State.bump_seqs (s : State)  : (s.bump).seqs = s.seqs := rfl
@[simp] theorem State.bump_blks (s : State)  : (s.bump).blks = s.blks := rfl
@[simp] theorem State.bump_gangs (s : State)  : (s.bump).gangs = s.gangs := rfl
@[simp] theorem State.bump_work (s : State)  : (s.bump).work = s.work := rfl
@[simp] theorem State.bump_syms (s : State)  : (s.bump).syms = s.syms := rfl
@[simp] theorem State.bump_mem (s : State)  : (s.bump).mem = s.mem := rfl
@[simp] theorem State.bump_qs (s : State)  : (s.bump).qs = s.qs := rfl
@[simp] theorem State.bump_ctxs (s : State)  : (s.bump).ctxs = s.ctxs := rfl
@[simp] theorem State.bump_flt (s : State)  : (s.bump).flt = s.flt := rfl
@[simp] theorem State.bump_chip (s : State)  : (s.bump).chip = s.chip := rfl
@[simp] theorem State.bump_svc (s : State)  : (s.bump).svc = s.svc := rfl

@[simp] theorem State.mapSeq_env (s : State) (u : UnitRef) (f : Seq → Seq) : (s.mapSeq u f).env = s.env := by unfold State.mapSeq; split <;> rfl
@[simp] theorem State.mapSeq_regs (s : State) (u : UnitRef) (f : Seq → Seq) : (s.mapSeq u f).regs = s.regs := by unfold State.mapSeq; split <;> rfl
@[simp] theorem State.mapSeq_blks (s : State) (u : UnitRef) (f : Seq → Seq) : (s.mapSeq u f).blks = s.blks := by unfold State.mapSeq; split <;> rfl
@[simp] theorem State.mapSeq_gangs (s : State) (u : UnitRef) (f : Seq → Seq) : (s.mapSeq u f).gangs = s.gangs := by unfold State.mapSeq; split <;> rfl
@[simp] theorem State.mapSeq_work (s : State) (u : UnitRef) (f : Seq → Seq) : (s.mapSeq u f).work = s.work := by unfold State.mapSeq; split <;> rfl
@[simp] theorem State.mapSeq_syms (s : State) (u : UnitRef) (f : Seq → Seq) : (s.mapSeq u f).syms = s.syms := by unfold State.mapSeq; split <;> rfl
@[simp] theorem State.mapSeq_mem (s : State) (u : UnitRef) (f : Seq → Seq) : (s.mapSeq u f).mem = s.mem := by unfold State.mapSeq; split <;> rfl
@[simp] theorem State.mapSeq_qs (s : State) (u : UnitRef) (f : Seq → Seq) : (s.mapSeq u f).qs = s.qs := by unfold State.mapSeq; split <;> rfl
@[simp] theorem State.mapSeq_ctxs (s : State) (u : UnitRef) (f : Seq → Seq) : (s.mapSeq u f).ctxs = s.ctxs := by unfold State.mapSeq; split <;> rfl
@[simp] theorem State.mapSeq_flt (s : State) (u : UnitRef) (f : Seq → Seq) : (s.mapSeq u f).flt = s.flt := by unfold State.mapSeq; split <;> rfl
@[simp] theorem State.mapSeq_chip (s : State) (u : UnitRef) (f : Seq → Seq) : (s.mapSeq u f).chip = s.chip := by unfold State.mapSeq; split <;> rfl
@[simp] theorem State.mapSeq_svc (s : State) (u : UnitRef) (f : Seq → Seq) : (s.mapSeq u f).svc = s.svc := by unfold State.mapSeq; split <;> rfl

@[simp] theorem State.advance_env (s : State) (u : UnitRef) : (s.advance u).env = s.env := by simp [State.advance]
@[simp] theorem State.advance_regs (s : State) (u : UnitRef) : (s.advance u).regs = s.regs := by simp [State.advance]
@[simp] theorem State.advance_blks (s : State) (u : UnitRef) : (s.advance u).blks = s.blks := by simp [State.advance]
@[simp] theorem State.advance_gangs (s : State) (u : UnitRef) : (s.advance u).gangs = s.gangs := by simp [State.advance]
@[simp] theorem State.advance_work (s : State) (u : UnitRef) : (s.advance u).work = s.work := by simp [State.advance]
@[simp] theorem State.advance_syms (s : State) (u : UnitRef) : (s.advance u).syms = s.syms := by simp [State.advance]
@[simp] theorem State.advance_mem (s : State) (u : UnitRef) : (s.advance u).mem = s.mem := by simp [State.advance]
@[simp] theorem State.advance_qs (s : State) (u : UnitRef) : (s.advance u).qs = s.qs := by simp [State.advance]
@[simp] theorem State.advance_ctxs (s : State) (u : UnitRef) : (s.advance u).ctxs = s.ctxs := by simp [State.advance]
@[simp] theorem State.advance_flt (s : State) (u : UnitRef) : (s.advance u).flt = s.flt := by simp [State.advance]
@[simp] theorem State.advance_chip (s : State) (u : UnitRef) : (s.advance u).chip = s.chip := by simp [State.advance]
@[simp] theorem State.advance_svc (s : State) (u : UnitRef) : (s.advance u).svc = s.svc := by simp [State.advance]

end Sys2Proof.Machine
end

