-- ==== Sys2Proof/Laws/Registers.lean ====
section
/-! SUPPORT. Registers: what a write of one cell or of the cells of lanes changes, and everything else it leaves (R51, R89). -/

namespace Sys2Proof.Machine

/-! ## Association lists -/

theorem lookupD_assign {α β : Type} [DecidableEq α] (d v : β) (k j : α) (m : List (α × β)) :
    lookupD d j (assign k v m) = if j = k then v else lookupD d j m := by
  induction m with
  | nil => simp only [assign, lookupD, eq_comm]
  | cons p r ih =>
    obtain ⟨k', v'⟩ := p
    unfold assign
    by_cases e : k' = k
    · subst e
      simp only [if_true, lookupD, eq_comm]
      split <;> rfl
    · simp only [if_neg e, lookupD, ih]
      by_cases f : k' = j
      · subst f; simp [e]
      · simp [f]

theorem lookup?_assign {α β : Type} [DecidableEq α] (v : β) (k j : α) (m : List (α × β)) :
    lookup? j (assign k v m) = if j = k then some v else lookup? j m := by
  induction m with
  | nil => simp only [assign, lookup?, eq_comm]
  | cons p r ih =>
    obtain ⟨k', v'⟩ := p
    unfold assign
    by_cases e : k' = k
    · subst e
      simp only [if_true, lookup?, eq_comm]
      split <;> rfl
    · simp only [if_neg e, lookup?, ih]
      by_cases f : k' = j
      · subst f; simp [e]
      · simp [f]

/-! ## One cell, several cells -/

theorem State.cell_setCell (s : State) (k j : RegKey) (c : Cell) : (s.setCell k c).cell j = if j = k then c else s.cell j :=
  lookupD_assign _ _ _ _ _

@[simp] theorem State.cell_setCell_same (s : State) (k : RegKey) (c : Cell) : (s.setCell k c).cell k = c := by
  simp [State.cell_setCell]

theorem State.cell_setWord (s : State) (k j : RegKey) (w : Word) :
    (s.setWord k w).cell j = if j = k then .known w else s.cell j := State.cell_setCell s k j _

theorem State.word_setWord (s : State) (k j : RegKey) (w : Word) : (s.setWord k w).word j = if j = k then w else s.word j := by
  unfold State.word
  rw [State.cell_setWord]
  split <;> rfl

@[simp] theorem State.setCells_nil (s : State) : s.setCells [] = s := rfl

theorem State.setCells_cons (s : State) (p : RegKey × Cell) (ks : List (RegKey × Cell)) :
    s.setCells (p :: ks) = (s.setCell p.1 p.2).setCells ks := rfl

/-- Cells outside the keys keep what they held. -/
theorem State.cell_setCells_other (ks : List (RegKey × Cell)) (s : State) {j : RegKey} (h : j ∉ ks.map (·.1)) :
    (s.setCells ks).cell j = s.cell j := by
  induction ks generalizing s with
  | nil => rfl
  | cons p r ih =>
    simp only [List.map_cons, List.mem_cons, not_or] at h
    rw [State.setCells_cons, ih _ h.2, State.cell_setCell, if_neg h.1]

theorem State.cell_setCells_zip_other (ks : List RegKey) (cs : List Cell) (s : State) {j : RegKey} (h : j ∉ ks) :
    (s.setCells (ks.zip cs)).cell j = s.cell j :=
  State.cell_setCells_other _ _ fun m => by
    obtain ⟨p, hp, rfl⟩ := List.mem_map.1 m
    exact h (List.of_mem_zip hp).1

/-- Cells written at distinct keys read as written. -/
theorem State.map_cell_setCells_zip (ks : List RegKey) (cs : List Cell) (s : State) (n : ks.Nodup) (l : ks.length = cs.length) :
    ks.map (s.setCells (ks.zip cs)).cell = cs := by
  induction ks generalizing cs s with
  | nil => cases cs <;> simp_all
  | cons k r ih =>
    cases cs with
    | nil => simp at l
    | cons c q =>
      rw [List.nodup_cons] at n
      rw [List.zip_cons_cons, State.setCells_cons, List.map_cons, State.cell_setCells_zip_other r q _ n.1,
        State.cell_setCell_same, ih q _ n.2 (by simpa using l)]

/-- Only registers change. -/
theorem State.setCells_eq (s : State) (ks : List (RegKey × Cell)) : s.setCells ks = s.setRegs (s.setCells ks).regs := rfl
theorem State.setWord_eq (s : State) (k : RegKey) (w : Word) : s.setWord k w = s.setRegs (s.setWord k w).regs := rfl

/-! ## The keys of a lane -/

/-- The number of registers of a value. -/
abbrev spanOf (wide : Bool) : Nat := if wide then 2 else 1

theorem latchKeys_nodup (u : UnitRef) (p : Nat) (x : LaneId) (w : Bool) : (latchKeys u p x w).Nodup := by
  cases w <;> simp [latchKeys]

theorem latchKeys_length (u : UnitRef) (p : Nat) (x : LaneId) (w : Bool) : (latchKeys u p x w).length = spanOf w := by
  cases w <;> rfl

/-- A destination that is one register of each lane. -/
def Dst.perLane : Dst → Bool | .scope _ => false | _ => true

theorem dstKeys_nodup (d : Dst) (u : UnitRef) (x : LaneId) (w : Bool) : (Dst.keys d u x w).Nodup := by
  cases d <;> cases w <;> simp [Dst.keys]
  cases u <;> simp [UnitRef.ownReg]

/-- The keys of a destination that hold its value: one for a predicate, else as many as its width. -/
theorem dstKeys_length (d : Dst) (u : UnitRef) (x : LaneId) (w : Bool) (h : ∀ p, d ≠ .pred p) :
    (Dst.keys d u x w).length = spanOf w := by
  cases d with
  | pred p => exact absurd rfl (h p)
  | _ => cases w <;> rfl

theorem latchKeys_lane {u v : UnitRef} {p : Nat} {x y : LaneId} {w : Bool} {k : RegKey} (hx : k ∈ latchKeys u p x w)
    (hy : k ∈ latchKeys v p y w) : x = y ∧ u = v := by
  obtain ⟨xb, xg, xl⟩ := x
  obtain ⟨yb, yg, yl⟩ := y
  cases w <;> simp only [latchKeys, if_true, if_false, Bool.false_eq_true, List.mem_cons, List.not_mem_nil, or_false] at hx hy <;>
    simp_all
  · rcases hx with rfl | rfl <;> simp_all

theorem dstKeys_lane {d : Dst} {u v : UnitRef} {x y : LaneId} {w : Bool} {k : RegKey} (h : Dst.perLane d = true)
    (hx : k ∈ Dst.keys d u x w) (hy : k ∈ Dst.keys d v y w) : x = y := by
  obtain ⟨xb, xg, xl⟩ := x
  obtain ⟨yb, yg, yl⟩ := y
  cases d with
  | scope n => cases h
  | pred p => simp_all [Dst.keys]
  | vreg n =>
    cases w <;> simp only [Dst.keys, if_true, if_false, Bool.false_eq_true, List.mem_cons, List.not_mem_nil, or_false] at hx hy <;>
      simp_all
    rcases hx with rfl | rfl <;> simp_all

theorem latch_not_dst {d : Dst} {u v : UnitRef} {p : Nat} {x y : LaneId} {w : Bool} {k : RegKey}
    (hx : k ∈ latchKeys u p x w) (hy : k ∈ Dst.keys d v y w) : False := by
  have hl : ∃ a b c d e f, k = .latch a b c d e f := by
    cases w <;> simp only [latchKeys, if_true, if_false, Bool.false_eq_true, List.mem_cons, List.not_mem_nil, or_false] at hx
    · exact ⟨_, _, _, _, _, _, hx⟩
    · rcases hx with rfl | rfl <;> exact ⟨_, _, _, _, _, _, rfl⟩
  obtain ⟨a, b, c, e, f, g, rfl⟩ := hl
  cases d <;> cases w <;> cases v <;> simp [Dst.keys, UnitRef.ownReg] at hy

/-! ## Folds that write -/

/-- What some step makes true and no step undoes holds at the end. -/
theorem foldl_sets {σ α : Type} {P : σ → Prop} {f : σ → α → σ} {x : α} (l : List α) (s : σ) (hx : x ∈ l)
    (set : ∀ t, P (f t x)) (keep : ∀ t, ∀ y ∈ l, P t → P (f t y)) : P (l.foldl f s) := by
  have go : ∀ (r : List α) (s : σ), (∀ y ∈ r, y ∈ l) → (P s ∨ x ∈ r) → P (r.foldl f s) := by
    intro r
    induction r with
    | nil => intro s _ h; simpa using h
    | cons y r ih =>
      intro s hl h
      refine ih (f s y) (fun z hz => hl z (List.mem_cons_of_mem _ hz)) ?_
      rcases h with h | h
      · exact .inl (keep s y (hl y (by simp)) h)
      · rcases List.mem_cons.1 h with rfl | h
        · exact .inl (set s)
        · exact .inr h
  exact go l s (fun _ h => h) (.inr hx)

/-- The same under an invariant of the steps. -/
theorem foldl_sets_of {σ α : Type} {I P : σ → Prop} {f : σ → α → σ} {x : α} (l : List α) (s : σ) (hx : x ∈ l) (hs : I s)
    (inv : ∀ t, ∀ y ∈ l, I t → I (f t y)) (set : ∀ t, I t → P (f t x)) (keep : ∀ t, ∀ y ∈ l, I t → P t → P (f t y)) :
    P (l.foldl f s) := by
  have go : ∀ (r : List α) (s : σ), (∀ y ∈ r, y ∈ l) → I s → (P s ∨ x ∈ r) → P (r.foldl f s) := by
    intro r
    induction r with
    | nil => intro s _ _ h; simpa using h
    | cons y r ih =>
      intro s hl hi h
      refine ih (f s y) (fun z hz => hl z (List.mem_cons_of_mem _ hz)) (inv s y (hl y (by simp)) hi) ?_
      rcases h with h | h
      · exact .inl (keep s y (hl y (by simp)) hi h)
      · rcases List.mem_cons.1 h with rfl | h
        · exact .inl (set s hi)
        · exact .inr h
  exact go l s (fun _ h => h) hs (.inr hx)

/-- What every step keeps is kept. -/
theorem foldl_keeps {σ α : Type} {P : σ → Prop} {f : σ → α → σ} (l : List α) (s : σ) (h : P s)
    (keep : ∀ t, ∀ y ∈ l, P t → P (f t y)) : P (l.foldl f s) := by
  induction l generalizing s with
  | nil => exact h
  | cons y r ih => exact ih (f s y) (keep s y (by simp) h) fun t z hz => keep t z (List.mem_cons_of_mem _ hz)

/-! ## `writeLanes` -/

section
variable (s : State) (h : Here) (o : Out) (wide : Bool) (lanes : List LaneId) (res : LaneId → Option (List Cell))

/-- Only registers change. -/
theorem State.writeLanes_eq : s.writeLanes h o wide lanes res = s.setRegs (s.writeLanes h o wide lanes res).regs := by
  unfold State.writeLanes
  refine foldl_keeps (P := fun t => t = s.setRegs t.regs) lanes s rfl fun t y _ e => ?_
  dsimp only
  split
  · split
    · rw [State.setCells_eq, e]; rfl
    · rw [State.setCells_eq, State.setCells_eq t, e]; rfl
  · rw [State.setCells_eq, e]; rfl

/-- A cell that is no latch of the lanes and no destination of a lane that writes keeps what it held. -/
theorem State.writeLanes_other {k : RegKey} (hl : ∀ x ∈ lanes, k ∉ latchKeys (h.latchUnit x) h.c.pos x wide)
    (hd : o.nwb = false → ∀ x ∈ lanes, (res x).isSome → k ∉ Dst.keys o.dst h.u x wide) :
    (s.writeLanes h o wide lanes res).cell k = s.cell k := by
  unfold State.writeLanes
  refine foldl_keeps (P := fun t => t.cell k = s.cell k) lanes s rfl fun t y hy e => ?_
  dsimp only
  split
  · rename_i cs hr
    split
    · rw [State.cell_setCells_zip_other _ _ _ (hl y hy), e]
    · rename_i hn
      rw [State.cell_setCells_zip_other _ _ _ (hd (by simpa using hn) y hy (by simp [hr])),
        State.cell_setCells_zip_other _ _ _ (hl y hy), e]
  · rw [State.cell_setCells_zip_other _ _ _ (hl y hy), e]

/-- The latch of a lane that writes holds the result. -/
theorem State.writeLanes_latch {x : LaneId} {cs : List Cell} (hx : x ∈ lanes) (hr : res x = some cs)
    (hc : cs.length = spanOf wide) :
    (latchKeys (h.latchUnit x) h.c.pos x wide).map (s.writeLanes h o wide lanes res).cell = cs := by
  unfold State.writeLanes
  refine foldl_sets (P := fun t => (latchKeys (h.latchUnit x) h.c.pos x wide).map t.cell = cs) (x := x) lanes s hx ?_ ?_
  · intro t
    simp only [hr]
    have e := State.map_cell_setCells_zip (latchKeys (h.latchUnit x) h.c.pos x wide) cs t (latchKeys_nodup ..)
      (by rw [latchKeys_length, hc])
    split
    · exact e
    · refine Eq.trans (List.map_congr_left fun k hk => ?_) e
      exact State.cell_setCells_zip_other _ _ _ fun hd => latch_not_dst hk hd
  · intro t y hy e
    by_cases hxy : y = x
    · subst hxy
      simp only [hr]
      have e := State.map_cell_setCells_zip (latchKeys (h.latchUnit y) h.c.pos y wide) cs t (latchKeys_nodup ..)
        (by rw [latchKeys_length, hc])
      split
      · exact e
      · refine Eq.trans (List.map_congr_left fun k hk => ?_) e
        exact State.cell_setCells_zip_other _ _ _ fun hd => latch_not_dst hk hd
    · refine Eq.trans (List.map_congr_left fun k hk => ?_) e
      have nl : k ∉ latchKeys (h.latchUnit y) h.c.pos y wide := fun h' => hxy (latchKeys_lane hk h').1.symm
      dsimp only
      split
      · split
        · exact State.cell_setCells_zip_other _ _ _ nl
        · rw [State.cell_setCells_zip_other _ _ _ fun hd => latch_not_dst hk hd, State.cell_setCells_zip_other _ _ _ nl]
      · exact State.cell_setCells_zip_other _ _ _ nl

/-- The destination of a lane that writes holds the result. -/
theorem State.writeLanes_dst {x : LaneId} {cs : List Cell} (hx : x ∈ lanes) (hr : res x = some cs) (hn : o.nwb = false)
    (hp : Dst.perLane o.dst = true) (hc : cs.length = (Dst.keys o.dst h.u x wide).length) :
    (Dst.keys o.dst h.u x wide).map (s.writeLanes h o wide lanes res).cell = cs := by
  unfold State.writeLanes
  refine foldl_sets (P := fun t => (Dst.keys o.dst h.u x wide).map t.cell = cs) (x := x) lanes s hx ?_ ?_
  · intro t
    simp only [hr, hn, Bool.false_eq_true, if_false]
    exact State.map_cell_setCells_zip _ cs _ (dstKeys_nodup ..) hc.symm
  · intro t y hy e
    by_cases hxy : y = x
    · subst hxy
      simp only [hr, hn, Bool.false_eq_true, if_false]
      exact State.map_cell_setCells_zip _ cs _ (dstKeys_nodup ..) hc.symm
    · refine Eq.trans (List.map_congr_left fun k hk => ?_) e
      have nd : k ∉ Dst.keys o.dst h.u y wide := fun h' => hxy (dstKeys_lane hp hk h').symm
      have nl : k ∉ latchKeys (h.latchUnit y) h.c.pos y wide := fun h' => latch_not_dst h' hk
      dsimp only
      split
      · split
        · exact State.cell_setCells_zip_other _ _ _ nl
        · rw [State.cell_setCells_zip_other _ _ _ nd, State.cell_setCells_zip_other _ _ _ nl]
      · exact State.cell_setCells_zip_other _ _ _ nl

end

end Sys2Proof.Machine
end

