-- ==== Sys2Proof/Laws/Lanes.lean ====
section
/-! SUPPORT. What an instruction that computes lane by lane does, once: in a slice clause (R86, R89, R115), and in an upper
clause (R68, R88). -/

namespace Sys2Proof.Machine

/-! ## Reading -/

theorem laneFault_ok {lanes : List LaneId} {vs : LaneId → List Val} :
    laneFault (lanes.map fun x => (x, .ok (vs x))) = none := by
  unfold laneFault
  split
  · rfl
  · rename_i h
    obtain ⟨p, hp, hc⟩ := List.exists_of_findSome?_eq_some h
    obtain ⟨x, _, rfl⟩ := List.mem_map.1 hp
    cases hc

/-- Operands that every lane can read are read. -/
theorem readLanes_ok {s : State} {h : Here} {lanes : List LaneId} {srcs : List (Src × As)} {vs : LaneId → List Val}
    (hv : ∀ x ∈ lanes, readAll s h x srcs = .ok (vs x)) :
    readLanes s h lanes srcs = .ok (lanes.map fun x => (x, vs x)) := by
  have e : (lanes.map fun x => (x, readAll s h x srcs)) = lanes.map fun x => (x, .ok (vs x)) :=
    List.map_congr_left fun x hx => by rw [hv x hx]
  unfold readLanes
  simp only [e, laneFault_ok]
  congr 1
  induction lanes with
  | nil => rfl
  | cons x r ih =>
    simp only [List.map_cons, List.filterMap_cons]
    rw [ih (fun y hy => hv y (List.mem_cons_of_mem _ hy)) (List.map_congr_left fun y hy => by rw [hv y (List.mem_cons_of_mem _ hy)])]

/-- The entry of a lane in a list made from lanes. -/
theorem find_lane {β : Type} (l : List LaneId) (f : LaneId → β) (x : LaneId) :
    (l.map fun y => (y, f y)).find? (fun q => q.1 == x) = if x ∈ l then some (x, f x) else none := by
  induction l with
  | nil => rfl
  | cons y r ih =>
    rw [List.map_cons, List.find?_cons]
    by_cases e : y = x
    · subst e; simp
    · have e' : x ≠ y := Ne.symm e
      have : (y == x) = false := by simpa using e
      simp [this, e', ih]

theorem Here.mem_lanes_of_execLanes {h : Here} {s : State} {p : Nat} {x : LaneId} (hx : x ∈ h.execLanes s p) :
    x ∈ h.lanes s := (List.mem_filter.1 (List.mem_filter.1 hx).1).1

/-! ## Flags -/

theorem State.fsr_orFsr (s : State) (x y : LaneId) (f : Nat) :
    (s.orFsr x f).fsr y = if y = x then s.fsr x ||| BitVec.ofNat 32 (f % 32) else s.fsr y := by
  obtain ⟨xb, xg, xl⟩ := x
  obtain ⟨yb, yg, yl⟩ := y
  unfold State.orFsr State.fsr
  split
  · rename_i h
    subst h
    split <;> simp_all
  · rw [State.word_setWord]
    simp only [RegKey.fsr.injEq, LaneId.mk.injEq]

theorem State.cell_orFsr_other (s : State) (x : LaneId) (f : Nat) {k : RegKey} (h : k ≠ .fsr x.b x.g x.l ∨ f = 0) :
    (s.orFsr x f).cell k = s.cell k := by
  unfold State.orFsr
  split
  · rfl
  · rename_i hf
    rw [State.cell_setWord, if_neg (h.resolve_right hf)]

theorem State.orFsr_eq (s : State) (x : LaneId) (f : Nat) : s.orFsr x f = s.setRegs (s.orFsr x f).regs := by
  unfold State.orFsr
  split <;> rfl

/-! ## A slice clause -/

/-- The flags and the carry of one lane's result. -/
def noteLane (carryTo : Nat) (t : State) (x : LaneId) (v : LaneRes) : State :=
  match v.carry with
  | some b => if carryTo < 7 then (t.orFsr x v.flags).setWord (.pred x.b x.g x.l carryTo) (if b then 1 else 0)
              else t.orFsr x v.flags
  | none => t.orFsr x v.flags

theorem noteLane_eq (c : Nat) (t : State) (x : LaneId) (v : LaneRes) : noteLane c t x v = t.setRegs (noteLane c t x v).regs := by
  unfold noteLane
  split
  · split
    · rw [State.setWord_eq, State.orFsr_eq]; rfl
    · exact State.orFsr_eq ..
  · exact State.orFsr_eq ..

theorem noteLane_other (c : Nat) (t : State) (x : LaneId) (v : LaneRes) {k : RegKey}
    (hf : k ≠ .fsr x.b x.g x.l ∨ v.flags = 0) (hp : v.carry.isSome → c < 7 → k ≠ .pred x.b x.g x.l c) :
    (noteLane c t x v).cell k = t.cell k := by
  unfold noteLane
  split
  · rename_i b hb
    split
    · rename_i hc
      rw [State.cell_setWord, if_neg (hp (by simp [hb]) hc), State.cell_orFsr_other _ _ _ hf]
    · exact State.cell_orFsr_other _ _ _ hf
  · exact State.cell_orFsr_other _ _ _ hf

theorem noteLane_fsr (c : Nat) (t : State) (x y : LaneId) (v : LaneRes) :
    (noteLane c t x v).fsr y = if y = x then t.fsr x ||| BitVec.ofNat 32 (v.flags % 32) else t.fsr y := by
  unfold noteLane
  split
  · split
    · rw [State.fsr, State.word_setWord, if_neg (by simp), ← State.fsr, State.fsr_orFsr]
    · exact State.fsr_orFsr ..
  · exact State.fsr_orFsr ..

/-- `laneSlice` with every operand readable and every lane computing. -/
theorem laneSlice_eq {o : Out} {wide : Bool} {p : Nat} {srcs : List (Src × As)} {carryTo : Nat}
    {op : List Val → Option LaneRes} {h : Here} {s : State} {vs : LaneId → List Val} {r : LaneId → LaneRes}
    (hb : h.boundsOk (srcRegs srcs ++ outRegs o (spanOf wide)) = true)
    (hv : ∀ x ∈ h.execLanes s p, readAll s h x srcs = .ok (vs x))
    (ho : ∀ x ∈ h.execLanes s p, op (vs x) = some (r x))
    (hs : ∀ x ∈ h.execLanes s p, s.splitSyms o wide x = []) :
    laneSlice o wide p srcs carryTo op h s = .ok ((h.execLanes s p).foldl (fun t x => noteLane carryTo t x (r x))
      (s.writeLanes h o wide (h.lanes s) fun x => if x ∈ h.execLanes s p then some (r x).cells else none)) := by
  have hres : ((h.execLanes s p).map fun x => (x, vs x)).map (fun q => (q.1, q.2, op q.2)) =
      (h.execLanes s p).map fun x => (x, vs x, some (r x)) := by
    rw [List.map_map]
    exact List.map_congr_left fun x hx => by simp [ho x hx]
  have hlate : ((h.execLanes s p).map fun x => (x, vs x, some (r x))).flatMap (fun q =>
      (if q.2.2.isNone then q.2.1.flatMap Val.syms else []) ++ s.splitSyms o wide q.1) = [] := by
    rw [List.flatMap_eq_nil_iff]
    intro q hq
    obtain ⟨x, hx, rfl⟩ := List.mem_map.1 hq
    simp [hs x hx]
  unfold laneSlice
  simp only [hb, Bool.not_true, Bool.false_eq_true, if_false, bind, Except.bind, readLanes_ok hv, hres, hlate, ne_eq,
    not_true_eq_false, find_lane, List.foldl_map]
  congr 2
  congr 1
  funext x
  split <;> rfl

section
variable {o : Out} {wide : Bool} {p : Nat} {srcs : List (Src × As)} {carryTo : Nat} {op : List Val → Option LaneRes} {h : Here}
  {s : State} {vs : LaneId → List Val} {r : LaneId → LaneRes}

/-- What an instruction that computes lane by lane does in a slice clause: each executing lane's destination, latch, flags and
carry, and nothing else of any register. -/
theorem laneSlice_runs
    (hb : h.boundsOk (srcRegs srcs ++ outRegs o (spanOf wide)) = true)
    (hv : ∀ x ∈ h.execLanes s p, readAll s h x srcs = .ok (vs x))
    (ho : ∀ x ∈ h.execLanes s p, op (vs x) = some (r x))
    (hs : ∀ x ∈ h.execLanes s p, s.splitSyms o wide x = [])
    (hl : Dst.perLane o.dst = true)
    (hw : ∀ x ∈ h.execLanes s p, (r x).cells.length = spanOf wide)
    (hd : ∀ q, o.dst = .pred q → wide = false ∧ carryTo = 7) :
    ∃ t, laneSlice o wide p srcs carryTo op h s = .ok t ∧ t = s.setRegs t.regs ∧
      (∀ x ∈ h.execLanes s p,
        (latchKeys (h.latchUnit x) h.c.pos x wide).map t.cell = (r x).cells ∧
        (o.nwb = false → (Dst.keys o.dst h.u x wide).map t.cell = (r x).cells) ∧
        t.fsr x = s.fsr x ||| BitVec.ofNat 32 ((r x).flags % 32) ∧
        ∀ b, (r x).carry = some b → carryTo < 7 → t.predBit x carryTo = b) ∧
      ∀ k, (∀ x ∈ h.lanes s, k ∉ latchKeys (h.latchUnit x) h.c.pos x wide) →
        (∀ x ∈ h.execLanes s p, (o.nwb = false → k ∉ Dst.keys o.dst h.u x wide) ∧
          (k ≠ .fsr x.b x.g x.l ∨ (r x).flags = 0) ∧ ((r x).carry.isSome → carryTo < 7 → k ≠ .pred x.b x.g x.l carryTo)) →
        t.cell k = s.cell k := by
  refine ⟨_, laneSlice_eq hb hv ho hs, ?_, ?_, ?_⟩
  · refine foldl_keeps (P := fun t => t = s.setRegs t.regs) _ _ (State.writeLanes_eq ..) fun t y _ e => ?_
    rw [noteLane_eq, e]; rfl
  · intro x hx
    have hm := Here.mem_lanes_of_execLanes hx
    have keepCell : ∀ k, (∀ y ∈ h.execLanes s p, (k ≠ .fsr y.b y.g y.l) ∧ (carryTo < 7 → k ≠ .pred y.b y.g y.l carryTo)) →
        ∀ c, (s.writeLanes h o wide (h.lanes s) fun x => if x ∈ h.execLanes s p then some (r x).cells else none).cell k = c →
        ((h.execLanes s p).foldl (fun t x => noteLane carryTo t x (r x))
          (s.writeLanes h o wide (h.lanes s) fun x => if x ∈ h.execLanes s p then some (r x).cells else none)).cell k = c := by
      intro k hk c hc
      refine foldl_keeps (P := fun t : State => t.cell k = c) _ _ hc fun t y hy e => ?_
      rw [noteLane_other _ _ _ _ (.inl (hk y hy).1) (fun _ => (hk y hy).2), e]
    have hres : (fun x => if x ∈ h.execLanes s p then some (r x).cells else none) x = some (r x).cells := if_pos hx
    refine ⟨?_, ?_, ?_, ?_⟩
    · refine Eq.trans (List.map_congr_left fun k hk => ?_) (State.writeLanes_latch s h o wide (h.lanes s)
        (fun x => if x ∈ h.execLanes s p then some (r x).cells else none) hm hres (hw x hx))
      refine keepCell k (fun y _ => ⟨?_, fun _ => ?_⟩) _ rfl <;>
        (rintro rfl; cases wide <;> simp [latchKeys] at hk)
    · intro hn
      have hc : (r x).cells.length = (Dst.keys o.dst h.u x wide).length := by
        rw [hw x hx]
        cases e : o.dst with
        | pred q => obtain ⟨rfl, _⟩ := hd q e; rfl
        | vreg n => cases wide <;> rfl
        | scope n => rw [e] at hl; cases hl
      refine Eq.trans (List.map_congr_left fun k hk => ?_) (State.writeLanes_dst s h o wide (h.lanes s)
        (fun x => if x ∈ h.execLanes s p then some (r x).cells else none) hm hres hn hl hc)
      refine keepCell k (fun y _ => ⟨?_, fun hc => ?_⟩) _ rfl
      · rintro rfl
        cases e : o.dst <;> rw [e] at hk hl <;> cases wide <;> simp [Dst.keys, Dst.perLane] at hk hl
      · rintro rfl
        cases e : o.dst with
        | pred q => have := (hd q e).2; omega
        | vreg n => rw [e] at hk; cases wide <;> simp [Dst.keys] at hk
        | scope n => rw [e] at hl; cases hl
    · have base : (s.writeLanes h o wide (h.lanes s) fun x => if x ∈ h.execLanes s p then some (r x).cells else none).fsr x =
          s.fsr x := by
        unfold State.fsr State.word
        rw [State.writeLanes_other]
        · intro y _ hk; cases wide <;> simp [latchKeys] at hk
        · intro _ y _ _ hk
          cases e : o.dst <;> rw [e] at hk hl <;> cases wide <;> simp [Dst.keys, Dst.perLane] at hk hl
      refine foldl_sets_of (I := fun t : State => t.fsr x = s.fsr x ∨ t.fsr x = s.fsr x ||| BitVec.ofNat 32 ((r x).flags % 32))
        (P := fun t : State => t.fsr x = s.fsr x ||| BitVec.ofNat 32 ((r x).flags % 32)) (x := x) _ _ hx (.inl base) ?_ ?_ ?_
      · intro t y _ e
        rw [noteLane_fsr]
        split
        · rename_i hxy
          subst hxy
          rcases e with e | e <;> rw [e]
          · exact .inr rfl
          · right; rw [BitVec.or_assoc, BitVec.or_self]
        · exact e
      · intro t e
        rw [noteLane_fsr, if_pos rfl]
        rcases e with e | e <;> rw [e]
        rw [BitVec.or_assoc, BitVec.or_self]
      · intro t y _ _ e
        rw [noteLane_fsr]
        split
        · rename_i hxy
          subst hxy
          rw [e, BitVec.or_assoc, BitVec.or_self]
        · exact e
    · intro b hb' hc
      have set1 : ∀ t : State, (noteLane carryTo t x (r x)).predBit x carryTo = b := by
        intro t
        unfold noteLane State.predBit
        simp only [hb', hc, if_true, State.word_setWord]
        have : (carryTo == 7) = false := by simp; omega
        cases b <;> simp [this]
      refine foldl_sets (P := fun t : State => t.predBit x carryTo = b) (x := x) _ _ hx set1 fun t y hy e => ?_
      by_cases hxy : y = x
      · subst hxy; exact set1 t
      · have hne : (RegKey.pred x.b x.g x.l carryTo) ≠ .pred y.b y.g y.l carryTo := by
          intro q
          obtain ⟨xb, xg, xl⟩ := x
          obtain ⟨yb, yg, yl⟩ := y
          simp_all
        rw [← e]
        unfold State.predBit State.word
        rw [noteLane_other _ _ _ _ (.inl (by simp)) fun _ _ => hne]
  · intro k hl' hk
    refine foldl_keeps (P := fun t : State => t.cell k = s.cell k) _ _ ?_ fun t y hy e => ?_
    · refine State.writeLanes_other s h o wide (h.lanes s) _ hl' fun hn x _ hx => ?_
      have : x ∈ h.execLanes s p := by by_contra hne; simp [hne] at hx
      exact (hk x this).1 hn
    · rw [noteLane_other _ _ _ _ (hk y hy).2.1 (hk y hy).2.2, e]

end

/-! ## Decisions -/

theorem pushTo_eq (d : Decision) (s : State) (v : UnitRef) : pushTo d s v = s.setSeqs (pushTo d s v).seqs := by
  unfold pushTo State.mapSeq
  split
  · rfl
  · split <;> rfl

/-- A decision changes sequencers alone. -/
theorem produce_eq (u : UnitRef) (k : DKind) (key : Option RegKey) (s : State) :
    produce u k key s = s.setSeqs (produce u k key s).seqs := by
  unfold produce
  split
  · rfl
  · rfl
  · dsimp only
    split
    · rfl
    · exact foldl_keeps (P := fun t : State => t = s.setSeqs t.seqs) _ _ rfl fun t v _ e => by rw [pushTo_eq, e]; rfl

theorem produce_cell (u : UnitRef) (k : DKind) (key : Option RegKey) (s : State) (j : RegKey) :
    (produce u k key s).cell j = s.cell j := by
  rw [produce_eq]; rfl

theorem writeScope_eq (u : UnitRef) (cs : List Cell) (s : State) (n : Nat) :
    s.writeScope u n cs = (s.setRegs (s.writeScope u n cs).regs).setSeqs (s.writeScope u n cs).seqs := by
  induction cs generalizing s n with
  | nil => rfl
  | cons c r ih =>
    unfold State.writeScope
    rw [ih, produce_eq]
    rfl

theorem ownReg_ne (u : UnitRef) {a b : Nat} (h : a ≠ b) : u.ownReg a ≠ u.ownReg b := by
  cases u <;> simp [UnitRef.ownReg, h]

/-- A register outside those written keeps what it held. -/
theorem writeScope_other (u : UnitRef) (cs : List Cell) (s : State) (n : Nat) {k : RegKey}
    (h : ∀ i < cs.length, k ≠ u.ownReg (n + i)) : (s.writeScope u n cs).cell k = s.cell k := by
  induction cs generalizing s n with
  | nil => rfl
  | cons c r ih =>
    unfold State.writeScope
    rw [ih, State.cell_setCell, if_neg (by simpa using h 0 (by simp)), produce_cell]
    intro i hi
    have := h (i + 1) (by simpa using hi)
    rwa [show n + 1 + i = n + (i + 1) by omega]

/-- The registers written hold the cells. -/
theorem writeScope_cell (u : UnitRef) (cs : List Cell) (s : State) (n : Nat) {i : Nat} (hi : i < cs.length) :
    (s.writeScope u n cs).cell (u.ownReg (n + i)) = cs[i] := by
  induction cs generalizing s n i with
  | nil => simp at hi
  | cons c r ih =>
    unfold State.writeScope
    cases i with
    | zero =>
      rw [writeScope_other, Nat.add_zero, State.cell_setCell_same]
      · rfl
      · intro j _
        exact ownReg_ne u (by omega)
    | succ i =>
      have := ih ((produce u (.value u.kind n c) (some (u.ownReg n)) s).setCell (u.ownReg n) c) (n + 1)
        (i := i) (by simpa using hi)
      rw [show n + 1 + i = n + (i + 1) by omega] at this
      simpa using this

/-! ## An upper clause -/

/-- The carry of an upper result, written in every active lane. -/
def carryAll (carryTo : Nat) (r : LaneRes) (act : List LaneId) (t : State) : State :=
  if carryTo < 7 then
    (match r.carry with
     | some b => act.foldl (fun t x => t.setWord (.pred x.b x.g x.l carryTo) (if b then 1 else 0)) t
     | none => t)
  else t

section
variable {o : Out} {wide : Bool} {p : Nat} {srcs : List (Src × As)} {carryTo : Nat} {op : List Val → Option LaneRes} {h : Here}
  {s : State} {vs : List Val} {r : LaneRes}

/-- `laneUpper` with its predicate 1, its operands readable and uniform, and its result ready to write. -/
theorem laneUpper_eq
    (hp : upperPred h s p = .ok true)
    (hv : allOk (srcs.map fun q => s.readUpper h q.2 q.1) = .ok vs)
    (hb : h.boundsOk (srcRegs srcs ++ outRegs o (spanOf wide)) = true)
    (ho : op vs = some r)
    (hr : readyUpper h s o wide = .ok ())
    (hg : carryTo < 7 ∧ r.carry.isSome ∨ r.flags ≠ 0 → gate h s = .ok ()) :
    laneUpper o wide p srcs carryTo op h s = .ok (carryAll carryTo r (h.active s)
      ((s.lanesOf h.u).foldl (fun t x => t.orFsr x r.flags) (s.writeUpper h o wide r.cells))) := by
  unfold laneUpper
  simp only [hp, hv, hb, ho, hr, bind, Except.bind, Bool.not_true, Bool.false_eq_true, if_false]
  by_cases c : (decide (carryTo < 7) && r.carry.isSome || decide (r.flags ≠ 0)) = true
  · rw [if_pos c]
    simp only [Bool.or_eq_true, Bool.and_eq_true, decide_eq_true_eq] at c
    rw [hg c]
    unfold carryAll
    rfl
  · rw [if_neg c]
    unfold carryAll
    rfl

theorem carryAll_eq (c : Nat) (r : LaneRes) (act : List LaneId) (t : State) :
    carryAll c r act t = t.setRegs (carryAll c r act t).regs := by
  unfold carryAll
  split
  · split
    · exact foldl_keeps (P := fun u : State => u = t.setRegs u.regs) _ _ rfl fun u x _ e => by rw [State.setWord_eq, e]; rfl
    · rfl
  · rfl

theorem orAll_eq (ls : List LaneId) (f : Nat) (t : State) :
    ls.foldl (fun t x => t.orFsr x f) t = t.setRegs (ls.foldl (fun t x => t.orFsr x f) t).regs :=
  foldl_keeps (P := fun u : State => u = t.setRegs u.regs) _ _ rfl fun u x _ e => by rw [State.orFsr_eq, e]; rfl

theorem writeUpper_eq (s : State) (h : Here) (o : Out) (wide : Bool) (cs : List Cell) :
    s.writeUpper h o wide cs = (s.setRegs (s.writeUpper h o wide cs).regs).setSeqs (s.writeUpper h o wide cs).seqs := by
  unfold State.writeUpper
  split
  · dsimp only
    split
    · rfl
    · rw [writeScope_eq, State.setCells_eq]; rfl
  · dsimp only
    rw [State.writeLanes_eq]; rfl

theorem orAll_other (ls : List LaneId) (f : Nat) (t : State) {k : RegKey} (h : ∀ x ∈ ls, k ≠ .fsr x.b x.g x.l) :
    (ls.foldl (fun t x => t.orFsr x f) t).cell k = t.cell k :=
  foldl_keeps (P := fun u : State => u.cell k = t.cell k) _ _ rfl fun u x hx e => by
    rw [State.cell_orFsr_other _ _ _ (.inl (h x hx)), e]

theorem orAll_fsr (ls : List LaneId) (f : Nat) (t : State) {x : LaneId} (hx : x ∈ ls) :
    (ls.foldl (fun t x => t.orFsr x f) t).fsr x = t.fsr x ||| BitVec.ofNat 32 (f % 32) := by
  refine foldl_sets_of (I := fun u : State => u.fsr x = t.fsr x ∨ u.fsr x = t.fsr x ||| BitVec.ofNat 32 (f % 32))
    (P := fun u : State => u.fsr x = t.fsr x ||| BitVec.ofNat 32 (f % 32)) (x := x) _ _ hx (.inl rfl) ?_ ?_ ?_
  · intro u y _ e
    rw [State.fsr_orFsr]
    split
    · rename_i hxy
      subst hxy
      rcases e with e | e <;> rw [e]
      · exact .inr rfl
      · right; rw [BitVec.or_assoc, BitVec.or_self]
    · exact e
  · intro u e
    rw [State.fsr_orFsr, if_pos rfl]
    rcases e with e | e <;> rw [e]
    rw [BitVec.or_assoc, BitVec.or_self]
  · intro u y _ _ e
    rw [State.fsr_orFsr]
    split
    · rename_i hxy
      subst hxy
      rw [e, BitVec.or_assoc, BitVec.or_self]
    · exact e

theorem carryAll_other (c : Nat) (r : LaneRes) (act : List LaneId) (t : State) {k : RegKey}
    (h : r.carry.isSome → c < 7 → ∀ x ∈ act, k ≠ .pred x.b x.g x.l c) : (carryAll c r act t).cell k = t.cell k := by
  unfold carryAll
  split
  · rename_i hc
    split
    · rename_i b hb
      exact foldl_keeps (P := fun u : State => u.cell k = t.cell k) _ _ rfl fun u x hx e => by
        rw [State.cell_setWord, if_neg (h (by simp [hb]) hc x hx), e]
    · rfl
  · rfl

theorem carryAll_pred {c : Nat} {r : LaneRes} {act : List LaneId} (t : State) {x : LaneId} {b : Bool} (hx : x ∈ act)
    (hb : r.carry = some b) (hc : c < 7) : (carryAll c r act t).predBit x c = b := by
  unfold carryAll
  rw [if_pos hc, hb]
  have set1 : ∀ u : State, (u.setWord (.pred x.b x.g x.l c) (if b then 1 else 0)).predBit x c = b := by
    intro u
    unfold State.predBit
    have : (c == 7) = false := by simp; omega
    rw [State.word_setWord, if_pos rfl, this]
    cases b <;> simp
  refine foldl_sets (P := fun u : State => u.predBit x c = b) (x := x) _ _ hx set1 fun u y _ e => ?_
  by_cases hxy : y = x
  · subst hxy; exact set1 u
  · have hne : (RegKey.pred x.b x.g x.l c) ≠ .pred y.b y.g y.l c := by
      intro q
      obtain ⟨xb, xg, xl⟩ := x
      obtain ⟨yb, yg, yl⟩ := y
      simp_all
    rw [← e]
    unfold State.predBit State.word
    rw [State.cell_setWord, if_neg hne]

/-- Where an upper result stands in latches. -/
def upperLatches (h : Here) (s : State) (d : Dst) (wide : Bool) : List RegKey :=
  match d with
  | .scope _ => latchKeys h.u h.c.pos noLane wide
  | _ => (h.lanes s).flatMap fun x => latchKeys (h.latchUnit x) h.c.pos x wide

/-- The registers that an upper result goes to. -/
def upperRegs (h : Here) (s : State) (o : Out) (wide : Bool) (n : Nat) : List RegKey :=
  if o.nwb then []
  else match o.dst with
    | .scope k => (List.range n).map fun i => h.u.ownReg (k + i)
    | d => (h.active s).flatMap fun x => Dst.keys d h.u x wide

theorem writeUpper_other (s : State) (h : Here) (o : Out) (wide : Bool) (cs : List Cell) {k : RegKey}
    (hl : k ∉ upperLatches h s o.dst wide) (hd : k ∉ upperRegs h s o wide cs.length) :
    (s.writeUpper h o wide cs).cell k = s.cell k := by
  obtain ⟨d, nwb⟩ := o
  unfold State.writeUpper
  cases d with
  | scope n =>
    dsimp only [upperLatches, upperRegs] at *
    split
    · exact State.cell_setCells_zip_other _ _ _ hl
    · rename_i hn
      rw [if_neg hn] at hd
      rw [writeScope_other, State.cell_setCells_zip_other _ _ _ hl]
      intro i hi e
      exact hd (List.mem_map.2 ⟨i, by simpa using hi, e.symm⟩)
  | _ =>
    dsimp only [upperLatches, upperRegs] at *
    refine State.writeLanes_other s h _ wide (h.lanes s) _ (fun x hx e => hl (List.mem_flatMap.2 ⟨x, hx, e⟩))
      fun hn x _ hx e => hd ?_
    have ha : x ∈ h.active s := by
      by_contra hne
      have : (h.active s).contains x = false := by simpa using hne
      rw [this] at hx
      cases hx
    dsimp only at hn
    simp only [hn, Bool.false_eq_true, if_false]
    exact List.mem_flatMap.2 ⟨x, ha, e⟩

/-- What an instruction that computes lane by lane does once in an upper clause: its own-scope register, or the destination
of every active lane; the flags; the carry; and nothing else but its decisions. -/
theorem laneUpper_runs
    (hp : upperPred h s p = .ok true)
    (hv : allOk (srcs.map fun q => s.readUpper h q.2 q.1) = .ok vs)
    (hb : h.boundsOk (srcRegs srcs ++ outRegs o (spanOf wide)) = true)
    (ho : op vs = some r)
    (hr : readyUpper h s o wide = .ok ())
    (hg : carryTo < 7 ∧ r.carry.isSome ∨ r.flags ≠ 0 → gate h s = .ok ())
    (hw : r.cells.length = spanOf wide)
    (hd : ∀ q, o.dst = .pred q → wide = false ∧ carryTo = 7) :
    ∃ t, laneUpper o wide p srcs carryTo op h s = .ok t ∧ t = (s.setRegs t.regs).setSeqs t.seqs ∧
      (∀ n, o.dst = .scope n → o.nwb = false → ∀ i (_ : i < r.cells.length), t.cell (h.u.ownReg (n + i)) = r.cells[i]) ∧
      (Dst.perLane o.dst = true → o.nwb = false → ∀ x ∈ h.active s, (Dst.keys o.dst h.u x wide).map t.cell = r.cells) ∧
      (∀ x ∈ s.lanesOf h.u, t.fsr x = s.fsr x ||| BitVec.ofNat 32 (r.flags % 32)) ∧
      (∀ x ∈ h.active s, ∀ b, r.carry = some b → carryTo < 7 → t.predBit x carryTo = b) ∧
      ∀ k, k ∉ upperLatches h s o.dst wide → k ∉ upperRegs h s o wide (spanOf wide) →
        (∀ x ∈ s.lanesOf h.u, k ≠ .fsr x.b x.g x.l) →
        (r.carry.isSome → carryTo < 7 → ∀ x ∈ h.active s, k ≠ .pred x.b x.g x.l carryTo) → t.cell k = s.cell k := by
  refine ⟨_, laneUpper_eq hp hv hb ho hr hg, ?_, ?_, ?_, ?_, fun x hx b hb' hc => carryAll_pred _ hx hb' hc, ?_⟩
  · rw [carryAll_eq, orAll_eq, writeUpper_eq]; rfl
  · intro n hn hnw i hi
    have e1 : ∀ x ∈ s.lanesOf h.u, h.u.ownReg (n + i) ≠ .fsr x.b x.g x.l := by
      intro x _; cases h.u <;> simp [UnitRef.ownReg]
    have e2 : r.carry.isSome → carryTo < 7 → ∀ x ∈ h.active s, h.u.ownReg (n + i) ≠ .pred x.b x.g x.l carryTo := by
      intro _ _ x _; cases h.u <;> simp [UnitRef.ownReg]
    rw [carryAll_other _ _ _ _ e2, orAll_other _ _ _ e1]
    unfold State.writeUpper
    rw [hn]
    simp only [hnw, Bool.false_eq_true, if_false]
    exact writeScope_cell _ _ _ _ hi
  · intro hl hnw x hx
    have hm : x ∈ h.lanes s := (List.mem_filter.1 hx).1
    have hres : (fun x => if (h.active s).contains x then some r.cells else none) x = some r.cells := by
      simp [hx]
    have hc : r.cells.length = (Dst.keys o.dst h.u x wide).length := by
      rw [hw]
      cases e : o.dst with
      | pred q => obtain ⟨rfl, _⟩ := hd q e; rfl
      | vreg n => cases wide <;> rfl
      | scope n => rw [e] at hl; cases hl
    have e : s.writeUpper h o wide r.cells =
        s.writeLanes h o wide (h.lanes s) (fun x => if (h.active s).contains x then some r.cells else none) := by
      unfold State.writeUpper
      cases e : o.dst with
      | scope n => rw [e] at hl; cases hl
      | _ => rfl
    refine Eq.trans (List.map_congr_left fun k hk => ?_)
      (State.writeLanes_dst s h o wide (h.lanes s)
        (fun x => if (h.active s).contains x then some r.cells else none) hm hres hnw hl hc)
    rw [carryAll_other, orAll_other, e]
    · rintro y _ rfl
      cases e : o.dst <;> rw [e] at hk hl <;> cases wide <;> simp [Dst.keys, Dst.perLane] at hk hl
    · rintro _ hc y _ rfl
      cases e : o.dst with
      | pred q => have := (hd q e).2; omega
      | vreg n => rw [e] at hk; cases wide <;> simp [Dst.keys] at hk
      | scope n => rw [e] at hl; cases hl
  · intro x hx
    have e : (carryAll carryTo r (h.active s)
        ((s.lanesOf h.u).foldl (fun t x => t.orFsr x r.flags) (s.writeUpper h o wide r.cells))).fsr x =
        ((s.lanesOf h.u).foldl (fun t x => t.orFsr x r.flags) (s.writeUpper h o wide r.cells)).fsr x := by
      unfold State.fsr State.word
      rw [carryAll_other]
      intro _ _ y _; simp
    have e2 : (s.writeUpper h o wide r.cells).fsr x = s.fsr x := by
      unfold State.fsr State.word
      rw [writeUpper_other]
      · cases o.dst <;> cases wide <;> simp [upperLatches, latchKeys]
      · unfold upperRegs
        split
        · simp
        · cases o.dst <;> cases wide <;> simp [Dst.keys] <;> (intro a _; cases h.u <;> simp [UnitRef.ownReg])
    rw [e, orAll_fsr _ _ _ hx, e2]
  · intro k h1 h2 h3 h4
    rw [carryAll_other _ _ _ _ h4, orAll_other _ _ _ h3, writeUpper_other _ _ _ _ _ h1 (by rw [hw]; exact h2)]

end

end Sys2Proof.Machine
end

