-- ==== Sys2Proof/Laws/Memory.lean ====
section
/-! SUPPORT. Memory: every operation keeps the canonical form, a read after a write to the same byte gives the byte written,
and a write leaves every other byte alone (DESIGN CHOICE log 3). -/

namespace Sys2Proof.Machine

variable {β : Type} [DecidableEq β] {d v : β} {k j : Nat} {m : List (Nat × β)}

/-! ## The form -/

/-- A map in the form after `b` is in the form after every smaller bound. -/
theorem canonFrom_mono {b c : Option Nat} (h : canonFrom d b m = true) (hc : ∀ x ∈ c, ∃ y ∈ b, x ≤ y) :
    canonFrom d c m = true := by
  cases m with
  | nil => simp [canonFrom]
  | cons p r =>
    cases c with
    | none => cases b <;> simp_all [canonFrom]
    | some x =>
      obtain ⟨y, hy, hxy⟩ := hc x rfl
      cases b with
      | none => cases hy
      | some z =>
        cases hy
        simp only [canonFrom, Bool.and_eq_true, decide_eq_true_eq] at *
        exact ⟨⟨by omega, h.1.2⟩, h.2⟩

theorem canonFrom_none {b : Option Nat} (h : canonFrom d b m = true) : canonFrom d none m = true :=
  canonFrom_mono h (by simp)

/-- `nset` keeps the form after any bound below its key. -/
theorem canonFrom_nset {b : Option Nat} (h : canonFrom d b m = true) (hk : ∀ x ∈ b, x < k) :
    canonFrom d b (nset d k v m) = true := by
  induction m generalizing b with
  | nil =>
    unfold nset
    by_cases hv : v = d
    · simp [hv, canonFrom]
    · cases b <;> simp_all [canonFrom]
  | cons p r ih =>
    obtain ⟨k', v'⟩ := p
    unfold nset
    have hr : canonFrom d (some k') r = true := by cases b <;> simp_all [canonFrom]
    have hv' : v' ≠ d := by cases b <;> simp_all [canonFrom]
    have hb : ∀ x ∈ b, x < k' := by cases b <;> simp_all [canonFrom]
    have top {c : Option Nat} (hc : ∀ x ∈ c, x < k') : canonFrom d c ((k', v') :: r) = true := by
      cases c <;> simp_all [canonFrom]
    by_cases e : k' = k
    · subst e
      by_cases hv : v = d
      · simp only [if_true, hv]
        exact canonFrom_mono hr (fun x hx => ⟨k', rfl, le_of_lt (hb x hx)⟩)
      · cases b <;> simp_all [canonFrom]
    · by_cases l : k < k'
      · by_cases hv : v = d
        · simpa [e, l, hv] using top hb
        · cases b <;> simp_all [canonFrom]
      · have := ih hr (by simp; omega)
        rw [if_neg e, if_neg l]
        cases b <;> simp_all [canonFrom]

theorem Memory.wf_writeByte {m : List (Nat × Byte)} (h : Memory.wf m) (k : Nat) (v : Byte) : Memory.wf (writeByte k v m) :=
  canonFrom_nset h (by simp)

theorem Memory.wf_writeBytes (bs : List Byte) {m : List (Nat × Byte)} (h : Memory.wf m) (k : Nat) :
    Memory.wf (writeBytes k bs m) := by
  induction bs generalizing k m with
  | nil => exact h
  | cons b r ih => exact ih (Memory.wf_writeByte h k b) (k + 1)

theorem canonFrom_filter {p : Nat × β → Bool} {b : Option Nat} (h : canonFrom d b m = true) :
    canonFrom d b (m.filter p) = true := by
  induction m generalizing b with
  | nil => simpa using h
  | cons q r ih =>
    have hr : canonFrom d (some q.1) r = true := by cases b <;> simp_all [canonFrom]
    simp only [List.filter_cons]
    split
    · have := ih hr
      cases b <;> simp_all [canonFrom]
    · refine canonFrom_mono (ih hr) fun x hx => ⟨q.1, rfl, ?_⟩
      cases b with
      | none => cases hx
      | some y => cases hx; simp [canonFrom] at h; omega

theorem Memory.wf_filter {m : List (Nat × Byte)} (h : Memory.wf m) (p : Nat × Byte → Bool) : Memory.wf (m.filter p) :=
  canonFrom_filter h

theorem Memory.wf_nil : Memory.wf [] := rfl

/-! ## Reading and writing -/

/-- Below the first key nothing is listed. -/
theorem nget_of_canonFrom (h : canonFrom d (some j) m = true) (hk : k ≤ j) : nget d k m = d := by
  cases m with
  | nil => rfl
  | cons p r =>
    simp only [canonFrom, Bool.and_eq_true, decide_eq_true_eq] at h
    unfold nget
    rw [if_neg (by omega), if_pos (by omega)]

theorem nget_nset_same (h : canonFrom d none m = true) : nget d k (nset d k v m) = v := by
  have key : ∀ b, canonFrom d b m = true → nget d k (nset d k v m) = v := by
    induction m with
    | nil => intro b _; unfold nset; by_cases hv : v = d <;> simp [hv, nget]
    | cons p r ih =>
      intro b hb
      obtain ⟨k', v'⟩ := p
      have hr : canonFrom d (some k') r = true := by cases b <;> simp_all [canonFrom]
      unfold nset
      by_cases e : k' = k
      · subst e
        by_cases hv : v = d
        · simp only [if_true, hv]
          exact nget_of_canonFrom hr le_rfl
        · simp [hv, nget]
      · by_cases l : k < k'
        · by_cases hv : v = d <;> simp [e, l, hv, nget]
        · have := ih (canonFrom_none hr) (some k') hr
          simp [e, l, nget, this]
  exact key none h

theorem nget_nset_other (hj : j ≠ k) (h : canonFrom d none m = true) : nget d j (nset d k v m) = nget d j m := by
  have key : ∀ b, canonFrom d b m = true → nget d j (nset d k v m) = nget d j m := by
    induction m with
    | nil =>
      intro b _
      unfold nset
      by_cases hv : v = d
      · simp [hv]
      · simp only [hv, if_false, nget]
        rw [if_neg (Ne.symm hj)]
        split <;> rfl
    | cons p r ih =>
      intro b hb
      obtain ⟨k', v'⟩ := p
      have hr : canonFrom d (some k') r = true := by cases b <;> simp_all [canonFrom]
      unfold nset
      by_cases e : k' = k
      · subst e
        by_cases hv : v = d
        · simp only [if_true, hv]
          conv_rhs => unfold nget
          rw [if_neg (Ne.symm hj)]
          split
          · exact nget_of_canonFrom hr (by omega)
          · rfl
        · simp [hv, nget, hj.symm]
      · by_cases l : k < k'
        · by_cases hv : v = d
          · simp [e, l, hv]
          · simp only [e, l, hv, if_true, if_false]
            conv_lhs => unfold nget
            rw [if_neg (Ne.symm hj)]
            split
            · rw [nget, if_neg (by omega), if_pos (by omega)]
            · rfl
        · have := ih (canonFrom_none hr) (some k') hr
          simp [e, l, nget, this]
  exact key none h

/-- A byte written reads as written. -/
theorem readByte_writeByte_same {m : List (Nat × Byte)} (h : Memory.wf m) (k : Nat) (v : Byte) :
    readByte (writeByte k v m) k = v := nget_nset_same h

/-- A write leaves every other byte. -/
theorem readByte_writeByte_other {m : List (Nat × Byte)} (h : Memory.wf m) {j k : Nat} (e : j ≠ k) (v : Byte) :
    readByte (writeByte k v m) j = readByte m j := nget_nset_other e h

/-- A write of bytes leaves every byte outside them. -/
theorem readByte_writeBytes_other (bs : List Byte) {m : List (Nat × Byte)} (h : Memory.wf m) (k : Nat) {j : Nat}
    (e : j < k ∨ k + bs.length ≤ j) : readByte (writeBytes k bs m) j = readByte m j := by
  induction bs generalizing k m with
  | nil => rfl
  | cons b r ih =>
    simp only [List.length_cons] at e
    rw [writeBytes, ih (Memory.wf_writeByte h k b) (k + 1) (by omega), readByte_writeByte_other h (by omega)]

/-- Bytes written read as written. -/
theorem readBytes_writeBytes (bs : List Byte) {m : List (Nat × Byte)} (h : Memory.wf m) (k : Nat) :
    readBytes (writeBytes k bs m) k bs.length = bs := by
  induction bs generalizing k m with
  | nil => rfl
  | cons b r ih =>
    rw [List.length_cons, readBytes, writeBytes, ih (Memory.wf_writeByte h k b) (k + 1),
      readByte_writeBytes_other r (Memory.wf_writeByte h k b) (k + 1) (by omega), readByte_writeByte_same h]

end Sys2Proof.Machine
end

