-- ==== Sys2Proof/Laws/Steps.lean ====
section
/-! SUPPORT. What an executed instruction answers: its own effect and the unit's advance, or the state it waits in, or the
fault taken; and the forms of instructions that compute lane by lane. -/

namespace Sys2Proof.Machine

theorem runInstr_ok {body : Here → State → Body} {s t : State} {h : Here} (hh : s.here? = some h) (hb : body h s = .ok t) :
    runInstr body s = .next (t.advance h.u) := by
  simp only [runInstr, hh, hb, finish]

theorem runInstr_trap {body : Here → State → Body} {s : State} {h : Here} {t : Trap} (hh : s.here? = some h)
    (hb : body h s = .error (.trap t)) : runInstr body s = .next (takeFault h.u h.pc t s) := by
  simp only [runInstr, hh, hb, finish]

theorem runInstr_stay {body : Here → State → Body} {s t : State} {h : Here} (hh : s.here? = some h)
    (hb : body h s = .error (.stay t)) : runInstr body s = .next t := by
  simp only [runInstr, hh, hb, finish]

/-- An instruction that a unit stands at always answers a next state. -/
theorem runInstr_next {body : Here → State → Body} {s : State} {h : Here} (hh : s.here? = some h) :
    ∃ t, runInstr body s = .next t := by
  simp only [runInstr, hh]
  rcases body h s with (t | t) | t <;> exact ⟨_, rfl⟩

/-! ## Known operands -/

theorem not_any_isLate (ns : List Nat) : (ns.map Val.known).any Val.isLate = false := by
  induction ns with
  | nil => rfl
  | cons n r ih => simp [Val.isLate]

@[simp] theorem allKnown_known (ns : List Nat) : allKnown (ns.map Val.known) = some ns := by
  unfold allKnown
  rw [not_any_isLate]
  simp only [Bool.false_eq_true, if_false, List.map_map]
  congr 1
  induction ns with
  | nil => rfl
  | cons n r ih => simpa [Val.num] using ih

@[simp] theorem orForms_known (sat : Bool) (f g : List Val → Option LaneRes) (ns : List Nat) :
    orForms sat f g (ns.map Val.known) = g (ns.map Val.known) := by
  unfold orForms
  rw [not_any_isLate]
  rfl

theorem knownCells_length (wide : Bool) (v : Nat) : (knownCells wide v).length = spanOf wide := by cases wide <;> rfl

theorem flatMap_syms_known (ns : List Nat) : (ns.map Val.known).flatMap Val.syms = [] := by
  rw [List.flatMap_eq_nil_iff]
  intro v hv
  obtain ⟨n, _, rfl⟩ := List.mem_map.1 hv
  rfl

/-! ## Deferral without a late operand (R117) -/

theorem deferKey_known (t : FTy) (srcs : List (Src × As)) (ns : List Nat) : deferKey t srcs (ns.map Val.known) = none := by
  have e : ((ns.map Val.known).zipIdx.filter fun p => p.1.isLate) = [] := by
    rw [List.filter_eq_nil_iff]
    intro p hp
    have := List.fst_mem_of_mem_zipIdx hp
    obtain ⟨n, _, e⟩ := List.mem_map.1 this
    simp [← e, Val.isLate]
  unfold deferKey
  rw [e]

/-- With known operands an instruction that can defer computes lane by lane. -/
theorem deferSlice_known {dop : DefOp} {t : FTy} {m : FMod} {o : Out} {p : Nat} {srcs : List (Src × As)}
    {op : List Val → Option LaneRes} {h : Here} {s : State} {ns : LaneId → List Nat} {r : LaneId → LaneRes}
    (hb : h.boundsOk (srcRegs srcs ++ outRegs o (spanOf t.wide)) = true)
    (hv : ∀ x ∈ h.execLanes s p, readAll s h x srcs = .ok ((ns x).map Val.known))
    (ho : ∀ x ∈ h.execLanes s p, op ((ns x).map Val.known) = some (r x))
    (hs : ∀ x ∈ h.execLanes s p, s.splitSyms o t.wide x = [])
    (hc : ∀ x ∈ h.execLanes s p, (r x).carry = none) :
    deferSlice dop t m o p srcs op h s = laneSlice o t.wide p srcs 7 op h s := by
  rw [laneSlice_eq hb hv ho hs]
  have hlate : ((h.execLanes s p).map fun x => (x, (ns x).map Val.known)).flatMap (fun q =>
      (if q.2.any Val.isLate && (deferKey t srcs q.2).isNone then q.2.flatMap Val.syms else []) ++ s.splitSyms o t.wide q.1) =
      [] := by
    rw [List.flatMap_eq_nil_iff]
    intro q hq
    obtain ⟨x, hx, rfl⟩ := List.mem_map.1 hq
    simp only [not_any_isLate, hs x hx, Bool.false_and, Bool.false_eq_true, if_false, List.append_nil]
  have hrows : (((h.execLanes s p).map fun x => (x, (ns x).map Val.known)).filterMap fun r =>
      (deferKey t srcs r.2).map fun k => (r.1, r.2, k)) = [] := by
    rw [List.filterMap_eq_nil_iff]
    intro q hq
    obtain ⟨x, hx, rfl⟩ := List.mem_map.1 hq
    simp [deferKey_known]
  unfold deferSlice
  simp only [hb, if_true, bind, Except.bind, readLanes_ok hv, hlate, hrows, ne_eq, not_true_eq_false, if_false, List.map_nil,
    distinct, overfull, List.filter_nil, recordDefs, List.find?_nil, find_lane, List.foldl_map]
  have hval : ∀ x, ((if x ∈ h.execLanes s p then some (x, (ns x).map Val.known) else none).bind fun q => op q.2) =
      if x ∈ h.execLanes s p then some (r x) else none := by
    intro x
    split
    · rename_i hx; exact ho x hx
    · rfl
  simp only [hval]
  congr 1
  have hw : (fun x => Option.map (fun x => x.cells) (if x ∈ h.execLanes s p then some (r x) else none)) =
      fun x => if x ∈ h.execLanes s p then some (r x).cells else none := by
    funext x
    split <;> rfl
  rw [hw]
  have go : ∀ (l : List LaneId), (∀ x ∈ l, x ∈ h.execLanes s p) → ∀ t : State,
      l.foldl (fun u x => u.orFsr x ((Option.map (fun x => x.flags)
        (if x ∈ h.execLanes s p then some (r x) else none)).getD 0)) t = l.foldl (fun t x => noteLane 7 t x (r x)) t := by
    intro l
    induction l with
    | nil => intro _ _; rfl
    | cons y l ih =>
      intro hl t
      have hy := hl y (by simp)
      rw [List.foldl_cons, List.foldl_cons, ih fun x hx => hl x (List.mem_cons_of_mem _ hx)]
      congr 1
      unfold noteLane
      rw [hc y hy, if_pos hy]
      rfl
  exact go _ (fun _ hx => hx) _

/-! ## An instruction that computes lane by lane -/

section
variable {o : Out} {wide : Bool} {p : Nat} {srcs : List (Src × As)} {carryTo : Nat} {op : List Val → Option LaneRes} {h : Here}
  {s : State}

theorem laneInstr_slice (hi : h.isSlice = true) : laneInstr o wide p srcs carryTo op h s = laneSlice o wide p srcs carryTo op h s := by
  unfold laneInstr; rw [if_pos hi]

theorem laneInstr_upper (hi : h.isSlice = false) :
    laneInstr o wide p srcs carryTo op h s = laneUpper o wide p srcs carryTo op h s := by
  unfold laneInstr; rw [if_neg (by simp [hi])]

end

end Sys2Proof.Machine
end

