-- ==== Sys2Proof/Tests/Slice0.lean ====
section
/-! SUPPORT. Tests: words of the spec's listings, ill-formed terms, and for every statement with hypotheses a state that meets
them. -/

namespace Sys2Proof.Tests

set_option Elab.async false
open Sys2Proof Sys2Proof.Machine

/-- A running one-block launch in which the first unit of class `c` stands before `i`. -/
def put (c : Cls) (i : Instr) : State :=
  let s := placeWord State.reset 0
  { s with
    env := { s.env with cur := placeUnit c, agenda := [], budget := 64 }
    seqs := s.seqs.map fun p =>
      (p.1, { p.2 with clause := if p.1 = placeUnit c then some (placeClause c ((encode i).getD 0)) else none }) }

def here (s : State) : Here := (s.here?).getD
  { u := .block 0, q := Seq.start 0, c := placeClause .slice 0, b := 0, launch := 0, ctx := 0, desc := placeDesc }
def blk (s : State) : Blk := (s.blk? 0).getD (Blk.fresh 0 0 0 0 0 0 placeDesc 0 0)


/-! ## Witnesses: instructions that compute in lanes -/

/-- A context with every right, whose range register 0 and first table entry map the first 64 GiB to themselves. -/
def mapped (s : State) : State :=
  { s with
    ctxs := [{ Ctx.blank 0 with
      entry := BitVec.ofNat 128 (2 ^ 63 + 2 ^ 62 + 2 ^ 61 + 2 ^ 60 + 2 ^ 64)
      ranges := [(0, BitVec.ofNat 128 (2 ^ 63 + 2 ^ 62 + 2 ^ 61 + 2 ^ 60 + 2 ^ 59 + (2 ^ 20 - 1) * 2 ^ 64))] }]
    mem := { s.mem with bytes := [(0x10007, 0xC0)] } }

/-- The hypotheses of `CompletesInLanes`. -/
def InLanes (form : Instr → Option LaneForm) (i : Instr) (s : State) (h : Here) : Prop :=
  ∃ (f : LaneForm) (ns : LaneId → List Nat), form i = some f ∧ i.wf = true ∧ i.legalIn .slice = true ∧
    s.here? = some h ∧ h.isSlice = true ∧ h.boundsOk (srcRegs f.srcs ++ outRegs f.out f.span) = true ∧
    (∀ x ∈ h.execLanes s f.pred, readAll s h x f.srcs = .ok ((ns x).map Val.known)) ∧
    ∀ x ∈ h.execLanes s f.pred, s.splitSyms f.out f.wide x = []

/-- The hypotheses of `CompletesOnce`. -/
def Once (form : Instr → Option LaneForm) (i : Instr) (s : State) (h : Here) : Prop :=
  ∃ (f : LaneForm) (ns : List Nat), form i = some f ∧ i.wf = true ∧ s.here? = some h ∧ h.isSlice = false ∧
    upperPred h s f.pred = .ok true ∧
    (allOk (f.srcs.map fun q => s.readUpper h q.2 q.1) = .ok (ns.map Val.known)) ∧
    h.boundsOk (srcRegs f.srcs ++ outRegs f.out f.span) = true ∧ readyUpper h s f.out f.wide = .ok () ∧
    (f.carryTo < 7 ∧ (f.carry ns).isSome = true ∨ f.flags ns ≠ 0 → gate h s = .ok ())

def v (n : Nat) : Src := .vreg n
def o (n : Nat) : Out := ⟨.vreg n, false⟩
def g (n : Nat) : Src := .sreg .g n
def b (n : Nat) : Src := .sreg .b n
def os (n : Nat) : Out := ⟨.scope n, false⟩
def m0 : FMod := ⟨.rne, false, false⟩

def iAdd : Instr := .add (o 1) 7 .s32 false (v 2) (v 3)
def iAddImm : Instr := .addImm (o 1) (v 2) 5
def iFadd : Instr := .fadd (o 1) 7 .f32 m0 (v 2) (v 3)
def iPk : Instr := .pk4 (o 1) 7 true true (v 2) (v 3)
def iAddG : Instr := .add (os 1) 7 .s32 false (g 2) (g 3)
def iAddImmG : Instr := .addImm (os 1) (g 2) 5
def iFaddG : Instr := .fadd (os 1) 7 .f32 m0 (g 2) (g 3)

theorem wit_ComputeInLanes :
    InLanes integerForm iAdd (put .slice iAdd) (here (put .slice iAdd)) ∧
    InLanes immediateForm iAddImm (put .slice iAddImm) (here (put .slice iAddImm)) ∧
    InLanes floatForm iFadd (put .slice iFadd) (here (put .slice iFadd)) ∧
    InLanes narrowForm iPk (put .slice iPk) (here (put .slice iPk)) :=
  ⟨⟨_, fun _ => [0, 0], rfl, by decide +kernel⟩, ⟨_, fun _ => [0], rfl, by decide +kernel⟩,
   ⟨_, fun _ => [0, 0], rfl, by decide +kernel⟩, ⟨_, fun _ => [0, 0], rfl, by decide +kernel⟩⟩

theorem wit_ComputeOnce :
    Once integerForm iAddG (put .group iAddG) (here (put .group iAddG)) ∧
    Once immediateForm iAddImmG (put .group iAddImmG) (here (put .group iAddImmG)) ∧
    Once floatForm iFaddG (put .group iFaddG) (here (put .group iFaddG)) :=
  ⟨⟨_, [0, 0], rfl, by decide +kernel⟩, ⟨_, [0], rfl, by decide +kernel⟩, ⟨_, [0, 0], rfl, by decide +kernel⟩⟩

/-- The one group's slices are together at the instruction. -/
def Meets (s : State) (h : Here) : Prop :=
  s.here? = some h ∧ h.isSlice = true ∧ h.q.parted = false ∧ allMet h s = true

def iShf : Instr := .shfx (o 1) 7 .z32 (v 2) (v 3)
def iScan : Instr := .scan (o 1) .add true true (v 2)
def iEnc : Instr := .bxenc 8 7 .bx4 false 4
def iDec : Instr := .bxdec 8 7 .bx4 (v 4) (v 5)
def iMax : Instr := .bxmax (o 1) 7 4
def iF8 : Instr := .f8dec 8 7 .e4m3 (v 4)

theorem wit_exchange : ∃ (f : Exchange), exchangeForm iShf = some f ∧ let s := put .slice iShf; let h := here s
    iShf.wf = true ∧ iShf.legalIn .slice = true ∧ Meets s h ∧
    h.boundsOk (srcRegs f.srcs ++ outRegs f.out (if f.ty.wide then 2 else 1)) = true ∧
    (∀ l < h.desc.lanes, readAll s (metHere h s) ⟨h.b, h.g, l⟩ f.srcs = .ok [.known 0, .known 0]) ∧
    ∀ x ∈ (metHere h s).execLanes s f.pred, x.l < h.desc.lanes ∧ s.splitSyms f.out f.ty.wide x = [] :=
  ⟨_, rfl, by unfold Meets; decide +kernel⟩

theorem wit_scan : let s := put .slice iScan; let h := here s
    iScan.wf = true ∧ iScan.legalIn .slice = true ∧ Meets s h ∧ h.boundsOk (srcRegs [(v 2, .w32)] ++ outRegs (o 1) 1) = true ∧
    (∀ l < h.desc.lanes, readAll s (metHere h s) ⟨h.b, h.g, l⟩ [(v 2, .w32)] = .ok [.known 0]) ∧
    ∀ x ∈ (metHere h s).active s, x.l < h.desc.lanes ∧ s.splitSyms (o 1) false x = [] := by
  unfold Meets; decide +kernel

theorem wit_octets : (let s := put .slice iEnc; let h := here s
    Meets s h ∧ h.boundsOk [(4, 4), (8, 2)] = true ∧
    (∀ l < h.desc.lanes, readAll s (metHere h s) ⟨h.b, h.g, l⟩ (quadSrcs 4 .packed) =
      .ok ((List.range 4).map fun _ => .known 0)) ∧
    ∀ x ∈ (metHere h s).execLanes s 7, x.l < h.desc.lanes) ∧
    (let s := put .slice iDec; let h := here s
    Meets s h ∧ h.boundsOk (srcRegs [(v 4, .packed), (v 5, .packed)] ++ [(8, 4)]) = true ∧ h.desc.lanes % 8 = 0 ∧
    (∀ l < h.desc.lanes, readAll s (metHere h s) ⟨h.b, h.g, l⟩ [(v 4, .packed), (v 5, .packed)] = .ok [.known 0, .known 0]) ∧
    ∀ x ∈ (metHere h s).execLanes s 7, x.l < h.desc.lanes) ∧
    (let s := put .slice iMax; let h := here s
    iMax.wf = true ∧ Meets s h ∧ h.boundsOk ((4, 4) :: outRegs (o 1) 1) = true ∧
    (∀ l < h.desc.lanes, readAll s (metHere h s) ⟨h.b, h.g, l⟩ (quadSrcs 4 .packed) =
      .ok ((List.range 4).map fun _ => .known 0)) ∧
    ∀ x ∈ (metHere h s).execLanes s 7, x.l < h.desc.lanes ∧ s.splitSyms (o 1) false x = []) ∧
    (let s := put .slice iF8; let h := here s
    s.here? = some h ∧ h.isSlice = true ∧ h.boundsOk (srcRegs [(v 4, .packed)] ++ [(8, 4)]) = true ∧
    ∀ x ∈ h.execLanes s 7, readAll s h x [(v 4, .packed)] = .ok [.known 0]) := by
  unfold Meets; refine ⟨?_, ?_, ?_, ?_⟩ <;> decide +kernel

def iFlg : Instr := .flgrd (o 1)
def iFset : Instr := .flgset (v 2)
def iIx : Instr := .ixset 0 false (v 1) (v 2) (v 3)
def iIg : Instr := .ixget (o 1) 0 1

theorem wit_LaneRegistersComplete : (let s := put .slice iFlg; let h := here s
    iFlg.wf = true ∧ s.here? = some h ∧ h.isSlice = true ∧ h.boundsOk (outRegs (o 1) 1) = true ∧
    s.deferSyms (h.active s) = [] ∧ ∀ x ∈ h.active s, s.splitSyms (o 1) false x = []) ∧
    (let s := put .slice iFset; let h := here s
    s.here? = some h ∧ h.isSlice = true ∧ h.boundsOk (srcRegs [(v 2, .w32)]) = true ∧ s.deferSyms (h.active s) = [] ∧
    ∀ x ∈ h.active s, readAll s h x [(v 2, .w32)] = .ok [.known 0]) ∧
    (let s := put .slice iIx; let h := here s; let r := [(v 1, As.w32), (v 2, .w32), (v 3, .w32)]
    s.here? = some h ∧ h.isSlice = true ∧ h.boundsOk (srcRegs r) = true ∧
    ∀ x ∈ h.active s, readAll s h x r = .ok [.known 0, .known 0, .known 0]) ∧
    (let s := put .slice iIg; let h := here s
    iIg.wf = true ∧ s.here? = some h ∧ h.isSlice = true ∧ h.boundsOk (outRegs (o 1) 1) = true ∧
    ∀ x ∈ h.active s, s.splitSyms (o 1) false x = []) := by
  refine ⟨?_, ?_, ?_, ?_⟩ <;> decide +kernel

def iSq : Instr := .symq (o 1) (v 2) 0
def iSqG : Instr := .symq (os 1) (g 2) 0
def iSw : Instr := .symw false (v 2)
def iSwA : Instr := .symw true (v 0)

theorem wit_SymbolsInspected : (let s := put .slice iSq; let h := here s
    iSq.wf = true ∧ iSq.legalIn .slice = true ∧ s.here? = some h ∧ h.isSlice = true ∧
    h.boundsOk ((2, 1) :: outRegs (o 1) 1) = true ∧ ∀ x ∈ h.active s, s.splitSyms (o 1) false x = []) ∧
    (let s := put .group iSqG; let h := here s
    iSqG.wf = true ∧ s.here? = some h ∧ h.isSlice = false ∧ h.boundsOk (outRegs (os 1) 1) = true ∧
    readyUpper h s (os 1) false = .ok ()) ∧
    (let s := put .slice iSw; let h := here s
    s.here? = some h ∧ h.isSlice = true ∧ h.boundsOk [(2, 1)] = true ∧
    ∀ x ∈ h.active s, (s.cell (.vec x.b x.g x.l 2)).sym? = none) ∧
    (let s := put .slice iSwA; let h := here s
    s.here? = some h ∧ h.isSlice = true ∧ s.syms.all (fun x => !(x.b == h.b && x.g == h.g)) = true) := by
  refine ⟨?_, ?_, ?_, ?_⟩ <;> decide +kernel

/-! ## Witnesses: control -/

def iVote : Instr := .vsum (o 1) (v 2)
def iVoteG : Instr := .vsum (os 1) (v 2)

theorem wit_VotesComplete : (∃ f, voteForm iVote = some (o 1, v 2, f)) ∧ (let s := put .slice iVote; let h := here s
    iVote.wf = true ∧ iVote.legalIn .slice = true ∧ s.here? = some h ∧ h.isSlice = true ∧
    h.boundsOk (srcRegs [(v 2, .w32)] ++ outRegs (o 1) 1) = true ∧
    (∀ x ∈ h.lanes s, s.readLane h x .w32 (v 2) = .ok (.known 0)) ∧ ∀ x ∈ h.active s, s.splitSyms (o 1) false x = []) ∧
    (∃ f, voteForm iVoteG = some (os 1, v 2, f)) ∧ (let s := put .group iVoteG; let h := here s
    let vs := (List.range 8).map fun l => (l, (.ok (.known 0) : Except Cause Val))
    iVoteG.wf = true ∧ s.here? = some h ∧ h.isSlice = false ∧ (h.voteLower (v 2) = true → allArrived h s = true) ∧
    voteUpper h s (v 2) = .ok vs ∧ voteVals s h.u vs = .ok (List.replicate 8 0) ∧
    h.boundsOk (srcRegs [(v 2, .w32)] ++ outRegs (os 1) 1) = true ∧ readyUpper h s (os 1) false = .ok ()) :=
  ⟨⟨_, rfl⟩, by decide +kernel, ⟨_, rfl⟩, by decide +kernel⟩

def iBt : Instr := .bt .slice (v 2) 8 3
def iBl : Instr := .bt .lane (v 2) 8 0

theorem wit_BranchesComplete : (let s := put .slice iBt; let br : Branch := ⟨.slice, some (v 2), false, 8, 3⟩; let h0 := here s
    let h := br.issue h0 s
    branchForm iBt = some br ∧ br.scope ≠ .lane ∧ s.here? = some h0 ∧ br.mayIssue h0 s ∧ slicesWhole h0 s = .ok () ∧
    slicesWhole h s = .ok () ∧ h.boundsOk (srcRegs [(v 2, .w32)]) = true ∧
    (∀ u ∈ h.units, s.readSlice h u .w32 (v 2) = .ok (.known 0)) ∧ ∀ u ∈ h.units, false = ((0 != 0) != false)) ∧
    (let s := put .slice iBl; let h := here s
    s.here? = some h ∧ h.isSlice = true ∧ h.boundsOk (srcRegs [(v 2, .w32)]) = true ∧
    ∀ x ∈ h.active s, readAll s h x [(v 2, .w32)] = .ok [.known 0]) := by
  unfold Branch.mayIssue; refine ⟨⟨rfl, ?_⟩, ?_⟩ <;> decide +kernel

def iLoop : Instr := .loop .slice (.k 1) 2 9
def iCall : Instr := .call .slice 16
def iRet : Instr := .ret .slice
def iLif : Instr := .lif false (v 2)
def setSeqs (f : Seq → Seq) (s : State) : State := { s with seqs := s.seqs.map fun p => (p.1, f p.2) }
def sRet : State := setSeqs (fun q => { q with calls := [⟨64, 0, none⟩] }) (put .slice iRet)
def sElse : State := setSeqs (fun q => { q with mstack := [0xF] }) (put .slice .lelse)
def topCall (s : State) (u : UnitRef) : CallRec := (((s.seq? u).map (·.calls)).getD []).headD ⟨0, 0, none⟩
def restCalls (s : State) (u : UnitRef) : List CallRec := (((s.seq? u).map (·.calls)).getD []).tail

theorem wit_LoopsComplete : let s := put .slice iLoop; let h := here s
    s.here? = some h ∧ slicesWhole h s = .ok () ∧ h.boundsOk (srcRegs [(.k 1, .w32)]) = true ∧
    (∀ u ∈ h.units, s.readSlice h u .w32 (.k 1) = .ok (.known 1)) ∧
    (∀ u ∈ h.units, ∀ q ∈ s.seq? u, (1 : Nat) ≠ 0 → q.loops.length < Config.loopDepth) ∧ h.isSlice = true := by decide +kernel

theorem wit_CallsComplete : (let s := put .slice iCall; let h := here s
    s.here? = some h ∧ slicesWhole h s = .ok () ∧ CallsTo iCall s h (fun _ => h.target 16) ∧
    ∀ u ∈ h.units, ∀ q ∈ s.seq? u, q.calls.length < Config.callDepth) ∧
    (let h := here sRet
    sRet.here? = some h ∧ slicesWhole h sRet = .ok () ∧
    ∀ u ∈ h.units, (sRet.seq? u).map (·.calls) = some (topCall sRet u :: restCalls sRet u)) := by
  refine ⟨⟨?_, ?_, fun _ _ => rfl, ?_⟩, ?_⟩ <;> decide +kernel

theorem wit_LaneMasksComplete : (let s := put .slice iLif; let h := here s
    s.here? = some h ∧ h.isSlice = true ∧ h.boundsOk (srcRegs [(v 2, .w32)]) = true ∧
    (∀ x ∈ h.lanes s, readAll s h x [(v 2, .w32)] = .ok [.known 0]) ∧
    ∀ u ∈ h.units, ∀ q ∈ s.seq? u, q.mstack.length < Config.maskDepth) ∧
    (let h := here sElse
    sElse.here? = some h ∧ ∀ u ∈ h.units, (sElse.seq? u).map (·.mstack) = some [0xF]) := by
  refine ⟨?_, ?_⟩ <;> decide +kernel

def fullSeq (s : State) : State := setSeqs (fun q => { q with
  loops := List.replicate 8 ⟨1, 0, 0, 64, 0⟩, calls := List.replicate 32 ⟨0, 0, none⟩ }) s
def fullMask (s : State) : State := setSeqs (fun q => { q with mstack := List.replicate 16 0xF }) s
def iCallt : Instr := .callt .slice (v 2)
/-- A link table at 0x20000 whose entry 0 is bound. -/
def linked (top : Byte) (s : State) : State := { mapped s with
  blks := s.blks.map fun x => { x with desc := { x.desc with ltp := 0x20000 } }
  mem := { s.mem with bytes := (0x10007, 0xC0) :: if top = 0 then [] else [(0x20007, top)] } }

theorem wit_StackFaults : (let s := fullSeq (put .slice iLoop); let h := here s
    s.here? = some h ∧ slicesWhole h s = .ok () ∧ h.boundsOk (srcRegs [(.k 1, .w32)]) = true ∧
    (∀ u ∈ h.units, s.readSlice h u .w32 (.k 1) = .ok (.known 1)) ∧ .slice 0 0 0 ∈ h.units ∧
    8 ≤ ((s.seq? (.slice 0 0 0)).map (·.loops.length)).getD 0) ∧
    (let s := fullSeq (put .slice iCall); let h := here s
    s.here? = some h ∧ slicesWhole h s = .ok () ∧ (∀ u ∈ h.units, h.target 16 = h.target 16) ∧
    32 ≤ ((s.seq? (.slice 0 0 0)).map (·.calls.length)).getD 0) ∧
    (let s := fullSeq (linked 0x80 (put .slice iCallt)); let h := here s
    s.here? = some h ∧ h.q.park = .none ∧ calltIndex h s (v 2) = .ok 0 ∧ memBars h s true false = .ok () ∧
    h.desc.ltp = 0x20000 ∧ regionOf 0x20000 = .global ∧
    s.stage1 h.ctx 0x20000 = some (lookupD 0 0 (s.ctx 0).ranges, 0x20000) ∧ rightR (lookupD 0 0 (s.ctx 0).ranges) = true ∧
    s.route 0x20000 false = .pkg 0x20000 ∧ s.atHead h.u = true ∧ s.heldIa 0x20000 = false ∧ s.heldPage 0x20000 = false ∧
    s.holed 0x20000 8 = false ∧ s.env.dataErr = false ∧ linkBad (s.readNat 0x20000 8) = false ∧ s.readNat 0x20000 8 / 2 ^ 62 = 2 ∧
    32 ≤ ((s.seq? (.slice 0 0 0)).map (·.calls.length)).getD 0) ∧
    (let s := put .slice iRet; let h := here s
    s.here? = some h ∧ slicesWhole h s = .ok () ∧ .slice 0 0 0 ∈ h.units ∧ (s.seq? (.slice 0 0 0)).map (·.calls) = some []) ∧
    (let s := fullMask (put .slice iLif); let h := here s
    s.here? = some h ∧ h.boundsOk (srcRegs [(v 2, .w32)]) = true ∧
    (∀ x ∈ h.lanes s, readAll s h x [(v 2, .w32)] = .ok [.known 0]) ∧
    16 ≤ ((s.seq? (.slice 0 0 0)).map (·.mstack.length)).getD 0) ∧
    (let s := put .slice .lelse; let h := here s
    s.here? = some h ∧ .slice 0 0 0 ∈ h.units ∧ (s.seq? (.slice 0 0 0)).map (·.mstack) = some []) := by
  refine ⟨?_, ?_, ?_, ?_, ?_, ?_⟩ <;> decide +kernel

def iNop : Instr := .nop .slice
def iDone : Instr := .doneScope .slice
/-- Both slices parted with the pending join at their clause, each standing at `regang`. -/
def sRegang : State := let s := put .slice .regang
  { s with seqs := s.seqs.map fun p => match p.1 with
      | .slice _ _ k => (p.1, { p.2 with parted := true, pjoin := some 0
                                         clause := some { placeClause .slice ((encode .regang).getD 0) with team := [k] } })
      | _ => p }

theorem wit_ClauseEndsComplete : (let s := put .slice iNop; let h := here s
    s.here? = some h ∧ slicesWhole h s = .ok () ∧ h.q.parted = false) ∧
    (let s := put .slice iDone; let h := here s
    s.here? = some h ∧ mayRetire h s = .ok ()) ∧
    (let h := here sRegang
    sRegang.here? = some h ∧ slicesWhole h sRegang = .ok () ∧ h.q.parted = true ∧ h.q.pjoin = some h.c.addr ∧
    ∀ v ∈ sRegang.children (.group h.b h.g), sRegang.retired v = false → sRegang.standsBefore h.c.addr h.c.pos v = true) := by
  refine ⟨?_, ?_, ?_⟩ <;> decide +kernel

/-! ## Witnesses: memory -/

def val {ε α : Type} (x : Except ε α) (d : α) : α := match x with | .ok a => a | .error _ => d
def mop (a x : Src) (w : Width) : MemOp := ⟨a, x, 0, 7, w, 0⟩
def lane (tgt : Tgt) (st : LaneSt) (size : Nat) (data : List Cell) : LaneAcc :=
  { g := 0, l := 0, addr := some 0, parts := [], disp := 0, size := size, tgt := tgt, mark := false, data := data, got := [0, 0, 0, 0], st := st }
def acc (u : UnitRef) (k : AccKind) (sym : Option (Nat × Nat)) (ls : List LaneAcc) : Access :=
  { id := 5, unit := u, kind := k, width := 4, ctr := 0, bumped := [], sym := sym, dst := none, team := [0, 1], word := 0, pc := 8
    lanes := ls, poison := none }
def holding (a : Access) (s : State) : State := { s with qs := { s.qs with accs := [a] } }
def parked (u : UnitRef) (p : Park) (s : State) : State :=
  { s with seqs := s.seqs.map fun q => (q.1, if q.1 = u then { q.2 with park := p } else q.2) }

def iLd : Instr := .ld (o 2) (mop (v 4) (v 6) .w) 0
def iSt : Instr := .st 2 (mop (v 4) (v 6) .w) 0
def sLd : State := mapped (put .slice iLd)
def sSt : State := mapped (put .slice iSt)
def ldLanes : List LaneAcc := let h := here sLd
  val (checkLanes h sLd .load true (fun _ => accInfo 4 false)
    (lanesAt (h.execLanes sLd 7) (memDisp (mop (v 4) (v 6) .w)) 4 (fun _ => [.known 0, .known 0]) fun _ => [])) []
def stLanes : List LaneAcc := let h := here sSt
  val (checkLanes h sSt .store true (fun _ => accInfo 4 true)
    (lanesAt (h.execLanes sSt 7) (memDisp (mop (v 4) (v 6) .w)) 4 (fun _ => [.known 0, .known 0, .known 0]) fun _ => [.known 0])) []

theorem wit_AccessesIssue : (let h := here sLd; let m := mop (v 4) (v 6) .w
    loadForm iLd = some (.load, o 2, m, 0) ∧ iLd.wf = true ∧ iLd.legalIn .slice = true ∧ sLd.here? = some h ∧ h.isSlice = true ∧
    sLd.frameOf h.b = none ∧ h.execLanes sLd 7 ≠ [] ∧
    h.boundsOk (srcRegs [(m.base, .addr), (m.index, .w32)] ++ outRegs (o 2) (regsOf 4)) = true ∧
    (∀ x ∈ h.execLanes sLd 7, readAll sLd h x [(m.base, .addr), (m.index, .w32)] = .ok [.known 0, .known 0] ∧
      sLd.splitSyms (o 2) false x = []) ∧
    memBars h sLd false false = .ok () ∧ memRoom h sLd 0 false = .ok () ∧ ldLanes.length = 8 ∧
    checkLanes h sLd .load true (fun _ => accInfo 4 false)
      (lanesAt (h.execLanes sLd 7) (memDisp m) 4 (fun _ => [.known 0, .known 0]) fun _ => []) = .ok ldLanes ∧
    sLd.freeSym (sLd.quarter h.b h.g) = some 0 ∧
    ∀ p ∈ (sent h sLd .load 4 0 (some (sLd.quarter h.b h.g, 0)) (some (o 2)) ldLanes).needs,
      ((sLd.sym? p.1 p.2).bind (·.poison)) = none) ∧
    (let h := here sSt; let m := mop (v 4) (v 6) .w
    storeForm iSt = some (.store, 2, m, 0) ∧ sSt.here? = some h ∧ h.isSlice = true ∧ sSt.frameOf h.b = none ∧
    h.execLanes sSt 7 ≠ [] ∧ h.boundsOk (srcRegs ([(m.base, .addr), (m.index, .w32)] ++ dataSrcs 2 4)) = true ∧
    (∀ x ∈ h.execLanes sSt 7, readAll sSt h x ([(m.base, .addr), (m.index, .w32)] ++ dataSrcs 2 4) =
      .ok [.known 0, .known 0, .known 0]) ∧
    memBars h sSt true false = .ok () ∧ memRoom h sSt 0 false = .ok () ∧ stLanes.length = 8 ∧
    checkLanes h sSt .store true (fun _ => accInfo 4 true)
      (lanesAt (h.execLanes sSt 7) (memDisp m) 4 (fun _ => [.known 0, .known 0, .known 0]) fun _ => [.known 0]) = .ok stLanes ∧
    ∀ p ∈ (sent h sSt .store 4 0 none none stLanes).needs, ((sSt.sym? p.1 p.2).bind (·.poison)) = none) := by
  refine ⟨⟨rfl, ?_⟩, rfl, ?_⟩ <;> decide +kernel

def iAt : Instr := .aadd (some (o 2)) false (v 4) (v 6)
def sAt : State := mapped (put .slice iAt)
def atLanes : List LaneAcc := let h := here sAt
  val (checkLanes h sAt (.atomic .add false) true (fun _ => accInfo 4 true)
    ((h.execLanes sAt 7).map fun x => laneAcc x.g x.l 0 4 (.known 0) (.known 0) [.known 0])) []

theorem wit_AtomicsIssue : let h := here sAt; let srcs := [(v 4, As.addr), (v 6, atomAs .add false)]
    atomForm iAt = some (.add, some (o 2), false, v 4, [v 6]) ∧ iAt.wf = true ∧ iAt.legalIn .slice = true ∧ sAt.here? = some h ∧
    h.isSlice = true ∧ h.execLanes sAt 7 ≠ [] ∧ h.boundsOk (atomRegs (some (o 2)) false srcs) = true ∧
    (∀ x ∈ h.execLanes sAt 7, readAll sAt h x srcs = .ok ([0, 0].map .known)) ∧
    splitLate sAt (some (o 2)) false (h.execLanes sAt 7) = [] ∧ memBars h sAt true false = .ok () ∧ atLanes.length = 8 ∧
    checkLanes h sAt (.atomic .add false) true (fun _ => accInfo (atomBytes false) true)
      ((h.execLanes sAt 7).map fun x => laneAcc x.g x.l 0 (atomBytes false) (.known 0) (.known 0) (knownCells false 0)) =
      .ok atLanes ∧
    sAt.freeSym (sAt.quarter h.b h.g) = some 0 ∧ ∀ y ∈ atLanes, y.parts = [] := by
  refine ⟨rfl, ?_⟩; decide +kernel

def iLdB : Instr := .ld (os 2) (mop (b 4) (b 6) .w) 0
def sUp : State := holding (acc (.block 0) .load none [lane .none .done 4 []]) (parked (.block 0) (.access 5) (put .block iLdB))

theorem wit_UpperAccessesComplete : let h := here sUp
    upperAccess iLdB = some (some (os 2), 4) ∧ iLdB.wf = true ∧ sUp.here? = some h ∧ h.isSlice = false ∧ h.q.park = .access 5 ∧
    sUp.access? 5 = some (acc (.block 0) .load none [lane .none .done 4 []]) ∧ (4 : Nat) ≤ 8 := by
  refine ⟨rfl, ?_⟩; decide +kernel

/-- An access of the slice at the head of its order, which reaches byte 64 of M. -/
def sAcc (k : AccKind) (st : LaneSt) (data : List Cell) : State :=
  holding (acc (.slice 0 0 0) k none [lane (.direct 64) st 4 data]) (put .slice iNop)
def atHeadOk (k : AccKind) (data : List Cell) : Bool :=
  let s := sAcc k .todo data; let a := acc (.slice 0 0 0) k none [lane (.direct 64) .todo 4 data]
  s.access? 5 == some a && !(s.earlier a).any Access.blocks && !s.inFrame a.unit &&
    a.nextLane == some (lane (.direct 64) .todo 4 data, 0) && (lane (.direct 64) .todo 4 data).keyIn s a.kind.isWrite == some 64 &&
    (lane (.direct 64) .todo 4 data).pays s a

theorem wit_PerformsOnM : Memory.wf (sAcc .load .todo []).mem.bytes ∧
    atHeadOk .load [] = true ∧ (sAcc .load .todo []).holed 64 4 = false ∧
    atHeadOk .store [.known 7] = true ∧ cellsBytes [.known 7] 4 = some [7, 0, 0, 0] ∧
    atHeadOk .storeSys [.known 7] = true ∧ ((sAcc .storeSys .todo [.known 7]).sqOf (.slice 0 0 0)).isEmpty = true ∧
    (sAcc .storeSys .todo [.known 7]).windowsDrained (.slice 0 0 0) = true ∧
    atHeadOk (.atomic .cas false) [.known 0, .known 9] = true ∧
    cellsBytes [.known 0, .known 9] 8 = some [0, 0, 0, 0, 9, 0, 0, 0] ∧ atomicNew .cas false 0 0 9 = 9 := by decide +kernel

theorem wit_StoresComplete : (let a := acc (.slice 0 0 0) .store none [lane (.direct 64) .done 4 [.known 7]]
    let s := sAcc .store .done [.known 7]
    s.access? 5 = some a ∧ a.returns = false ∧ s.accDone a = true) ∧
    (let a := acc (.slice 0 0 0) .store none [lane (.direct 64) .hole 4 [.known 7]]
    let s := sAcc .store .hole [.known 7]
    s.access? 5 = some a ∧ Memory.wf s.mem.bytes ∧
    (a.lanes.zipIdx.find? fun p => p.1.st == .hole && !p.1.lateData) = some (lane (.direct 64) .hole 4 [.known 7], 0) ∧
    cellsBytes [.known 7] 4 = some [7, 0, 0, 0]) := by decide +kernel

def symOf (id : Nat) : Sym := { q := 0, sym := 3, b := 0, g := 0, feed := .access id, poison := none, deferred := [] }
def sSym : State := { holding (acc (.slice 0 0 0) .load (some (0, 3)) [lane (.direct 64) .done 4 []]) (put .slice iNop) with
  syms := [symOf 5] }

theorem wit_SymbolsResolve : let a := acc (.slice 0 0 0) .load (some (0, 3)) [lane (.direct 64) .done 4 []]
    sSym.sym? 0 3 = some (symOf 5) ∧ sSym.access? 5 = some a ∧ (a.lanes.all fun y => y.st == .done) = true ∧
    sSym.inFrame (.block 0) = false ∧ a.bumped = [] := by decide +kernel

def iLlock : Instr := .llock (o 2) (mop (v 4) (v 6) .w)
def iLunlock : Instr := .lunlock (mop (v 4) (v 6) .w)
def iLq : Instr := .lquota (o 2) true
def zeros (s : State) (p n : Nat) : List (LaneId × List Nat) := ((here s).execLanes s p).map fun x => (x, List.replicate n 0)

theorem wit_LinesLocked : (let s := mapped (put .slice iLlock); let h := here s; let m := mop (v 4) (v 6) .w
    iLlock.wf = true ∧ iLlock.legalIn h.cls = true ∧ s.here? = some h ∧ readyResult h s (o 2) = .ok () ∧
    laneAddrs h s 7 [(m.base, .addr), (m.index, .w32)] = .ok (zeros s 7 2) ∧ ((zeros s 7 2).map fun p => p.1.l).Nodup ∧
    memBars h s true false = .ok () ∧ s.atHead h.u = true ∧ h.q.park = .none ∧ (zeros s 7 2).length ≤ s.env.budget ∧
    (lockAll h.ctx ((zeros s 7 2).map fun p => memAddr m p.2) s).map (·.2.length) = some 8) ∧
    (let s := mapped State.reset
    regionOf 0 = .global ∧ s.stage1 0 0 = some (lookupD 0 0 (s.ctx 0).ranges, 0) ∧ rightR (lookupD 0 0 (s.ctx 0).ranges) = true ∧
    s.route 0 false = .pkg 0) ∧ State.reset.stage1 0 0 = none := by
  refine ⟨?_, ?_, ?_⟩ <;> decide +kernel

theorem wit_LinesUnlocked : (let s := mapped (put .slice iLunlock); let h := here s
    s.here? = some h ∧ laneAddrs h s 7 [(v 4, .addr), (v 6, .w32)] = .ok (zeros s 7 2) ∧
    ((zeros s 7 2).map fun p => p.1.l).Nodup ∧ memBars h s true false = .ok () ∧ s.atHead h.u = true ∧ h.q.park = .none ∧
    (zeros s 7 2).length ≤ s.env.budget) ∧
    (let s := put .slice iLq; let h := here s
    iLq.wf = true ∧ iLq.legalIn h.cls = true ∧ s.here? = some h ∧ readyResult h s (o 2) = .ok ()) := by
  refine ⟨?_, ?_⟩ <;> decide +kernel

def iBias : Instr := .biasDev (o 2) (v 4)
def aFlip : Flip := { unit := .slice 0 0 0, lane := 0, page := 3, toDev := true }

theorem park_ne {p : Park} (h : p = .none) :
    (∀ l, p ≠ .flips l) ∧ (∀ id, p ≠ .access id) ∧ (∀ t, p ≠ .barrier t) ∧ (∀ n, p ≠ .bank n) ∧ ∀ e, p ≠ .callt e false := by
  subst h; simp

theorem wit_BiasCompletes : (let s := mapped (put .slice iBias); let h := here s
    s.here? = some h ∧ readyResult h s (o 2) = .ok () ∧ laneAddrs h s 7 [(v 4, .addr)] = .ok (zeros s 7 1) ∧
    memBars h s true false = .ok () ∧ h.q.park = .none ∧ ((zeros s 7 1).map fun p => p.1.l).Nodup ∧
    ∀ p ∈ zeros s 7 1, biasLane h.ctx (p.2.headD 0) true s = .status 2) ∧
    (let s := { State.reset with qs := { State.reset.qs with flips := [aFlip] } }
    (s.qs.flips.find? fun f => f.unit == .slice 0 0 0) = some aFlip ∧ s.work.posts = [] ∧ s.qs.inb = []) := by
  refine ⟨?_, ?_⟩ <;> decide +kernel

/-! ## Witnesses: monitors and barriers -/

def iWeq : Instr := .wcmpEq (o 2) false false (v 4) (v 6)
def iWne : Instr := .wcmpNe (os 2) false false (g 4) (g 6)
def iWc : Instr := .wcancel (os 2) (g 4)
def w0 (s : State) : List (LaneId × Nat × List Nat) := ((here s).execLanes s 7).map fun x => (x, 0, [0, 0])

theorem wit_MonitorsComplete : (let s := mapped (put .slice iWeq); let h := here s
    wcmpForm iWeq = some (0, o 2, false, false, v 4, v 6) ∧ iWeq.wf = true ∧ iWeq.legalIn h.cls = true ∧ s.here? = some h ∧
    readyResult h s (o 2) = .ok () ∧ laneAddrs h s 7 [(v 4, .addr), (v 6, atomInt false false)] = .ok (zeros s 7 2) ∧
    zeros s 7 2 ≠ [] ∧ ((zeros s 7 2).map fun p => p.1.l).Nodup ∧ h.q.park = .none ∧ memBars h s false false = .ok () ∧
    watchAll h s (atomBytes false) (zeros s 7 2) = .ok (w0 s) ∧ s.atHead h.u = true ∧ (zeros s 7 2).length ≤ s.env.budget ∧
    s.env.dataErr = false ∧ s.qs.mons = [] ∧ s.heldIa 0 = false ∧ s.route 0 false = .pkg 0 ∧ s.heldPage 0 = false ∧ s.holed 0 4 = false ∧
    relHolds 0 false 32 (s.readNat 0 4) 0 = true) ∧
    (let s := mapped (put .group iWne); let h := here s; let x : LaneId := ⟨0, 0, 0⟩
    s.here? = some h ∧ readyResult h s (os 2) = .ok () ∧
    laneAddrs h s 7 [(g 4, .addr), (g 6, atomInt false false)] = .ok [(x, [0, 0])] ∧ h.q.park = .none ∧
    memBars h s false false = .ok () ∧ watchAddr h s x 0 (atomBytes false) = .at 0 ∧ s.atHead h.u = true ∧ 0 < s.env.budget ∧
    s.env.dataErr = false ∧ s.heldIa 0 = false ∧ s.route 0 false = .pkg 0 ∧ s.heldPage 0 = false ∧ s.holed 0 4 = false ∧
    relHolds 1 false 32 (s.readNat 0 4) 0 = false ∧ (s.qs.mons.filter fun m => m.slice == homeSlice 0).length < 256) ∧
    (let s := mapped (put .group iWc); let h := here s; let x : LaneId := ⟨0, 0, 0⟩
    iWc.wf = true ∧ iWc.legalIn h.cls = true ∧ s.here? = some h ∧ readyResult h s (os 2) = .ok () ∧
    laneAddrs h s 7 [(g 4, .addr)] = .ok [(x, [0])] ∧ memBars h s false false = .ok () ∧ cancelAddr h s x 0 = .ok (some 0) ∧
    s.allPerformed h.u = true ∧ s.heldIa 0 = false ∧ s.route 0 false = .pkg 0 ∧ 0 < s.env.budget ∧ h.q.park = .none) := by
  refine ⟨⟨rfl, ?_⟩, ?_, ?_⟩ <;> decide +kernel

def iArr : Instr := .bararr (os 2) false 0 (.k 1)
def iBw : Instr := .barwait false 0 (.k 1)
def iBs : Instr := .barsync false 0 (.k 2)
def iArrS : Instr := .bararr (o 2) false 0 (.k 1)

theorem wit_BarriersComplete : (let s := put .block iArr; let h := here s
    iArr.wf = true ∧ s.here? = some h ∧ h.isSlice = false ∧ readyResult h s (os 2) = .ok () ∧
    upNums h s [(.k 1, .w32)] = .ok [1] ∧ arrivalReady h s = .ok () ∧ (barOf h false 0 s).arrive 1 = some (⟨0, 0, 1⟩, 0)) ∧
    (let s := put .block iBw; let h := here s
    s.here? = some h ∧ h.isSlice = false ∧ h.q.park = .none ∧ upNums h s [(.k 1, .w32)] = .ok [1] ∧
    (barOf h false 0 s).phase ≠ 1 % 256) ∧
    (let s := put .block iBs; let h := here s
    s.here? = some h ∧ h.isSlice = false ∧ h.q.park = .none ∧ upNums h s [(.k 2, .w32)] = .ok [2] ∧ arrivalReady h s = .ok () ∧
    (barOf h false 0 s).arrive 2 = some (⟨2, 1, 0⟩, 0)) ∧
    (let s := put .slice iArrS; let h := here s
    iArrS.wf = true ∧ iArrS.legalIn .slice = true ∧ Meets s h ∧ readyResult (metHere h s) s (o 2) = .ok () ∧
    barValue (metHere h s) s (.k 1) = .ok (some 1) ∧ arrivalReady (metHere h s) s = .ok () ∧
    (barOf (metHere h s) false 0 s).arrive 1 = some (⟨0, 0, 1⟩, 0)) := by
  unfold Meets; refine ⟨?_, ?_, ?_, ?_⟩ <;> decide +kernel

/-! ## Witnesses: banks -/

def mapBlks (f : Blk → Blk) (s : State) : State := { s with blks := s.blks.map f }
def emptySlot : Slot := { mirror := false, shared := false, shidx := 0, gen := 0, ro := false, st := 0, bank := 0, target := none }
def slotted (x : Blk) : Blk := { x with slots := List.replicate 16 emptySlot }
def withSlot (n : Nat) (f : Slot → Slot) (s : State) : State := mapBlks (fun x => Blk.setSlot n f (slotted x)) s
/-- Slot 1 of every block is attached to bank 5. -/
def attached (s : State) : State := withSlot 1 (fun z => { z with st := 1, bank := 5 }) s
def atBlock (i : Instr) (s : State) : Bool :=
  let h := here s
  i.wf && s.here? == some h && !h.isSlice && s.blk? h.b == some (blk s)
/-- A second member of the gang. -/
def pair (s : State) : State :=
  let d := { placeDesc with gang := 2 }
  { s with
    blks := [{ Blk.fresh 0 0 0 0 0 0 d 0 0 with phase := .resident }, { Blk.fresh 1 0 1 1 0 0 d 1 1 with phase := .resident }]
    gangs := [Gang.fresh 0 0 0 [0, 1]] }

def iBat : Instr := .battach (os 4) (.k 1) none
def iBst : Instr := .bstat (os 4) (some (.k 1)) false
def iBwt : Instr := .bwait (os 4) (.k 1)
def iBsc : Instr := .bstat (os 4) none true
def iBm : Instr := .bmirror (some (.k 1))
def iBmo : Instr := .bmirror none
def iBsh : Instr := .bshare (os 4) (.k 1) (.k 2) true
def iBso : Instr := .bshareOff (.k 1)

theorem wit_BanksComplete : (let s := put .block iBat; let h := here s
    atBlock iBat s = true ∧ readyResult h s (os 4) = .ok () ∧ upNums h s [(.k 1, .w32)] = .ok [1] ∧ ((blk s).slot 1).st = 0) ∧
    (let s := attached (put .block iBst); let h := here s
    atBlock iBst s = true ∧ readyResult h s (os 4) = .ok () ∧ upNums h s [(.k 1, .w32)] = .ok [1]) ∧
    (let s := attached (put .block iBwt); let h := here s
    atBlock iBwt s = true ∧ readyResult h s (os 4) = .ok () ∧ upNums h s [(.k 1, .w32)] = .ok [1] ∧ ((blk s).slot 1).st = 1) ∧
    (let s := put .block iBsc; let h := here s
    atBlock iBsc s = true ∧ readyResult h s (os 4) = .ok () ∧ upNums h s [] = .ok []) ∧
    (let s := attached (put .block iBm); let h := here s; let z := (blk s).slot 1
    atBlock iBm s = true ∧ upNums h s [(.k 1, .w32)] = .ok [1] ∧ z.st = 1 ∧ z.ro = false ∧ z.shared = false) ∧
    (let s := attached (put .block iBmo); let h := here s
    atBlock iBmo s = true ∧ upNums h s [] = .ok []) ∧
    (let s := attached (put .block iBsh); let h := here s; let z := (blk s).slot 1
    atBlock iBsh s = true ∧ readyResult h s (os 4) = .ok () ∧ upNums h s [(.k 1, .w32), (.k 2, .w32)] = .ok [1, 2] ∧
    z.st = 1 ∧ z.shared = false ∧ z.mirror = false ∧ s.gangOf h.b = some (Gang.fresh 0 0 0 [0])) ∧
    (let s := attached (put .block iBso); let h := here s
    atBlock iBso s = true ∧ h.q.park = .none ∧ upNums h s [(.k 1, .w32)] = .ok [1] ∧ s.gangOf h.b = some (Gang.fresh 0 0 0 [0])) ∧
    (let s := parked (.block 0) (.bank 1) (attached (put .block iBso)); let h := here s
    atBlock iBso s = true ∧ h.q.park = .bank 1) := by
  refine ⟨?_, ?_, ?_, ?_, ?_, ?_, ?_, ?_, ?_⟩ <;> decide +kernel

def iBd : Instr := .bdetach (.k 1)
def iGive : Instr := .give (os 4) (.k 1) (.k 1) (.k 2) false
def iBz : Instr := .bzero (.k 1)
/-- Slot 1 of block 0 drains towards slot 2 of block 1, or towards the free pool. -/
def draining (t : Option (Nat × Nat)) (s : State) : State := { pair s with
  blks := (pair s).blks.map fun x => if x.id = 0 then Blk.setSlot 1 (fun z => { z with st := 2, bank := 5, target := t }) (slotted x)
    else Blk.setSlot 2 (fun z => { z with st := 3, bank := 5 }) (slotted x) }

theorem wit_BanksDrain : (let s := attached (put .block iBd); let h := here s; let z := (blk s).slot 1
    atBlock iBd s = true ∧ h.q.park = .none ∧ upNums h s [(.k 1, .w32)] = .ok [1] ∧ z.st = 1 ∧ z.shared = false ∧
    s.bankRecord (blk s) 1 z.bank = none) ∧
    (let s := draining none (put .block iBd); let h := here s
    atBlock iBd s = true ∧ h.q.park = .none ∧ upNums h s [(.k 1, .w32)] = .ok [1] ∧ ((blk s).slot 1).st = 2) ∧
    (let s := put .block iBd; let h := here s
    atBlock iBd s = true ∧ h.q.park = .none ∧ upNums h s [(.k 1, .w32)] = .ok [1] ∧ ((blk s).slot 1).st = 0) ∧
    (let s := parked (.block 0) (.bank 1) (draining none (put .block iBd)); let h := here s
    atBlock iBd s = true ∧ h.q.park = .bank 1 ∧ ((blk s).slot 1).st = 2) ∧
    (let s := parked (.block 0) (.bank 1) (attached (put .block iBd)); let h := here s
    atBlock iBd s = true ∧ h.q.park = .bank 1 ∧ ((blk s).slot 1).st = 1 ∧ ((blk s).slot 1).shared = false) ∧
    (let s := draining none (put .block iNop)
    s.blk? 0 = some (blk s) ∧ ((blk s).slot 1).st = 2 ∧ (blk s).phase ≠ .retired ∧ Memory.wf s.mem.bytes ∧
    s.bankDrained (blk s) 5 = true ∧ ((blk s).slot 1).target = none) ∧
    (let s := draining (some (1, 2)) (put .block iNop)
    s.blk? 0 = some (blk s) ∧ ((blk s).slot 1).st = 2 ∧ s.bankDrained (blk s) 5 = true ∧ ((blk s).slot 1).target = some (1, 2) ∧
    (s.blk? 1).map (·.phase) = some .resident ∧ 2 < ((s.blk? 1).map (·.slots.length)).getD 0 ∧ s.frameOf 1 = none) := by
  refine ⟨?_, ?_, ?_, ?_, ?_, ?_, ?_⟩ <;> decide +kernel

theorem wit_BanksGivenZeroed : (let s := attached (pair (put .block iGive)); let h := here s; let z := (blk s).slot 1
    atBlock iGive s = true ∧ readyResult h s (os 4) = .ok () ∧
    upNums h s [(.k 1, .w32), (.k 1, .w32), (.k 2, .w32)] = .ok [1, 1, 2] ∧ h.q.park = .none ∧ 1 < (blk s).desc.gang ∧
    z.st = 1 ∧ z.shared = false ∧ z.mirror = false ∧ (s.giveTarget (blk s) 1).map (·.id) = some 1 ∧
    s.bankRecord (blk s) 1 z.bank = none) ∧
    (let s := parked (.block 0) (.bank 1) (put .block iGive); let h := here s
    atBlock iGive s = true ∧ h.q.park = .bank 1 ∧ ((blk s).slot 1).st ≠ 2) ∧
    (let s := attached (put .block iBz); let h := here s
    atBlock iBz s = true ∧ h.q.park = .none ∧ upNums h s [(.k 1, .w32)] = .ok [1] ∧ ((blk s).slot 1).st = 1 ∧
    ((blk s).slot 1).ro = false ∧ s.boardHit h.u (.direct (bankOf (blk s) 5 0)) 131072 = false) ∧
    (let s := holding (acc (.block 0) .store none [lane .none .done 4 []]) (parked (.block 0) (.access 5) (put .block iBz))
    let h := here s
    s.here? = some h ∧ h.q.park = .access 5 ∧ s.access? 5 = some (acc (.block 0) .store none [lane .none .done 4 []])) := by
  refine ⟨?_, ?_, ?_, ?_⟩ <;> decide +kernel

/-! ## Witnesses: the matrix class -/

def iMs : Instr := .mscale none (.k 1)
def iMz : Instr := .mzero 0
def iMma : Instr := .mma 0 0 1 1 false none
def iMmaP : Instr := .mma 0 0 0 1 false (some (.b .bx4, 40))
def handle (n : Nat) : Handle :=
  { n := n, ty := .f .f16, k := 16, base := 0, stride := 0, scale := 0x3F800000, gen := 0, copy := [(1, 0x3C)] }
def bound (s : State) : State := mapBlks (fun x => { x with handles := [handle 0, handle 1] }) s
def queueTakes (s : State) (ns : List Nat) : Bool :=
  ns.all (blk s).heldAfter && decide ((blk s).mq.length < 4) ||
    (blk s).mq == [] && decide (s.tilesOn (blk s).core + (newTiles (blk s) ns).length ≤ 32)

theorem wit_MatrixQueued : (let s := put .block .mclr; let h := here s
    atBlock .mclr s = true ∧ gate h s = .ok () ∧ (blk s).mq.length < 4) ∧
    (let s := put .block iMs; let h := here s
    atBlock iMs s = true ∧ upNums h s [(.k 1, .flt .f32)] = .ok [0x3F800000] ∧ (blk s).mq.length < 4) ∧
    (let s := put .block iMz; let h := here s
    atBlock iMz s = true ∧ gate h s = .ok () ∧ queueTakes s [0] = true) ∧
    (let s := bound (put .block iMma); let h := here s
    atBlock iMma s = true ∧ gate h s = .ok () ∧ queueTakes s [0] = true ∧ (blk s).stale 0 = none ∧ (blk s).stale 1 = none) ∧
    (let s := bound (put .block iMmaP); let h := here s
    atBlock iMmaP s = true ∧ gate h s = .ok () ∧ queueTakes s [0] = true ∧ (blk s).stale 0 = none ∧
    (capturePanel h s (.b .bx4) (kOf 1) 40).2 = [] ∧ h.boundsOk [(40, panelRegs h (.b .bx4) (kOf 1))] = true) := by
  refine ⟨?_, ?_, ?_, ?_, ?_⟩ <;> decide +kernel

/-- The queue holds an `mma` of two bound handles. -/
theorem wit_MatrixQueueExecutes : let s := mapBlks (fun x => { x with mq := [.mma 0 0 1 32 false none] }) (bound (put .block iMz))
    s.blk? 0 = some (blk s) ∧ (blk s).mq = [.mma 0 0 1 32 false none] ∧ (blk s).handle? 0 = some (handle 0) ∧
    (blk s).handle? 1 = some (handle 1) ∧ min 32 (min (handle 0).k (handle 1).k) ≠ 0 := by decide +kernel

def iMl : Instr := .mload (os 4) 2 (b 0) (b 2) (.f .f16) 1
def iMst : Instr := .mstore 0 (b 0) (b 2)
def iMg : Instr := .mget 0 0
def iMp : Instr := .mput 0 0
def iMe : Instr := .merr (os 4) 0
def sMl : State := holding (acc (.block 0) .load none [lane .none .done 128 []]) (parked (.block 0) (.access 5) (put .block iMl))
/-- The block has one tile, and its stores go to the mapped first page. -/
def sMst : State := mapped (mapBlks (fun x => { x with tiles := [{ n := 0, cells := [] }] }) (put .block iMst))
def rows : List LaneAcc := let s := sMst; let h := here s
  val (checkLanes h s .store false (openInfo · true) (rowLanes ((blk s).tileWord 0) 0 0)) []

theorem wit_MatrixTransfers : (let s := sMl; let h := here s
    atBlock iMl s = true ∧ readyResult h s (os 4) = .ok () ∧ upNums h s [(b 0, .addr), (b 2, .w32)] = .ok [0, 0] ∧
    (blk s).mq = [] ∧ h.q.park = .access 5 ∧ s.access? 5 = some (acc (.block 0) .load none [lane .none .done 128 []])) ∧
    (let s := sMst; let h := here s
    atBlock iMst s = true ∧ upNums h s [(b 0, .addr), (b 2, .w32)] = .ok [0, 0] ∧ (blk s).mq = [] ∧
    memBars h s true false = .ok () ∧ (s.board (blk s).core).length < 32 ∧ s.env.dataErr = false ∧ rows.length = 64 ∧
    checkLanes h s .store false (openInfo · true) (rowLanes ((blk s).tileWord 0) 0 0) = .ok rows ∧ pagesMapped h s true rows = .ok () ∧
    ∀ p ∈ (sent h s .store 256 0 none none rows).needs, ((s.sym? p.1 p.2).bind (·.poison)) = none) ∧
    (let s := put .block iMg; let h := here s
    atBlock iMg s = true ∧ gate h s = .ok () ∧ h.desc.width ≤ 3 ∧ moveBounds h s 0 = .ok () ∧ (blk s).mq = [] ∧
    s.env.dataErr = false ∧ ∀ p ∈ tileRegs h s 0 true, ((s.cell p.2).word?).isSome = true) ∧
    (let s := put .block iMp; let h := here s
    atBlock iMp s = true ∧ gate h s = .ok () ∧ h.desc.width ≤ 3 ∧ moveBounds h s 0 = .ok () ∧ (blk s).mq = [] ∧
    (∀ p ∈ tileRegs h s 0 false, ((s.cell p.2).word?).isSome = true) ∧ s.tilesOn (blk s).core < 32) ∧
    (let s := put .block iMe; let h := here s
    atBlock iMe s = true ∧ gate h s = .ok () ∧ readyResult h s (os 4) = .ok () ∧ (blk s).mq = []) := by
  refine ⟨?_, ?_, ?_, ?_, ?_⟩ <;> decide +kernel

/-! ## Witnesses: engines -/

def atOk (i : Instr) (s : State) : Bool := let h := here s; i.wf && i.legalIn h.cls && s.here? == some h
def iCpy : Instr := .cpy (os 4) (b 0) (b 2) (b 4) none false
def iCpyd : Instr := .cpyd (os 4) (b 0) none false
def iGat : Instr := .gat (os 4) (b 0) (b 2) (.k 1) none
/-- The registers b4 holds the size 64. -/
def sized (s : State) : State := s.setCell (.br 0 4) (.known 64)
def sCpy : State := mapped (sized (put .block iCpy))
def sCpyd : State := mapped (holding (acc (.block 0) .load none [lane .none .done 4 []]) (parked (.block 0) (.access 5) (put .block iCpyd)))
def l0 : LaneId := ⟨0, 0, 0⟩
def reqCpy (sh : Bool) : Req := { lane := l0, segs := [⟨0, 0, 64⟩], coll := none, shadow := sh, bad := false }
def reqGat : Req := { lane := l0, coll := none, shadow := false, bad := false, segs := [⟨0, 0, 1⟩] }
/-- How many commands pass the checks of an issue. -/
def preps (s : State) (rs : List Req) : Option Nat := (prepCmds (here s) none rs s).toOption.map (·.2.length)

theorem wit_EngineCommandsIssue : (let s := sCpy; let h := here s
    atOk iCpy s = true ∧ h.q.park = .none ∧ readyResult h s (os 4) = .ok () ∧
    laneAddrs h s 7 [(b 0, .addr), (b 2, .addr), (b 4, .w32)] = .ok [(l0, [0, 0, 64])] ∧ memBars h s false false = .ok () ∧
    preps s [reqCpy false] = some 1 ∧ 1 ≤ s.env.budget) ∧
    (let s := sCpyd; let h := here s; let a := acc (.block 0) .load none [lane .none .done 4 []]
    atOk iCpyd s = true ∧ h.q.park = .access 5 ∧ s.access? 5 = some a ∧ preps s ((a.descs h).map (cpydReq false)) = some 1) ∧
    (let s := mapped (put .block iGat); let h := here s
    atOk iGat s = true ∧ readyResult h s (os 4) = .ok () ∧
    laneAddrs h s 7 [(b 0, .addr), (b 2, .addr), (.k 1, .w32)] = .ok [(l0, [0, 0, 1])] ∧ memBars h s false false = .ok () ∧
    preps s [reqGat] = some 1) ∧
    (let s := sCpy; let h := here s; let r := reqCpy false
    s.blk? h.b = some (blk s) ∧ r.bad = false ∧ r.coll = none ∧ r.shadow = false ∧ (∃ g ∈ r.segs, g.len ≠ 0) ∧
    (checkTouches h s [r]).toOption.map (·.length) = some 2 ∧ s.atHead h.u = true ∧ s.divPending (dieOf (blk s).core) = false ∧
    s.windowsDrained h.u = true ∧ (blk s).cmds = [] ∧ s.board (blk s).core = []) := by
  refine ⟨?_, ?_, ?_, ?_⟩ <;> decide +kernel

def iEp : Instr := .epoll (os 4) (.k 1)
def iEw : Instr := .ewait (os 4) (.k 1)
def iEwS : Instr := .ewait (o 4) (v 6)
def iEc : Instr := .ecancel (some (.k 1))
def iEcA : Instr := .ecancel none
def iPub : Instr := .pub (os 4) (b 0) (b 2) false

theorem wit_TicketsComplete : (let s := put .block iEp; let h := here s
    atOk iEp s = true ∧ s.blk? h.b = some (blk s) ∧ readyResult h s (os 4) = .ok () ∧
    laneAddrs h s 7 [(.k 1, .w32)] = .ok [(l0, [1])] ∧ s.atHead h.u = true) ∧
    (let s := put .block iEw; let h := here s
    atOk iEw s = true ∧ h.u = .block h.b ∧ s.blk? h.b = some (blk s) ∧ readyResult h s (os 4) = .ok () ∧
    upNums h s [(.k 1, .w32)] = .ok [1] ∧ s.atHead h.u = true) ∧
    (let s := put .slice iEwS; let h := here s
    atOk iEwS s = true ∧ h.isSlice = true ∧ readyResult h s (o 4) = .ok () ∧
    laneAddrs h s 7 [(v 6, .w32)] = .ok (zeros s 7 1) ∧ zeros s 7 1 ≠ [] ∧ s.freeSym (s.quarter h.b h.g) = some 0) ∧
    (let s := put .block iEc; let h := here s
    s.here? = some h ∧ s.blk? h.b = some (blk s) ∧ (blk s).cmds = [] ∧ laneAddrs h s 7 [(.k 1, .w32)] = .ok [(l0, [1])] ∧
    s.atHead h.u = true) ∧
    (let s := put .slice iEcA; let h := here s
    s.here? = some h ∧ s.blk? h.b = some (blk s) ∧ (blk s).cmds = [] ∧ h.isSlice = true ∧ h.active s ≠ [] ∧
    s.atHead h.u = true) ∧
    (let s := mapped ((put .block iPub).setCell (.br 0 2) (.known 65536)); let h := here s
    let ts := (pagePieces 0 65536).map fun p => ({ idx := 0, lane := l0, dst := true, shadow := false, addr := p.1, len := p.2 } : Touch)
    atOk iPub s = true ∧ h.isSlice = false ∧ upNums h s [(b 0, .addr), (b 2, .w32)] = .ok [0, 65536] ∧
    readyResult h s (os 4) = .ok () ∧ ts.length = 1 ∧ (∀ t ∈ ts, (match touchReach h s t with | .fault _ => true | _ => false) = false) ∧
    s.pageOf h.ctx 0 = some 0 ∧ (s.ctx h.ctx).shadow = [] ∧ s.shadowBusy h.ctx [0] = false) := by
  refine ⟨?_, ?_, ?_, ?_, ?_, ?_⟩ <;> decide +kernel

/-- A pending command of block 0 that copies 64 bytes from address 0 to address 0x100. -/
def aCmd (trans : List (Bool × Nat × Nat × Bool)) : Cmd :=
  { seq := 1, issue := 1, unit := .block 0, st := 0, reason := 0, cause := 0, ctr := none, bumped := [], segs := [⟨0x100, 0, 64⟩]
    shadow := false, coll := none, read := [], buf := [], trans := trans, marks := [], before := [], paused := none, refused := none
    word := 0, pc := 8 }
def piece : Piece := ((aCmd [(false, 0, 0, false), (true, 0, 0, false)]).units.headD ⟨0, 0, 0, 0⟩)
def sEng (trans : List (Bool × Nat × Nat × Bool)) : State := mapped (mapBlks (fun x => { x with cmds := [aCmd trans] }) (put .block iNop))
def anEntry : EEntry := { b := 0, seq := 1, idx := 0, vaddr := 0x100, key := 0x100, data := [1, 2], shadow := false, mark := false }

theorem wit_EngineUnitsPerform : (let c := aCmd [(false, 0, 0, false), (true, 0, 0, false)]
    let s := sEng [(false, 0, 0, false), (true, 0, 0, false)]
    s.blk? 0 = some (blk s) ∧ (blk s).pending? 1 = some c ∧ (blk s).frozen = false ∧ c.coll = none ∧ c.units[0]? = some piece ∧
    0 ∉ c.read ∧ s.cmdMayRead c = true ∧ c.dstReady piece = true ∧ s.refusedRead (blk s) c piece = none ∧
    (unitBytes s (blk s) c piece).isSome = true ∧ (s.payEngine (blk s).ctx piece.src (piece.off == 0)).isSome = true) ∧
    (let s := { sEng [] with qs := { State.reset.qs with eq := [anEntry] } }
    s.blk? 0 = some (blk s) ∧ (s.qs.eq.filter (·.b == 0))[0]? = some anEntry ∧ Memory.wf s.mem.bytes ∧
    s.mayDrain (blk s) anEntry = true ∧ s.pathUp anEntry.key = true ∧ s.env.refused = false ∧
    (s.payEngine (blk s).ctx anEntry.vaddr (anEntry.idx == 0)).isSome = true ∧
    ∀ c ∈ (blk s).cmds, c.seq = 1 → c.ctr = none ∧ c.coll = none) ∧
    (let s := sEng []; let r := lookupD 0 0 (s.ctx 0).ranges
    s.blk? 0 = some (blk s) ∧ (blk s).pending? 1 = some (aCmd []) ∧ (blk s).frozen = false ∧ (aCmd []).paused = none ∧
    (aCmd []).nextPage = some (false, 0) ∧ s.stage1 (blk s).ctx 0 = some (r, 0) ∧ rightR r = true ∧ s.heldIa 0 = false ∧
    s.route 0 false = .pkg 0 ∧ s.heldPage 0 = false) := by
  refine ⟨?_, ?_, ?_⟩ <;> decide +kernel

/-! ## Witnesses: ordering and code -/

def iFence : Instr := .fence .system .all
def qe (path : Option SysPath) : QEntry :=
  { acc := 5, unit := .slice 0 0 0, lane := 0, key := 64, kind := .store, width := 4, data := [1, 2, 3, 4], ctx := 0, seq := 1, path := path }
def withQs (f : Queues → Queues) (s : State) : State := { s with qs := f s.qs }

theorem wit_QueuesDrain : (let s := put .slice iFence; let h := here s
    s.here? = some h ∧ h.isSlice = true ∧ s.fenceClear h.u = true ∧
    fenceReady .system .all h s = true) ∧
    (let s := withQs (fun q => { q with tq := [qe none] }) (put .slice iNop)
    (s.qs.tq.find? fun (e : QEntry) => e.unit.block? == some 0) = some (qe none) ∧ Memory.wf s.mem.bytes) ∧
    (let a := acc (.slice 0 0 0) .storeSys none [lane .none .queued 4 [.known 1]]
    let s := withQs (fun q => { q with accs := [a], sq := [qe (some (.peer 1))] }) (put .slice iNop)
    let u := Sys2Proof.Machine.orderOf (.slice 0 0 0)
    (s.qs.sq.find? fun (e : QEntry) => Sys2Proof.Machine.orderOf e.unit == u && e.path == some (.peer 1)) = some (qe (some (.peer 1))) ∧
    s.access? 5 = some a ∧ a.poison = none ∧ s.heldPage 64 = false ∧ s.routeUp 1 = false) ∧
    (let e : InEntry := { requester := 7, key := 64, data := [1] }
    let s := withQs (fun q => { q with inb := [e] }) State.reset
    (s.qs.inb.find? fun (e : InEntry) => e.requester == 7) = some e ∧ e.wait = none ∧ Memory.wf s.mem.bytes ∧ s.heldPage 64 = false) ∧
    (let e : MEntry := { src := 1, dst := 0, offset := 0, data := [1], unit := .slice 1 0 0, acc := 9, seq := 1 }
    let s := withQs (fun q => { q with mq := [e] }) (put .slice iNop)
    (s.qs.mq.find? fun (e : MEntry) => e.src == 1 && e.dst == 0) = some e ∧ s.blk? 0 = some (blk s)) ∧
    State.reset.sysLine (2 ^ 44 / 128) = true ∧
    (isPackage (5 * 128) = true ∧ 5 ∉ State.reset.mem.draft ∧ State.reset.sysLine 5 = false ∧ State.reset.holed (5 * 128) 128 = false) := by
  refine ⟨?_, ?_, ?_, ?_, ?_, ?_, ?_⟩ <;> decide +kernel

def iCpub : Instr := .cpub (o 2) (v 4) (v 6) .package
def iBind : Instr := .bind (os 2) (g 4) (g 6)
def sBind : State := mapped (put .group iBind)
def bindLanes : List LaneAcc := let h := here sBind
  val (checkLanes h sBind .store true (openInfo · true) [laneAcc 0 0 0 8 (.known 0) (.known 0) []]) []

theorem wit_CodePublished : (let s := mapped (put .slice iCpub); let h := here s
    atOk iCpub s = true ∧ s.blk? h.b = some (blk s) ∧ h.isSlice = true ∧ cpubRange (v 4) (v 6) h s = .ok (some (0, 0)) ∧
    readyResult h s (o 2) = .ok () ∧ memBars h s false false = .ok () ∧
    (∀ p ∈ linePieces 0 0, cpubCheck s h.ctx p.1 p.2 = none) ∧ s.atHead h.u = true ∧ cpubBusy s (blk s) (linePieces 0 0) = false ∧
    cpubHole s h.u h.ctx (linePieces 0 0) = false) ∧
    (let s := sBind; let h := here s
    atOk iBind s = true ∧ readyResult h s (os 2) = .ok () ∧ h.q.park = .none ∧ 0 < s.env.budget ∧
    laneAddrs h s 7 [(g 4, .addr), (g 6, .addr)] = .ok [(l0, [0, 0])] ∧ memBars h s true false = .ok () ∧
    bindLanes.map (·.tgt) = [.inter 0] ∧
    checkLanes h s .store true (openInfo · true) [laneAcc 0 0 0 8 (.known 0) (.known 0) []] = .ok bindLanes ∧
    s.atHead h.u = true ∧ s.env.dataErr = false ∧ Memory.wf s.mem.bytes ∧ s.heldIa 0 = false ∧ s.route 0 true = .pkg 0 ∧ s.heldPage 0 = false) := by
  refine ⟨?_, ?_⟩ <;> decide +kernel

/-- The conditions of `callt` at an entry whose top byte is `top`. -/
def calltOk (top : Byte) (st : Nat) : Prop := let s := linked top (put .slice iCallt); let h := here s
    s.here? = some h ∧ h.q.park = .none ∧ calltIndex h s (v 2) = .ok 0 ∧ memBars h s true false = .ok () ∧
    h.desc.ltp = 0x20000 ∧ s.stage1 h.ctx 0x20000 = some (lookupD 0 0 (s.ctx 0).ranges, 0x20000) ∧
    rightR (lookupD 0 0 (s.ctx 0).ranges) = true ∧ rightW (lookupD 0 0 (s.ctx 0).ranges) = true ∧
    s.route 0x20000 false = .pkg 0x20000 ∧ s.route 0x20000 true = .pkg 0x20000 ∧ s.atHead h.u = true ∧
    s.heldIa 0x20000 = false ∧ s.heldPage 0x20000 = false ∧ s.holed 0x20000 8 = false ∧ s.env.dataErr = false ∧
    linkBad (s.readNat 0x20000 8) = false ∧ s.readNat 0x20000 8 / 2 ^ 62 = st ∧ Memory.wf s.mem.bytes ∧
    ∀ u ∈ h.units, ∀ q ∈ s.seq? u, q.calls.length < Config.callDepth

theorem wit_LinkTableCalls : calltOk 0x80 2 ∧ calltOk 0 0 ∧ calltOk 0x40 1 ∧
    (let s := parked (.slice 0 0 0) (.callt 0 false) (put .slice iCallt)
    (s.seq? (.slice 0 0 0)).map (·.park) = some (.callt 0 false) ∧ s.qs.mons = []) := by
  unfold calltOk; refine ⟨?_, ?_, ?_, ?_⟩ <;> decide +kernel

/-! ## Witnesses: launches -/

def entryOf (idx : Nat) (k : CKind) (st : EState) : Entry :=
  { idx := idx, ctx := 0, kind := k, parent := 1, pending := 1, st := st, isOpen := true, creator := 0, hard := false
    drained := false, launch := none, job := none }
def workOf (es : List Entry) : Work := { entries := es, gens := [(0, 1), (1, 3)], freed := [], used := [(0, 2)], served := [], posts := [] }
/-- The launch of the block has a parent at index 1 with generation 3, whose handle 12289 stands in b0. -/
def under (k : CKind) (st : EState) (s : State) : State := { s.setCell (.br 0 0) (.known 12289) with
  work := workOf ([Entry.ofLaunch 0 0 1 .active { LaunchData.fresh placeDesc 1 0 [] [] with gridSeq := true, given := 1 },
    entryOf 1 k st]) }

def iRd : Instr := .cntRd (os 4) (b 0)
def iSelf : Instr := .cntSelf (os 4) .job
def iNew : Instr := .cntNew (os 4) .phase (b 0)
def iClose : Instr := .cntClose (os 4) (b 0)
def iCw : Instr := .cwait (os 4) (b 0)
def iCan : Instr := .cancel (os 4) (b 0)
def iLaunch : Instr := .launch (os 4) (b 0)
def laneGot (bs : List Byte) : LaneAcc := { lane .none .done 8 [] with got := bs }
def newPhase (s : State) (i : Nat) : Entry :=
  { idx := i, ctx := 0, kind := .phase, parent := 1, pending := 1, st := .opened, isOpen := true, creator := (here s).launch
    hard := false, drained := false, launch := none, job := none }
/-- The record (descriptor at 64, extents 1) and the descriptor (ENTRY 64, REGS 1, GROUPS 1, GANG 1) have been read. -/
def recAcc : Access := { acc (.block 0) .load none [laneGot ([64] ++ List.replicate 7 0 ++ [1, 0, 0, 0, 1, 0, 1] ++ List.replicate 49 0)]
  with id := 4, width := 64, pc := (here (put .block iLaunch)).pc }
def descAcc : Access := { acc (.block 0) .load none [laneGot ([64] ++ List.replicate 16 0 ++ [1, 1, 0, 1] ++ List.replicate 43 0)]
  with width := 8 }
def sLaunch : State := let s := under .job .active (parked (.block 0) (.access 5) (put .block iLaunch))
  { s with qs := { s.qs with accs := [recAcc, descAcc] } }
def dOf : Desc := { placeDesc with entry := 64, regs := 1 }

theorem wit_LaunchInstructions : (let s := under .job .active (put .block iRd); let h := here s
    atOk iRd s = true ∧ readyResult h s (os 4) = .ok () ∧ (oneOf h s [(b 0, .w32)]).toOption.map (·.map (·.2)) = some (some [12289]) ∧
    s.named 0 12289 = some (entryOf 1 .job .active) ∧ s.atHead h.u = true) ∧
    (let s := put .block iSelf; let h := here s
    atOk iSelf s = true ∧ readyResult h s (os 4) = .ok () ∧ gate h s = .ok ()) ∧
    (let s := under .job .active (put .block iNew); let h := here s
    atOk iNew s = true ∧ readyResult h s (os 4) = .ok () ∧ (oneOf h s [(b 0, .w32)]).toOption.map (·.map (·.2)) = some (some [12289]) ∧
    s.named h.ctx 12289 = some (entryOf 1 .job .active) ∧ mayHold .job .phase = true ∧ (entryOf 1 .job .active).final = false ∧
    s.atHead h.u = true ∧ s.allocDie (s.dieOf h.u) = some 0 ∧ (s.allocEntry 0 (newPhase s)).map (·.2) = some 2) ∧
    (let s := under .phase .opened (put .block iClose); let h := here s
    atOk iClose s = true ∧ readyResult h s (os 4) = .ok () ∧
    (oneOf h s [(b 0, .w32)]).toOption.map (·.map (·.2)) = some (some [12289]) ∧ s.atHead h.u = true) ∧
    (let s := under .job .active (put .block iCw); let h := here s
    atOk iCw s = true ∧ h.isSlice = false ∧ upNums h s [(b 0, .w32)] = .ok [12289] ∧ readyResult h s (os 4) = .ok () ∧
    s.atHead h.u = true) ∧
    (let s := under .job .active (put .block iCan); let h := here s
    atOk iCan s = true ∧ upNums h s [(b 0, .w32)] = .ok [12289] ∧ readyResult h s (os 4) = .ok () ∧ s.atHead h.u = true) ∧
    (let s := sLaunch; let h := here s; let r := readLRec recAcc.bytes
    atOk iLaunch s = true ∧ h.q.park = .access 5 ∧ readyUpper h s (os 4) false = .ok () ∧ s.access? 5 = some descAcc ∧
    ((s.ordered h.u).find? fun a => a.width == 64 && a.pc == h.pc && a.kind == .load) = some recAcc ∧
    readDesc descAcc.bytes = some dOf ∧ r.ok = true ∧ r.nb ≤ 16777215 ∧ r.nb % dOf.gang = 0 ∧ dOf.couldFit = true ∧
    r.parent = 0 ∧ (((s.dropAcc descAcc).dropAcc recAcc).entry? h.launch).bind (fun e => s.entry? e.parent) =
      some (entryOf 1 .job .active)) := by
  refine ⟨?_, ?_, ?_, ?_, ?_, ?_, ?_⟩ <;> decide +kernel

def launchAt (st : EState) (f : LaunchData → LaunchData) : Entry := Entry.ofLaunch 0 0 1 st (f (LaunchData.fresh placeDesc 1 0 [] [7]))
def sWork (e : Entry) : State := { State.reset with work := workOf [e, entryOf 1 .job .active] }
def dSeq (d : LaunchData) : LaunchData := { d with gridSeq := true, stripes := [(0, 0, 1)] }
def stripesOf (s : State) : Option (Nat × LaunchData) := ((s.entry? 0).bind (·.launch)).bind fun d => d.take 0 false
def sGang : State := sWork (launchAt .ready dSeq)
def tookOf : Nat × LaunchData := (stripesOf sGang).getD (0, LaunchData.fresh placeDesc 1 0 [] [])
def sStart : State := { sWork (launchAt .active dSeq) with
  blks := [Blk.fresh 0 0 0 0 0 0 placeDesc 0 0], gangs := [Gang.fresh 0 0 0 [0]] }

theorem wit_LaunchesDispatch : (let e := launchAt .held id; let s := sWork e; let d := LaunchData.fresh placeDesc 1 0 [] [7]
    s.entry? 0 = some e ∧ e.launch = some d ∧ e.st = .held ∧ e.hard = false ∧ e.drained = false ∧ d.deps = []) ∧
    (let e := launchAt .ready id; let s := sWork e
    s.entry? 0 = some e ∧ e.launch = some (LaunchData.fresh placeDesc 1 0 [] [7]) ∧ 0 / Config.entriesPerDie = 0 ∧
    (s.work.entries.filter fun x => x.idx / Config.entriesPerDie == 0 && (match x.launch with
      | some y => y.gridSeq && !x.final | none => false)).length < Config.gridSeqsPerDie) ∧
    (let s := sGang; let e := launchAt .ready dSeq
    s.entry? 0 = some e ∧ s.divPending 0 = false ∧ s.mayServe 0 0 = true ∧ placesOk placeDesc 0 [(0, 0)] = true ∧
    (dSeq (LaunchData.fresh placeDesc 1 0 [] [7])).take 0 false = some tookOf ∧
    (reserve e tookOf.2 tookOf.1 0 [(0, 0)] (s.countServed 0 0)).map (·.2) = some [0] ∧ ∀ x ∈ s.blks, x.id < s.env.fresh) ∧
    (let s := sStart
    s.blk? 0 = some (blk s) ∧ (blk s).phase = .reserved ∧ (blk s).cancelled = false ∧ s.divPending (dieOf (blk s).core) = false ∧
    (s.ctx (blk s).ctx).halted = false ∧ (blk s).desc.banks ≤ (s.freeBanks (tillerOf (blk s).core)).length) ∧
    ((put .slice iNop).seq? (.group 0 0)).isSome = true := by
  refine ⟨?_, ?_, ?_, ?_, ?_⟩ <;> decide +kernel

/-- Every unit of the block has retired. -/
def sOver : State := setSeqs (fun q => { q with retired := true, clause := none }) (put .slice iNop)
def sFramed : State := mapBlks (fun x => { x with phase := .framed, cancelled := true }) (put .slice iNop)
/-- A context that is mapped, and a job record of zeros but for the given bytes at its start, at 0x20000. -/
def sJob (dev : DevState) (bs : List (Nat × Byte)) : State := let s := mapped State.reset
  { s with mem := { s.mem with bytes := (0x10007, 0xC0) :: bs }, svc := { s.svc with dev := dev } }
/-- Descriptor 0x20080, extents 1, WEIGHT 1; the descriptor has ENTRY 0, REGS, GROUPS and GANG 1. -/
def jobBytes : List (Nat × Byte) := [(0x20000, 0x80), (0x20002, 2), (0x20008, 1), (0x2000C, 1), (0x2000E, 1), (0x20040, 1),
  (0x20091, 1), (0x20092, 1), (0x20094, 1)]
def recBytes (bs : List (Nat × Byte)) : List Byte := readBytes ((0x10007, 0xC0) :: bs) 0x20000 128

theorem wit_LaunchesEnd : (let s := sOver
    s.blk? 0 = some (blk s) ∧ (blk s).phase = .resident ∧ (blk s).stop = none ∧ (∀ u ∈ unitsOf (blk s), s.retired u = true) ∧
    s.blockClear (blk s) = true) ∧
    (let s := mapBlks (fun x => { x with phase := .reserved, cancelled := true }) sOver
    s.blk? 0 = some (blk s) ∧ (blk s).phase = .reserved ∧ (blk s).stop = none ∧ (blk s).cancelled = true) ∧
    (let s := sFramed
    s.blk? 0 = some (blk s) ∧ (blk s).phase = .framed ∧ (blk s).cancelled = true ∧ (blk s).kill = false ∧
    s.cancelReaches (blk s) = true) ∧
    (let s := setSeqs (fun q => { q with clause := none }) (mapBlks (fun x => { x with cancelled := true }) (put .slice iNop))
    s.blk? 0 = some (blk s) ∧ (blk s).cancelled = true ∧ (blk s).kill = false ∧ s.cancelReaches (blk s) = true) ∧
    (let s := sJob .active jobBytes
    s.env.aborted = false ∧ 0 ∉ s.flt.frozenFns ∧ (s.ctx 0).valid = true ∧ (s.ctx 0).fn = 0 ∧ (∀ e ∈ s.qs.inb, e.requester ≠ 7) ∧
    s.ctxBytes 0 0x20000 128 true = .ok (recBytes jobBytes) ∧
    (match readJob s 0 0x20000 (recBytes jobBytes) with | .ok (.inr (_, r, d)) => r.nb == 1 && d.gang == 1 | _ => false) = true ∧
    2 ≤ ((List.range Config.dies).map s.freeEntries).sum) ∧
    (let s := sJob .active []
    s.ctxBytes 0 0x20000 128 true = .ok (recBytes []) ∧ readJob s 0 0x20000 (recBytes []) = .ok (.inl 2)) ∧
    (let s := sJob .service jobBytes
    s.svc.dev ≠ .active ∧ s.ctxBytes 0 0x20000 128 true = .ok (recBytes jobBytes)) ∧
    (let e := entryOf 1 .job .done; let s := { State.reset with work := workOf [e] }
    s.env.aborted = false ∧ 0 ∉ s.flt.frozenFns ∧ (s.ctx 0).fn = 0 ∧ s.named 0 (12289 % 65536) = some e ∧ e.kind = .job ∧
    e.st = .done) := by
  refine ⟨?_, ?_, ?_, ?_, ?_, ?_, ?_, ?_⟩ <;> decide +kernel

/-! ## Witnesses: the system class -/

def iTrap : Instr := .trap 7
def iMf : Instr := .mfcr (.scope 4) 0x21
def iMt : Instr := .mtcr 0x20 (b 0)

theorem wit_TrapsAndControlRegisters : (let s := put .slice iTrap; s.here? = some (here s) ∧ (here s).active s ≠ []) ∧
    (let s := put .block iMf; let h := here s
    atOk iMf s = true ∧ readyResult h s (sOut (.scope 4)) = .ok () ∧ h.isSlice = false ∧ crOpen h 0x21 = false) ∧
    (let s := mapped (put .block iMt); let h := here s
    s.here? = some h ∧ mtcrValue h s (b 0) = .ok (some 0) ∧ (s.ctx h.ctx).sys = true ∧ s.allPerformed h.u = true) ∧
    (let s := put .block iMt; let h := here s
    s.here? = some h ∧ mtcrValue h s (b 0) = .ok (some 0) ∧ crSystem 0x20 = true ∧ (s.ctx h.ctx).sys = false) := by
  refine ⟨?_, ?_, ?_, ?_⟩ <;> decide +kernel

def aStop (u : UnitRef) (pre : Bool) : FaultInfo :=
  { unit := u, cause := .brk, pc := 8, addr := 0, info := 0, lanes := 0, preempt := pre, final := false }
def stopped (s : State) : State := mapBlks (fun x => { x with stop := some (aStop (.slice 0 0 0) false) }) s

theorem wit_FaultTaken : (let s := put .slice iTrap
    (UnitRef.slice 0 0 0).block? = some 0 ∧ s.blk? 0 = some (blk s) ∧ (blk s).stop = none) ∧
    (let s := stopped (put .slice iTrap); let g := aStop (.slice 0 0 0) false
    s.blk? 0 = some (blk s) ∧ (blk s).stop = some g ∧ g.preempt = false ∧ g.since = s.env.cycle ∧
    g.unit.rank < (UnitRef.group 0 0).rank ∧ (s.seq? g.unit).isSome = true ∧
    ¬(g.unit.rank < (UnitRef.slice 0 0 1).rank ∨ (UnitRef.slice 0 0 1).groupNo < g.unit.groupNo)) ∧
    (let s := mapBlks (fun x => { x with stop := some (aStop (.slice 0 1 0) false) }) (put .slice iTrap)
    s.blk? 0 = some (blk s) ∧ s.env.cycle = 0 ∧ (UnitRef.slice 0 0 0).rank = (UnitRef.slice 0 1 0).rank ∧
    (UnitRef.slice 0 0 0).groupNo < (UnitRef.slice 0 1 0).groupNo) ∧
    ((UnitRef.grid 0).block? = none ∧ State.reset.flt.uppers = []) := by
  refine ⟨?_, ?_, ?_, ?_⟩ <;> decide +kernel

def frameAt (blk : Option Nat) (held ready : Bool) (img : Option (List Byte)) : FrameInfo :=
  { fid := 0, ctx := 0, granules := 1, addr := 0, block := blk, upper := none, size := 64, header := [], item10 := [], item11 := []
    item12 := [], faulted := true, frozen := false, held := held, halted := false, pageTag := none, ready := ready, core := none
    tiller := 0, queued := 0, why := aStop (.slice 0 0 0) false, built := [], image := img }
def framed (f : FrameInfo) (s : State) : State := { s with flt := { s.flt with frames := [f] } }
def iEret : Instr := .eret (.scope 4) (b 0)
def iCs : Instr := .csave (.scope 4) (b 0)
def iCr : Instr := .crest (.scope 4) (b 0) 3 false

theorem wit_FramesResume : (let s := mapped (put .block iEret); let h := here s
    atOk iEret s = true ∧ upNums h s [(b 0, .addr)] = .ok [0] ∧ readyResult h s (sOut (.scope 4)) = .ok () ∧
    memBars h s false false = .ok () ∧ s.atHead h.u = true) ∧
    (let f := frameAt (some 1) false false none; let s := framed f (mapped (put .block iEret)); let h := here s
    (s.flt.frames.find? fun f => f.ctx == h.ctx && f.addr == 0) = some f ∧ f.frozen = false ∧ f.halted = false ∧ f.held = false ∧
    f.accepted = false ∧ ({ f with ready := true, image := some [] } : FrameInfo).accepted = true ∧
    (loadFrame h 0 f.size s).toOption.map (·.length) = some 64) ∧
    (frameAt (some 1) false false none).upper = none ∧
    (let s := mapped (under .job .active (put .block iCs)); let h := here s
    atOk iCs s = true ∧ h.isSlice = false ∧ upNums h s [(b 0, .addr)] = .ok [12289] ∧ readyResult h s (sOut (.scope 4)) = .ok () ∧
    (s.ctx h.ctx).sys = true) ∧
    (let f := frameAt (some 1) true false none; let s := framed f (mapped (put .block iCr)); let h := here s
    atOk iCr s = true ∧ h.isSlice = false ∧ upNums h s [(b 0, .w32)] = .ok [0] ∧ readyResult h s (sOut (.scope 4)) = .ok () ∧
    (s.ctx h.ctx).sys = true ∧ (s.flt.frames.find? fun f => f.ctx == h.ctx && f.fid == 0 && f.held) = some f ∧
    (s.partFrame f).toOption.map (·.length) = some 64) ∧
    (let f := frameAt (some 1) true false none
    ((framed f (put .block iCr)).partFrame f).toOption = none ∧ (framed f (put .block iCr)).partAccess 0 0 64 false = .refused) := by
  refine ⟨?_, ?_, ?_, ?_, ?_, ?_⟩ <;> decide +kernel

def iFr : Instr := .freeze (.scope 4) (b 0)
def iTh : Instr := .thaw (.scope 4) (b 0)
def iHalt : Instr := .halt (.scope 4) (b 0)
def haltWord : Nat := 5 * 2 ^ 24
def sHalt (halted : Bool) (p : Park) : State :=
  let s := mapped ((parked (.block 0) p (put .block iHalt)).setCell (.br 0 0) (.known (BitVec.ofNat 32 haltWord)))
  { s with ctxs := s.ctxs.map fun c => { c with halted := halted } }

theorem wit_MastersControlled : (let s := mapped (put .block iFr); let h := here s
    atOk iFr s = true ∧ upNums h s [(b 0, .w32)] = .ok [0] ∧ readyResult h s (sOut (.scope 4)) = .ok () ∧ (s.ctx h.ctx).sys = true) ∧
    ((put .block iFr).ctx (here (put .block iFr)).ctx).sys = false ∧
    (let s := mapped (put .block iTh); let h := here s
    atOk iTh s = true ∧ upNums h s [(b 0, .w32)] = .ok [0] ∧ readyResult h s (sOut (.scope 4)) = .ok () ∧ thawCheck h.ctx 0 s = .ok ()) ∧
    (let s := put .block iFr
    s.chanBlock 0 = some (blk s) ∧ (blk s).frozen = false) ∧
    (let s := sHalt false .none; let h := here s
    atOk iHalt s = true ∧ h.isSlice = false ∧ upNums h s [(b 0, .w32)] = .ok [haltWord] ∧
    readyResult h s (sOut (.scope 4)) = .ok () ∧ (s.ctx h.ctx).sys = true ∧ (s.ctx 0).valid = true ∧ (s.ctx 0).halted = false ∧
    (s.haltCtx 0 h.b).haltDone 0 h.b = true) ∧
    (let s := sHalt true .waiting; let h := here s
    h.q.park = .waiting ∧ (s.ctx 0).halted = true ∧ s.haltDone 0 h.b = true) ∧
    (let s := sHalt true .none; (here s).q.park ≠ .waiting ∧ (s.ctx 0).halted = true) := by
  refine ⟨?_, ?_, ?_, ?_, ?_, ?_, ?_⟩ <;> decide +kernel
/-- A context with a fault queue of 16 records at 0 and a frame pool of 64 granules. -/
def queued (s : State) : State := let t := mapped s
  { t with ctxs := t.ctxs.map fun c => { c with crs := [(0x42, BitVec.ofNat 32 (2 ^ 31 + 4)), (0x45, 64)] } }
def small (s : State) : State := mapBlks (fun x => { x with desc := { x.desc with regs := 1 } }) s
def runOf (i : Instr) (s : State) : State := match exec i s with | .next t => t | _ => s
def sStop : State := queued (runOf iTrap (small (put .slice iTrap)))
def stopOf (s : State) : FaultInfo := ((blk s).stop).getD (aStop (.slice 0 0 0) false)

def bytesOf (fid : Nat) : List Byte := ((sStop.noteFault (sStop.settleWhy (stopOf sStop))).standFor (blk sStop) (sStop.settleWhy (stopOf sStop))).blockFrame (blk sStop)
  (sStop.settleWhy (stopOf sStop)) fid
theorem frame_length : (bytesOf 0).length = 30080 := by decide +kernel
def fRes : FrameInfo := frameAt (some 0) false true (some [])
def sRes : State := framed fRes (mapBlks (fun x => { x with phase := .framed }) (put .slice iTrap))
def aRec : FaultRec := { ctx := 0, bytes := List.replicate 64 1, handle := some 0, fid := none }
def sRec : State := let s := queued State.reset; { s with flt := { s.flt with records := [aRec] } }
/-- The block's slices are done, its block unit waits since cycle 0, block 1 waits for its tiller, and DELAY is 0. -/
def sSwap : State := let s := parked (.block 0) .waiting (framed (frameAt (some 1) false true (some [])) (put .block iBwt))
  { s with
    env := { s.env with cycle := 9 }
    blks := s.blks ++ [{ Blk.fresh 1 0 1 1 0 0 placeDesc 1 1 with phase := .framed }]
    seqs := s.seqs.map fun q => (q.1, if q.1 = .block 0 then q.2 else { q.2 with done := true, retired := true })
    ctxs := [{ Ctx.blank 0 with crs := [(0x20, 0)] }] }

theorem wit_FramesBuilt : (let s := sStop; let x := blk s; let i := stopOf s
    (UnitRef.slice 0 0 0).block? = some 0 ∧ s.blk? 0 = some x ∧ x.stop = some i ∧ s.mayFrame x (s.settleWhy i) = true ∧
    s.queueUsable x.ctx = true) ∧ (bytesOf 0).length = 30080 ∧
    (let s := sStop; let x := blk s
    s.freeRun x.ctx ((30080 + 65535) / 65536) = some 0 ∧
    s.partAccess x.ctx (s.poolBase x.ctx + 0 * 65536) 30080 true = .ok) ∧
    (let s := sRec
    (s.flt.records.find? fun r => r.ctx == 0) = some aRec ∧ s.queueUsable 0 = true ∧ s.vaKey 0 (s.queueBase 0) true = some 0 ∧
    s.partAccess 0 (s.queueBase 0) 8 true = .ok ∧ s.partAccess 0 (s.queueBase 0 + 64) 64 true = .ok ∧
    ¬2 ^ 4 ≤ (s.readNat 0 4 + 2 ^ 32 - s.readNat 4 4) % 2 ^ 32) ∧
    (let s := { sRec with mem := { sRec.mem with bytes := (0, 16) :: sRec.mem.bytes } }
    s.queueUsable 0 = true ∧ s.partAccess 0 (s.queueBase 0) 8 true = .ok ∧ s.vaKey 0 (s.queueBase 0) true = some 0 ∧
    (s.cr 0 0x42).toNat % 16 = 4 ∧ 2 ^ 4 ≤ (s.readNat 0 4 + 2 ^ 32 - s.readNat 4 4) % 2 ^ 32) ∧
    (let s := sRes; let x := blk s; let f := fRes
    (s.flt.frames.find? fun f => f.ctx == 0 && f.fid == 0) = some f ∧ f.block = some x.id ∧ s.blk? x.id = some x ∧
    x.phase = .framed ∧ x.kill = false ∧ x.cancelled = false ∧ f.ready = true ∧ f.held = false ∧ f.frozen = false ∧
    f.halted = false ∧ f.pageTag = none ∧ tillerOf 0 = f.tiller ∧ f.core = none ∧ s.coreRoom x.desc 0 = true ∧
    s.tilesOn 0 + x.tiles.length ≤ Config.tilesPerCore ∧
    s.cacheOn 0 + (x.handles.map fun h => MTy.copyBytes h.ty h.k).foldl (· + ·) 0 ≤ Config.operandCacheBytes ∧
    f.image = some [] ∧ (s.restoreFrom f x 0 []).isSome = true) ∧
    (let s := sSwap; let x := blk s
    s.blk? 0 = some x ∧ x.phase = .resident ∧ x.stop = none ∧ x.cancelled = false ∧ x.frozen = false ∧
    s.blockParked x = some 0 ∧ s.someWaits (tillerOf x.core) = true ∧ (s.cr x.ctx 0x20).toNat = 0) ∧
    (let s := put .slice iNop
    s.blk? 0 = some (blk s) ∧ (blk s).phase = .resident ∧ (blk s).kill = false) := by
  refine ⟨?_, frame_length, ?_, ?_, ?_, ?_, ?_, ?_⟩ <;> decide +kernel

/-! ## Witnesses: translation, host and peers -/

/-- A table at frame 1, whose level-1 entry points to the table at frame 2, that one to frame 3, whose entries are invalid. -/
def tables (s : State) : State := let t := mapped s
  { t with mem := { t.mem with
      bytes := [(0x10002, 2), (0x10007, 0x80), (0x20002, 3), (0x20007, 0x80)]
      frames := [(1, 0x40000000), (2, 0x40000000), (3, 0x40000000)] } }
/-- The leaf of intermediate page 5 maps frame 10 of die 0 read-write, and frame 10 is MAPPED. -/
def leafed (s : State) : State := let t := tables s
  { t with mem := { t.mem with
      bytes := [(0x10002, 2), (0x10007, 0x80), (0x20002, 3), (0x20007, 0x80), (0x3002A, 10), (0x3002F, 0xC0)]
      frames := [(1, 0x40000000), (2, 0x40000000), (3, 0x40000000), (10, 0x20000000)] } }
def args (a0 a1 : Nat) (s : State) : State := { s with chip := { s.chip with arg0 := BitVec.ofNat 64 a0, arg1 := BitVec.ofNat 64 a1 } }
/-- The hypotheses `Stage2Free` and `ServiceFree`. -/
abbrev Free2 (s : State) (c : BitVec 24) : Prop := 0 ∉ s.flt.frozenFns ∧ s.chip.s2busy = none ∧ cmdBad c = false
abbrev FreeSvc (s : State) (c : BitVec 24) : Prop :=
  0 ∉ s.flt.frozenFns ∧ s.flt.frozenMgmt = false ∧ s.svc.busy = none ∧ c.toNat / 2 ^ 16 = 0
abbrev MemOk (s : State) : Prop := Memory.wf s.mem.bytes ∧ canonFrom (0 : BitVec 32) none s.mem.frames = true
/-- CMD with LEVEL 3 for context 0. -/
def cmd3 : BitVec 24 := 0x0000C0
def frozenFn (n : Nat) (s : State) : State := { s with flt := { s.flt with frozenFns := [n] } }
def s2wait (w : S2Wait) (s : State) : State := { s with chip := { s.chip with s2busy := some w } }
def aPage (bad : Bool) : Machine.PageReq := { tag := 3, ctx := 0, page := 5, kind := 0, malformed := bad, written := true, fns := [] }
def paged (p : Machine.PageReq) (s : State) : State := { s with qs := { s.qs with pages := [p] } }
/-- Page 5 of context 0. -/
def ia5 : Nat := 5 * 65536

theorem wit_PagesMapped : (let s := frozenFn 0 State.reset; stage2Form (.s2Map cmd3) = some cmd3 ∧ 0 ∈ s.flt.frozenFns) ∧
    (let s := s2wait (.untable 2) State.reset; 0 ∉ s.flt.frozenFns ∧ s.chip.s2busy.isSome ∧ cmdBad 0x000E00 = true) ∧
    (let s := args ia5 (10 * 65536) (tables State.reset)
    Free2 s cmd3 ∧ MemOk s ∧ mappable (10 * 65536) = true ∧ ia5 % 65536 = 0 ∧ s.ownChip (10 * 65536) = true ∧
    (∃ p e, s.entryAt 0 ia5 3 = .at_ p e ∧ e / 2 ^ 63 % 2 = 0) ∧ frameState (s.frameWord 10) = 0 ∧ homeDie ia5 = homeDie (10 * 65536)) ∧
    (let s := args ia5 (9 * 65536) (tables State.reset); homeDie ia5 ≠ homeDie (9 * 65536) ∧ frameState (s.frameWord 9) = 0) ∧
    (let s := args ia5 (10 * 65536) (leafed State.reset)
    (∃ p e, s.entryAt 0 ia5 3 = .at_ p e ∧ e / 2 ^ 63 % 2 = 1) ∧ frameState (s.frameWord 10) ≠ 0) ∧
    (let s := args ia5 (2 ^ 44) (tables State.reset)
    Free2 s cmd3 ∧ MemOk s ∧ mappable (2 ^ 44) = true ∧ 2 ^ 44 % 65536 = 0 ∧ (s.ownChip (2 ^ 44) = true ↔ 2 ^ 44 ≤ localOf (2 ^ 44)) ∧
    (∃ p e, s.entryAt 0 ia5 3 = .at_ p e ∧ e / 2 ^ 63 % 2 = 0) ∧ (s.ctx 0).host = true) ∧
    (let s := args ia5 (2 ^ 45) (tables State.reset)
    mappable (2 ^ 45) = true ∧ (s.ownChip (2 ^ 45) = true ↔ 2 ^ 44 ≤ localOf (2 ^ 45)) ∧ (s.ctx 0).peer = true ∧ (s.ctx 1).peer = false) ∧
    (let s := paged (aPage false) State.reset; let p := aPage false
    0 ∉ s.flt.frozenFns ∧ (6 : BitVec 32).toNat % 2 = 0 ∧ (s.qs.pages.find? fun p => p.tag == (6 : BitVec 32).toNat / 2 && p.written) = some p ∧
    (s.qs.accs.map (·.id)).Nodup ∧ (∀ x ∈ s.blks, ∀ c ∈ x.cmds, c.paused ≠ some p.tag) ∧ (∀ f ∈ s.flt.frames, f.pageTag ≠ some p.tag) ∧
    s.qs.inb = [] ∧ s.work.posts = [] ∧ ∀ p ∈ State.reset.qs.pages, p.tag ≠ (6 : BitVec 32).toNat / 2) := by
  refine ⟨?_, ?_, ⟨by decide +kernel, by decide +kernel, by decide +kernel, by decide +kernel, by decide +kernel,
    ⟨0x30028, 0, by decide +kernel⟩, by decide +kernel⟩, ?_, ⟨⟨0x30028, 2 ^ 63 + 2 ^ 62 + 10 * 65536, by decide +kernel⟩, ?_⟩,
    ⟨by decide +kernel, by decide +kernel, by decide +kernel, by decide +kernel, by decide +kernel,
    ⟨0x30028, 0, by decide +kernel⟩, by decide +kernel⟩, ?_, ?_⟩ <;> decide +kernel

/-- The leaf's frame is DIRTY, for SCRUB. -/
def dirtied (s : State) : State := { s with mem := { s.mem with bytes := [], frames := [(10, 0x80000000)] } }
def framesAre (f : List (Nat × BitVec 32)) (s : State) : State := { s with mem := { s.mem with frames := f } }

theorem wit_FramesManaged : (let s := args ia5 0 (leafed State.reset)
    Free2 s cmd3 ∧ s.chip.arg0.toNat % levelBytes (cmdLevel cmd3) = 0 ∧
    s.entryAt (cmdCtx cmd3) (cmdCtx cmd3 * 2 ^ 46 + s.chip.arg0.toNat % 2 ^ 46) (cmdLevel cmd3) = .at_ 0x30028 (2 ^ 63 + 2 ^ 62 + 10 * 65536) ∧
    (2 ^ 63 + 2 ^ 62 + 10 * 65536) / 2 ^ 62 % 4 = 3) ∧
    (let s := args (ia5 + 128) 0 (leafed State.reset); Free2 s cmd3 ∧ s.chip.arg0.toNat % levelBytes (cmdLevel cmd3) ≠ 0) ∧
    (let s := args (2 * 65536) 0 (leafed State.reset); s.argFrame 1 = .ok 2 ∧ frameState (s.frameWord 2) = 2) ∧
    State.reset.chip.s2busy = none ∧
    (let s := s2wait (.unmap 0 3 ia5) (leafed State.reset)
    s.chip.s2busy = some (.unmap 0 3 ia5) ∧ MemOk s ∧ s.entryAt 0 (0 * 2 ^ 46 + ia5) 3 = .at_ 0x30028 (2 ^ 63 + 2 ^ 62 + 10 * 65536) ∧
    s.qs.inb = [] ∧ s.work.posts = [] ∧ s.runBusy (s.keyOf (10 * 65536)) 65536 = false ∧
    s.streamsIn 0 false (inRun (s.keyOf (10 * 65536)) 65536) = false) ∧
    (let s := s2wait (.inval 0 3 ia5) (leafed State.reset)
    s.chip.s2busy = some (.inval 0 3 ia5) ∧ MemOk s ∧ s.qs.inb = [] ∧ s.work.posts = [] ∧ s.ctxInFlight 0 = false ∧
    s.streamsIn 0 false (fun _ => true) = false) ∧
    (let s := s2wait (.untable 3) (leafed State.reset)
    s.chip.s2busy = some (.untable 3) ∧ 0 = frameOwner (s.frameWord 3) ∧ MemOk s) ∧
    (let s := args (10 * 65536) 1 (dirtied State.reset)
    Free2 s cmd3 ∧ MemOk s ∧ s.argFrame s.chip.arg1.toNat = .ok 10 ∧ frameState (s.frameWord 10) = 4) ∧
    (let s := args (10 * 65536) 5 State.reset; Free2 s cmd3 ∧ MemOk s ∧ s.argFrame 1 = .ok 10 ∧ frameState (s.frameWord 10) = 0) ∧
    (let s := args (10 * 65536) 5 (framesAre [(10, 0x20000000)] State.reset); MemOk s ∧ s.argFrame 1 = .ok 10 ∧ frameState (s.frameWord 10) = 1) ∧
    (let s := args (10 * 65536) 5 (framesAre [(10, 0x60000000)] { State.reset with ctxs := [{ Ctx.blank 0 with pool := [10] }] })
    MemOk s ∧ s.argFrame 1 = .ok 10 ∧ frameState (s.frameWord 10) = 3 ∧ ∃ x ∈ s.ctxs, 10 ∈ x.pool) := by
  refine ⟨?_, ?_, ?_, ?_, ?_, ?_, ?_, ?_, ?_, ?_, ?_⟩ <;> decide +kernel

def aperts (s : State) : State := { s with chip := { s.chip with apctl := [(0, 0x8000000000000000)] } }
/-- A posted write of requester 9 waits in its queue. -/
def posted : State := withQs (fun q => { q with inb := [{ requester := 9, key := 64, data := [1] }] }) State.reset
def divided : State := { State.reset with chip := { State.reset.chip with spReq := [1, 0, 0, 0], spPend := [true, false, false, false] } }

theorem wit_RegistersWritten : (let s := State.reset; 0 ∉ s.flt.frozenFns ∧ (s.ctx 63).fn = 0 ∧ (63 : Nat) < 64 ∧ (15 : Nat) < 16) ∧
    (0 ∈ (frozenFn 0 State.reset).flt.frozenFns) ∧
    (let s := State.reset; 0 ∉ s.flt.frozenFns ∧ s.rangesInUse 0 = false ∧ s.qs.inb = []) ∧
    (let s := posted; 0 ∉ s.flt.frozenFns ∧ ∃ e ∈ s.qs.inb, e.requester = 9) ∧
    (let s := put .slice iNop; (s.ctx 0).root ≠ bits128 (BitVec.ofNat 128 (2 ^ 65)) 64 41 ∧ s.ctxBusy 0 = true) ∧
    (let s := State.reset; 0 ∉ s.flt.frozenFns ∧ (63 : Nat) < 64 ∧ s.ctxBusy 63 = false ∧ (3 : Nat) < 4 ∧ (0x10 : BitVec 32).toNat % 16 ≤ s.sramUnits 3) ∧
    (let s := divided; MemOk s ∧ s.divPending 0 = true ∧ ∀ x ∈ s.blks, dieOf x.core ≠ 0) ∧
    (let s := { put .slice iNop with chip := divided.chip }; s.divPending 0 = true ∧ ∃ x ∈ s.blks, dieOf x.core = 0 ∧ x.phase = .resident) ∧
    (0 ∉ State.reset.flt.frozenFns ∧ ¬(32 : Nat) < 32) ∧
    (let s := State.reset; s.rangeMapped s.chip.hdmBase.toNat s.chip.hdmSize.toNat = false ∧ s.rangeMapped 0 0 = false) := by
  refine ⟨?_, ?_, ?_, ?_, ?_, ?_, ?_, ?_, ?_, ?_⟩ <;> decide +kernel


/-- The physical function's aperture shows context 0 from 0. -/
def opened : State := aperts (mapped State.reset)
/-- Host-managed memory: the first 1 MiB. -/
def inCxl (s : State) : State := { s with chip := { s.chip with mode := .cxl, hostUp := true, hdmSize := 0x100000 } }
/-- Frame 10 is exported to group 7. -/
def shown : State := framesAre [(10, 0x30070000)] State.reset

theorem wit_OutsideAccesses : (let s := State.reset; 0 ∉ s.flt.frozenFns ∧ (0 : Nat) ≤ 32 ∧ 2 ^ 36 - 8 + 8 ≤ apertureBytes 0 ∧ s.aperture 0 = none) ∧
    (let s := opened; 0 ∉ s.flt.frozenFns ∧ 0x1000 + 8 ≤ apertureBytes 0 ∧ s.aperture 0 = some (0, 0) ∧ (∀ e ∈ s.qs.inb, e.requester ≠ 5) ∧
    s.apAccess 0 0x1000 8 = .ok [(0x1000, 8)] ∧ s.holed 0x1000 8 = false ∧ s.apBad 0 0x1000 8 = none ∧
    pagePieces 0x1000 8 = [(0x1000, 8)] ∧ s.apPage 0 0x1000 true = .key 0x1000) ∧
    (let s := aperts { mapped State.reset with mem := { State.reset.mem with bytes := [] } }
    s.aperture 0 = some (0, 0) ∧ s.apBad 0 0x1000 8 = none ∧ s.apPage 0 0x1000 true = .miss 0x1000) ∧
    (let s := aperts State.reset; s.aperture 0 = some (0, 0) ∧ (∀ e ∈ s.qs.inb, e.requester ≠ 5) ∧ 0 ∉ s.flt.frozenFns ∧
    (match s.apAccess 0 0x1000 8 with | .error (.bad _) => true | _ => false) = true ∧ (s.apBad 0 0x1000 8).isSome = true) ∧
    (3 ∈ (frozenFn 3 State.reset).flt.frozenFns) ∧
    (let s := inCxl State.reset; s.inHdm 0xFFFC0 64 = true ∧ s.heldPage 0xFFFC0 = false ∧ s.qs.inb = [] ∧ s.holed 0xFFFC0 64 = false) ∧
    (let s := State.reset; (23 : Nat) < 24 ∧ 23 ∉ s.flt.frozenLinks ∧ s.chip.linksUp.getLsbD 23 = true ∧ Memory.wf s.mem.bytes ∧
    s.ownChip 0xA0000 = true ∧ s.exported 7 0xA0000 8 = false ∧ s.ownChip (2 ^ 45) = false) ∧
    (let s := shown; 23 ∉ s.flt.frozenLinks ∧ s.chip.linksUp.getLsbD 23 = true ∧ Memory.wf s.mem.bytes ∧
    s.ownChip 0xAFFF8 = true ∧ s.exported 7 0xAFFF8 8 = true ∧ s.heldPage 0xAFFF8 = false ∧ s.holed 0xAFFF8 8 = false) := by
  refine ⟨?_, ?_, ?_, ?_, ?_, ?_, ?_, ?_⟩ <;> decide +kernel

theorem wit_HostEvents : (State.reset.ctxs.map (·.n)).Nodup ∧
    ((mapped State.reset).ctxs.map (·.n)).Nodup ∧ Instr.snpInv 5 = .snpInv 5 := by decide +kernel

/-! ## Witnesses: service -/

def svcd (f : Svc → Svc) (s : State) : State := { s with svc := f s.svc }
/-- SVCCMD's upper bits: kind `k`, domain `n`. -/
def scmd (k n : Nat) : BitVec 24 := BitVec.ofNat 24 (k + n * 16)
def busyWith (k n b : Nat) (s : State) : State := svcd (fun v => { v with busy := some (k, n, b) }) s
def inState (k n st : Nat) (s : State) : State := s.setDomain k n st

theorem wit_ServiceCommands : (let s := State.reset
    serviceForm (.spare (scmd 0 3)) = some (scmd 0 3) ∧ FreeSvc s (scmd 0 3) ∧ svcKind (scmd 0 3) = 0 ∧ svcIndex (scmd 0 3) = 3) ∧
    (let s := frozenFn 0 State.reset; 0 ∈ s.flt.frozenFns ∧ s.svc.busy = none) ∧
    (let s := { State.reset with flt := { State.reset.flt with frozenMgmt := true } }; 0 ∉ s.flt.frozenFns ∧ s.flt.frozenMgmt = true) ∧
    (0x010000 : BitVec 24).toNat / 2 ^ 16 ≠ 0 ∧
    (let s := busyWith 1 4 0 State.reset; s.svc.busy = some (0 + 1, 4, 0) ∧ 0 ∉ s.flt.frozenFns) ∧
    (let s := svcd (fun v => { v with dev := .active }) State.reset; FreeSvc s 0 ∧ s.svc.dev ∈ [DevState.active] ∧
    State.reset.svc.dev ∉ [DevState.active]) ∧
    (let s := State.reset; FreeSvc s (scmd 0 767) ∧ isDomain 0 767 = true ∧ s.domainState 0 767 = 0 ∧ s.placedOn 767 = []) ∧
    (let s := put .slice iNop; FreeSvc s (scmd 0 0) ∧ s.domainState 0 0 = 0 ∧ s.placedOn 0 ≠ []) ∧
    (let s := State.reset; FreeSvc s (scmd 1 23) ∧ isDomain 1 23 = true ∧ s.pairInUse 23 = false) ∧
    (let s := State.reset; FreeSvc s (scmd 3 23) ∧ isDomain 3 23 = true ∧ s.linkNeeded 23 = false ∧ s.domainState 3 23 = 0) ∧
    (isDomain 3 24 = false ∧ isDomain 1 24 = false ∧ isDomain 0 768 = false) ∧
    (let s := inState 0 0 2 State.reset; FreeSvc s (scmd 0 0) ∧ s.domainState 0 0 = 2 ∧ (∀ p ∈ s.svc.spared, p.1 ≠ tillerOf 0) ∧
    tillerOf 0 ∉ s.svc.spareFailed) ∧
    (let s := State.reset; FreeSvc s (scmd 4 1) ∧ svcKind (scmd 4 1) = 4 ∧ svcIndex (scmd 4 1) = 1 ∧ s.argOk 100 = true) ∧
    (let s := State.reset; FreeSvc s (scmd 0 7) ∧ ¬(svcIndex (scmd 0 7) < 4 ∨ 7 < svcIndex (scmd 0 7)) ∧ s.argOk 64 = true ∧ s.argOk 2000 = true ∧
    Memory.wf s.mem.bytes) := by
  refine ⟨?_, ?_, ?_, ?_, ?_, ?_, ?_, ?_, ?_, ?_, ?_, ?_, ?_, ?_⟩ <;> decide +kernel

theorem wit_ServiceEvents : (let s := State.reset; s.svc.busy = none ∧ s.flt.frozenMgmt = false ∧ 0 ∉ s.flt.frozenFns ∧
    (∀ p ∈ s.qs.pages, p.written = true) ∧ s.env.powered = true ∧ s.chip.s2busy = none ∧ s.qs.inb = []) ∧ 0 ∈ (frozenFn 0 State.reset).flt.frozenFns ∧ (4095 : Nat) < 4096 ∧
    (1100 : Nat) ≤ 1100 ∧ (1099 : Nat) < 1100 ∧ isDomain 2 15 = true := by
  decide +kernel

/-! ## Witnesses: encodings and the machine -/

theorem wit_EncodeDecode : Instr.wf (.shlImm ⟨.vreg 1, false⟩ (.sv .lane) 2) = true ∧
    decode 0x3700_2A80_0000_0002 = .ok (.shlImm ⟨.vreg 1, false⟩ (.sv .lane) 2) ∧ 0x3700_2A80_0000_0002 < 2 ^ 64 := by decide

/-- The slice of `put` is asked to issue. -/
def asked (c : Choice) (s : State) : State := { s with env := { s.env with agenda := [c] } }

/-- Every unit stands, between clauses, at a slice clause of one `nop` at 0x200000. -/
def walking (s : State) : State := let t := mapped s
  { t with
    seqs := t.seqs.map fun q => (q.1, { q.2 with pc := 0x200000, clause := none })
    mem := { t.mem with bytes := [(0x10007, 0xC0), (0x200005, 0xE0), (0x200006, 0x1F), (0x200007, 0xC0), (0x20000E, 0x10), (0x20000F, 6)] } }
/-- The same with a block clause. -/
def walkingUp (s : State) : State := let t := walking s
  { t with mem := { t.mem with bytes := [(0x10007, 0xC0), (0x200005, 0xE0), (0x200006, 0x1F), (0x200007, 0xC4), (0x20000E, 0x10), (0x20000F, 6)] } }
def seqOf (u : UnitRef) (s : State) : Seq := (s.seq? u).getD (Seq.start 0)
def onSeq (u : UnitRef) (f : Seq → Seq) (s : State) : State := { s with seqs := s.seqs.map fun q => (q.1, if q.1 = u then f q.2 else q.2) }
def anEnd : Decision := { rank := 2, seq := 0, kind := .clauseEnd 0x200010 true 0 }
def clauseOf (q : Seq) : ClauseRun := q.clause.getD (placeClause .slice 0)

theorem wit_TextWalked : (let s := walking (put .slice iNop); let u := UnitRef.slice 0 0 0; let q := seqOf u s
    let hd := ((decodeHeader 0xC01FE00000000000).getD (placeClause .slice 0).hdr)
    s.seq? u = some q ∧ s.mayIssue u = true ∧ q.clause = none ∧ s.ownRecord u = none ∧ s.together u q = [u, .slice 0 0 1] ∧
    ((s.arrivedAt [u, .slice 0 0 1]).dated u).mayStart u hd = true ∧ decodeHeader 0xC01FE00000000000 = some hd ∧
    hd.cls = u.cls ∧ ∀ y ∈ [u, .slice 0 0 1], y.cls = u.cls ∧ (let x := seqOf y s; s.seq? y = some x ∧ x.pc = q.pc ∧ x.clause = none ∧
      Seq.walk (Seq.arrive x) = false ∧ x.loops.head? = none ∧ (∀ p ∈ x.watches, p.2.2 ≠ x.pc) ∧ s.fetchWord y x.pc = .ok 0xC01FE00000000000 ∧
      s.fetchWords y (x.pc + 8) (hd.count + 1) = .ok [0x0610000000000000]) ∧ clauseReady y hd s = .ok ()) ∧
    (let s := walking (put .slice iNop); let u := UnitRef.block 0; let q := seqOf u s
    s.seq? u = some q ∧ s.mayIssue u = true ∧ q.clause = none ∧ s.ownRecord u = none ∧ s.together u q = [u] ∧ q.loops.head? = none ∧ (∀ p ∈ q.watches, p.2.2 ≠ q.pc) ∧
    s.fetchWord u q.pc = .ok 0xC01FE00000000000 ∧ Cls.slice.rank < u.rank) ∧
    (let s := onSeq (.slice 0 0 1) (fun q => { q with pc := 0 }) (onSeq (.slice 0 0 0) (fun q => { q with queue := [anEnd] }) (walkingUp (put .slice iNop)))
    let u := UnitRef.slice 0 0 0; let q := seqOf u s
    s.seq? u = some q ∧ s.mayIssue u = true ∧ q.clause = none ∧ s.ownRecord u = none ∧ s.together u q = [u] ∧ q.loops.head? = none ∧ (∀ p ∈ q.watches, p.2.2 ≠ q.pc) ∧
    s.fetchWord u q.pc = .ok 0xC41FE00000000000 ∧ (decodeHeader 0xC41FE00000000000).map (·.cls) = some .block ∧ u.rank = 1 ∧ 1 < Cls.block.rank ∧
    s.nextDecision u q = some anEnd ∧ Seq.re (Seq.arrive q).endRegion = none ∧ q.calls = [] ∧ q.parted = false ∧ Seq.laneState (Seq.arrive q) = false) ∧
    (let e : Loop := { top := 0x1FFFF0, stop := 0x200000, remaining := 1, index := 4, frame := 0 }
    let s := onSeq (.block 0) (fun q => { q with loops := [e] }) (walking (put .slice iNop)); let u := UnitRef.block 0; let q := seqOf u s
    s.seq? u = some q ∧ s.mayIssue u = true ∧ q.clause = none ∧ s.ownRecord u = none ∧ s.together u q = [u] ∧ q.loops = [e] ∧ e.stop = q.pc ∧
    s.mayProduce u 1 = true) ∧
    (let s := put .block iNop; let u := UnitRef.block 0; let q := seqOf u s
    s.seq? u = some q ∧ s.mayIssue u = true ∧ q.clause = some (clauseOf q) ∧ (clauseOf q).ended = false) ∧
    (let s := onSeq (.block 0) (fun q => { q with clause := q.clause.map fun k => { k with ended := true } }) (put .block iNop)
    let u := UnitRef.block 0; let q := seqOf u s
    s.seq? u = some q ∧ s.mayIssue u = true ∧ q.clause = some (clauseOf q) ∧ (clauseOf q).ended = true ∧ u.rank ≠ 1 ∧ s.mayProduce u 1 = true) := by
  refine ⟨?_, ?_, ?_, ?_, ?_, ?_⟩ <;> decide +kernel

def wordShl : Nat := 0x3700_2A80_0000_0002
def one (a : Act) : Choice := { elapsed := 1, act := a, dataErr := false, refused := false }
/-- The agenda asks for one step. -/
def askedFor (a : Act) (s : State) : State := { s with env := { s.env with agenda := [one a] } }
def withWord (w : Nat) (s : State) : State :=
  onSeq (.slice 0 0 0) (fun q => { q with clause := q.clause.map fun k => { k with words := [w] } }) s

theorem wit_StepRunsDecoded : State.reset.env.agenda = [] ∧
    (let a := Act.issue (.slice 0 0 0) 64; let s := askedFor a (put .slice iNop); let u := UnitRef.slice 0 0 0
    s.env.agenda = [one a] ∧ s.env.powered = true ∧ (s.take (one a) []).mayIssue u = true ∧ s.seq? u = some (seqOf u s) ∧
    (seqOf u s).clause = some (clauseOf (seqOf u s)) ∧ (clauseOf (seqOf u s)).ended = false ∧
    (clauseOf (seqOf u s)).words[(clauseOf (seqOf u s)).pos]? = some 0x0610000000000000 ∧
    (let k := clauseOf (seqOf u s); decode 0x0610000000000000 = .ok iNop ∧ iNop.legalIn u.cls = true ∧ iNop.placedOk k.pos = true ∧
      iNop.latchOk k.pos k.earlier = true)) ∧
    (let i := Instr.nop .grid; decode ((encode i).getD 0) = .ok i ∧ i.legalIn .slice = false) ∧
    (let i := Instr.addImm (o 1) (.latch 0) 5; decode ((encode i).getD 0) = .ok i ∧ i.legalIn .slice = true ∧ i.placedOk 0 = true ∧
      i.latchOk 0 [] = false) ∧
    (let s := askedFor (.event (.drain 0)) State.reset; s.env.agenda = [one (.event (.drain 0))] ∧ s.env.powered = true ∧
      (Instr.drain 0).classes = []) ∧
    (decode (wordShl % 2 ^ 64) = .ok (.shlImm ⟨.vreg 1, false⟩ (.sv .lane) 2) ∧ (Instr.shlImm ⟨.vreg 1, false⟩ (.sv .lane) 2).legalIn .slice = true ∧
      (Instr.shlImm ⟨.vreg 1, false⟩ (.sv .lane) 2).placedOk 0 = true ∧ (Instr.shlImm ⟨.vreg 1, false⟩ (.sv .lane) 2).latchOk 0 [] = true) := by
  refine ⟨?_, ?_, ?_, ?_, ?_, ?_⟩ <;> decide +kernel

theorem wit_MemoryWfStep : (let s := State.reset.withFetchWord 64 wordShl; MemOk s ∧
    (match step s with | .next _ => true | _ => false) = true) := by decide +kernel

theorem wit_RegistersBounded : (let i := Instr.addImm (o 200) (v 2) 5; let s := small (put .slice i); let h := here s
    ∃ f, immediateForm i = some f ∧ i.wf = true ∧ i.legalIn .slice = true ∧ s.here? = some h ∧ h.isSlice = true ∧
    h.boundsOk (srcRegs f.srcs ++ outRegs f.out f.span) = false) := by
  refine ⟨_, rfl, ?_⟩
  decide +kernel

/-- Range register 3 covers one page, its last byte among them. -/
theorem wit_RangesCover : (let r : BitVec 128 := BitVec.ofNat 128 (2 ^ 63 + 5 + 7 * 2 ^ 96)
    let s := { State.reset with ctxs := [{ Ctx.blank 1 with ranges := [(3, r)] }] }
    s.stage1 1 (5 * 65536 + 65535) = some (r, 2 ^ 46 + 7 * 65536 + 65535) ∧ s.stage1 1 (6 * 65536) = none) := by decide +kernel

/-! ## Decoding: a word of every constructor, from the fields of R44 to R49 and of each class's own table -/

/-- R47, R76 to R84. -/
theorem test_decode_control :
    decode 0x00B000FFFF800100 = .ok (.br .block 0xFFFF8 16) ∧
    decode 0x0105020000B000B0 = .ok (.bt .lane (.pred 2) 11 11) ∧
    decode 0x01180980000FFFF0 = .ok (.bf .slice (v 9) 0x80000 65535) ∧
    decode 0x01B58300002000D0 = .ok (.loop .block (.k 3) 2 13) ∧
    decode 0x0220000000A00000 = .ok (.call .group 10) ∧
    decode 0x02C6850000000000 = .ok (.callr .gang (.sreg .n 5)) ∧
    decode 0x0320000000000000 = .ok (.ret .group) ∧
    decode 0x0390000000000000 = .ok (.regang) ∧
    decode 0x040CFF0000000000 = .ok (.lif true (.vidx 7 15)) ∧
    decode 0x0480000000000000 = .ok (.lelse) ∧
    decode 0x0500000000000000 = .ok (.lendif) ∧
    decode 0x05A0000000000000 = .ok (.doneScope .group) ∧
    decode 0x0650000000000000 = .ok (.nop .grid) ∧
    decode 0x0690000000000000 = .ok (.yield .slice) ∧
    decode 0x08002A0C00000000 = .ok (.vany ⟨.vreg 1, false⟩ (.pred 6)) ∧
    decode 0x08D8C00400000000 = .ok (.vall ⟨.pred 6, false⟩ (v 2)) ∧
    decode 0x090068F000000000 = .ok (.vfirst ⟨.vreg 3, false⟩ (.latch 15)) ∧
    decode 0x09CFEA0E00000000 = .ok (.vcount ⟨.vreg 639, false⟩ (.pred 7)) ∧
    decode 0x0A57EC7E00000000 = .ok (.vsum ⟨.scope 63, false⟩ (.sreg .g 63)) ∧
    decode 0x0A80B00C00000001 = .ok (.vmax true ⟨.vreg 5, true⟩ (v 6)) := by
  refine ⟨?_, ?_, ?_, ?_, ?_, ?_, ?_, ?_, ?_, ?_, ?_, ?_, ?_, ?_, ?_, ?_, ?_, ?_, ?_, ?_⟩ <;> decide +kernel

/-- R98. -/
theorem test_decode_integer :
    decode 0x2000400801800311 = .ok (.add ⟨.vreg 2, false⟩ 3 .z32 true (v 4) (v 6)) ∧
    decode 0x2080400801800302 = .ok (.sub ⟨.vreg 2, false⟩ 3 .s64 false (v 4) (v 6)) ∧
    decode 0x2100400801800313 = .ok (.mul ⟨.vreg 2, false⟩ 3 .z64 true (v 4) (v 6)) ∧
    decode 0x21805B0A01800701 = .ok (.mulhi ⟨.vreg 2, true⟩ 7 .z32 (.k 5) (v 6)) ∧
    decode 0x22805B0A01800701 = .ok (.div ⟨.vreg 2, true⟩ 7 .z32 (.k 5) (v 6)) ∧
    decode 0x23005B0A01800701 = .ok (.rem ⟨.vreg 2, true⟩ 7 .z32 (.k 5) (v 6)) ∧
    decode 0x23805B0A01800701 = .ok (.min ⟨.vreg 2, true⟩ 7 .z32 (.k 5) (v 6)) ∧
    decode 0x24005B0A01800701 = .ok (.max ⟨.vreg 2, true⟩ 7 .z32 (.k 5) (v 6)) ∧
    decode 0x25805B0A01800701 = .ok (.and ⟨.vreg 2, true⟩ 7 .z32 (.k 5) (v 6)) ∧
    decode 0x26005B0A01800701 = .ok (.or ⟨.vreg 2, true⟩ 7 .z32 (.k 5) (v 6)) ∧
    decode 0x26805B0A01800701 = .ok (.xor ⟨.vreg 2, true⟩ 7 .z32 (.k 5) (v 6)) ∧
    decode 0x27005B0A01800701 = .ok (.andn ⟨.vreg 2, true⟩ 7 .z32 (.k 5) (v 6)) ∧
    decode 0x22004006012FFF10 = .ok (.mad ⟨.vreg 2, false⟩ 7 .s32 true (v 3) (v 4) (.k 127)) ∧
    decode 0x2480400800000712 = .ok (.abs ⟨.vreg 2, false⟩ 7 .s64 true (v 4)) ∧
    decode 0x2500400600000711 = .ok (.neg ⟨.vreg 2, false⟩ 7 .z32 true (v 3)) ∧
    decode 0x2780400800000003 = .ok (.not ⟨.vreg 2, false⟩ 0 .z64 (v 4)) ∧
    decode 0x2A00400800000003 = .ok (.clz ⟨.vreg 2, false⟩ 0 .z64 (v 4)) ∧
    decode 0x2A80400800000003 = .ok (.popc ⟨.vreg 2, false⟩ 0 .z64 (v 4)) ∧
    decode 0x2B00400800000003 = .ok (.brev ⟨.vreg 2, false⟩ 0 .z64 (v 4)) ∧
    decode 0x2D80400800000003 = .ok (.mov ⟨.vreg 2, false⟩ 0 .z64 (v 4)) ∧
    decode 0x2800400800C00712 = .ok (.shl ⟨.vreg 2, false⟩ 7 .s64 true (v 4) (v 3)) ∧
    decode 0x2880400800C00702 = .ok (.shr ⟨.vreg 2, false⟩ 7 .s64 (v 4) (v 3)) ∧
    decode 0x2900400800C00702 = .ok (.sar ⟨.vreg 2, false⟩ 7 .s64 (v 4) (v 3)) ∧
    decode 0x2980400800C00702 = .ok (.rot ⟨.vreg 2, false⟩ 7 .s64 (v 4) (v 3)) ∧
    decode 0x2B80400800C00702 = .ok (.bfx ⟨.vreg 2, false⟩ 7 .s64 (v 4) (v 3)) ∧
    decode 0x2C80400800C00702 = .ok (.ext ⟨.vreg 2, false⟩ 7 .s64 (v 4) (v 3)) ∧
    decode 0x2C00400801801F02 = .ok (.bfi ⟨.vreg 2, false⟩ 7 .s64 (v 4) (v 6) (v 3)) ∧
    decode 0x2D00400601682700 = .ok (.csel ⟨.vreg 2, false⟩ 7 .s32 (v 3) (v 5) 4) ∧
    decode 0x2E80400601682700 = .ok (.addc ⟨.vreg 2, false⟩ 7 .s32 (v 3) (v 5) 4) ∧
    decode 0x2F00400601682700 = .ok (.subb ⟨.vreg 2, false⟩ 7 .s32 (v 3) (v 5) 4) ∧
    decode 0x2E004D80016C1701 = .ok (.lea ⟨.vreg 2, false⟩ 7 .z32 (.sreg .d 0) (v 5) (.k 2)) ∧
    decode 0x3058200601400701 = .ok (.cmpEq ⟨.pred 1, false⟩ 7 .z32 (v 3) (v 5)) ∧
    decode 0x30D8200601400701 = .ok (.cmpNe ⟨.pred 1, false⟩ 7 .z32 (v 3) (v 5)) ∧
    decode 0x3158200601400701 = .ok (.cmpLt ⟨.pred 1, false⟩ 7 .z32 (v 3) (v 5)) ∧
    decode 0x31D8200601400701 = .ok (.cmpLe ⟨.pred 1, false⟩ 7 .z32 (v 3) (v 5)) ∧
    decode 0x3258200601400701 = .ok (.cmpGt ⟨.pred 1, false⟩ 7 .z32 (v 3) (v 5)) ∧
    decode 0x32D8200601400701 = .ok (.cmpGe ⟨.pred 1, false⟩ 7 .z32 (v 3) (v 5)) := by
  refine ⟨?_, ?_, ?_, ?_, ?_, ?_, ?_, ?_, ?_, ?_, ?_, ?_, ?_, ?_, ?_, ?_, ?_, ?_, ?_, ?_, ?_, ?_, ?_, ?_, ?_, ?_, ?_, ?_, ?_, ?_, ?_, ?_, ?_, ?_, ?_, ?_, ?_⟩ <;> decide +kernel

/-- R103. -/
theorem test_decode_immediate :
    decode 0x34006004DEADBEEF = .ok (.addImm ⟨.vreg 3, false⟩ (v 2) 0xDEADBEEF) ∧
    decode 0x34806004DEADBEEF = .ok (.subImm ⟨.vreg 3, false⟩ (v 2) 0xDEADBEEF) ∧
    decode 0x35006004DEADBEEF = .ok (.mulImm ⟨.vreg 3, false⟩ (v 2) 0xDEADBEEF) ∧
    decode 0x35806004DEADBEEF = .ok (.andImm ⟨.vreg 3, false⟩ (v 2) 0xDEADBEEF) ∧
    decode 0x36006004DEADBEEF = .ok (.orImm ⟨.vreg 3, false⟩ (v 2) 0xDEADBEEF) ∧
    decode 0x36806004DEADBEEF = .ok (.xorImm ⟨.vreg 3, false⟩ (v 2) 0xDEADBEEF) ∧
    decode 0x37006A8A0000001F = .ok (.shlImm ⟨.vreg 3, false⟩ (.sv .index) 31) ∧
    decode 0x37806A8A0000001F = .ok (.shrImm ⟨.vreg 3, false⟩ (.sv .index) 31) ∧
    decode 0x38006A8A0000001F = .ok (.sarImm ⟨.vreg 3, false⟩ (.sv .index) 31) ∧
    decode 0x38806A8A0000001F = .ok (.rotImm ⟨.vreg 3, false⟩ (.sv .index) 31) ∧
    decode 0x3950A00080000001 = .ok (.movi ⟨.scope 5, false⟩ 0x80000001) ∧
    decode 0x39808C8400000007 = .ok (.leaImm ⟨.vreg 4, false⟩ (.sreg .b 2) 7) := by
  refine ⟨?_, ?_, ?_, ?_, ?_, ?_, ?_, ?_, ?_, ?_, ?_, ?_⟩ <;> decide +kernel

/-- R104 to R110. -/
theorem test_decode_exchange :
    decode 0x3C00000200801805 = .ok (.ixset 5 false (v 1) (v 2) (v 3)) ∧
    decode 0x3C0000020000000D = .ok (.ixset 5 true (v 1) (v 0) (v 0)) ∧
    decode 0x3C80200000000016 = .ok (.ixget ⟨.vreg 1, false⟩ 6 2) ∧
    decode 0x3D00200400000006 = .ok (.symq ⟨.vreg 1, false⟩ (v 2) 6) ∧
    decode 0x3D800C0600000000 = .ok (.symw false (.sreg .g 3)) ∧
    decode 0x3D80000000000001 = .ok (.symw true (v 0)) ∧
    decode 0x4000400950000703 = .ok (.shf ⟨.vreg 2, false⟩ 7 .z64 (v 4) (.sv .lane)) ∧
    decode 0x4080400950000703 = .ok (.shfx ⟨.vreg 2, false⟩ 7 .z64 (v 4) (.sv .lane)) ∧
    decode 0x4100400950000703 = .ok (.shfu ⟨.vreg 2, false⟩ 7 .z64 (v 4) (.sv .lane)) ∧
    decode 0x4180400950000703 = .ok (.shfd ⟨.vreg 2, false⟩ 7 .z64 (v 4) (.sv .lane)) ∧
    decode 0x4200400980400700 = .ok (.bcast ⟨.vreg 2, false⟩ 7 .s32 (v 4) (.sreg .g 1)) ∧
    decode 0x428040080000001A = .ok (.scan ⟨.vreg 2, false⟩ .max true true (v 4)) ∧
    decode 0x44583A0541C00300 = .ok (.pand 1 3 2 7 true) ∧
    decode 0x44D83A0541C00300 = .ok (.por 1 3 2 7 true) ∧
    decode 0x45583A0541C00300 = .ok (.pxor 1 3 2 7 true) ∧
    decode 0x45D8CA0400000700 = .ok (.pnot 6 7 2 false) := by
  refine ⟨?_, ?_, ?_, ?_, ?_, ?_, ?_, ?_, ?_, ?_, ?_, ?_, ?_, ?_, ?_, ?_⟩ <;> decide +kernel

/-- R121, R130. -/
theorem test_decode_float :
    decode 0x6000400801800714 = .ok (.fadd ⟨.vreg 2, false⟩ 7 .f32 ⟨.rne, false, true⟩ (v 4) (v 6)) ∧
    decode 0x60804008018007B5 = .ok (.fsub ⟨.vreg 2, false⟩ 7 .f64 ⟨.rtz, true, true⟩ (v 4) (v 6)) ∧
    decode 0x6100400801800756 = .ok (.fmul ⟨.vreg 2, false⟩ 7 .f16 ⟨.rup, false, true⟩ (v 4) (v 6)) ∧
    decode 0x6A004008018007F7 = .ok (.fdiv ⟨.vreg 2, false⟩ 7 .bf16 ⟨.rdn, true, true⟩ (v 4) (v 6)) ∧
    decode 0x6180400601214764 = .ok (.ffma ⟨.vreg 2, false⟩ 7 .f32 ⟨.rdn, false, false⟩ (v 3) (v 4) (.latch 5)) ∧
    decode 0x6200400601000786 = .ok (.fmin ⟨.vreg 2, false⟩ 7 .f16 true (v 3) (v 4)) ∧
    decode 0x6280400601000786 = .ok (.fmax ⟨.vreg 2, false⟩ 7 .f16 true (v 3) (v 4)) ∧
    decode 0x6300400600000707 = .ok (.fabs ⟨.vreg 2, false⟩ 7 .bf16 (v 3)) ∧
    decode 0x6380400600000707 = .ok (.fneg ⟨.vreg 2, false⟩ 7 .bf16 (v 3)) ∧
    decode 0x6458600401000785 = .ok (.fcmpEq ⟨.pred 3, false⟩ 7 .f64 true (v 2) (v 4)) ∧
    decode 0x64D8600401000785 = .ok (.fcmpNe ⟨.pred 3, false⟩ 7 .f64 true (v 2) (v 4)) ∧
    decode 0x6558600401000785 = .ok (.fcmpLt ⟨.pred 3, false⟩ 7 .f64 true (v 2) (v 4)) ∧
    decode 0x65D8600401000785 = .ok (.fcmpLe ⟨.pred 3, false⟩ 7 .f64 true (v 2) (v 4)) ∧
    decode 0x6658600401000785 = .ok (.fcmpGt ⟨.pred 3, false⟩ 7 .f64 true (v 2) (v 4)) ∧
    decode 0x66D8600401000785 = .ok (.fcmpGe ⟨.pred 3, false⟩ 7 .f64 true (v 2) (v 4)) ∧
    decode 0x6758600401000785 = .ok (.fcmpUn ⟨.pred 3, false⟩ 7 .f64 true (v 2) (v 4)) ∧
    decode 0x67D8600401000785 = .ok (.fcmpOr ⟨.pred 3, false⟩ 7 .f64 true (v 2) (v 4)) ∧
    decode 0x6800600400000705 = .ok (.fclass ⟨.vreg 3, false⟩ 7 .f64 (v 2)) ∧
    decode 0x6880400800000735 = .ok (.frcp ⟨.vreg 2, false⟩ 7 .f64 ⟨.rtz, false, true⟩ (v 4)) ∧
    decode 0x6900400800000735 = .ok (.frsq ⟨.vreg 2, false⟩ 7 .f64 ⟨.rtz, false, true⟩ (v 4)) ∧
    decode 0x6980400800000735 = .ok (.fsqrt ⟨.vreg 2, false⟩ 7 .f64 ⟨.rtz, false, true⟩ (v 4)) ∧
    decode 0x6A80400800000735 = .ok (.fexp2 ⟨.vreg 2, false⟩ 7 .f64 ⟨.rtz, false, true⟩ (v 4)) ∧
    decode 0x6B00400800000735 = .ok (.flog2 ⟨.vreg 2, false⟩ 7 .f64 ⟨.rtz, false, true⟩ (v 4)) ∧
    decode 0x6B80400800000735 = .ok (.fsin ⟨.vreg 2, false⟩ 7 .f64 ⟨.rtz, false, true⟩ (v 4)) ∧
    decode 0x6C00400800000735 = .ok (.fcos ⟨.vreg 2, false⟩ 7 .f64 ⟨.rtz, false, true⟩ (v 4)) ∧
    decode 0x6C80400800C00745 = .ok (.fscale ⟨.vreg 2, false⟩ 7 .f64 ⟨.rup, false, false⟩ (v 4) (v 3)) ∧
    decode 0x6D004008000007C5 = .ok (.fround ⟨.vreg 2, false⟩ 7 .f64 .rup true (v 4)) ∧
    decode 0x6D82C02A00002707 = .ok (.fcvt ⟨.vreg 22, false⟩ 7 .bf16 ⟨.rne, false, false⟩ .f32 (v 21)) ∧
    decode 0x6E00402A00002723 = .ok (.fcvti ⟨.vreg 2, false⟩ 7 .z64 .rtz false .f32 (v 21)) ∧
    decode 0x6E80600400001714 = .ok (.ficvt ⟨.vreg 3, false⟩ 7 .f32 ⟨.rne, false, true⟩ .s64 (v 2)) ∧
    decode 0x6F00400601002F07 = .ok (.fdot2 ⟨.vreg 2, false⟩ 7 true ⟨.rne, false, false⟩ (v 3) (v 4) (v 5)) ∧
    decode 0x6F80400601002F09 = .ok (.fdot4 ⟨.vreg 2, false⟩ 7 .e5m2 ⟨.rne, false, false⟩ (v 3) (v 4) (v 5)) ∧
    decode 0x7000400000000000 = .ok (.flgrd ⟨.vreg 2, false⟩) ∧
    decode 0x70800B3E00000000 = .ok (.flgclr (.k 31)) ∧
    decode 0x7100000400000000 = .ok (.flgset (v 2)) := by
  refine ⟨?_, ?_, ?_, ?_, ?_, ?_, ?_, ?_, ?_, ?_, ?_, ?_, ?_, ?_, ?_, ?_, ?_, ?_, ?_, ?_, ?_, ?_, ?_, ?_, ?_, ?_, ?_, ?_, ?_, ?_, ?_, ?_, ?_, ?_, ?_⟩ <;> decide +kernel

/-- R139. -/
theorem test_decode_narrow :
    decode 0x900100080000070C = .ok (.bxenc 8 7 .bx4 false 4) ∧
    decode 0x908180100240070C = .ok (.bxdec 12 7 .bx4 (v 8) (v 9)) ∧
    decode 0x910024F800000704 = .ok (.bxmax ⟨.vreg 1, false⟩ 7 636) ∧
    decode 0x9180200400C0071E = .ok (.pk4 ⟨.vreg 1, false⟩ 7 true true (v 2) (v 3)) ∧
    decode 0x920020056040070C = .ok (.upk4 ⟨.vreg 1, false⟩ 7 false (v 2) (.k 1)) ∧
    decode 0x928020040000070B = .ok (.pk6 ⟨.vreg 1, false⟩ 7 (v 2)) ∧
    decode 0x930020040000070B = .ok (.upk6 ⟨.vreg 1, false⟩ 7 (v 2)) ∧
    decode 0x93802008000007D9 = .ok (.f8enc ⟨.vreg 1, false⟩ 7 .e5m2 ⟨.rup, true, true⟩ 4) ∧
    decode 0x9400800400000708 = .ok (.f8dec 4 7 .e4m3 (v 2)) ∧
    decode 0x9480200400EE6F27 = .ok (.scl ⟨.vreg 1, false⟩ 7 .bf16 ⟨.rtz, false, false⟩ (v 2) (v 3) (.k 77)) := by
  refine ⟨?_, ?_, ?_, ?_, ?_, ?_, ?_, ?_, ?_, ?_⟩ <;> decide +kernel

/-- R166. -/
theorem test_decode_matrix :
    decode 0xA0504E41B02C0006 = .ok (.mload ⟨.scope 2, false⟩ 0 (.sreg .d 0) (.k 0) (.f .f16) 0) ∧
    decode 0xA0583E7F9100387D = .ok (.mload ⟨.pred 1, true⟩ 31 (.sreg .b 4) (v 7) .s8 7) ∧
    decode 0xA0800E0E00000000 = .ok (.mfree true 7) ∧
    decode 0xA0800E5200000000 = .ok (.mfree false 9) ∧
    decode 0xA1000E01C8390800 = .ok (.mma 0 0 1 0 false none) ∧
    decode 0xA1000E0DCFC1409C = .ok (.mma 6 31 0 1 true (some (.b .bx4, 40))) ∧
    decode 0xA1800E0600000000 = .ok (.mzero 3) ∧
    decode 0xA2000E07B0AC2800 = .ok (.mstore 3 (.sreg .d 2) (.k 5)) ∧
    decode 0xA2800E4401400000 = .ok (.mscale (some 2) (v 5)) ∧
    decode 0xA280000001400001 = .ok (.mscale none (v 5)) ∧
    decode 0xA3022E0A00000000 = .ok (.mget 17 5) ∧
    decode 0xA3800E0A04400000 = .ok (.mput 5 17) ∧
    decode 0xA450200000000004 = .ok (.merr ⟨.scope 1, false⟩ 4) ∧
    decode 0xA480000000000000 = .ok (.mclr) := by
  refine ⟨?_, ?_, ?_, ?_, ?_, ?_, ?_, ?_, ?_, ?_, ?_, ?_, ?_, ?_⟩ <;> decide +kernel

/-- R196. -/
theorem test_decode_memory :
    decode 0xB0004D80004003A0 = .ok (.ld ⟨.vreg 2, false⟩ ⟨(.sreg .d 0), (v 1), 0, 7, .w, 0⟩ 0) ∧
    decode 0xB0509831602001BE = .ok (.ld ⟨.scope 4, true⟩ ⟨(.latch 3), (.k 0), 2048, 3, .d, 2⟩ 3) ∧
    decode 0xB0810009601FFFD4 = .ok (.st 8 ⟨(v 4), (.k 0), 2047, 7, .o, 0⟩ 1) ∧
    decode 0xB1006D8560000798 = .ok (.ldsys ⟨.vreg 3, false⟩ ⟨(.sreg .d 2), (.k 0), 1, 7, .h, 0⟩ 2) ∧
    decode 0xB1CFED8560000788 = .ok (.stsys 639 ⟨(.sreg .d 2), (.k 0), 1, 7, .b, 0⟩ 2) ∧
    decode 0xB2000D84004003C3 = .ok (.pf ⟨(.sreg .d 2), (v 1), 0, 7, .q, 3⟩) ∧
    decode 0xB2806D84004003A0 = .ok (.llock ⟨.vreg 3, false⟩ ⟨(.sreg .d 2), (v 1), 0, 7, .w, 0⟩) ∧
    decode 0xB3000D84004003A0 = .ok (.lunlock ⟨(.sreg .d 2), (v 1), 0, 7, .w, 0⟩) ∧
    decode 0xB380600000000001 = .ok (.lquota ⟨.vreg 3, false⟩ true) ∧
    decode 0xB4006D8000000001 = .ok (.biasDev ⟨.vreg 3, false⟩ (.sreg .d 0)) ∧
    decode 0xB4006D8000000000 = .ok (.biasHost ⟨.vreg 3, false⟩ (.sreg .d 0)) := by
  refine ⟨?_, ?_, ?_, ?_, ?_, ?_, ?_, ?_, ?_, ?_, ?_⟩ <;> decide +kernel

/-- R212. -/
theorem test_decode_banks :
    decode 0xD0508B0200C00000 = .ok (.battach ⟨.scope 4, false⟩ (.k 1) (some (v 3))) ∧
    decode 0xD0508B0200000001 = .ok (.battach ⟨.scope 4, false⟩ (.k 1) none) ∧
    decode 0xD0800B0200000000 = .ok (.bdetach (.k 1)) ∧
    decode 0xD1508B01606C1001 = .ok (.give ⟨.scope 4, false⟩ (.k 0) (.k 1) (.k 2) true) ∧
    decode 0xD1D0AB0400000000 = .ok (.bwait ⟨.scope 5, false⟩ (.k 2)) ∧
    decode 0xD250AB0400000000 = .ok (.bstat ⟨.scope 5, false⟩ (some (.k 2)) false) ∧
    decode 0xD250A00000000003 = .ok (.bstat ⟨.scope 5, false⟩ none true) ∧
    decode 0xD2800B1E00000000 = .ok (.bzero (.k 15)) ∧
    decode 0xD3000B0400000000 = .ok (.bmirror (some (.k 2))) ∧
    decode 0xD300000000000001 = .ok (.bmirror none) ∧
    decode 0xD3D0AB056FC00001 = .ok (.bshare ⟨.scope 5, false⟩ (.k 2) (.k 63) true) ∧
    decode 0xD3800B0400000002 = .ok (.bshareOff (.k 2)) := by
  refine ⟨?_, ?_, ?_, ?_, ?_, ?_, ?_, ?_, ?_, ?_, ?_, ?_⟩ <;> decide +kernel

/-- R241. -/
theorem test_decode_engines :
    decode 0xD8504C81B02D0004 = .ok (.cpy ⟨.scope 2, false⟩ (.sreg .b 0) (.sreg .d 0) (.k 32) (some 0) false) ∧
    decode 0xD88040080000000F = .ok (.cpyd ⟨.vreg 2, false⟩ (v 4) (some 3) true) ∧
    decode 0xD900400801804000 = .ok (.gat ⟨.vreg 2, false⟩ (v 4) (v 6) (v 8) none) ∧
    decode 0xD980400801804005 = .ok (.sct ⟨.vreg 2, false⟩ (v 4) (v 6) (v 8) (some 1)) ∧
    decode 0xDA00400800000008 = .ok (.coll ⟨.vreg 2, false⟩ (v 4) none true) ∧
    decode 0xDAD06C8400000000 = .ok (.ewait ⟨.scope 3, false⟩ (.sreg .b 2)) ∧
    decode 0xDB506C8400000000 = .ok (.epoll ⟨.scope 3, false⟩ (.sreg .b 2)) ∧
    decode 0xDBD06C8591400001 = .ok (.pub ⟨.scope 3, false⟩ (.sreg .b 2) (.sreg .b 5) true) ∧
    decode 0xDC000C8400000000 = .ok (.ecancel (some (.sreg .b 2))) ∧
    decode 0xDC00000000000001 = .ok (.ecancel none) := by
  refine ⟨?_, ?_, ?_, ?_, ?_, ?_, ?_, ?_, ?_, ?_⟩ <;> decide +kernel

/-- R255, R256, R270. -/
theorem test_decode_sync :
    decode 0xE0000D8001000005 = .ok (.aadd none true (.sreg .d 0) (v 4)) ∧
    decode 0xE1800D8001000005 = .ok (.aand none true (.sreg .d 0) (v 4)) ∧
    decode 0xE2000D8001000005 = .ok (.aor none true (.sreg .d 0) (v 4)) ∧
    decode 0xE2800D8001000005 = .ok (.axor none true (.sreg .d 0) (v 4)) ∧
    decode 0xE3000D8001000005 = .ok (.axchg none true (.sreg .d 0) (v 4)) ∧
    decode 0xE4000D8001000005 = .ok (.afadd none true (.sreg .d 0) (v 4)) ∧
    decode 0xE4800D8001000005 = .ok (.ainc none true (.sreg .d 0) (v 4)) ∧
    decode 0xE0804D8001000003 = .ok (.amin (some ⟨.vreg 2, false⟩) true true (.sreg .d 0) (v 4)) ∧
    decode 0xE1004D8001000003 = .ok (.amax (some ⟨.vreg 2, false⟩) true true (.sreg .d 0) (v 4)) ∧
    decode 0xE3806D8160001000 = .ok (.acas (some ⟨.vreg 3, false⟩) false (.sreg .d 0) (.k 0) (v 2)) ∧
    decode 0xE5582D8001000010 = .ok (.wcmpEq ⟨.pred 1, false⟩ true false (.sreg .d 0) (v 4)) ∧
    decode 0xE5582D8001000019 = .ok (.wcmpNe ⟨.pred 1, false⟩ true true (.sreg .d 0) (v 4)) ∧
    decode 0xE5582D8001000012 = .ok (.wcmpLt ⟨.pred 1, false⟩ true false (.sreg .d 0) (v 4)) ∧
    decode 0xE5582D800100001B = .ok (.wcmpLe ⟨.pred 1, false⟩ true true (.sreg .d 0) (v 4)) ∧
    decode 0xE5582D8001000014 = .ok (.wcmpGt ⟨.pred 1, false⟩ true false (.sreg .d 0) (v 4)) ∧
    decode 0xE5582D800100001D = .ok (.wcmpGe ⟨.pred 1, false⟩ true true (.sreg .d 0) (v 4)) ∧
    decode 0xE5582D8001000016 = .ok (.wcmpAny ⟨.pred 1, false⟩ true false (.sreg .d 0) (v 4)) ∧
    decode 0xE5806D8000000000 = .ok (.wcancel ⟨.vreg 3, false⟩ (.sreg .d 0)) ∧
    decode 0xE603CB0A00000000 = .ok (.bararr ⟨.vreg 30, false⟩ false 0 (.k 5)) ∧
    decode 0xE680003C0000001F = .ok (.barwait true 15 (v 30)) ∧
    decode 0xE7000B0A00000006 = .ok (.barsync false 3 (.k 5)) := by
  refine ⟨?_, ?_, ?_, ?_, ?_, ?_, ?_, ?_, ?_, ?_, ?_, ?_, ?_, ?_, ?_, ?_, ?_, ?_, ?_, ?_, ?_⟩ <;> decide +kernel

/-- R282, R54. -/
theorem test_decode_order :
    decode 0xF000000000000001 = .ok (.fence .gang .mir) ∧
    decode 0xF000000000000006 = .ok (.fence .package .eng) ∧
    decode 0xF00000000000000B = .ok (.fence .system .sysAcq) ∧
    decode 0xF00000000000000F = .ok (.fence .system .sysRel) ∧
    decode 0xF000000000000013 = .ok (.fence .system .sys) ∧
    decode 0xF000000000000016 = .ok (.fence .package .all) ∧
    decode 0xF080000000000000 = .ok (.swf) := by
  refine ⟨?_, ?_, ?_, ?_, ?_, ?_, ?_⟩ <;> decide +kernel

/-- R297, R300, R303. -/
theorem test_decode_code :
    decode 0xF450001166000001 = .ok (.cpub ⟨.scope 0, false⟩ (v 8) (.k 24) .gang) ∧
    decode 0xF495800000000000 = .ok (.callt .slice (.k 0)) ∧
    decode 0xF550201802000000 = .ok (.bind ⟨.scope 1, false⟩ (v 12) (v 8)) := by
  refine ⟨?_, ?_, ?_⟩ <;> decide +kernel

/-- R328. -/
theorem test_decode_launch :
    decode 0xF8504D8000000000 = .ok (.launch ⟨.scope 2, false⟩ (.sreg .d 0)) ∧
    decode 0xF8D04C8600000000 = .ok (.cntRd ⟨.scope 2, false⟩ (.sreg .b 3)) ∧
    decode 0xF8D040000000000D = .ok (.cntSelf ⟨.scope 2, false⟩ .job) ∧
    decode 0xF8D04C860000000A = .ok (.cntNew ⟨.scope 2, false⟩ .phase (.sreg .b 3)) ∧
    decode 0xF8D04C8600000003 = .ok (.cntClose ⟨.scope 2, false⟩ (.sreg .b 3)) ∧
    decode 0xF9506C8400000000 = .ok (.cwait ⟨.scope 3, false⟩ (.sreg .b 2)) ∧
    decode 0xF9D06C8400000000 = .ok (.cancel ⟨.scope 3, false⟩ (.sreg .b 2)) ∧
    decode 0xF9D06C8400000001 = .ok (.cancelDrain ⟨.scope 3, false⟩ (.sreg .b 2)) := by
  refine ⟨?_, ?_, ?_, ?_, ?_, ?_, ?_, ?_⟩ <;> decide +kernel

/-- R352. -/
theorem test_decode_system :
    decode 0xFC000000003FFFFF = .ok (.trap 0x3FFFFF) ∧
    decode 0xFC80000000000007 = .ok (.brk 7) ∧
    decode 0xFD50C00003000000 = .ok (.eret (.scope 6) (v 12)) ∧
    decode 0xFD50C00003000001 = .ok (.eretKill (.scope 6) (v 12)) ∧
    decode 0xFD81408000000000 = .ok (.mfcr (.vreg 10) 0x040) ∧
    decode 0xFE00004200C00000 = .ok (.mtcr 0x021 (v 3)) ∧
    decode 0xFED0C00190800000 = .ok (.csave (.scope 6) (.sreg .b 2)) ∧
    decode 0xFF50C00190800015 = .ok (.crest (.scope 6) (.sreg .b 2) 5 true) ∧
    decode 0xFFD0C00190800000 = .ok (.freeze (.scope 6) (.sreg .b 2)) ∧
    decode 0xFFD0C00190800001 = .ok (.thaw (.scope 6) (.sreg .b 2)) ∧
    decode 0xFFD0C00190800002 = .ok (.halt (.scope 6) (.sreg .b 2)) := by
  refine ⟨?_, ?_, ?_, ?_, ?_, ?_, ?_, ?_, ?_, ?_, ?_⟩ <;> decide +kernel

/-- Words that R47 to R56 refuse: an unassigned opcode, TYPE 15, a type that the entry does not list, a source pattern and a destination that name nothing,
a field that must be zero (SB, FS, RM, SAT, NWB of a store, FN), SCOPE 6, an odd pair, FN 3 of opcode 0x1FF, an unknown control register. -/
theorem test_decode_rejects : [0, 0x2F80_0000_0000_0000, 0x2000_2004_00C0_070F, 0x2480_2004_0000_0701, 0x2000_2AC0_00C0_0700, 0x2058_E004_00C0_0700,
    0x2500_2004_00C0_0700, 0x2000_2004_00C0_0780, 0x2000_2004_00C0_0720, 0x2180_2004_00C0_0710, 0xB080_5D80_0040_03A0, 0xE700_0B0A_0000_0020,
    0x00E0_00FF_FF80_0100, 0x2000_2004_0180_0703, 0xFFD0_CC84_0000_0003, 0xFD81_400C_0000_0000].all (fun w => (decode w).toOption.isNone) = true := by
  decide +kernel

/-! ## Ill-formed terms -/

/-- A term for each check of the numbers and kinds of operands (R44 to R51), refused by `wf`. -/
theorem test_illformed_operands : [Instr.mov ⟨.vreg 640, false⟩ 7 .s32 (v 0), .mov ⟨.vreg 1, false⟩ 7 .s64 (v 0), .mov ⟨.scope 64, false⟩ 7 .s32 (v 0),
    .mov ⟨.scope 1, false⟩ 7 .s64 (v 0), .mov ⟨.pred 0, false⟩ 7 .s32 (v 0), .cmpEq ⟨.pred 7, false⟩ 7 .s32 (v 0) (v 1), .mov (o 1) 8 .s32 (v 0),
    .mov (o 1) 7 .s32 (v 640), .mov (o 2) 7 .s64 (v 1), .mov (o 1) 7 .s32 (.latch 16), .mov (o 1) 7 .s32 (.vidx 8 0), .mov (o 1) 7 .s32 (.vidx 0 16),
    .mov (o 1) 7 .s32 (.pred 0), .mov (o 1) 7 .s32 (.k 128), .mov (o 1) 7 .s32 (.sreg .g 64), .mov (o 1) 7 .s32 (.sreg .b 64), .mov (o 1) 7 .s32 (.sreg .n 32),
    .mov (o 1) 7 .s32 (.sreg .d 32), .mov (o 2) 7 .s64 (.sreg .g 3), .mov (o 1) 7 .s32 (.tile 0), .mov (o 1) 7 .s32 (.handle 0),
    .bt .slice (.pred 8) 2 2].all (fun i => !i.wf) = true := by decide +kernel

theorem test_illformed_integer : [Instr.add (o 1) 7 .s64 false (v 0) (v 2), .mad (o 1) 7 .s32 false (v 0) (v 1) (.pred 1), .abs (o 1) 7 .z32 false (v 0),
    .shl (o 2) 7 .s64 false (v 1) (v 1), .bfi (o 2) 7 .s64 (v 0) (v 3) (v 1), .csel (o 1) 7 .s32 (v 0) (v 1) 8, .addc (o 1) 8 .s32 (v 0) (v 1) 0,
    .lea (o 1) 7 .s32 (v 0) (v 1) (v 2), .lea (o 2) 7 .s32 (v 1) (v 1) (v 2), .lea (o 2) 7 .s64 (v 0) (v 1) (v 2), .addImm (o 640) (v 0) 1,
    .addImm (o 1) (.tile 1) 1, .movi ⟨.pred 1, false⟩ 1, .leaImm (o 1) (v 0) 1, .leaImm (o 2) (v 1) 1, .ixset 8 true (v 0) (v 0) (v 0),
    .ixset 0 true (v 0) (v 1) (v 0), .ixset 0 false (.pred 0) (v 1) (v 0), .ixget (os 1) 0 0, .ixget (o 1) 8 0, .ixget (o 1) 0 3, .symq (o 1) (.k 0) 0,
    .symq (o 1) (v 0) 3, .symw true (v 1), .symw false (.sreg .b 0), .shf (o 1) 7 .s64 (v 0) (v 1), .bcast (o 1) 7 .s32 (v 0) (v 1), .scan (o 1) .add false false (.pred 0),
    .pand 7 7 0 1 false, .por 0 8 0 1 false, .pxor 0 7 8 1 false, .pand 0 7 0 8 false, .pnot 7 7 0 false, .vany ⟨.pred 7, false⟩ (v 0), .vsum (o 1) (.handle 0),
    .doneScope .gang, .yield .block, .loop .lane (v 0) 2 2, .lif false (.tile 0)].all (fun i => !i.wf) = true := by decide +kernel

theorem test_illformed_float : [Instr.fadd (o 1) 7 .f64 m0 (v 0) (v 2), .ffma (o 1) 7 .f32 m0 (v 0) (v 2) (.pred 0), .fmin (o 1) 8 .f32 false (v 0) (v 2),
    .fabs ⟨.pred 0, false⟩ 7 .f32 (v 0), .fcmpEq ⟨.pred 7, false⟩ 7 .f32 false (v 0) (v 2), .fcmpUn (o 1) 7 .f64 false (v 1) (v 2), .fclass (o 1) 7 .f64 (v 1),
    .fsqrt (o 2) 7 .f64 m0 (v 1), .fscale (o 2) 7 .f64 m0 (v 0) (.tile 0), .fround (o 1) 7 .f64 .rne false (v 0), .fcvt (o 1) 7 .f32 m0 .f64 (v 1),
    .fcvti (o 1) 7 .s64 .rne false .f32 (v 0), .ficvt (o 1) 7 .f32 m0 .s64 (v 1), .fdot2 (o 1) 7 true m0 (v 0) (v 1) (.pred 0), .fdot4 (o 1) 8 .e4m3 m0 (v 0) (v 1) (v 2),
    .flgrd (os 1), .flgclr (.pred 0), .flgset (.handle 0), .bxenc 1 7 .bx4 false 4, .bxenc 2 7 .bx4 false 5, .bxdec 2 7 .bx4 (v 0) (v 1), .bxmax (o 1) 7 6,
    .bxmax (os 1) 7 4, .pk4 (o 1) 7 false true (v 0) (v 1), .upk4 (o 1) 7 true (v 0) (.pred 0), .pk6 (os 0) 7 (v 0), .upk6 (o 1) 8 (v 0), .f8enc (o 1) 7 .e4m3 m0 2,
    .f8dec 2 7 .e4m3 (v 0), .scl (o 1) 7 .f64 m0 (v 0) (v 1) (v 2)].all (fun i => !i.wf) = true := by decide +kernel

theorem test_illformed_rest : [Instr.mload (o 1) 32 (v 0) (v 1) .s8 0, .mload (o 1) 0 (v 1) (v 1) .s8 0, .mload (o 1) 0 (v 0) (v 1) .s8 8, .mfree true 8, .mfree false 32,
    .mma 8 0 0 0 false none, .mma 1 0 0 0 true none, .mma 0 32 0 0 false none, .mma 0 0 32 0 false none, .mma 0 0 0 8 false none,
    .mma 0 0 0 0 false (some (.f .f16, 0)), .mma 0 0 1 0 false (some (.s8, 0)), .mma 0 0 0 0 false (some (.s8, 640)), .mzero 8, .mstore 0 (v 1) (v 0),
    .mscale (some 32) (v 0), .mget 640 0, .mput 8 0, .merr (o 1) 5, .ld (o 1) (mop (v 4) (v 6) .d) 0, .ld (o 1) (mop (v 5) (v 6) .w) 0, .ld (o 1) (mop (v 4) (v 6) .w) 4,
    .ld ⟨.vreg 4, true⟩ (mop (v 4) (v 6) .q) 0, .ld (os 4) (mop (v 4) (v 6) .q) 0, .ld ⟨.pred 1, false⟩ (mop (v 4) (v 6) .w) 0, .st 4 (mop (v 4) (v 6) .o) 0,
    .ldsys (o 4) (mop (v 4) (v 6) .q) 0, .stsys 640 (mop (v 4) (v 6) .w) 0, .llock ⟨.pred 1, false⟩ (mop (v 4) (v 6) .w), .lquota ⟨.pred 1, false⟩ true,
    .biasDev (o 1) (v 1), .battach (o 1) (.tile 0) none, .bstat (o 1) (some (v 0)) true, .bshare (o 1) (v 0) (.handle 1) true, .cpy ⟨.pred 1, false⟩ (v 0) (v 2) (v 4) none true,
    .cpy (o 1) (v 0) (v 3) (v 4) none true, .cpyd (o 1) (v 0) (some 4) true, .ewait (o 1) (.pred 0), .pub (o 1) (v 1) (v 2) true, .aadd (some (o 1)) true (v 0) (v 2),
    .acas none true (v 0) (v 2) (v 3), .amin (some ⟨.pred 1, false⟩) false false (v 0) (v 2), .wcmpEq (o 1) true false (v 0) (v 1), .wcancel (o 1) (v 1),
    .bararr (o 1) true 16 (v 0), .barwait true 16 (v 0), .fence .block .sys, .cpub (o 1) (v 0) (v 2) .system, .callt .lane (v 0), .bind (o 1) (v 0) (v 1),
    .launch ⟨.pred 1, false⟩ (v 0), .cntNew (o 1) .job (v 0), .cwait (o 1) (.tile 0), .mfcr (.vreg 1) 0x13, .mtcr 0x46 (v 0), .eret (.scope 4) (v 1),
    .crest (.scope 4) (v 1) 16 false, .freeze (.pred 0) (v 1), .symbolResolve 0 64, .bankDrainComplete 0 16, .blockRestore 64 0 0, .captureSystemLine 64 0,
    .groupPromotion 0 32, .gridSequencerTake 4 0, .jobdb 0 64 0 0, .faultRecordPost 64, .rangeRegisterStage 0 0 16 0, .contextTableWrite 64 0, .spdiv 4 0,
    .apertureRead 0 0 0 0, .apertureWrite 0 0 0 (List.replicate 65 0), .cxlMemRead 0 65, .linkFailure 24].all (fun i => !i.wf) = true := by decide +kernel

/-! ## One step, by the spec's worked values -/

/-- v1 of lane 5 (and, at 64 bits, v1 and v2) after one instruction of a slice clause. -/
def lane5 (i : Instr) : Option Nat :=
  let s := put .slice i
  match exec i s, (here s).execLanes s 7 with
  | .next t, ls => (ls[5]?).bind fun x => match readAll t (here s) x [(v 2, .w32)] with | .ok [Val.known n] => some n | _ => none
  | _, _ => none

theorem test_shl : lane5 (.shlImm (o 2) (.sv .lane) 2) = some 20 := by decide +kernel
/-- R99: division by zero. -/
theorem test_div_zero : lane5 (.div (o 2) 7 .s32 (.sv .lane) (.k 0)) = some 0xFFFFFFFF := by decide +kernel
theorem test_rem_zero : lane5 (.rem (o 2) 7 .s32 (.sv .lane) (.k 0)) = some 5 := by decide +kernel
/-- R98: a saturating unsigned subtraction stops at 0. -/
theorem test_sub_sat : lane5 (.sub (o 2) 7 .z32 true (.k 0) (.sv .lane)) = some 0 := by decide +kernel
theorem test_sub_wrap : lane5 (.subImm (o 2) (.sv .lane) 6) = some 0xFFFFFFFF := by decide +kernel
/-- R98: a shift by the width or more gives 0. -/
theorem test_shl_far : lane5 (.shl (o 2) 7 .s32 false (.sv .lane) (.k 32)) = some 0 := by decide +kernel
theorem test_sar_sign : lane5 (.sarImm (o 2) (.k 31) 1) = some 15 := by decide +kernel
/-- R100: a field that starts beyond the width is 0. -/
theorem test_bfx_far : lane5 (.bfx (o 2) 7 .s32 (.sv .lane) (.k 32)) = some 0 := by decide +kernel
/-- R109: `shfx` exchanges with the lane whose number differs in the bit. -/
theorem test_shfx : lane5 (.shfx (o 2) 7 .s32 (.sv .lane) (.k 1)) = some 4 := by decide +kernel
/-- R110: the exclusive sum of 0 to 4. -/
theorem test_scan : lane5 (.scan (o 2) .add true false (.sv .lane)) = some 10 := by decide +kernel
/-- R128: 5 as f32. -/
theorem test_ficvt : lane5 (.ficvt (o 2) 7 .f32 m0 .s32 (.sv .lane)) = some 0x40A00000 := by decide +kernel
/-- R121: 1 / 0 with DZ gives infinity (R122). -/
theorem test_frcp_zero : lane5 (.frcp (o 2) 7 .f32 m0 (.k 0)) = some 0x7F800000 := by decide +kernel
/-- R353: `trap` stops its block. -/
theorem test_trap : (match exec iTrap (put .slice iTrap) with | .next t => (blk t).stop.isSome | _ => false) = true := by decide +kernel

end Sys2Proof.Tests
end

/-! The depth limits of the loop, call and mask stacks (R59, R73): each control instruction that would push beyond
a full stack, or take from an empty one, has STACK as the result of its body, before it changes anything. -/

namespace Sys2Proof.Machine

/-! ## Operands of slice scope that every unit reads -/

/-- Operands that are all read stop nothing. -/
theorem allOk_map_ok {α β : Type} {l : List β} {f : β → Except Stop α} {g : β → α} (hf : ∀ x ∈ l, f x = .ok (g x)) :
    allOk (l.map f) = .ok (l.map g) := by
  have hmap : l.map f = (l.map g).map .ok := by
    rw [List.map_map]
    exact List.map_congr_left hf
  have hstop : ∀ stop? : Except Stop α → Option Stop, (∀ a, stop? (.ok a) = none) →
      ((l.map g).map Except.ok).findSome? stop? = none := by
    intro stop? hnone
    rw [List.findSome?_eq_none_iff]
    intro r hr
    obtain ⟨a, _, rfl⟩ := List.mem_map.1 hr
    exact hnone a
  unfold allOk
  dsimp only
  rw [hmap, hstop _ fun _ => rfl, hstop _ fun _ => rfl, List.filterMap_map]
  exact congrArg Except.ok List.filterMap_some

/-- A condition, count or displacement that every unit reads as one known value (R64, R68). -/
theorem condOf_known {s : State} {h : Here} {c : Src} {N : UnitRef → Nat} (hr : ReadsOne s h c N) :
    condOf h s c = .ok (h.units.map fun u => (u, N u)) := by
  obtain ⟨hbounds, hread⟩ := hr
  have hvals : allOk (h.units.map fun u =>
      (if h.isSlice then s.readSlice h u .w32 c else s.readUpper h .w32 c).map fun v => (u, v)) =
      .ok (h.units.map fun u => (u, Val.known (N u))) :=
    allOk_map_ok fun u hu => by rw [hread u hu]; rfl
  have hlate : (h.units.map fun u => (u, Val.known (N u))).flatMap (fun v => v.2.syms) = [] := by
    simp [List.flatMap_map, Val.syms]
  unfold condOf
  simp only [hvals, hbounds, hlate, bind, Except.bind, if_true, ne_eq, not_true_eq_false, if_false, List.map_map]
  rfl

/-! ## Loops (R78) -/

theorem loopBody_full {c : Src} {top : BitVec 20} {stop : BitVec 16} {s : State} {h : Here} {N : UnitRef → Nat} {v : UnitRef}
    {q : Seq} (hw : slicesWhole h s = .ok ()) (hr : ReadsOne s h c N) (hv : v ∈ h.units) (hq : s.seq? v = some q)
    (hn : N v ≠ 0) (hf : Config.loopDepth ≤ q.loops.length) : loopBody c top stop h s = .error (trapC .stack) := by
  have hfull : ((h.units.map fun u => (u, N u)).any fun x =>
      x.2 != 0 && decide (Config.loopDepth ≤ ((s.seq? x.1).map (·.loops.length)).getD 0)) = true :=
    List.any_eq_true.2 ⟨(v, N v), List.mem_map_of_mem hv, by simp [hn, hq, hf]⟩
  unfold loopBody
  simp only [hw, condOf_known hr, hfull, bind, Except.bind, if_true]

/-! ## Calls (R79) -/

theorem pushCalls_full {h : Here} {s : State} {dest : UnitRef → Nat} {v : UnitRef} {q : Seq} (hv : v ∈ h.units)
    (hq : s.seq? v = some q) (hf : Config.callDepth ≤ q.calls.length) :
    pushCalls h (h.units.map fun u => (u, dest u)) s = .error (trapC .stack) := by
  have hfull : ((h.units.map fun u => (u, dest u)).any fun x =>
      decide (Config.callDepth ≤ ((s.seq? x.1).map (·.calls.length)).getD 0)) = true :=
    List.any_eq_true.2 ⟨(v, dest v), List.mem_map_of_mem hv, by simp [hq, hf]⟩
  unfold pushCalls
  simp only [hfull, if_true]

/-- With whole slices, `call` is its push. -/
theorem callBody_whole {t : BitVec 20} {h : Here} {s : State} (hw : slicesWhole h s = .ok ()) :
    callBody t h s = pushCalls h (h.units.map fun u => (u, h.target t)) s := by
  unfold callBody
  simp only [hw, bind, Except.bind]

/-- With whole slices and displacements that lead to clauses, `callr` is its push. -/
theorem callrBody_aligned {d : Src} {h : Here} {s : State} {N : UnitRef → Nat} (hw : slicesWhole h s = .ok ())
    (hr : ReadsOne s h d N) (ha : ∀ u ∈ h.units, wrapInt 64 (h.c.addr + signedOf 32 (N u)) % 8 = 0) :
    callrBody d h s = pushCalls h (h.units.map fun u => (u, pcWrap (h.c.addr + signedOf 32 (N u)))) s := by
  have hfind : (h.units.map fun u => (u, N u)).find? (fun x => wrapInt 64 (h.c.addr + signedOf 32 x.2) % 8 != 0) = none := by
    rw [List.find?_eq_none]
    intro x hx
    obtain ⟨u, hu, rfl⟩ := List.mem_map.1 hx
    simp [ha u hu]
  unfold callrBody
  simp only [hw, condOf_known hr, hfind, bind, Except.bind, List.map_map]
  rfl

theorem retBody_empty {h : Here} {s : State} {v : UnitRef} {q : Seq} (hw : slicesWhole h s = .ok ()) (hv : v ∈ h.units)
    (hq : s.seq? v = some q) (he : q.calls = []) : retBody h s = .error (trapC .stack) := by
  have hnone : ((h.units.map fun u => (u, (s.seq? u).bind fun q => q.calls.head?)).any fun x => x.2.isNone) = true :=
    List.any_eq_true.2 ⟨(v, (s.seq? v).bind fun q => q.calls.head?), List.mem_map_of_mem hv, by simp [hq, he]⟩
  unfold retBody
  simp only [hw, hnone, bind, Except.bind, if_true]

/-! ## Calls through the link table (R300) -/

/-- A link-table entry that can be read now: where it stands, and nothing at it to wait for. -/
structure ReadsEntry (h : Here) (s : State) (i e ia key : Nat) (r : BitVec 128) : Prop where
  table : h.desc.ltp ≠ 0
  addr : e = (h.desc.ltp + 8 * i) % 2 ^ 64
  aligned : e % 8 = 0
  region : regionOf e = .global
  stage1 : s.stage1 h.ctx e = some (r, ia)
  right : rightR r = true
  route : s.route ia false = .pkg key
  head : s.atHead h.u = true
  heldIa : s.heldIa ia = false
  heldPage : s.heldPage key = false
  holed : s.holed key 8 = false
  good : s.env.dataErr = false

/-- `callt` with an index and an entry it can read takes its atomic step at the entry. -/
theorem calltBody_step {index : Src} {h : Here} {s : State} {i e ia key : Nat} {r : BitVec 128}
    (hp : ∀ e, h.q.park ≠ .callt e false) (hi : calltIndex h s index = .ok i) (hm : memBars h s true false = .ok ())
    (hx : ReadsEntry h s i e ia key r) : calltBody index h s = calltStep h e ia key r s := by
  obtain ⟨htable, haddr, haligned, hregion, hstage1, hright, hroute, hhead, hia, hpage, hholed, hgood⟩ := hx
  unfold calltBody
  split
  · rename_i a hpark
    exact absurd hpark (hp a)
  · simp only [hi, hm, bind, Except.bind, ← haddr, htable, haligned, hregion, hstage1, hroute, hright, hhead, hia, hpage, hholed,
      hgood, if_false, ne_eq, not_true_eq_false, Bool.not_true, Bool.or_false, Bool.false_eq_true]

/-- At a bound entry, the atomic step is the push of its target. -/
theorem calltStep_bound {h : Here} {e ia key : Nat} {r : BitVec 128} {s : State} (hl : linkBad (s.readNat key 8) = false)
    (hb : s.readNat key 8 / 2 ^ 62 = 2) :
    calltStep h e ia key r s = pushCalls h (h.units.map fun u => (u, bitsOf (s.readNat key 8) 0 57)) s := by
  have hstate : bitsOf (s.readNat key 8) 62 2 = 2 := congrArg (· % 2 ^ 2) hb
  unfold calltStep
  simp only [hl, hstate, Bool.false_eq_true, if_false]

/-! ## Lane masks (R81) -/

theorem lifBody_full {neg : Bool} {c : Src} {h : Here} {s : State} {vs : LaneId → List Val} {v : UnitRef} {q : Seq}
    (hb : h.boundsOk (srcRegs [(c, .w32)]) = true) (hr : ∀ x ∈ h.lanes s, readAll s h x [(c, .w32)] = .ok (vs x))
    (hv : v ∈ h.units) (hq : s.seq? v = some q) (hf : Config.maskDepth ≤ q.mstack.length) :
    lifBody neg c h s = .error (trapC .stack) := by
  have hfull : (h.units.any fun u => decide (Config.maskDepth ≤ ((s.seq? u).map (·.mstack.length)).getD 0)) = true :=
    List.any_eq_true.2 ⟨v, hv, by simp [hq, hf]⟩
  unfold lifBody
  simp only [hb, readLanes_ok hr, hfull, bind, Except.bind, if_true]

theorem needMask_empty {h : Here} {s : State} {f : BitVec 4 → List (BitVec 4) → Seq → Seq} {v : UnitRef} {q : Seq}
    (hv : v ∈ h.units) (hq : s.seq? v = some q) (he : q.mstack = []) : needMask h s f = .error (trapC .stack) := by
  have hempty : (h.units.any fun u => ((s.seq? u).map (·.mstack.isEmpty)).getD true) = true :=
    List.any_eq_true.2 ⟨v, hv, by simp [hq, he]⟩
  unfold needMask
  simp only [hempty, if_true]

/-! ## The statement -/

/-- `call` and `callr` onto a full call stack. -/
theorem takesFault_call_full {i : Instr} {s : State} {h : Here} {dest : UnitRef → Nat} {v : UnitRef} {q : Seq}
    (hh : s.here? = some h) (hw : slicesWhole h s = .ok ()) (hc : CallsTo i s h dest) (hv : v ∈ h.units)
    (hq : s.seq? v = some q) (hf : Config.callDepth ≤ q.calls.length) :
    TakesFault i s h { cause := .stack, addr := 0, info := 0, lanes := 0, after := false } := by
  cases i
  case call sc t => exact runInstr_trap hh ((callBody_whole hw).trans (pushCalls_full hv hq hf))
  case callr sc d =>
    obtain ⟨N, hr, hdest⟩ := hc
    exact runInstr_trap hh ((callrBody_aligned hw hr fun u hu => (hdest u hu).1).trans (pushCalls_full hv hq hf))
  all_goals exact hc.elim

/-- Settles O11: in each clause the body of the instruction is the STACK trap (`loopBody_full`, `pushCalls_full`, `retBody_empty`,
`lifBody_full`, `needMask_empty`), which `runInstr` takes at the instruction. -/
theorem stackFaults : Obligations.StackFaults := by
  unfold Obligations.StackFaults
  refine ⟨?loop, ?call, ?callt, ?ret, ?lif, ?lelse⟩
  case loop =>
    intro sc c top stop s h N v q hh hw hr hv hq hn hf
    exact runInstr_trap hh (loopBody_full hw hr hv hq hn hf)
  case call =>
    intro i s h dest v q hh hw hc hv hq hf
    exact takesFault_call_full hh hw hc hv hq hf
  case callt =>
    intro sc index s h i e ia key r v q hh hp hi hm htable haddr haligned hregion hstage1 hright hroute hhead hia hpage hholed
      hgood hl hb hv hq hf
    have hentry : ReadsEntry h s i e ia key r :=
      ⟨htable, haddr, haligned, hregion, hstage1, hright, hroute, hhead, hia, hpage, hholed, hgood⟩
    exact runInstr_trap hh <| calc calltBody index h s
      _ = calltStep h e ia key r s := calltBody_step hp hi hm hentry
      _ = pushCalls h (h.units.map fun u => (u, bitsOf (s.readNat key 8) 0 57)) s := calltStep_bound hl hb
      _ = .error (trapC .stack) := pushCalls_full hv hq hf
  case ret =>
    intro sc s h v q hh hw hv hq he
    exact runInstr_trap hh (retBody_empty hw hv hq he)
  case lif =>
    intro neg c s h A v q hh hb hr hv hq hf
    exact runInstr_trap hh (lifBody_full hb hr hv hq hf)
  case lelse =>
    intro els s h v q hh hv hq he
    cases els <;> exact runInstr_trap hh (needMask_empty hv hq he)

end Sys2Proof.Machine

/-! Stage 1 of translation (R360): the search through a context's sixteen range registers is the search for the first
that covers the address, and a covered address stays below the 2^46 bytes of the context's region. -/

namespace Sys2Proof.Machine

/-! ## One range register -/

theorem bits128_eq_extractLsb' (v : BitVec 128) (lo len : Nat) : bits128 v lo len = (v.extractLsb' lo len).toNat := by
  rw [BitVec.extractLsb'_toNat, Nat.shiftRight_eq_div_pow]
  rfl

/-- R177: the global region lies below every window. -/
theorem regionOf_eq_global_iff {a : Nat} : regionOf a = .global ↔ a < dieBase := by
  unfold regionOf
  split
  case isTrue hlow => exact iff_of_true rfl hlow
  case isFalse hlow =>
    refine iff_of_false ?_ hlow
    repeat' split
    all_goals simp

theorem rangeCovers_iff {r : BitVec 128} {a : Nat} :
    rangeCovers r a = true ↔ r.getLsbD 63 = true ∧ bits128 r 96 30 + bits128 r 64 30 < 2 ^ 30 ∧
      bits128 r 0 41 * 2 ^ 16 ≤ a ∧ a < (bits128 r 0 41 + bits128 r 64 30 + 1) * 2 ^ 16 ∧ regionOf a = .global := by
  rw [regionOf_eq_global_iff]
  simp [rangeCovers, dieBase, and_assoc]

/-- The intermediate address that register `r` of context `c` gives address `a`. -/
def rangeAddr (c : Nat) (r : BitVec 128) (a : Nat) : Nat :=
  c * 2 ^ 46 + bits128 r 96 30 * 2 ^ 16 + (a - bits128 r 0 41 * 2 ^ 16)

/-- `IAOFF + SIZEM1 < 2^30` keeps the offset of a covered address below `2^30` pages of `2^16` bytes. -/
theorem rangeAddr_div_region {c a : Nat} {r : BitVec 128} (hr : rangeCovers r a = true) : rangeAddr c r a / 2 ^ 46 = c := by
  obtain ⟨-, hsize, hbase, htop, -⟩ := rangeCovers_iff.1 hr
  have hoff : bits128 r 96 30 * 2 ^ 16 + (a - bits128 r 0 41 * 2 ^ 16) < 2 ^ 46 := by omega
  rw [rangeAddr, Nat.add_assoc, Nat.mul_comm, Nat.mul_add_div (by decide), Nat.div_eq_of_lt hoff, Nat.add_zero]

/-! ## The sixteen registers of a context -/

/-- Range register `i` of context `c`. -/
def State.rangeReg (s : State) (c i : Nat) : BitVec 128 := lookupD 0 i (s.ctx c).ranges

theorem State.stage1_eq_map_find? (s : State) (c a : Nat) :
    s.stage1 c a = ((List.range 16).find? fun i => rangeCovers (s.rangeReg c i) a).map fun i =>
      (s.rangeReg c i, rangeAddr c (s.rangeReg c i) a) := by
  rw [List.find?_eq_findSome?_guard, List.map_findSome?, State.stage1]
  refine congrArg (List.findSome? · (List.range 16)) (funext fun i => ?_)
  simp only [Function.comp, Option.guard, apply_ite (Option.map _), Option.map_some, Option.map_none]
  rfl

theorem State.stage1_eq_some_iff {s : State} {c a : Nat} {r : BitVec 128} {ia : Nat} :
    s.stage1 c a = some (r, ia) ↔ ∃ i < 16, r = s.rangeReg c i ∧ rangeCovers r a = true ∧
      (∀ j < i, ¬rangeCovers (s.rangeReg c j) a = true) ∧ ia = rangeAddr c r a := by
  simp only [State.stage1_eq_map_find?, Option.map_eq_some_iff, List.find?_range_eq_some, List.mem_range, Prod.mk.injEq,
    Bool.not_eq_true', Bool.not_eq_true]
  constructor
  · rintro ⟨i, ⟨hcov, hi, hmin⟩, rfl, rfl⟩
    exact ⟨i, hi, rfl, hcov, hmin, rfl⟩
  · rintro ⟨i, hi, rfl, hcov, hmin, rfl⟩
    exact ⟨i, ⟨hcov, hi, hmin⟩, rfl, rfl⟩

theorem State.stage1_div_region {s : State} {c a : Nat} {r : BitVec 128} {ia : Nat} (h : s.stage1 c a = some (r, ia)) :
    ia / 2 ^ 46 = c := by
  obtain ⟨_, _, _, hcov, _, rfl⟩ := State.stage1_eq_some_iff.1 h
  exact rangeAddr_div_region hcov

/-- Settles O60: the search finds the lowest covering register (`stage1_eq_some_iff`), with R360's conditions
(`rangeCovers_iff`), and its address lies in the region of the context (`stage1_div_region`). -/
theorem rangesCover : Obligations.RangesCover := by
  unfold Obligations.RangesCover
  intro iaoff sizem1 vbase covers c a s reg
  have hcovers : ∀ r : BitVec 128, covers r a ↔ rangeCovers r a = true := fun r => by
    rw [rangeCovers_iff, bits128_eq_extractLsb', bits128_eq_extractLsb', bits128_eq_extractLsb']
  have haddr : ∀ r : BitVec 128, c * 2 ^ 46 + iaoff r * 2 ^ 16 + (a - vbase r * 2 ^ 16) = rangeAddr c r a := fun r => by
    rw [rangeAddr, bits128_eq_extractLsb', bits128_eq_extractLsb']
  refine ⟨fun r ia => ?lowest, fun r ia h => State.stage1_div_region h⟩
  case lowest =>
    simp only [hcovers, haddr]
    exact State.stage1_eq_some_iff

end Sys2Proof.Machine
